-- ==== Sys2Proof/Word.lean ====
section
/-! DEFINITION. The word types of OSW-MAC (spec/00_scope.md R12: u8, u16, u32, u64, bit 0 least
significant) and the one arithmetic constant of the tick counter. -/

namespace Sys2Proof

/-- u8 (R12). -/
abbrev Byte := BitVec 8

/-- u16 (R12). -/
abbrev Half := BitVec 16

/-- u32 (R12): a numbered register, a tick value, an alarm argument. -/
abbrev Word := BitVec 32

/-- u64 (R12): a command word, a response word, a long address. -/
abbrev DWord := BitVec 64

end Sys2Proof
end

