-- ==== Sys2Proof/Syntax.lean ====
section
/-! DEFINITION. The commands of OSW-MAC (spec/30_encoding.md R82): one constructor of `Instr` per row of
spec/opcode_table.json, in the table's order, and the operand types of R83 and R254. -/

namespace Sys2Proof

/-- Which of a descriptor's four addresses (R30, R83). -/
inductive AddrField where
  | originalSrc
  | originalDst
  | immedSrc
  | immedDst
deriving DecidableEq, Repr

/-- An address selector 0 to 7 (R83): 0 to 3 name an address of TXINFO, 4 to 7 one of PINFO. -/
inductive AddrSel where
  | txinfo (f : AddrField)
  | pinfo (f : AddrField)
deriving DecidableEq, Repr

/-- The buffer selector of RDBUF (R254): 0 TXDATA, 1 HDRBUF. -/
inductive Buffer where
  | txdata
  | hdrbuf
deriving DecidableEq, Repr

/-- A command (R16, R80), one constructor per row of the opcode map R82. -/
inductive Instr where
  /-- NOP (R250) -/
  | nop
  /-- RDREG 0, reg (R251) -/
  | rdreg (reg : Half)
  /-- WRREG 0, reg, value (R252) -/
  | wrreg (reg : Half) (value : Word)
  /-- WRBUF 0, offset, byte (R253) -/
  | wrbuf (offset : Half) (byte : Byte)
  /-- RDBUF buf, offset (R254) -/
  | rdbuf (buf : Buffer) (offset : Half)
  /-- ALARM_INIT alarm, cb, arg (R116) -/
  | alarmInit (alarm : Byte) (cb : Half) (arg : Word)
  /-- ALARM_SCHED alarm, 0, delay (R117) -/
  | alarmSched (alarm : Byte) (delayMs : Word)
  /-- ALARM_CANCEL alarm (R118) -/
  | alarmCancel (alarm : Byte)
  /-- ALARM_PROCESS (R119) -/
  | alarmProcess
  /-- ALARM_PEEK (R126) -/
  | alarmPeek
  /-- ALARM_HASPENDING (R127) -/
  | alarmHasPending
  /-- ALARM_HASREADY 0, 0, now (R128) -/
  | alarmHasReady (now : Word)
  /-- CB_RETURN (R122) -/
  | cbReturn
  /-- ADDR_MAKE sel, value (R145) -/
  | addrMake (sel : AddrField) (value : Half)
  /-- ADDR_CLASS sel (R146) -/
  | addrClass (sel : AddrSel)
  /-- ADDR_EQ sel1, sel2 (R147) -/
  | addrEq (sel1 sel2 : AddrSel)
  /-- HDR_BUILD (R166) -/
  | hdrBuild
  /-- HDR_PARSE 0, 0, len (R170) -/
  | hdrParse (len : Half)
  /-- MAC_INIT (R181) -/
  | macInit
  /-- MAC_SEND {ackReq, dstStaged}, dst, len (R184) -/
  | macSend (dstStaged ackReq : Bool) (dst len : Half)
  /-- MAC_SEND_EX 0, 0, len (R185) -/
  | macSendEx (len : Half)
  /-- MAC_POLL (R206) -/
  | macPoll
  /-- MAC_ISKNOWN sel (R207) -/
  | macIsKnown (sel : AddrSel)
  /-- MAC_CANCEL slot (R204) -/
  | macCancel (slot : Byte)
deriving DecidableEq, Repr

end Sys2Proof
end

