-- ==== Sys2Proof/Decode.lean ====
section
/-! DEFINITION. The command word (spec/30_encoding.md R80 to R86): the opcode numbers, the decoder, total on
every 64-bit word and rejecting by name, and after it the encoder. -/

namespace Sys2Proof

/-! ### Opcode numbers (R82) -/

def Op.nop : Byte := 0x00
def Op.rdreg : Byte := 0x01
def Op.wrreg : Byte := 0x02
def Op.wrbuf : Byte := 0x03
def Op.rdbuf : Byte := 0x04
def Op.alarmInit : Byte := 0x10
def Op.alarmSched : Byte := 0x11
def Op.alarmCancel : Byte := 0x12
def Op.alarmProcess : Byte := 0x13
def Op.alarmPeek : Byte := 0x14
def Op.alarmHasPending : Byte := 0x15
def Op.alarmHasReady : Byte := 0x16
def Op.cbReturn : Byte := 0x17
def Op.addrMake : Byte := 0x20
def Op.addrClass : Byte := 0x21
def Op.addrEq : Byte := 0x22
def Op.hdrBuild : Byte := 0x30
def Op.hdrParse : Byte := 0x31
def Op.macInit : Byte := 0x40
def Op.macSend : Byte := 0x41
def Op.macSendEx : Byte := 0x42
def Op.macPoll : Byte := 0x43
def Op.macIsKnown : Byte := 0x44
def Op.macCancel : Byte := 0x45

/-! ### The four fields of CMD64 (R80) -/

/-- OP, A, B and W of a command word (R80). -/
structure CmdFields where
  op : Byte
  a : Byte
  b : Half
  w : Word
deriving DecidableEq, Repr

/-- `OP = c[7:0]`, `A = c[15:8]`, `B = c[31:16]`, `W = c[63:32]` (R80). -/
def splitWord (c : DWord) : CmdFields where
  op := c.extractLsb' 0 8
  a := c.extractLsb' 8 8
  b := c.extractLsb' 16 16
  w := c.extractLsb' 32 32

/-- `c = W x 2^32 + B x 2^16 + A x 2^8 + OP` (R80). -/
def joinWord (f : CmdFields) : DWord := f.w ++ f.b ++ f.a ++ f.op

/-! ### Address selectors (R83) -/

/-- Selectors 0 to 3 (R83, R145). -/
def addrFieldOf (n : BitVec 2) : AddrField :=
  if n = 0 then .originalSrc else if n = 1 then .originalDst else if n = 2 then .immedSrc else .immedDst

/-- The number of an address of a descriptor (R83). -/
def addrFieldCode : AddrField → BitVec 2
  | .originalSrc => 0
  | .originalDst => 1
  | .immedSrc => 2
  | .immedDst => 3

/-- Selectors 0 to 7 (R83): bit 2 chooses PINFO. -/
def addrSelOf (n : BitVec 3) : AddrSel :=
  if n.getLsbD 2 then .pinfo (addrFieldOf (n.extractLsb' 0 2)) else .txinfo (addrFieldOf (n.extractLsb' 0 2))

/-- The number of an address selector (R83). -/
def addrSelCode : AddrSel → BitVec 3
  | .txinfo f => 0#1 ++ addrFieldCode f
  | .pinfo f => 1#1 ++ addrFieldCode f

/-- RDBUF's buffer selector (R254). -/
def bufferOf (n : BitVec 1) : Buffer := if n = 0 then .txdata else .hdrbuf

/-- The number of a buffer (R254). -/
def bufferCode : Buffer → BitVec 1
  | .txdata => 0
  | .hdrbuf => 1

/-! ### Decoding (R81) -/

/-- What decoding answers (R81): a command, or why there is none. `illegalOpcode` is answered ILLEGAL_CMD
(R81 (1), R86), `reservedField` is answered BAD_ARG (R81 (2), R86); both are safe, the block says so itself. -/
inductive Decoded where
  | ok (i : Instr)
  | illegalOpcode
  | reservedField
deriving DecidableEq, Repr

/-- `i` if the fields that R82 marks "0" are zero, else the rejection of R81 (2). -/
def ifZero (zero : Bool) (i : Instr) : Decoded := if zero then .ok i else .reservedField

/-- R81 and R82 on the four fields of a word. -/
def decodeFields (f : CmdFields) : Decoded :=
  if f.op = Op.nop then ifZero (f.a == 0 && f.b == 0 && f.w == 0) .nop
  else if f.op = Op.rdreg then ifZero (f.a == 0 && f.w == 0) (.rdreg f.b)
  else if f.op = Op.wrreg then ifZero (f.a == 0) (.wrreg f.b f.w)
  else if f.op = Op.wrbuf then
    ifZero (f.a == 0 && f.w.extractLsb' 8 24 == 0) (.wrbuf f.b (f.w.extractLsb' 0 8))
  else if f.op = Op.rdbuf then
    ifZero (f.a.extractLsb' 1 7 == 0 && f.w == 0) (.rdbuf (bufferOf (f.a.extractLsb' 0 1)) f.b)
  else if f.op = Op.alarmInit then .ok (.alarmInit f.a f.b f.w)
  else if f.op = Op.alarmSched then ifZero (f.b == 0) (.alarmSched f.a f.w)
  else if f.op = Op.alarmCancel then ifZero (f.b == 0 && f.w == 0) (.alarmCancel f.a)
  else if f.op = Op.alarmProcess then ifZero (f.a == 0 && f.b == 0 && f.w == 0) .alarmProcess
  else if f.op = Op.alarmPeek then ifZero (f.a == 0 && f.b == 0 && f.w == 0) .alarmPeek
  else if f.op = Op.alarmHasPending then ifZero (f.a == 0 && f.b == 0 && f.w == 0) .alarmHasPending
  else if f.op = Op.alarmHasReady then ifZero (f.a == 0 && f.b == 0) (.alarmHasReady f.w)
  else if f.op = Op.cbReturn then ifZero (f.a == 0 && f.b == 0 && f.w == 0) .cbReturn
  else if f.op = Op.addrMake then
    ifZero (f.a.extractLsb' 2 6 == 0 && f.w == 0) (.addrMake (addrFieldOf (f.a.extractLsb' 0 2)) f.b)
  else if f.op = Op.addrClass then
    ifZero (f.a.extractLsb' 3 5 == 0 && f.b == 0 && f.w == 0) (.addrClass (addrSelOf (f.a.extractLsb' 0 3)))
  else if f.op = Op.addrEq then
    ifZero (f.a.extractLsb' 3 5 == 0 && f.b.extractLsb' 3 13 == 0 && f.w == 0)
      (.addrEq (addrSelOf (f.a.extractLsb' 0 3)) (addrSelOf (f.b.extractLsb' 0 3)))
  else if f.op = Op.hdrBuild then ifZero (f.a == 0 && f.b == 0 && f.w == 0) .hdrBuild
  else if f.op = Op.hdrParse then
    ifZero (f.a == 0 && f.b == 0 && f.w.extractLsb' 16 16 == 0) (.hdrParse (f.w.extractLsb' 0 16))
  else if f.op = Op.macInit then ifZero (f.a == 0 && f.b == 0 && f.w == 0) .macInit
  else if f.op = Op.macSend then
    ifZero (f.a.extractLsb' 2 6 == 0 && f.w.extractLsb' 16 16 == 0)
      (.macSend (f.a.getLsbD 0) (f.a.getLsbD 1) f.b (f.w.extractLsb' 0 16))
  else if f.op = Op.macSendEx then
    ifZero (f.a == 0 && f.b == 0 && f.w.extractLsb' 16 16 == 0) (.macSendEx (f.w.extractLsb' 0 16))
  else if f.op = Op.macPoll then ifZero (f.a == 0 && f.b == 0 && f.w == 0) .macPoll
  else if f.op = Op.macIsKnown then
    ifZero (f.a.extractLsb' 3 5 == 0 && f.b == 0 && f.w == 0) (.macIsKnown (addrSelOf (f.a.extractLsb' 0 3)))
  else if f.op = Op.macCancel then ifZero (f.b == 0 && f.w == 0) (.macCancel f.a)
  else .illegalOpcode

/-- The decoder: every 64-bit word is a command or is rejected by name (R81, R86). -/
def decode (c : DWord) : Decoded := decodeFields (splitWord c)

/-- The decoder on a word given as the opcode table numbers its bits. A command is one 64-bit word handed over
whole at the command port (R60, R80): there is no byte layout, and bits above `nbits` are 0. -/
def decodeTableWord (nbits w : Nat) : Option Instr :=
  match decode (BitVec.ofNat 64 (w % 2 ^ nbits)) with
  | .ok i => some i
  | .illegalOpcode => none
  | .reservedField => none

/-! ### Encoding (R80, R82) -/

/-- The four fields of a command's word (R82). -/
def encodeFields : Instr → CmdFields
  | .nop => ⟨Op.nop, 0, 0, 0⟩
  | .rdreg reg => ⟨Op.rdreg, 0, reg, 0⟩
  | .wrreg reg value => ⟨Op.wrreg, 0, reg, value⟩
  | .wrbuf offset byte => ⟨Op.wrbuf, 0, offset, 0#24 ++ byte⟩
  | .rdbuf buf offset => ⟨Op.rdbuf, 0#7 ++ bufferCode buf, offset, 0⟩
  | .alarmInit alarm cb arg => ⟨Op.alarmInit, alarm, cb, arg⟩
  | .alarmSched alarm delayMs => ⟨Op.alarmSched, alarm, 0, delayMs⟩
  | .alarmCancel alarm => ⟨Op.alarmCancel, alarm, 0, 0⟩
  | .alarmProcess => ⟨Op.alarmProcess, 0, 0, 0⟩
  | .alarmPeek => ⟨Op.alarmPeek, 0, 0, 0⟩
  | .alarmHasPending => ⟨Op.alarmHasPending, 0, 0, 0⟩
  | .alarmHasReady now => ⟨Op.alarmHasReady, 0, 0, now⟩
  | .cbReturn => ⟨Op.cbReturn, 0, 0, 0⟩
  | .addrMake sel value => ⟨Op.addrMake, 0#6 ++ addrFieldCode sel, value, 0⟩
  | .addrClass sel => ⟨Op.addrClass, 0#5 ++ addrSelCode sel, 0, 0⟩
  | .addrEq sel1 sel2 => ⟨Op.addrEq, 0#5 ++ addrSelCode sel1, 0#13 ++ addrSelCode sel2, 0⟩
  | .hdrBuild => ⟨Op.hdrBuild, 0, 0, 0⟩
  | .hdrParse len => ⟨Op.hdrParse, 0, 0, 0#16 ++ len⟩
  | .macInit => ⟨Op.macInit, 0, 0, 0⟩
  | .macSend dstStaged ackReq dst len =>
    ⟨Op.macSend, 0#6 ++ BitVec.ofBool ackReq ++ BitVec.ofBool dstStaged, dst, 0#16 ++ len⟩
  | .macSendEx len => ⟨Op.macSendEx, 0, 0, 0#16 ++ len⟩
  | .macPoll => ⟨Op.macPoll, 0, 0, 0⟩
  | .macIsKnown sel => ⟨Op.macIsKnown, 0#5 ++ addrSelCode sel, 0, 0⟩
  | .macCancel slot => ⟨Op.macCancel, slot, 0, 0⟩

/-- The opcode of a command (R82). -/
def opcode (i : Instr) : Byte := (encodeFields i).op

/-- The command word of a command (R80, R82). -/
def encode (i : Instr) : DWord := joinWord (encodeFields i)

end Sys2Proof
end

