-- ==== Sys2Proof/Config.lean ====
section
/-! DEFINITION. The build-time parameters of the block (spec/00_scope.md R8), which configurations are
legal (R9), the reference configuration REF, and the free values: what the block asks of the outside
(R7) and the contents of the buffers that nothing has written (spec/93_implementation_defined.md U6). -/

namespace Sys2Proof

/-- VARIANT (R8, R182). `tdma` is value 3, which R4 and R9 refuse. -/
inductive Variant where
  | passthrough
  | csma
  | csmaAck
  | tdma
deriving DecidableEq, Repr

/-- The number of a variant in CFG_FEATURES[1:0] (R8, R40). -/
def Variant.code : Variant → BitVec 2
  | .passthrough => 0
  | .csma => 1
  | .csmaAck => 2
  | .tdma => 3

/-- The parameters of R8, each at the width R8 gives it. TICKS_PER_MS has the one legal value 1 and is
the constant `ticksPerMs`. -/
structure Config where
  /-- VARIANT -/
  variant : Variant
  /-- BUF_SIZE, u16 -/
  bufSize : Half
  /-- ACK_TIMEOUT, u32, milliseconds -/
  ackTimeout : Word
  /-- MAX_ATTEMPTS, u8 -/
  maxAttempts : Byte
  /-- RETRY_BASE, u32, milliseconds -/
  retryBase : Word
  /-- MAX_INIT_BACKOFF, u32, milliseconds -/
  maxInitBackoff : Word
  /-- QUEUE_CAP, u8 -/
  queueCap : Byte
  /-- FWD_DELAY, u32; read by no rule but its register (R247) -/
  fwdDelay : Word
  /-- LONG_ADDR -/
  longAddr : Bool
  /-- THREADED -/
  threaded : Bool
  /-- N_ALARMS, u8 -/
  nAlarms : Byte
  /-- JIFFIES_RESET, u32 -/
  jiffiesReset : Word
deriving DecidableEq, Repr

/-- TICKS_PER_MS = 1 (R8, R11): a delay in milliseconds is a delay in ticks. -/
def ticksPerMs : Word := 1

/-- The legal ranges of R8 and the two refusals of R9 that are not a range: VARIANT = 3, and a retry wait
RETRY_BASE x a that is 0 mod 2^32 for some a in 1 .. MAX_ATTEMPTS - 1. -/
def Config.legal (c : Config) : Bool :=
  c.variant != .tdma
  && decide (18 ≤ c.bufSize.toNat)
  && decide (1 ≤ c.ackTimeout.toNat ∧ c.ackTimeout.toNat < 2 ^ 31)
  && decide (1 ≤ c.maxAttempts.toNat)
  && decide (1 ≤ c.retryBase.toNat ∧ c.retryBase.toNat < 2 ^ 31)
  && decide (1 ≤ c.maxInitBackoff.toNat ∧ c.maxInitBackoff.toNat < 2 ^ 31)
  && decide (1 ≤ c.queueCap.toNat)
  && decide (1 ≤ c.nAlarms.toNat ∧ c.nAlarms.toNat ≤ 254)
  && (List.range (c.maxAttempts.toNat - 1)).all
      (fun a => decide ((c.retryBase.toNat * (a + 1)) % 2 ^ 32 ≠ 0))

/-- MA (R23): the index of the engine alarm, N_ALARMS. -/
def Config.engineAlarm (c : Config) : Nat := c.nAlarms.toNat

/-- REF (the last column of R8's table): a test convenience of the spec, no fact about a chip. -/
def Config.ref : Config where
  variant := .csmaAck
  bufSize := 64
  ackTimeout := 100
  maxAttempts := 3
  retryBase := 50
  maxInitBackoff := 10
  queueCap := 1
  fwdDelay := 0
  longAddr := false
  threaded := false
  nAlarms := 4
  jiffiesReset := 0

/-- FREE VALUE (R7, U8): the radio's answer to the n-th `ChannelClear()` query for which State holds no
supplied answer. Log entry 4. -/
opaque Config.channelClear : Nat → Bool

/-- FREE VALUE (R7, R191, U7): what the random source offers for the n-th query for which State holds no
supplied draw; `boundedDraw` brings it into 1 .. MAX_INIT_BACKOFF. Log entry 5. -/
opaque Config.backoffDraw : Nat → Word

/-- FREE VALUE (R34, U6): what byte `a` of TXDATA holds after the block's n-th reset while nothing has
written it. Log entry 6. -/
opaque Config.txdataUnwritten : Nat → Nat → Byte

/-- FREE VALUE (R34, U6): the same for HDRBUF. Log entry 6. -/
opaque Config.hdrbufUnwritten : Nat → Nat → Byte

end Sys2Proof
end

