-- ==== Sys2Proof/Machine/State.lean ====
section
/-! DEFINITION. The state of OSW-MAC as plain data (spec/10_state.md R20 to R45): every piece of state R20
lists, the parameters of R8 beside it, and the model's own fields for what stands outside the block (inputs
waiting to be taken, answers to the two queries) and for what the block has sent out (responses, outputs).
State.reset is R45 and R301. -/

namespace Sys2Proof.Machine

/-- A byte buffer as the cells that have been written since reset, addresses strictly rising
(`Memory.wf`). An unlisted offset is a byte nothing has written (R34, U6). -/
abbrev Memory := List Host.Cell

/-- An Address (R26): tag SHORT with a u16 or tag LONG with a u64. -/
inductive Address where
  | short (v : Half)
  | long (v : DWord)
deriving DecidableEq, Repr

/-- UNSPEC (R26). -/
def Address.unspec : Address := .short 0

/-- A register triple that holds an Address (R26). -/
structure AddrRegs where
  tag : Word
  lo : Word
  hi : Word
deriving DecidableEq, Repr

/-- A group of 16 registers laid out as R31 says: TXINFO, and PINFO 0x20 higher (R32). -/
structure DescRegs where
  originalSrc : AddrRegs
  originalDst : AddrRegs
  immedSrc : AddrRegs
  immedDst : AddrRegs
  ports : Word
  fields : Word
  flags : Word
  sendTime : Word
deriving DecidableEq, Repr

/-- A register triple at 0. -/
def AddrRegs.zero : AddrRegs := ⟨0, 0, 0⟩

/-- The 16 registers at 0 (R31, R32). -/
def DescRegs.zero : DescRegs := ⟨.zero, .zero, .zero, .zero, 0, 0, 0, 0⟩

/-- The four flags of a descriptor (R30). -/
structure DescFlags where
  locallyOriginated : Bool
  moreData : Bool
  ackRequested : Bool
  isAck : Bool
deriving DecidableEq, Repr

/-- A descriptor, the document's PacketHeaderInfo (R30). -/
structure Descriptor where
  originalSrc : Address
  originalDst : Address
  immedSrc : Address
  immedDst : Address
  srcPort : Byte
  dstPort : Byte
  seqnum : Byte
  cost : Byte
  hopLimit : Byte
  authType : Byte
  flags : DescFlags
  hdrLen : Byte
  sendTime : Word
deriving DecidableEq, Repr

/-- The descriptor with every field 0 and every address UNSPEC (R227). -/
def Descriptor.empty : Descriptor where
  originalSrc := .unspec
  originalDst := .unspec
  immedSrc := .unspec
  immedDst := .unspec
  srcPort := 0
  dstPort := 0
  seqnum := 0
  cost := 0
  hopLimit := 0
  authType := 0
  flags := ⟨false, false, false, false⟩
  hdrLen := 0
  sendTime := 0

/-- The state of an alarm (R23): IDLE 0, SCHEDULED 1. -/
inductive AlarmState where
  | idle
  | scheduled
deriving DecidableEq, Repr

/-- An entry of the alarm table (R23). -/
structure Alarm where
  /-- the absolute wake time, a tick value -/
  when : Word
  /-- the callback identifier -/
  cb : Half
  /-- the callback argument -/
  arg : Word
  /-- IDLE or SCHEDULED -/
  state : AlarmState
  /-- ALARM_INIT (or MAC_INIT, for the engine alarm) has bound a callback -/
  bound : Bool
deriving DecidableEq, Repr

/-- An alarm after reset (R23). -/
def Alarm.reset : Alarm := ⟨0, 0, 0, .idle, false⟩

/-- proc_state (R25): IDLE 0, IN_CALLBACK 1. -/
inductive ProcState where
  | idle
  | inCallback
deriving DecidableEq, Repr

/-- tx_owner (R35): for whom the radio is transmitting. -/
inductive TxOwner where
  | none
  | slot
  | ack
  | orphan
deriving DecidableEq, Repr

/-- The state of an outbound slot (R36): IDLE 0, QUEUED 1, IN_FLIGHT 2. -/
inductive SlotState where
  | idle
  | queued
  | inFlight
deriving DecidableEq, Repr

/-- The phase of an outbound slot (R36). -/
inductive Phase where
  | none
  | senseBackoff
  | transmitting
  | awaitAck
  | retryBackoff
deriving DecidableEq, Repr

/-- An outbound slot (R36). -/
structure Slot where
  state : SlotState
  phase : Phase
  /-- transmissions started -/
  attempts : Byte
  /-- the encoded header -/
  hdr : List Byte
  /-- the payload -/
  data : List Byte
  seq : Byte
  dst : Address
  ackreq : Bool
deriving DecidableEq, Repr

/-- A slot at its reset value (R36), to which `complete` returns it. -/
def Slot.reset : Slot := ⟨.idle, .none, 0, [], [], 0, .unspec, false⟩

/-- The status of a command's response (R85, R260). -/
inductive Status where
  | ok
  | queueFull
  | invalidAddrCombination
  | malformedHeader
  | tooLong
  | badArg
  | badState
  | empty
  | illegalCmd
deriving DecidableEq, Repr

/-- The completion code of SEND_DONE (R89, R198). -/
inductive SendCode where
  | sendOk
  | ackTimeout
  | radioFail
  | cancelled
deriving DecidableEq, Repr

/-- The reason of a DIAG (R89). -/
inductive DiagReason where
  | rxNotInit
  | rxTooLong
  | rxMalformed
  | rxNotForUs
  | ackUnmatched
  | ackNotSent
  | spuriousTxDone
deriving DecidableEq, Repr

/-- An output event (R88). -/
inductive Output where
  | alarmFire (id : Byte) (cb : Half) (arg : Word)
  | radioTx (hdr data : List Byte)
  | radioOn
  | sendDone (slot : Byte) (code : SendCode) (attempts : Byte)
  | rxDeliver (info : Descriptor) (payload : List Byte)
  | diag (reason : DiagReason)
deriving DecidableEq, Repr

/-- What can cause a step (R5, R6): a command word at the command port, one of the three events (R87), or
the reset input (R300). -/
inductive Input where
  | command (c : DWord)
  | tick
  | radioRx (frame : List Byte)
  | radioTxDone (status : Byte)
  | reset
deriving DecidableEq, Repr

/-- The whole state. The first group is what R20 lists, the second the parameters, the third the model's own. -/
structure State where
  /-- the build-time parameters (R8); no step changes them -/
  cfg : Config
  /-- JIFFIES (R22) -/
  jiffies : Word
  /-- the alarm table, alarm[0] to alarm[N_ALARMS] (R23) -/
  alarms : List Alarm
  /-- the alarm list, next to fire first (R24) -/
  alist : List Nat
  /-- proc_state (R25) -/
  procState : ProcState
  /-- proc_now (R25) -/
  procNow : Word
  /-- fire_id (R25) -/
  fireId : Byte
  /-- fire_cb (R41) -/
  fireCb : Half
  /-- fire_arg (R41) -/
  fireArg : Word
  /-- PENDING_WORK (R25) -/
  pendingWork : Bool
  /-- LOCAL_SHORT (R27) -/
  localShort : Half
  /-- LOCAL_LONG (R27) -/
  localLong : DWord
  /-- TXINFO, registers 0x0040 to 0x004F (R31) -/
  txinfo : DescRegs
  /-- PINFO, registers 0x0060 to 0x006F (R32) -/
  pinfo : DescRegs
  /-- HDR_LEN (R33) -/
  hdrLen : Byte
  /-- PINFO_HDR_LEN (R33) -/
  pinfoHdrLen : Byte
  /-- TXDATA (R34) -/
  txdata : Memory
  /-- HDRBUF (R34) -/
  hdrbuf : Memory
  /-- mac_inited (R35) -/
  macInited : Bool
  /-- mac_seq (R35) -/
  macSeq : Byte
  /-- radio_busy (R35) -/
  radioBusy : Bool
  /-- tx_owner (R35) -/
  txOwner : TxOwner
  /-- tx_slot (R35) -/
  txSlot : Byte
  /-- the outbound slot table (R36) -/
  slots : List Slot
  /-- the queue order, oldest first (R37) -/
  order : List Nat
  /-- model's own: inputs waiting to be taken, in the order they are offered (R272, log entry 2) -/
  inputs : List Input
  /-- model's own: answers supplied for the coming `ChannelClear()` queries (R7, log entry 4) -/
  channelAnswers : List Bool
  /-- model's own: values supplied for the coming draws (R7, log entry 5) -/
  draws : List Word
  /-- model's own: how many queries the opaque free values have answered (log entries 4, 5, 8) -/
  queries : Nat
  /-- model's own: how many resets there have been after the first (log entry 6) -/
  resets : Nat
  /-- model's own: the response words produced so far, oldest first (R84, log entry 3) -/
  responses : List DWord
  /-- model's own: the output trace, oldest first (R88, log entry 3) -/
  outputs : List Output
deriving DecidableEq, Repr

/-- Why the machine stops: it never does. "Nothing is fatal": the block has no error state and no halt (R264), so
there is no constructor. -/
inductive Fault where
deriving DecidableEq, Repr

/-- Why the machine has no meaning. -/
inductive Refusal where
  /-- Raised by an arm of `exec` for an instruction without a meaning; no arm raises it. Safe. -/
  | notModelled (mnemonic : String)
  /-- Raised by `step` in a configuration outside R8's ranges: "the model has no meaning for it and must not
  be instantiated with it" (R9, U10). Safe. -/
  | illegalConfiguration
deriving DecidableEq, Repr

/-- The state right after reset in configuration `c` (R45, R301), with no input waiting and nothing sent out. -/
def State.resetOf (c : Config) : State where
  cfg := c
  jiffies := c.jiffiesReset
  alarms := List.replicate (c.nAlarms.toNat + 1) Alarm.reset
  alist := []
  procState := .idle
  procNow := 0
  fireId := 0
  fireCb := 0
  fireArg := 0
  pendingWork := false
  localShort := 0
  localLong := 0
  txinfo := .zero
  pinfo := .zero
  hdrLen := 0
  pinfoHdrLen := 0
  txdata := []
  hdrbuf := []
  macInited := false
  macSeq := 0
  radioBusy := false
  txOwner := .none
  txSlot := 0
  slots := List.replicate c.queueCap.toNat Slot.reset
  order := []
  inputs := []
  channelAnswers := []
  draws := []
  queries := 0
  resets := 0
  responses := []
  outputs := []

/-- The machine right after reset, in the reference configuration REF (R8; log entry 1). -/
def State.reset : State := State.resetOf Config.ref

end Sys2Proof.Machine
end

