-- ==== Sys2Proof/Machine/Tables.lean ====
section
/-! DEFINITION. Reading and writing one entry of the alarm table and of the slot table, and the head slot
(spec/10_state.md R23, R36, R37). -/

namespace Sys2Proof.Machine

/-- `alarm[i]` (R23). -/
def State.alarm (s : State) (i : Nat) : Alarm := s.alarms.getD i Alarm.reset

/-- `alarm[i] <- a` (R13, R23). -/
def State.setAlarm (s : State) (i : Nat) (a : Alarm) : State := { s with alarms := s.alarms.set i a }

/-- `slot[k]` (R36). -/
def State.slot (s : State) (k : Nat) : Slot := s.slots.getD k Slot.reset

/-- `slot[k] <- x` (R13, R36). -/
def State.setSlot (s : State) (k : Nat) (x : Slot) : State := { s with slots := s.slots.set k x }

/-- `slot[k].phase <- p` (R13, R36). -/
def State.setPhase (s : State) (k : Nat) (p : Phase) : State := s.setSlot k { s.slot k with phase := p }

/-- The slot with state IN_FLIGHT, the head slot (R37), if there is one. -/
def State.inFlight? (s : State) : Option Nat := s.slots.findIdx? (fun x => x.state == .inFlight)

/-- The lowest index of an IDLE slot (R183). -/
def State.freeSlot? (s : State) : Option Nat := s.slots.findIdx? (fun x => x.state == .idle)

/-- The index of the engine alarm, MA (R23). -/
def State.engineAlarm (s : State) : Nat := s.cfg.engineAlarm

end Sys2Proof.Machine
end

