-- ==== Sys2Proof/Machine/Flags.lean ====
section
/-! DEFINITION. Every status, flag and code of the block as bits: the numbers of statuses, completion codes,
diagnostic reasons, events and outputs (spec/30_encoding.md R85 to R89), the packed status and inspection
registers (spec/10_state.md R40 to R42), the flags of a descriptor (R30), and the comparison of two tick
values (spec/40_alarm.md R115). There are no arithmetic condition codes (R44). -/

namespace Sys2Proof.Machine

/-! ### Numbers of statuses, codes and events -/

/-- Status codes (R85). -/
def statusCode : Status → Byte
  | .ok => 0
  | .queueFull => 1
  | .invalidAddrCombination => 2
  | .malformedHeader => 3
  | .tooLong => 4
  | .badArg => 5
  | .badState => 6
  | .empty => 7
  | .illegalCmd => 8

/-- Completion codes in SEND_DONE (R89). -/
def sendCodeNumber : SendCode → Byte
  | .sendOk => 0
  | .ackTimeout => 1
  | .radioFail => 2
  | .cancelled => 3

/-- DIAG reasons (R89). -/
def diagNumber : DiagReason → Byte
  | .rxNotInit => 1
  | .rxTooLong => 2
  | .rxMalformed => 3
  | .rxNotForUs => 4
  | .ackUnmatched => 5
  | .ackNotSent => 6
  | .spuriousTxDone => 7

/-- Output event codes (R88). -/
def outputCode : Output → Nat
  | .alarmFire _ _ _ => 1
  | .radioTx _ _ => 2
  | .radioOn => 3
  | .sendDone _ _ _ => 4
  | .rxDeliver _ _ => 5
  | .diag _ => 6

/-- Input event codes (R87); a command and the reset input have none. -/
def eventCode : Input → Option Nat
  | .tick => some 1
  | .radioRx _ => some 2
  | .radioTxDone _ => some 3
  | .command _ => none
  | .reset => none

/-- The response word (R84): status, OP, 0, value from the low end up. -/
def responseWord (op : Byte) (st : Status) (value : Word) : DWord :=
  value ++ (0 : Half) ++ op ++ statusCode st

/-- A truth value as the `value` of a response. -/
def boolWord (b : Bool) : Word := if b then 1 else 0

/-! ### Tick values -/

/-- `timeAfter(a, b)` (R115): `0 < (a - b) mod 2^32 < 2^31`. -/
def timeAfter (a b : Word) : Bool := decide (0 < (a - b).toNat ∧ (a - b).toNat < 2 ^ 31)

/-- The deadline of a delay in milliseconds that starts at tick `now` (R11, R117, R129). -/
def deadline (now delayMs : Word) : Word := now + delayMs * ticksPerMs

/-! ### State fields as numbers -/

/-- alarm state: IDLE 0, SCHEDULED 1 (R23). -/
def alarmStateBit : AlarmState → BitVec 1
  | .idle => 0
  | .scheduled => 1

/-- tx_owner: NONE 0, SLOT 1, ACK 2, ORPHAN 3 (R35). -/
def txOwnerCode : TxOwner → BitVec 2
  | .none => 0
  | .slot => 1
  | .ack => 2
  | .orphan => 3

/-- slot state: IDLE 0, QUEUED 1, IN_FLIGHT 2 (R36). -/
def slotStateCode : SlotState → BitVec 2
  | .idle => 0
  | .queued => 1
  | .inFlight => 2

/-- slot phase (R36). -/
def phaseCode : Phase → BitVec 3
  | .none => 0
  | .senseBackoff => 1
  | .transmitting => 2
  | .awaitAck => 3
  | .retryBackoff => 4

/-! ### Packed registers -/

/-- CFG_FEATURES (R40): [1:0] VARIANT, [2] LONG_ADDR, [3] THREADED. -/
def cfgFeatures (c : Config) : Word :=
  0#28 ++ BitVec.ofBool c.threaded ++ BitVec.ofBool c.longAddr ++ c.variant.code

/-- IN_CALLBACK (R41). -/
def State.inCallback (s : State) : Bool := s.procState == .inCallback

/-- HAS_PENDING (R41, R127): the alarm list is not empty. -/
def State.hasPending (s : State) : Bool := !s.alist.isEmpty

/-- ALM_STATUS (R41). -/
def almStatus (s : State) : Word :=
  (if s.inCallback then s.fireCb else 0) ++ (if s.inCallback then s.fireId else 0) ++ 0#5
    ++ BitVec.ofBool s.hasPending ++ BitVec.ofBool s.inCallback ++ BitVec.ofBool s.pendingWork

/-- FIRE_ARG (R40): the latched argument while a window is open, else 0. -/
def fireArgReg (s : State) : Word := if s.inCallback then s.fireArg else 0

/-- The phase of the head slot, NONE if no slot is IN_FLIGHT (R42). -/
def State.headPhase (s : State) : Phase :=
  match s.inFlight? with
  | some k => (s.slot k).phase
  | none => .none

/-- The index of the head slot, 0xFF if no slot is IN_FLIGHT (R42). -/
def State.headIndex (s : State) : Byte :=
  match s.inFlight? with
  | some k => BitVec.ofNat 8 k
  | none => 0xFF

/-- MAC_STATUS (R42). -/
def macStatus (s : State) : Word :=
  s.headIndex ++ s.macSeq ++ BitVec.ofNat 8 s.order.length ++ 0#1 ++ phaseCode s.headPhase
    ++ txOwnerCode s.txOwner ++ BitVec.ofBool s.radioBusy ++ BitVec.ofBool s.macInited

/-- ALARM_CTL (R40): [0] bound, [1] state, [31:16] cb. -/
def alarmCtl (a : Alarm) : Word :=
  a.cb ++ 0#14 ++ alarmStateBit a.state ++ BitVec.ofBool a.bound

/-- SLOT_CTL (R40): [1:0] state, [4:2] phase, [5] ackreq, [15:8] attempts, [23:16] seq. -/
def slotCtl (x : Slot) : Word :=
  0#8 ++ x.seq ++ x.attempts ++ 0#2 ++ BitVec.ofBool x.ackreq ++ phaseCode x.phase ++ slotStateCode x.state

/-- SLOT_LEN (R40): [7:0] header length, [31:16] payload length; 0 when the slot is IDLE. -/
def slotLen (x : Slot) : Word :=
  if x.state = .idle then 0
  else BitVec.ofNat 16 x.data.length ++ 0#8 ++ BitVec.ofNat 8 x.hdr.length

/-! ### Flags of a descriptor -/

/-- The flags as bits (R30): 0 LOCALLY_ORIGINATED, 1 MORE_DATA, 2 ACK_REQUESTED, 3 IS_ACK. -/
def flagBits (f : DescFlags) : BitVec 4 :=
  BitVec.ofBool f.isAck ++ BitVec.ofBool f.ackRequested ++ BitVec.ofBool f.moreData
    ++ BitVec.ofBool f.locallyOriginated

/-- The flags that a FLAGS register denotes; [31:4] are ignored (R31). -/
def flagsOf (w : Word) : DescFlags where
  locallyOriginated := w.getLsbD 0
  moreData := w.getLsbD 1
  ackRequested := w.getLsbD 2
  isAck := w.getLsbD 3

end Sys2Proof.Machine
end

