-- ==== Sys2Proof/Machine/Ops.lean ====
section
/-! DEFINITION. The operations the meanings share: reading and writing bytes of a buffer
(spec/20_memory.md R61), producing a response and an output (spec/00_scope.md R13), the questions the block
asks of the outside (R7), the alarm list (spec/40_alarm.md R113, R114, R130), and the block's form of taking
an exception and returning from one: opening and closing a callback window (spec/60_exceptions.md R273,
R274). -/

namespace Sys2Proof.Machine

/-- What a meaning answers. -/
abbrev Result := Host.Outcome State Fault Refusal

/-! ### Buffers -/

/-- The cell at `a`, or nothing when no byte has been written there since reset. -/
def Memory.read? : Memory → Nat → Option Byte
  | [], _ => none
  | (b, v) :: m, a => if b = a then some v else Memory.read? m a

/-- `m` with byte `v` at `a`, cells kept in rising order of address. -/
def Memory.write : Memory → Nat → Byte → Memory
  | [], a, v => [(a, v)]
  | (b, w) :: m, a, v =>
    if a < b then (a, v) :: (b, w) :: m
    else if a = b then (a, v) :: m
    else (b, w) :: Memory.write m a v

/-- `MemWrite` (R61): the bytes of `bs` from offset `a` on. -/
def Memory.writeBytes : Memory → Nat → List Byte → Memory
  | m, _, [] => m
  | m, a, b :: bs => Memory.writeBytes (Memory.write m a b) (a + 1) bs

/-- The canonical form: addresses strictly rising. What an unlisted address reads as is no byte at all, so no
cell can repeat it (log entry 6). -/
def Memory.wf : Memory → Bool
  | [] => true
  | [_] => true
  | (a, _) :: (b, w) :: m => decide (a < b) && Memory.wf ((b, w) :: m)

/-- Every listed address lies below `n`. -/
def Memory.below (n : Nat) (m : Memory) : Bool := m.all (fun c => decide (c.1 < n))

/-- Byte `a` of TXDATA: the last byte written there, or the free value of an unwritten one (R34, U6). -/
def txByte (s : State) (a : Nat) : Byte := (s.txdata.read? a).getD (Config.txdataUnwritten s.resets a)

/-- Byte `a` of HDRBUF (R34, U6). -/
def hdrByte (s : State) (a : Nat) : Byte := (s.hdrbuf.read? a).getD (Config.hdrbufUnwritten s.resets a)

/-- `MemRead(TXDATA, 0, n)` (R61). -/
def readTxdata (s : State) (n : Nat) : List Byte := (List.range n).map (txByte s)

/-- The size of HDRBUF (R34, R163). -/
def hdrbufSize : Nat := 18

/-- The size of a buffer in bytes (R61). -/
def bufferSize (c : Config) : Buffer → Nat
  | .txdata => c.bufSize.toNat
  | .hdrbuf => hdrbufSize

/-- One byte of a buffer (R61). -/
def bufferByte (s : State) : Buffer → Nat → Byte
  | .txdata, a => txByte s a
  | .hdrbuf, a => hdrByte s a

/-! ### Responses and outputs -/

/-- `respond(st, value)` for the command with opcode `op` (R13, R84). -/
def State.respond (s : State) (op : Byte) (st : Status) (value : Word) : State :=
  { s with responses := s.responses ++ [responseWord op st value] }

/-- `emit e` (R13, R88). -/
def State.emit (s : State) (e : Output) : State := { s with outputs := s.outputs ++ [e] }

/-- The end of a command that answers: the response is produced at the end of the command's step (R84). -/
def answer (op : Byte) (st : Status) (value : Word) (s : State) : Result := .next (s.respond op st value)

/-! ### Questions to the outside -/

/-- `ChannelClear()` (R7, R190): the next supplied answer, or the free value. -/
def askChannel (s : State) : Bool × State :=
  match s.channelAnswers with
  | b :: rest => (b, { s with channelAnswers := rest })
  | [] => (Config.channelClear s.queries, { s with queries := s.queries + 1 })

/-- The value a draw from 1 .. `m` takes when the outside offers `r`: `r` itself when it lies in the range, the
nearer bound when it does not (R191, log entry 5). -/
def boundedDraw (m r : Word) : Word :=
  if r.toNat < 1 then 1 else if r.toNat ≤ m.toNat then r else if m.toNat < 1 then 1 else m

/-- `draw(1, MAX_INIT_BACKOFF)` (R190, R191). -/
def drawBackoff (s : State) : Word × State :=
  match s.draws with
  | r :: rest => (boundedDraw s.cfg.maxInitBackoff r, { s with draws := rest })
  | [] => (boundedDraw s.cfg.maxInitBackoff (Config.backoffDraw s.queries), { s with queries := s.queries + 1 })

/-! ### The alarm list -/

/-- `Remove(i)` (R113). -/
def removeAlarm (i : Nat) (s : State) : State :=
  { (s.setAlarm i { s.alarm i with state := .idle }) with alist := s.alist.filter (fun j => j != i) }

/-- The list with `i` before its first element whose deadline is after `w`, or at its end (R114). -/
def insertByTime (deadlineOf : Nat → Word) (w : Word) (i : Nat) : List Nat → List Nat
  | [] => [i]
  | e :: es => if timeAfter (deadlineOf e) w then i :: e :: es else e :: insertByTime deadlineOf w i es

/-- `Insert(i)` (R114). -/
def insertAlarm (i : Nat) (s : State) : State :=
  { (s.setAlarm i { s.alarm i with state := .scheduled }) with
    alist := insertByTime (fun e => (s.alarm e).when) (s.alarm i).when i s.alist }

/-- Arms alarm `i` with `delayMs` from now: deadline, `Remove`, `Insert` (R117, R130). -/
def armAlarm (i : Nat) (delayMs : Word) (s : State) : State :=
  insertAlarm i (removeAlarm i (s.setAlarm i { s.alarm i with when := deadline s.jiffies delayMs }))

/-- `SchedMA(d)` (R130). -/
def schedMA (d : Word) (s : State) : State := armAlarm s.engineAlarm d s

/-- `CancelMA()` (R130). -/
def cancelMA (s : State) : State := removeAlarm s.engineAlarm s

/-- `Ready(i, now)` (R115): the deadline of alarm `i` is at or before `now`. -/
def State.ready (s : State) (i : Nat) (now : Word) : Bool := !timeAfter (s.alarm i).when now

/-- `HasReady(t)` (R128): the list is not empty and its head is ready at `t`. -/
def State.hasReady (s : State) (t : Word) : Bool :=
  match s.alist with
  | [] => false
  | a :: _ => s.ready a t

/-- CB_MAC (R23, R111): the engine's own callback identifier. -/
def cbMac : Half := 0xFFFF

/-! ### The callback window -/

/-- Opening the window of host alarm `a`, already removed from the list: the latches, the ALARM_FIRE output and
proc_state; proc_now keeps the pass's time and nothing else changes (R121, R273). -/
def openWindow (a : Nat) (s : State) : State :=
  { s with fireId := BitVec.ofNat 8 a, fireCb := (s.alarm a).cb, fireArg := (s.alarm a).arg,
           procState := .inCallback,
           outputs := s.outputs ++ [.alarmFire (BitVec.ofNat 8 a) (s.alarm a).cb (s.alarm a).arg] }

/-- What CB_RETURN clears before the pass goes on with the same proc_now (R122, R274). -/
def closeWindow (s : State) : State := { s with fireId := 0, fireCb := 0, fireArg := 0 }

end Sys2Proof.Machine
end

