-- ==== Sys2Proof/Machine/Operands.lean ====
section
/-! DEFINITION. Every operand form: addresses and their register triples (spec/10_state.md R26,
spec/30_encoding.md R83), the address predicates (spec/41_address.md R141 to R144), the staged descriptor
(R31) and the result registers (R32, spec/42_codec.md R171), and the numbered registers with their access
rules (R40). -/

namespace Sys2Proof.Machine

/-! ### The address model -/

/-- `ShortAddr(n)` (R141). -/
def shortAddr (n : Half) : Address := .short n

/-- `IsBroadcast(a)` (R142). -/
def isBroadcast : Address → Bool
  | .short v => v.getLsbD 15
  | .long _ => false

/-- `IsUnspecified(a)` (R143). -/
def isUnspecified : Address → Bool
  | .short v => v == 0
  | .long v => v == 0

/-- `AddrEq(a, b)` (R144): tag, then payload. -/
def addrEq (a b : Address) : Bool := a == b

/-- `IsLocal(a)` (R144). -/
def isLocal (s : State) : Address → Bool
  | .short v => v == s.localShort
  | .long v => s.cfg.longAddr && v == s.localLong

/-- `AddrOf(TAG, LO, HI)` (R26). -/
def addrOf (c : Config) (r : AddrRegs) : Address :=
  if c.longAddr = false ∨ r.tag.getLsbD 0 = false then .short (r.lo.extractLsb' 0 16) else .long (r.hi ++ r.lo)

/-- `Triple(a)` (R26). -/
def triple : Address → AddrRegs
  | .short v => ⟨0, v.zeroExtend 32, 0⟩
  | .long v => ⟨1, v.extractLsb' 0 32, v.extractLsb' 32 32⟩

/-! ### Addresses inside a register group -/

/-- The triple of an address in a register group (R31). -/
def DescRegs.triple (r : DescRegs) : AddrField → AddrRegs
  | .originalSrc => r.originalSrc
  | .originalDst => r.originalDst
  | .immedSrc => r.immedSrc
  | .immedDst => r.immedDst

/-- A register group with one triple replaced. -/
def DescRegs.setTriple (r : DescRegs) (f : AddrField) (t : AddrRegs) : DescRegs :=
  match f with
  | .originalSrc => { r with originalSrc := t }
  | .originalDst => { r with originalDst := t }
  | .immedSrc => { r with immedSrc := t }
  | .immedDst => { r with immedDst := t }

/-- `Sel(n)` (R83): the Address that a selector names. -/
def selectedAddr (s : State) : AddrSel → Address
  | .txinfo f => addrOf s.cfg (s.txinfo.triple f)
  | .pinfo f => addrOf s.cfg (s.pinfo.triple f)

/-! ### Descriptors and registers -/

/-- `Desc` of a register group (R31): PORTS [7:0] srcPort, [15:8] dstPort; FIELDS seqnum, cost, hopLimit,
authType from the low byte up; FLAGS [3:0]; hdrLen = 0. -/
def descOf (c : Config) (r : DescRegs) : Descriptor where
  originalSrc := addrOf c r.originalSrc
  originalDst := addrOf c r.originalDst
  immedSrc := addrOf c r.immedSrc
  immedDst := addrOf c r.immedDst
  srcPort := r.ports.extractLsb' 0 8
  dstPort := r.ports.extractLsb' 8 8
  seqnum := r.fields.extractLsb' 0 8
  cost := r.fields.extractLsb' 8 8
  hopLimit := r.fields.extractLsb' 16 8
  authType := r.fields.extractLsb' 24 8
  flags := flagsOf r.flags
  hdrLen := 0
  sendTime := r.sendTime

/-- What a successful HDR_PARSE writes to PINFO (R171). -/
def regsOfDesc (x : Descriptor) : DescRegs where
  originalSrc := Machine.triple x.originalSrc
  originalDst := Machine.triple x.originalDst
  immedSrc := Machine.triple x.immedSrc
  immedDst := Machine.triple x.immedDst
  ports := 0#16 ++ x.dstPort ++ x.srcPort
  fields := x.authType ++ x.hopLimit ++ x.cost ++ x.seqnum
  flags := 0#28 ++ flagBits x.flags
  sendTime := 0

/-! ### The numbered registers -/

/-- Which register of a triple. -/
inductive AddrPart where
  | tag
  | lo
  | hi
deriving DecidableEq, Repr

/-- A register of a 16-register group (R31). -/
inductive DescReg where
  | addr (f : AddrField) (p : AddrPart)
  | ports
  | fields
  | flags
  | sendTime
deriving DecidableEq, Repr

/-- A mapped register (R40). -/
inductive Reg where
  | cfgFeatures
  | cfgBufSize
  | cfgAckTimeout
  | cfgMaxAttempts
  | cfgRetryBase
  | cfgMaxInitBackoff
  | cfgQueueCap
  | cfgFwdDelay
  | cfgNAlarms
  | jiffies
  | almStatus
  | procNow
  | localShort
  | localLongLo
  | localLongHi
  | macStatus
  | fireArg
  | txinfo (r : DescReg)
  | hdrLen
  | pinfo (r : DescReg)
  | pinfoHdrLen
  | alarmCtl (i : Nat)
  | alarmArg (i : Nat)
  | alarmWhen (i : Nat)
  | slotCtl (k : Nat)
  | slotLen (k : Nat)
deriving DecidableEq, Repr

/-- The register at offset `n` of a 16-register group (R31). -/
def descRegAt (n : Nat) : Option DescReg :=
  match n with
  | 0 => some (.addr .originalSrc .tag)
  | 1 => some (.addr .originalSrc .lo)
  | 2 => some (.addr .originalSrc .hi)
  | 3 => some (.addr .originalDst .tag)
  | 4 => some (.addr .originalDst .lo)
  | 5 => some (.addr .originalDst .hi)
  | 6 => some (.addr .immedSrc .tag)
  | 7 => some (.addr .immedSrc .lo)
  | 8 => some (.addr .immedSrc .hi)
  | 9 => some (.addr .immedDst .tag)
  | 10 => some (.addr .immedDst .lo)
  | 11 => some (.addr .immedDst .hi)
  | 12 => some .ports
  | 13 => some .fields
  | 14 => some .flags
  | 15 => some .sendTime
  | _ => none

/-- The registers outside the groups and the tables (R40). -/
def singleRegAt (n : Nat) : Option Reg :=
  match n with
  | 0x0000 => some .cfgFeatures
  | 0x0001 => some .cfgBufSize
  | 0x0002 => some .cfgAckTimeout
  | 0x0003 => some .cfgMaxAttempts
  | 0x0004 => some .cfgRetryBase
  | 0x0005 => some .cfgMaxInitBackoff
  | 0x0006 => some .cfgQueueCap
  | 0x0007 => some .cfgFwdDelay
  | 0x0008 => some .cfgNAlarms
  | 0x0010 => some .jiffies
  | 0x0011 => some .almStatus
  | 0x0012 => some .procNow
  | 0x0013 => some .localShort
  | 0x0014 => some .localLongLo
  | 0x0015 => some .localLongHi
  | 0x0016 => some .macStatus
  | 0x0017 => some .fireArg
  | 0x0050 => some .hdrLen
  | 0x0070 => some .pinfoHdrLen
  | _ => none

/-- The alarm inspection register at offset `n` from 0x0100; offset 3 of each entry is unmapped (R251). -/
def alarmRegAt (n : Nat) : Option Reg :=
  if n % 4 = 0 then some (.alarmCtl (n / 4))
  else if n % 4 = 1 then some (.alarmArg (n / 4))
  else if n % 4 = 2 then some (.alarmWhen (n / 4))
  else none

/-- The slot inspection register at offset `n` from 0x1000; offsets 2 and 3 of each entry are unmapped (R251). -/
def slotRegAt (n : Nat) : Option Reg :=
  if n % 4 = 0 then some (.slotCtl (n / 4))
  else if n % 4 = 1 then some (.slotLen (n / 4))
  else none

/-- The register that number `n` names in configuration `c`; none for an unmapped number (R40, R251). -/
def regAt (c : Config) (n : Half) : Option Reg :=
  if 0x0040 ≤ n.toNat ∧ n.toNat < 0x0050 then (descRegAt (n.toNat - 0x0040)).map .txinfo
  else if 0x0060 ≤ n.toNat ∧ n.toNat < 0x0070 then (descRegAt (n.toNat - 0x0060)).map .pinfo
  else if 0x0100 ≤ n.toNat ∧ n.toNat < 0x0100 + 4 * (c.nAlarms.toNat + 1) then alarmRegAt (n.toNat - 0x0100)
  else if 0x1000 ≤ n.toNat ∧ n.toNat < 0x1000 + 4 * c.queueCap.toNat then slotRegAt (n.toNat - 0x1000)
  else singleRegAt n.toNat

/-- A register of a triple. -/
def AddrRegs.read (t : AddrRegs) : AddrPart → Word
  | .tag => t.tag
  | .lo => t.lo
  | .hi => t.hi

/-- A triple with one register replaced. -/
def AddrRegs.write (t : AddrRegs) (p : AddrPart) (w : Word) : AddrRegs :=
  match p with
  | .tag => { t with tag := w }
  | .lo => { t with lo := w }
  | .hi => { t with hi := w }

/-- A register of a group. -/
def DescRegs.read (r : DescRegs) : DescReg → Word
  | .addr f p => (r.triple f).read p
  | .ports => r.ports
  | .fields => r.fields
  | .flags => r.flags
  | .sendTime => r.sendTime

/-- A group with one register replaced; all 32 bits are stored (R252). -/
def DescRegs.write (r : DescRegs) (d : DescReg) (w : Word) : DescRegs :=
  match d with
  | .addr f p => r.setTriple f ((r.triple f).write p w)
  | .ports => { r with ports := w }
  | .fields => { r with fields := w }
  | .flags => { r with flags := w }
  | .sendTime => { r with sendTime := w }

/-- The content of a register (R40). -/
def readReg (s : State) : Reg → Word
  | .cfgFeatures => Machine.cfgFeatures s.cfg
  | .cfgBufSize => s.cfg.bufSize.zeroExtend 32
  | .cfgAckTimeout => s.cfg.ackTimeout
  | .cfgMaxAttempts => s.cfg.maxAttempts.zeroExtend 32
  | .cfgRetryBase => s.cfg.retryBase
  | .cfgMaxInitBackoff => s.cfg.maxInitBackoff
  | .cfgQueueCap => s.cfg.queueCap.zeroExtend 32
  | .cfgFwdDelay => s.cfg.fwdDelay
  | .cfgNAlarms => s.cfg.nAlarms.zeroExtend 32
  | .jiffies => s.jiffies
  | .almStatus => Machine.almStatus s
  | .procNow => s.procNow
  | .localShort => s.localShort.zeroExtend 32
  | .localLongLo => if s.cfg.longAddr then s.localLong.extractLsb' 0 32 else 0
  | .localLongHi => if s.cfg.longAddr then s.localLong.extractLsb' 32 32 else 0
  | .macStatus => Machine.macStatus s
  | .fireArg => fireArgReg s
  | .txinfo r => s.txinfo.read r
  | .hdrLen => s.hdrLen.zeroExtend 32
  | .pinfo r => s.pinfo.read r
  | .pinfoHdrLen => s.pinfoHdrLen.zeroExtend 32
  | .alarmCtl i => Machine.alarmCtl (s.alarm i)
  | .alarmArg i => (s.alarm i).arg
  | .alarmWhen i => (s.alarm i).when
  | .slotCtl k => Machine.slotCtl (s.slot k)
  | .slotLen k => Machine.slotLen (s.slot k)

/-- The state after a write of `w` to a register; none for a read-only one (R40, R252). -/
def writeReg (s : State) (w : Word) : Reg → Option State
  | .localShort => some { s with localShort := w.extractLsb' 0 16 }
  | .localLongLo =>
    some (if s.cfg.longAddr then { s with localLong := s.localLong.extractLsb' 32 32 ++ w } else s)
  | .localLongHi =>
    some (if s.cfg.longAddr then { s with localLong := w ++ s.localLong.extractLsb' 0 32 } else s)
  | .txinfo r => some { s with txinfo := s.txinfo.write r w }
  | .cfgFeatures => none
  | .cfgBufSize => none
  | .cfgAckTimeout => none
  | .cfgMaxAttempts => none
  | .cfgRetryBase => none
  | .cfgMaxInitBackoff => none
  | .cfgQueueCap => none
  | .cfgFwdDelay => none
  | .cfgNAlarms => none
  | .jiffies => none
  | .almStatus => none
  | .procNow => none
  | .macStatus => none
  | .fireArg => none
  | .hdrLen => none
  | .pinfo _ => none
  | .pinfoHdrLen => none
  | .alarmCtl _ => none
  | .alarmArg _ => none
  | .alarmWhen _ => none
  | .slotCtl _ => none
  | .slotLen _ => none

end Sys2Proof.Machine
end

