-- ==== Sys2Proof/Machine/Addresses.lean ====
section
/-! DEFINITION. The address commands (spec/41_address.md): ADDR_MAKE, ADDR_CLASS, ADDR_EQ. -/

namespace Sys2Proof.Machine

/-- ADDR_MAKE (R145). -/
def execAddrMake (sel : AddrField) (value : Half) (s : State) : Result :=
  answer Op.addrMake .ok 0 { s with txinfo := s.txinfo.setTriple sel (triple (shortAddr value)) }

/-- The value of ADDR_CLASS (R146): bit 0 broadcast, bit 1 unspecified. -/
def addrClassWord (a : Address) : Word :=
  0#30 ++ BitVec.ofBool (isUnspecified a) ++ BitVec.ofBool (isBroadcast a)

/-- ADDR_CLASS (R146). -/
def execAddrClass (sel : AddrSel) (s : State) : Result :=
  answer Op.addrClass .ok (addrClassWord (selectedAddr s sel)) s

/-- ADDR_EQ (R147). -/
def execAddrEq (sel1 sel2 : AddrSel) (s : State) : Result :=
  answer Op.addrEq .ok (boolWord (addrEq (selectedAddr s sel1) (selectedAddr s sel2))) s

end Sys2Proof.Machine
end

