-- ==== Sys2Proof/Machine/Codec.lean ====
section
/-! DEFINITION. The header codec (spec/42_codec.md R150 to R164), pure functions: `buildHeader` is the spec's
Build, `parseHeader` its Parse. -/

namespace Sys2Proof.Machine

/-- The kind of an address in the combination code (R152). -/
inductive AddrKind where
  | absent
  | short
  | long
deriving DecidableEq, Repr

/-- 0 absent, 1 short, 2 long (R152). -/
def kindCode : AddrKind → Nat
  | .absent => 0
  | .short => 1
  | .long => 2

/-- The kind with a code; only 0, 1 and 2 occur (R152). -/
def kindOfCode (n : Nat) : AddrKind := if n = 0 then .absent else if n = 1 then .short else .long

/-- The bytes an address of a kind takes in a header (R152, R162). -/
def kindWidth : AddrKind → Nat
  | .absent => 0
  | .short => 2
  | .long => 8

/-- `kind(a)` (R158): absent exactly when unspecified. -/
def kindOf (a : Address) : AddrKind :=
  if isUnspecified a then .absent
  else match a with
    | .short _ => .short
    | .long _ => .long

/-- `HdrDst(x)` (R156). -/
def hdrDst (x : Descriptor) : Address := if isUnspecified x.immedDst then x.originalDst else x.immedDst

/-- `HdrSrc(x)` (R156). -/
def hdrSrc (x : Descriptor) : Address := if isUnspecified x.immedSrc then x.originalSrc else x.immedSrc

/-! ### Building -/

/-- An address as header bytes, least significant first; nothing when it is absent (R62, R154, R158). -/
def addrBytes (a : Address) : List Byte :=
  if isUnspecified a then []
  else match a with
    | .short v => [v.extractLsb' 0 8, v.extractLsb' 8 8]
    | .long v =>
      [v.extractLsb' 0 8, v.extractLsb' 8 8, v.extractLsb' 16 8, v.extractLsb' 24 8,
       v.extractLsb' 32 8, v.extractLsb' 40 8, v.extractLsb' 48 8, v.extractLsb' 56 8]

/-- A one-byte field: present exactly when it is not 0 (R157). -/
def optByte (b : Byte) : List Byte := if b = 0 then [] else [b]

/-- Both ports are specified (R157, R158). -/
def bothPorts (x : Descriptor) : Bool := x.srcPort != 0 && x.dstPort != 0

/-- The EXT byte of a descriptor (R153, R158). -/
def extByte (x : Descriptor) : Byte :=
  0#2 ++ BitVec.ofBool x.flags.moreData ++ BitVec.ofBool x.flags.isAck ++ BitVec.ofBool (x.hopLimit != 0)
    ++ BitVec.ofBool (x.dstPort != 0 && !bothPorts x) ++ BitVec.ofBool (x.srcPort != 0 && !bothPorts x)
    ++ BitVec.ofBool (x.authType != 0)

/-- The address combination code (R152). -/
def addrCode (x : Descriptor) : BitVec 3 :=
  BitVec.ofNat 3 (kindCode (kindOf (hdrSrc x)) + 3 * kindCode (kindOf (hdrDst x)))

/-- The FCF byte of a descriptor (R151, R158). -/
def fcfByte (x : Descriptor) : Byte :=
  BitVec.ofBool (extByte x != 0) ++ BitVec.ofBool x.flags.ackRequested ++ BitVec.ofBool (x.cost != 0)
    ++ BitVec.ofBool (x.seqnum != 0) ++ BitVec.ofBool (bothPorts x) ++ addrCode x

/-- The header bytes of a descriptor whose address combination has a code, in the order of R155. -/
def headerBytes (x : Descriptor) : List Byte :=
  [fcfByte x] ++ optByte (extByte x) ++ addrBytes (hdrSrc x) ++ addrBytes (hdrDst x)
    ++ optByte x.srcPort ++ optByte x.dstPort ++ optByte x.seqnum ++ optByte x.cost
    ++ optByte x.authType ++ optByte x.hopLimit

/-- `Build(x)` (R158); none is `Reject`, source and destination both long (R159). -/
def buildHeader (x : Descriptor) : Option (List Byte) :=
  if kindOf (hdrSrc x) = .long ∧ kindOf (hdrDst x) = .long then none else some (headerBytes x)

/-! ### Parsing -/

/-- srcKind of an FCF byte (R152). -/
def srcKindOf (fcf : Byte) : AddrKind := kindOfCode ((fcf.extractLsb' 0 3).toNat % 3)

/-- dstKind of an FCF byte (R152). -/
def dstKindOf (fcf : Byte) : AddrKind := kindOfCode ((fcf.extractLsb' 0 3).toNat / 3)

/-- hasSrcPort (R162). -/
def hasSrcPort (fcf ext : Byte) : Bool := fcf.getLsbD 3 || ext.getLsbD 1

/-- hasDstPort (R162). -/
def hasDstPort (fcf ext : Byte) : Bool := fcf.getLsbD 3 || ext.getLsbD 2

/-- `HdrLenOf(FCF, EXT)` (R162). -/
def hdrLenOf (fcf ext : Byte) : Nat :=
  1 + (fcf.getLsbD 7).toNat + kindWidth (srcKindOf fcf) + kindWidth (dstKindOf fcf)
    + (hasSrcPort fcf ext).toNat + (hasDstPort fcf ext).toNat + (fcf.getLsbD 4).toNat + (fcf.getLsbD 5).toNat
    + (ext.getLsbD 0).toNat + (ext.getLsbD 3).toNat

/-- The EXT byte a parser reads, 0 when FCF says there is none (R161). -/
def parsedExt (fcf : Byte) (rest : List Byte) : Byte := if fcf.getLsbD 7 then rest.headD 0 else 0

/-- Takes an address of a kind off the front, little-endian; UNSPEC when absent (R161). Only called where the
length has been checked. -/
def takeAddr (k : AddrKind) (b : List Byte) : Address × List Byte :=
  match k with
  | .absent => (.unspec, b)
  | .short => (.short (b.getD 1 0 ++ b.getD 0 0), b.drop 2)
  | .long =>
    (.long (b.getD 7 0 ++ b.getD 6 0 ++ b.getD 5 0 ++ b.getD 4 0 ++ b.getD 3 0 ++ b.getD 2 0 ++ b.getD 1 0
      ++ b.getD 0 0), b.drop 8)

/-- Takes a one-byte field off the front if it is present, else 0 (R161). -/
def takeByte (present : Bool) (b : List Byte) : Byte × List Byte :=
  if present then (b.headD 0, b.drop 1) else (0, b)

/-- The fields after the flag bytes, in the order of R155, of a header whose length has been checked (R161). -/
def parseFields (fcf ext : Byte) (b : List Byte) : Descriptor :=
  let (src, b) := takeAddr (srcKindOf fcf) b
  let (dst, b) := takeAddr (dstKindOf fcf) b
  let (srcPort, b) := takeByte (hasSrcPort fcf ext) b
  let (dstPort, b) := takeByte (hasDstPort fcf ext) b
  let (seqnum, b) := takeByte (fcf.getLsbD 4) b
  let (cost, b) := takeByte (fcf.getLsbD 5) b
  let (authType, b) := takeByte (ext.getLsbD 0) b
  let (hopLimit, _) := takeByte (ext.getLsbD 3) b
  { originalSrc := src, originalDst := dst, immedSrc := src, immedDst := dst
    srcPort := srcPort, dstPort := dstPort, seqnum := seqnum, cost := cost
    hopLimit := hopLimit, authType := authType
    flags := ⟨false, ext.getLsbD 5, fcf.getLsbD 6, ext.getLsbD 4⟩
    hdrLen := BitVec.ofNat 8 (hdrLenOf fcf ext), sendTime := 0 }

/-- The causes of `Fail` that the flag bytes alone show: R164 (a), (b) and (c). -/
def badFlags (longAddr : Bool) (fcf ext : Byte) : Bool :=
  ext.extractLsb' 6 2 != 0
  || fcf.getLsbD 3 && (ext.getLsbD 1 || ext.getLsbD 2)
  || !longAddr && (srcKindOf fcf == .long || dstKindOf fcf == .long)

/-- `Parse(b)` (R161); none is `Fail` (R164). -/
def parseHeader (longAddr : Bool) (b : List Byte) : Option Descriptor :=
  match b with
  | [] => none
  | fcf :: rest =>
    if fcf.getLsbD 7 ∧ rest = [] then none
    else if badFlags longAddr fcf (parsedExt fcf rest) then none
    else if b.length < hdrLenOf fcf (parsedExt fcf rest) then none
    else some (parseFields fcf (parsedExt fcf rest) (rest.drop (fcf.getLsbD 7).toNat))

end Sys2Proof.Machine
end

