-- ==== Sys2Proof/Machine/Engine.lean ====
section
/-! DEFINITION. The MAC protocol engine's procedures (spec/43_mac_tx.md): carrier sense, transmission, the
arbiter, completion, acceptance of a send, and the engine alarm's handler. The three variants are one text
with VARIANT as a condition (R182). -/

namespace Sys2Proof.Machine

/-- `Transmit(k)` (R192). -/
def transmit (k : Nat) (s : State) : State :=
  { (s.setSlot k { s.slot k with attempts := (s.slot k).attempts + 1, phase := .transmitting }) with
    radioBusy := true, txOwner := .slot, txSlot := BitVec.ofNat 8 k,
    outputs := s.outputs ++ [.radioTx (s.slot k).hdr (s.slot k).data] }

/-- The busy arm of `Sense(k)` (R190): a backoff is drawn and the engine alarm armed with it. -/
def senseBusy (k : Nat) (s : State) : State :=
  (schedMA (drawBackoff s).1 (drawBackoff s).2).setPhase k .senseBackoff

/-- `Sense(k)` (R190): the channel is asked exactly once, and the block's own busy radio counts as busy. -/
def sense (k : Nat) (s : State) : State :=
  if (askChannel s).1 && !s.radioBusy then transmit k (askChannel s).2 else senseBusy k (askChannel s).2

/-- `BeginAttempt(k)` (R188). -/
def beginAttempt (k : Nat) (s : State) : State :=
  if s.cfg.variant = .passthrough then transmit k s else sense k s

/-- `Arbitrate()` (R187). -/
def arbitrate (s : State) : State :=
  if s.radioBusy then s
  else if s.inFlight?.isSome then s
  else match s.order with
    | [] => s
    | k :: _ => beginAttempt k (s.setSlot k { s.slot k with state := .inFlight })

/-- What `Complete(k, code)` does before it arbitrates (R198): the report, the slot at its reset value, the
queue without it. -/
def release (k : Nat) (code : SendCode) (s : State) : State :=
  { (s.setSlot k Slot.reset) with
    order := s.order.filter (fun j => j != k)
    outputs := s.outputs ++ [.sendDone (BitVec.ofNat 8 k) code (s.slot k).attempts] }

/-- `Complete(k, code)` (R198). -/
def complete (k : Nat) (code : SendCode) (s : State) : State := arbitrate (release k code s)

/-- `AckWanted(k)` (R189). -/
def ackWanted (s : State) (k : Nat) : Bool :=
  s.cfg.variant == .csmaAck && (s.slot k).ackreq && !isBroadcast (s.slot k).dst

/-- `RETRY_BASE x a mod 2^32` (R196, R197). -/
def retryDelay (s : State) (k : Nat) : Word := s.cfg.retryBase * (s.slot k).attempts.zeroExtend 32

/-- The expired ack timeout of slot `k` (R196): a retry wait, or the end of the send. -/
def ackTimedOut (k : Nat) (s : State) : State :=
  if (s.slot k).attempts.toNat < s.cfg.maxAttempts.toNat then
    (schedMA (retryDelay s k) s).setPhase k .retryBackoff
  else complete k .ackTimeout s

/-- `MacAlarm()` (R196). -/
def macAlarm (s : State) : State :=
  match s.inFlight? with
  | none => s
  | some k =>
    match (s.slot k).phase with
    | .senseBackoff => sense k s
    | .awaitAck => ackTimedOut k s
    | .retryBackoff => beginAttempt k s
    | .transmitting => s
    | .none => s

/-- The slot of a packet just accepted (R183). -/
def queuedSlot (x : Descriptor) (h data : List Byte) : Slot where
  state := .queued
  phase := .none
  attempts := 0
  hdr := h
  data := data
  seq := x.seqnum
  dst := hdrDst x
  ackreq := x.flags.ackRequested

/-- What `Accept` does once its checks have passed (R183): slot `k` takes the packet, the queue its index, and
the arbiter runs. -/
def enqueue (k : Nat) (x : Descriptor) (h : List Byte) (n : Nat) (s : State) : State :=
  arbitrate { (s.setSlot k (queuedSlot x h (readTxdata s n))) with order := s.order ++ [k] }

/-- What `Accept(x, n)` answers (R183): a status that is not OK, with no state change, or the slot taken. -/
inductive Acceptance where
  | rejected (st : Status)
  | accepted (k : Nat) (s : State)

/-- `Accept(x, n)` (R183), its five checks in order. -/
def accept (x : Descriptor) (n : Nat) (s : State) : Acceptance :=
  if s.macInited = false then .rejected .badState
  else if s.cfg.bufSize.toNat < n then .rejected .tooLong
  else match buildHeader x with
    | none => .rejected .invalidAddrCombination
    | some h =>
      if s.cfg.bufSize.toNat < h.length + n then .rejected .tooLong
      else match s.freeSlot? with
        | none => .rejected .queueFull
        | some k => .accepted k (enqueue k x h n s)

end Sys2Proof.Machine
end

