-- ==== Sys2Proof/Machine/Pass.lean ====
section
/-! DEFINITION. A pass of `process()` (spec/40_alarm.md R119, R121): the loop that pops ready alarms in list
order, runs the engine's own callback inside the step and pauses at a host alarm's window. -/

namespace Sys2Proof.Machine

/-- The head alarm is ready in the running pass (R121): the list is not empty and the head's deadline is not
after proc_now. -/
def headReady (s : State) : Bool := s.hasReady s.procNow

/-- The engine alarm (an alarm whose cb is CB_MAC) when it is at the head and ready in the running pass: the arm of
R121's loop that goes on. -/
def engineDue (s : State) : Option Nat :=
  match s.alist with
  | [] => none
  | a :: _ => if s.ready a s.procNow && (s.alarm a).cb == cbMac then some a else none

/-- The end of a pass (R121). -/
def endPass (s : State) : State := { s with procState := .idle }

/-- Out of R121's loop: the window of a ready host alarm at the head, or the end of the pass. -/
def leavePass (s : State) : State :=
  match s.alist with
  | [] => endPass s
  | a :: _ =>
    if s.ready a s.procNow && (s.alarm a).cb != cbMac then openWindow a (removeAlarm a s) else endPass s

/-- `s` with these answers and draws supplied for the coming queries. -/
def withAnswers (answers : List Bool) (draws : List Word) (s : State) : State :=
  { s with channelAnswers := answers, draws := draws }

/-- One round of R121's loop with the engine alarm `a`, in which the channel answers `x.1` and `x.2` is drawn. -/
def answeredRound (a : Nat) (s : State) (x : Bool × Word) : State :=
  macAlarm (withAnswers [x.1] [x.2] (removeAlarm a s))

/-- The backoffs at which the answer to "does the loop go on" can change: the shortest, the one that arms the engine
alarm for the first tick after proc_now (R115), and the one that puts it behind the next alarm in the list (R114). If
any backoff ends the loop, one of these does. -/
def turningDraws (a : Nat) (s : State) : List Word :=
  [1, s.procNow + 1 - s.jiffies]
    ++ (removeAlarm a s).alist.head?.toList.map (fun e => (s.alarm e).when - s.jiffies)

/-- Answers of the outside after which the loop does not go on: the free values, unless with them it goes on; else some
others that end it; none if there are none. -/
def endingAnswers (a : Nat) (s : State) : Option (Bool × Word) :=
  ((Config.channelClear s.queries, Config.backoffDraw s.queries)
      :: (true, 1) :: (turningDraws a s).map (fun r => (false, r))).find?
    (fun x => (engineDue (answeredRound a s x)).isNone)

/-- The rest of a loop of re-senses, `a` being the engine alarm. Of its rounds only the last leaves a trace, but for the
deadline of the round before, which a clear answer leaves behind (R43) and which is a free value already; so the last
round is run, with answers that end the loop. A loop that no answer ends is given up, because every step terminates (R313; log entry 8). -/
def restOfLoop (a : Nat) (s : State) : State :=
  match endingAnswers a s with
  | none => s
  | some x => withAnswers s.channelAnswers s.draws { answeredRound a s x with queries := s.queries + 1 }

/-- The loop of `RunPass()` (R121): its first `rounds` rounds with the engine alarm one by one, then the rest of it. -/
def runPass : Nat → State → State
  | 0, s =>
    match engineDue s with
    | none => leavePass s
    | some a => leavePass (restOfLoop a s)
  | rounds + 1, s =>
    match engineDue s with
    | none => leavePass s
    | some a => runPass rounds (macAlarm (removeAlarm a s))

/-- How many rounds are run one by one: more than every answer supplied takes, so that the last of them, and all that
are left, can only be re-senses that the free values answer. -/
def passRounds (s : State) : Nat := s.alist.length + s.channelAnswers.length + s.draws.length + 4

/-- `RunPass()` (R121) entered in `s`. -/
def pass (s : State) : State := runPass (passRounds s) s

/-- A new pass: "now" is sampled once for the whole pass (R119, R124). -/
def startPass (s : State) : State := pass { s with procNow := s.jiffies }

/-- The continued pass after a callback, with the same proc_now (R122). -/
def resumePass (s : State) : State := pass (closeWindow s)

end Sys2Proof.Machine
end

