-- ==== Sys2Proof/Machine/Alarms.lean ====
section
/-! DEFINITION. The alarm scheduler's commands (spec/40_alarm.md): ALARM_INIT, ALARM_SCHED, ALARM_CANCEL,
ALARM_PROCESS, ALARM_PEEK, ALARM_HASPENDING, ALARM_HASREADY, CB_RETURN. -/

namespace Sys2Proof.Machine

/-- The index check of R112: A >= N_ALARMS is no host alarm. -/
def hostAlarm (s : State) (alarm : Byte) : Bool := decide (alarm.toNat < s.cfg.nAlarms.toNat)

/-- What ALARM_INIT does to alarm `i` (R116): cancelled, then bound; `when` stays. -/
def bindAlarm (i : Nat) (cb : Half) (arg : Word) (s : State) : State :=
  (removeAlarm i s).setAlarm i { (removeAlarm i s).alarm i with cb := cb, arg := arg, bound := true }

/-- ALARM_INIT (R116). -/
def execAlarmInit (alarm : Byte) (cb : Half) (arg : Word) (s : State) : Result :=
  if hostAlarm s alarm = false then answer Op.alarmInit .badArg 0 s
  else if cb = cbMac then answer Op.alarmInit .badArg 0 s
  else answer Op.alarmInit .ok 0 (bindAlarm alarm.toNat cb arg s)

/-- ALARM_SCHED (R117). -/
def execAlarmSched (alarm : Byte) (delayMs : Word) (s : State) : Result :=
  if hostAlarm s alarm = false then answer Op.alarmSched .badArg 0 s
  else if (s.alarm alarm.toNat).bound = false then answer Op.alarmSched .badState 0 s
  else answer Op.alarmSched .ok (deadline s.jiffies delayMs) (armAlarm alarm.toNat delayMs s)

/-- ALARM_CANCEL (R118). -/
def execAlarmCancel (alarm : Byte) (s : State) : Result :=
  if hostAlarm s alarm = false then answer Op.alarmCancel .badArg 0 s
  else answer Op.alarmCancel .ok (boolWord ((s.alarm alarm.toNat).state == .scheduled))
    (removeAlarm alarm.toNat s)

/-- The end of a command that ran a pass (R119, R122): the value says whether it paused in a window. -/
def answerPass (op : Byte) (t : State) : Result := answer op .ok (boolWord t.inCallback) t

/-- ALARM_PROCESS (R119). -/
def execAlarmProcess (s : State) : Result :=
  if s.procState = .inCallback then answer Op.alarmProcess .badState 0 s
  else answerPass Op.alarmProcess (startPass { s with pendingWork := false })

/-- ALARM_PEEK (R126). -/
def execAlarmPeek (s : State) : Result :=
  match s.alist with
  | [] => answer Op.alarmPeek .empty 0 s
  | a :: _ => answer Op.alarmPeek .ok (s.alarm a).when s

/-- ALARM_HASPENDING (R127). -/
def execAlarmHasPending (s : State) : Result := answer Op.alarmHasPending .ok (boolWord s.hasPending) s

/-- ALARM_HASREADY (R128). -/
def execAlarmHasReady (now : Word) (s : State) : Result :=
  answer Op.alarmHasReady .ok (boolWord (s.hasReady now)) s

/-- CB_RETURN (R122). -/
def execCbReturn (s : State) : Result :=
  if s.procState = .idle then answer Op.cbReturn .badState 0 s
  else answerPass Op.cbReturn (resumePass s)

end Sys2Proof.Machine
end

