-- ==== Sys2Proof/Machine/Headers.lean ====
section
/-! DEFINITION. The codec's commands (spec/42_codec.md): HDR_BUILD, HDR_PARSE. -/

namespace Sys2Proof.Machine

/-- HDR_BUILD (R166). -/
def execHdrBuild (s : State) : Result :=
  match buildHeader (descOf s.cfg s.txinfo) with
  | none => answer Op.hdrBuild .invalidAddrCombination 0 s
  | some h =>
    answer Op.hdrBuild .ok (BitVec.ofNat 32 h.length)
      { s with hdrbuf := s.hdrbuf.writeBytes 0 h, hdrLen := BitVec.ofNat 8 h.length }

/-- What HDR_PARSE leaves when its length fits (R170, R171). -/
def parseAnswer (s : State) : Option Descriptor → State
  | none => s.respond Op.hdrParse .malformedHeader 0
  | some x =>
    { s with pinfo := regsOfDesc x, pinfoHdrLen := x.hdrLen }.respond Op.hdrParse .ok (x.hdrLen.zeroExtend 32)

/-- HDR_PARSE (R170, R171). -/
def execHdrParse (len : Half) (s : State) : Result :=
  if s.cfg.bufSize.toNat < len.toNat then answer Op.hdrParse .badArg 0 s
  else .next (parseAnswer s (parseHeader s.cfg.longAddr (readTxdata s len.toNat)))

end Sys2Proof.Machine
end

