-- ==== Sys2Proof/Machine/Mac.lean ====
section
/-! DEFINITION. The engine's commands (spec/43_mac_tx.md): MAC_INIT, MAC_SEND, MAC_SEND_EX, MAC_POLL,
MAC_ISKNOWN, MAC_CANCEL. -/

namespace Sys2Proof.Machine

/-- What MAC_INIT does (R181): the engine alarm is bound, the radio switched on. -/
def initEngine (s : State) : State :=
  { (s.setAlarm s.engineAlarm { s.alarm s.engineAlarm with cb := cbMac, arg := 0, bound := true }) with
    macInited := true, outputs := s.outputs ++ [.radioOn] }

/-- MAC_INIT (R181). -/
def execMacInit (s : State) : Result :=
  if s.macInited then answer Op.macInit .badState 0 s else answer Op.macInit .ok 0 (initEngine s)

/-- MAC_SEND's descriptor (R184). -/
def sendDescriptor (s : State) (ackReq : Bool) (dst : Address) : Descriptor :=
  { Descriptor.empty with
    originalSrc := shortAddr s.localShort
    originalDst := dst
    seqnum := s.macSeq
    flags := ⟨true, false, ackReq, false⟩ }

/-- MAC_SEND's destination (R184): staged in TXINFO.originalDst, or the short address B. -/
def sendDst (s : State) (dstStaged : Bool) (dst : Half) : Address :=
  if dstStaged then addrOf s.cfg s.txinfo.originalDst else shortAddr dst

/-- MAC_SEND (R184); B not 0 with DST_STAGED is BAD_ARG before any other check (R184, R260). -/
def execMacSend (dstStaged ackReq : Bool) (dst len : Half) (s : State) : Result :=
  if dstStaged = true ∧ dst ≠ 0 then answer Op.macSend .badArg 0 s
  else match accept (sendDescriptor s ackReq (sendDst s dstStaged dst)) len.toNat s with
    | .rejected st => answer Op.macSend st 0 s
    | .accepted k t => answer Op.macSend .ok (BitVec.ofNat 32 k) { t with macSeq := t.macSeq + 1 }

/-- MAC_SEND_EX (R185). -/
def execMacSendEx (len : Half) (s : State) : Result :=
  match accept (descOf s.cfg s.txinfo) len.toNat s with
  | .rejected st => answer Op.macSendEx st 0 s
  | .accepted k t => answer Op.macSendEx .ok (BitVec.ofNat 32 k) t

/-- MAC_POLL (R206). -/
def execMacPoll (s : State) : Result := answer Op.macPoll .ok (BitVec.ofNat 32 s.order.length) s

/-- MAC_ISKNOWN (R207): no variant in scope has a neighbour table, so the address is not looked at. -/
def execMacIsKnown (_ : AddrSel) (s : State) : Result := answer Op.macIsKnown .ok 1 s

/-- What MAC_CANCEL does to the radio's owner and the engine alarm before the slot is completed (R204). -/
def abandon (k : Nat) (s : State) : State :=
  if (s.slot k).state = .inFlight then
    if (s.slot k).phase = .transmitting then { s with txOwner := .orphan } else cancelMA s
  else s

/-- MAC_CANCEL (R204). -/
def execMacCancel (slot : Byte) (s : State) : Result :=
  if s.macInited = false then answer Op.macCancel .badState 0 s
  else if s.cfg.queueCap.toNat ≤ slot.toNat then answer Op.macCancel .badArg 0 s
  else if (s.slot slot.toNat).state = .idle then answer Op.macCancel .badState 0 s
  else answer Op.macCancel .ok 0 (complete slot.toNat .cancelled (abandon slot.toNat s))

end Sys2Proof.Machine
end

