-- ==== Sys2Proof/Machine/Port.lean ====
section
/-! DEFINITION. The port access commands (spec/46_port_access.md): NOP, RDREG, WRREG, WRBUF, RDBUF. -/

namespace Sys2Proof.Machine

/-- NOP (R250). -/
def execNop (s : State) : Result := answer Op.nop .ok 0 s

/-- RDREG (R251). -/
def execRdreg (reg : Half) (s : State) : Result :=
  match regAt s.cfg reg with
  | none => answer Op.rdreg .badArg 0 s
  | some r => answer Op.rdreg .ok (readReg s r) s

/-- WRREG (R252). -/
def execWrreg (reg : Half) (value : Word) (s : State) : Result :=
  match (regAt s.cfg reg).bind (writeReg s value) with
  | none => answer Op.wrreg .badArg 0 s
  | some t => answer Op.wrreg .ok 0 t

/-- WRBUF (R253). -/
def execWrbuf (offset : Half) (byte : Byte) (s : State) : Result :=
  if s.cfg.bufSize.toNat ≤ offset.toNat then answer Op.wrbuf .badArg 0 s
  else answer Op.wrbuf .ok 0 { s with txdata := s.txdata.write offset.toNat byte }

/-- RDBUF (R254). -/
def execRdbuf (buf : Buffer) (offset : Half) (s : State) : Result :=
  if bufferSize s.cfg buf ≤ offset.toNat then answer Op.rdbuf .badArg 0 s
  else answer Op.rdbuf .ok ((bufferByte s buf offset.toNat).zeroExtend 32) s

end Sys2Proof.Machine
end

