-- ==== Sys2Proof/Machine/Dispatch.lean ====
section
/-! DEFINITION. One arm per command of the opcode map (spec/30_encoding.md R82). -/

namespace Sys2Proof.Machine

/-- The meaning of a command (R81 (3)). -/
def exec (i : Instr) (s : State) : Host.Outcome State Fault Refusal :=
  match i with
  | .nop => Sys2Proof.Machine.execNop s
  | .rdreg reg => Sys2Proof.Machine.execRdreg reg s
  | .wrreg reg value => Sys2Proof.Machine.execWrreg reg value s
  | .wrbuf offset byte => Sys2Proof.Machine.execWrbuf offset byte s
  | .rdbuf buf offset => Sys2Proof.Machine.execRdbuf buf offset s
  | .alarmInit alarm cb arg => Sys2Proof.Machine.execAlarmInit alarm cb arg s
  | .alarmSched alarm delayMs => Sys2Proof.Machine.execAlarmSched alarm delayMs s
  | .alarmCancel alarm => Sys2Proof.Machine.execAlarmCancel alarm s
  | .alarmProcess => Sys2Proof.Machine.execAlarmProcess s
  | .alarmPeek => Sys2Proof.Machine.execAlarmPeek s
  | .alarmHasPending => Sys2Proof.Machine.execAlarmHasPending s
  | .alarmHasReady now => Sys2Proof.Machine.execAlarmHasReady now s
  | .cbReturn => Sys2Proof.Machine.execCbReturn s
  | .addrMake sel value => Sys2Proof.Machine.execAddrMake sel value s
  | .addrClass sel => Sys2Proof.Machine.execAddrClass sel s
  | .addrEq sel1 sel2 => Sys2Proof.Machine.execAddrEq sel1 sel2 s
  | .hdrBuild => Sys2Proof.Machine.execHdrBuild s
  | .hdrParse len => Sys2Proof.Machine.execHdrParse len s
  | .macInit => Sys2Proof.Machine.execMacInit s
  | .macSend dstStaged ackReq dst len => Sys2Proof.Machine.execMacSend dstStaged ackReq dst len s
  | .macSendEx len => Sys2Proof.Machine.execMacSendEx len s
  | .macPoll => Sys2Proof.Machine.execMacPoll s
  | .macIsKnown sel => Sys2Proof.Machine.execMacIsKnown sel s
  | .macCancel slot => Sys2Proof.Machine.execMacCancel slot s

end Sys2Proof.Machine
end

