-- ==== Sys2Proof/Machine/Events.lean ====
section
/-! DEFINITION. The three input events (spec/30_encoding.md R87) and the reset input: TICK
(spec/40_alarm.md R124), RADIO_RX (spec/44_mac_rx.md R220 to R231), RADIO_TXDONE (spec/43_mac_tx.md R193) and
reset (spec/70_reset_and_hazards.md R300). Events are the block's interrupts (spec/60_exceptions.md R270); an
event has no response. -/

namespace Sys2Proof.Machine

/-! ### TICK -/

/-- TICK after the counter has advanced (R124). -/
def tickWork (s : State) : State :=
  if s.hasReady s.jiffies then
    if s.cfg.threaded then { s with pendingWork := true }
    else if s.procState = .idle then startPass s
    else s
  else s

/-- TICK (R124). -/
def onTick (s : State) : State := tickWork { s with jiffies := s.jiffies + 1 }

/-! ### RADIO_TXDONE -/

/-- The radio is free again (R193). -/
def radioFree (s : State) : State := { s with radioBusy := false, txOwner := .none }

/-- The completion code of a frame nobody is to acknowledge (R193, R194). -/
def txDoneCode (status : Byte) : SendCode := if status = 0 then .sendOk else .radioFail

/-- The transmission of slot `k` has ended (R193): the ack wait, or the end of the send. -/
def slotSent (k : Nat) (status : Byte) (s : State) : State :=
  if ackWanted s k then (schedMA s.cfg.ackTimeout s).setPhase k .awaitAck
  else complete k (txDoneCode status) s

/-- RADIO_TXDONE (R193). -/
def onTxDone (status : Byte) (s : State) : State :=
  if s.radioBusy = false then s.emit (.diag .spuriousTxDone)
  else if s.txOwner = .slot then arbitrate (slotSent s.txSlot.toNat status (radioFree s))
  else arbitrate (radioFree s)

/-! ### RADIO_RX -/

/-- The source of the acknowledgement of a frame addressed to `d` (R227). -/
def ackSource (s : State) (d : Address) : Address := if isLocal s d then d else shortAddr s.localShort

/-- The descriptor of the automatic acknowledgement of `x` (R227). -/
def ackDescriptor (s : State) (x : Descriptor) : Descriptor :=
  { Descriptor.empty with
    immedSrc := ackSource s x.immedDst
    immedDst := x.immedSrc
    seqnum := x.seqnum
    flags := ⟨false, false, false, true⟩ }

/-- The acknowledgement frame goes to the radio, past the queue and without carrier sense (R227). -/
def transmitAck (h : List Byte) (s : State) : State :=
  { s with radioBusy := true, txOwner := .ack, outputs := s.outputs ++ [.radioTx h []] }

/-- Step 6, the automatic acknowledgement (R227). -/
def autoAck (x : Descriptor) (s : State) : State :=
  if isUnspecified x.immedSrc then s.emit (.diag .ackNotSent)
  else match buildHeader (ackDescriptor s x) with
    | none => s.emit (.diag .ackNotSent)
    | some h => if s.radioBusy then s.emit (.diag .ackNotSent) else transmitAck h s

/-- The acknowledgement `x` matches slot `k` (R225). -/
def ackMatches (s : State) (x : Descriptor) (k : Nat) : Bool :=
  (s.slot k).phase == .awaitAck && x.seqnum == (s.slot k).seq && addrEq x.immedSrc (s.slot k).dst

/-- Step 5, acknowledgement matching (R225). -/
def matchAck (x : Descriptor) (s : State) : State :=
  match s.inFlight? with
  | none => s.emit (.diag .ackUnmatched)
  | some k => if ackMatches s x k then complete k .sendOk (cancelMA s) else s.emit (.diag .ackUnmatched)

/-- Steps 6 and 7: the acknowledgement, if this variant sends one and the frame asks for it, then the upward
delivery (R226, R227, R228). -/
def deliver (x : Descriptor) (payload : List Byte) (s : State) : State :=
  (if s.cfg.variant = .csmaAck ∧ x.flags.ackRequested then autoAck x s else s).emit (.rxDeliver x payload)

/-- Steps 4 to 7 on a frame that parsed (R223 to R228). -/
def receiveParsed (x : Descriptor) (payload : List Byte) (s : State) : State :=
  if !(isLocal s x.immedDst || isBroadcast x.immedDst) then s.emit (.diag .rxNotForUs)
  else if s.cfg.variant = .csmaAck ∧ x.flags.isAck then matchAck x s
  else deliver x payload s

/-- RADIO_RX (R220 to R231). -/
def onRadioRx (frame : List Byte) (s : State) : State :=
  if s.macInited = false then s.emit (.diag .rxNotInit)
  else if s.cfg.bufSize.toNat < frame.length then s.emit (.diag .rxTooLong)
  else match parseHeader s.cfg.longAddr frame with
    | none => s.emit (.diag .rxMalformed)
    | some x => receiveParsed x (frame.drop x.hdrLen.toNat) s

/-! ### Reset -/

/-- The reset input (R300): every piece of the block's state takes its reset value; the parameters stay, and so
do the model's own fields, which stand outside the block (log entry 7). -/
def onReset (s : State) : State :=
  { State.resetOf s.cfg with
    inputs := s.inputs
    channelAnswers := s.channelAnswers
    draws := s.draws
    queries := s.queries
    resets := s.resets + 1
    responses := s.responses
    outputs := s.outputs }

end Sys2Proof.Machine
end

