-- ==== Sys2Proof/Machine/Fetch.lean ====
section
/-! DEFINITION. Which waiting input is taken next (spec/60_exceptions.md R271, R272, R286), and what a
command word does (spec/30_encoding.md R81). -/

namespace Sys2Proof.Machine

/-- The hold (R286): THREADED = 0 and a callback window is open. -/
def State.holdsEvents (s : State) : Bool := !s.cfg.threaded && s.inCallback

/-- An input can be taken unless it is one of the three events and events are held (R286). -/
def takeable (held : Bool) : Input → Bool
  | .command _ => true
  | .tick => !held
  | .radioRx _ => !held
  | .radioTxDone _ => !held
  | .reset => true

/-- The first input that can be taken, and the others in their order: a held event stays with its source (R271)
and nothing overtakes an input of its own source (R272). -/
def takeFirst (held : Bool) : List Input → Option (Input × List Input)
  | [] => none
  | x :: xs =>
    if takeable held x then some (x, xs)
    else match takeFirst held xs with
      | none => none
      | some (y, ys) => some (y, x :: ys)

/-- The input this step takes and the state without it, if any input can be taken. -/
def takeInput (s : State) : Option (Input × State) :=
  match takeFirst s.holdsEvents s.inputs with
  | none => none
  | some (x, rest) => some (x, { s with inputs := rest })

/-- A command word at the command port (R81): the decoded command, or its rejection with the word's OP echoed. -/
def runWord (c : DWord) (s : State) : Result :=
  match decode c with
  | .ok i => exec i s
  | .illegalOpcode => answer (splitWord c).op .illegalCmd 0 s
  | .reservedField => answer (splitWord c).op .badArg 0 s

/-- The step that an input causes (R5). -/
def runInput (x : Input) (s : State) : Result :=
  match x with
  | .command c => runWord c s
  | .tick => .next (onTick s)
  | .radioRx frame => .next (onRadioRx frame s)
  | .radioTxDone status => .next (onTxDone status s)
  | .reset => .next (onReset s)

/-- One step (R5, R14): the first input that can be taken, or nothing at all when there is none (log entry 2). -/
def takeAndRun (s : State) : Result :=
  match takeInput s with
  | none => .next s
  | some (x, t) => runInput x t

/-- A command word placed in front of every waiting input. -/
def offerFirst (c : DWord) (s : State) : State := { s with inputs := .command c :: s.inputs }

end Sys2Proof.Machine
end

