-- ==== Sys2Proof/Machine/Step.lean ====
section
/-! DEFINITION. One step of the block, and the placing of a command where the next step takes it. -/

namespace Sys2Proof.Machine

/-- One step. A configuration outside R8's ranges is refused (R9). -/
def step (s : State) : Host.Outcome State Fault Refusal :=
  if s.cfg.legal then takeAndRun s else .refused .illegalConfiguration

/-- The host presents the command word whose bits are `w` at the command port, in front of every waiting input
(spec/30_encoding.md R80; log entry 2). Bits above `nbits` are 0. -/
def State.withFetchWord (s : State) (nbits w : Nat) : State := offerFirst (BitVec.ofNat 64 (w % 2 ^ nbits)) s

end Sys2Proof.Machine
end

