-- ==== Sys2Proof/Safety.lean ====
section
/-! DEFINITION. What counts as a sound state and a safe step, in the terms the statements use: the invariants
that spec/10_state.md R24, R25, R35 to R37 and spec/43_mac_tx.md R192, R200 state of every reachable state. -/

namespace Sys2Proof.Machine

/-- A step is safe when it answers a next state. -/
def Safe (r : Result) : Prop := ∃ t, r = .next t

/-- Every byte of both buffers reads in `t` as in `s`. -/
def SameBytes (s t : State) : Prop := ∀ b a, bufferByte t b a = bufferByte s b a

/-- How many SEND_DONE outputs a trace holds. -/
def sendDoneCount (os : List Output) : Nat :=
  os.countP (fun o => match o with | .sendDone _ _ _ => true | _ => false)

/-- Every backoff the engine may draw, measured from the pass's own time, stays below half the tick range: what R199
presumes of an alarm armed inside a pass (R115, R311). -/
def PassSpan (s : State) : Prop := (s.jiffies - s.procNow).toNat + s.cfg.maxInitBackoff.toNat < 2 ^ 31

/-- The tables have the sizes the parameters give them (R23, R36). -/
def TablesSized (s : State) : Prop :=
  s.alarms.length = s.cfg.nAlarms.toNat + 1 ∧ s.slots.length = s.cfg.queueCap.toNat

/-- The buffers are in canonical form and hold no byte beyond their size (R61). -/
def BuffersCanonical (s : State) : Prop :=
  (s.txdata.wf = true ∧ s.txdata.below s.cfg.bufSize.toNat = true)
  ∧ (s.hdrbuf.wf = true ∧ s.hdrbuf.below hdrbufSize = true)

/-- R24 (a): the alarm list holds exactly the SCHEDULED alarms, each once. -/
structure AlarmListSound (s : State) : Prop where
  nodup : s.alist.Nodup
  mem_iff : ∀ i, i ∈ s.alist ↔ (s.alarm i).state = .scheduled

/-- Who may hold CB_MAC (R23, R116, R181): the engine alarm once MAC_INIT has bound it, no host alarm. -/
structure BindingSound (s : State) : Prop where
  host : ∀ i, i < s.cfg.nAlarms.toNat → (s.alarm i).cb ≠ cbMac
  engine : s.macInited = true → (s.alarm s.engineAlarm).cb = cbMac ∧ (s.alarm s.engineAlarm).bound = true

/-- R25, R41, R44, R286: the latches are clear unless a window is open; the window is a host alarm's; with
THREADED = 0 time stands still in a window and PENDING_WORK is never raised. -/
structure WindowSound (s : State) : Prop where
  idle : s.procState = .idle → s.fireId = 0 ∧ s.fireCb = 0 ∧ s.fireArg = 0
  host : s.procState = .inCallback → s.fireId.toNat < s.cfg.nAlarms.toNat
  still : s.cfg.threaded = false → s.procState = .inCallback → s.procNow = s.jiffies
  pending : s.cfg.threaded = false → s.pendingWork = false

/-- R36, R37: the queue order holds exactly the slots that are not IDLE, each once; a slot IN_FLIGHT is its head;
`phase` is NONE exactly when the slot is not IN_FLIGHT; an IDLE slot is at its reset value. -/
structure QueueSound (s : State) : Prop where
  nodup : s.order.Nodup
  mem_iff : ∀ k, k ∈ s.order ↔ (s.slot k).state ≠ .idle
  head : ∀ k, (s.slot k).state = .inFlight → s.order.head? = some k
  phase : ∀ k, (s.slot k).phase = .none ↔ (s.slot k).state ≠ .inFlight
  idle : ∀ k, (s.slot k).state = .idle → s.slot k = Slot.reset
  uninit : s.macInited = false → s.order = []

/-- R35, R200: the radio is busy exactly when it has an owner; the owner is SLOT exactly while a slot is
TRANSMITTING, and tx_slot names it; the engine alarm is SCHEDULED exactly while the slot in flight waits. -/
structure RadioSound (s : State) : Prop where
  busy_iff : s.radioBusy = false ↔ s.txOwner = .none
  owner_iff : s.txOwner = .slot ↔ ∃ k, (s.slot k).phase = .transmitting
  txSlot : ∀ k, (s.slot k).phase = .transmitting → s.txSlot.toNat = k
  alarm_iff : (s.alarm s.engineAlarm).state = .scheduled ↔
    ∃ k, (s.slot k).state = .inFlight ∧ (s.slot k).phase ≠ .transmitting

/-- R36, R192, R196: an occupied slot's frame fits BUF_SIZE, its header is 1 to 18 bytes, and `attempts` stays
within MAX_ATTEMPTS, below it where another transmission is still to come. -/
structure SlotsBounded (s : State) : Prop where
  frame : ∀ k, (s.slot k).state ≠ .idle →
    1 ≤ (s.slot k).hdr.length ∧ (s.slot k).hdr.length ≤ hdrbufSize
      ∧ (s.slot k).hdr.length + (s.slot k).data.length ≤ s.cfg.bufSize.toNat
  queued : ∀ k, (s.slot k).state = .queued → (s.slot k).attempts = 0
  waiting : ∀ k, (s.slot k).phase = .senseBackoff ∨ (s.slot k).phase = .retryBackoff →
    (s.slot k).attempts.toNat < s.cfg.maxAttempts.toNat
  sent : ∀ k, (s.slot k).phase = .transmitting ∨ (s.slot k).phase = .awaitAck →
    1 ≤ (s.slot k).attempts.toNat ∧ (s.slot k).attempts.toNat ≤ s.cfg.maxAttempts.toNat

/-- R27: LOCAL_LONG exists only when LONG_ADDR = 1. -/
def LongLocalSound (s : State) : Prop := s.cfg.longAddr = false → s.localLong = 0

/-- Everything together. -/
structure Inv (s : State) : Prop where
  tables : TablesSized s
  buffers : BuffersCanonical s
  alist : AlarmListSound s
  binding : BindingSound s
  window : WindowSound s
  queue : QueueSound s
  radio : RadioSound s
  slots : SlotsBounded s
  longLocal : LongLocalSound s

end Sys2Proof.Machine
end

