-- ==== Sys2Proof/WellFormed.lean ====
section
/-! DEFINITION. What the encoding asks of a command beyond the widths its operand types already carry
(spec/30_encoding.md R80, R82). -/

namespace Sys2Proof

/-- The operand rule that a word can break after its must-be-zero fields have passed: MAC_SEND's "B must be
0 when A[0] = 1" (spec/43_mac_tx.md R184). Every other command's operands are bounded by their types. The
ill-formed MAC_SEND still decodes, and its meaning answers BAD_ARG (spec/60_exceptions.md R260). -/
def Instr.wellFormed : Instr → Bool
  | .macSend dstStaged _ dst _ => !dstStaged || dst == 0
  | .nop => true
  | .rdreg _ => true
  | .wrreg _ _ => true
  | .wrbuf _ _ => true
  | .rdbuf _ _ => true
  | .alarmInit _ _ _ => true
  | .alarmSched _ _ => true
  | .alarmCancel _ => true
  | .alarmProcess => true
  | .alarmPeek => true
  | .alarmHasPending => true
  | .alarmHasReady _ => true
  | .cbReturn => true
  | .addrMake _ _ => true
  | .addrClass _ => true
  | .addrEq _ _ => true
  | .hdrBuild => true
  | .hdrParse _ => true
  | .macInit => true
  | .macSendEx _ => true
  | .macPoll => true
  | .macIsKnown _ => true
  | .macCancel _ => true

end Sys2Proof
end

