-- ==== Sys2Proof/Certificates/Slice0/Obligations.lean ====
section
/-! DEFINITION. What is to be proved of the model: one `def Obligations.<Name> : Prop` per statement, each with
the spec's sentence or section it formalises. The definitions before them only name what several statements
say. -/

namespace Sys2Proof

open Sys2Proof.Machine

/-- Mask and match of every row of spec/opcode_table.json, in the table's order. -/
def opcodeRows : List (DWord × DWord) :=
  [(0xFFFFFFFFFFFFFFFF, 0x00), (0xFFFFFFFF0000FFFF, 0x01), (0x000000000000FFFF, 0x02),
   (0xFFFFFF000000FFFF, 0x03), (0xFFFFFFFF0000FEFF, 0x04), (0x00000000000000FF, 0x10),
   (0x00000000FFFF00FF, 0x11), (0xFFFFFFFFFFFF00FF, 0x12), (0xFFFFFFFFFFFFFFFF, 0x13),
   (0xFFFFFFFFFFFFFFFF, 0x14), (0xFFFFFFFFFFFFFFFF, 0x15), (0x00000000FFFFFFFF, 0x16)]
  ++ [(0xFFFFFFFFFFFFFFFF, 0x17), (0xFFFFFFFF0000FCFF, 0x20), (0xFFFFFFFFFFFFF8FF, 0x21),
   (0xFFFFFFFFFFF8F8FF, 0x22), (0xFFFFFFFFFFFFFFFF, 0x30), (0xFFFF0000FFFFFFFF, 0x31),
   (0xFFFFFFFFFFFFFFFF, 0x40), (0xFFFF00000000FCFF, 0x41), (0xFFFF0000FFFFFFFF, 0x42),
   (0xFFFFFFFFFFFFFFFF, 0x43), (0xFFFFFFFFFFFFF8FF, 0x44), (0xFFFFFFFFFFFF00FF, 0x45)]

/-- `s` after a command that only answers. -/
def answered (s : State) (op : Byte) (st : Status) (v : Word) : State :=
  { s with responses := s.responses ++ [responseWord op st v] }

/-- `0 < (a - b) mod 2^32 < 2^31` in plain arithmetic (R115). -/
def IsAfter (a b : Word) : Prop :=
  0 < (a.toNat + 2 ^ 32 - b.toNat) % 2 ^ 32 ∧ (a.toNat + 2 ^ 32 - b.toNat) % 2 ^ 32 < 2 ^ 31

/-- An event of R87. -/
def IsEvent (x : Input) : Prop := x = .tick ∨ (∃ f, x = .radioRx f) ∨ ∃ st, x = .radioTxDone st

/-- A writable register number (R252). -/
def WritableNumber (n : Half) : Prop :=
  n = 0x0013 ∨ n = 0x0014 ∨ n = 0x0015 ∨ (0x0040 ≤ n.toNat ∧ n.toNat ≤ 0x004F)

/-- A mapped register number in configuration `c` (R40, R251). -/
def MappedNumber (c : Config) (n : Half) : Prop :=
  n.toNat ≤ 0x0008 ∨ (0x0010 ≤ n.toNat ∧ n.toNat ≤ 0x0017)
  ∨ (0x0040 ≤ n.toNat ∧ n.toNat ≤ 0x0050) ∨ (0x0060 ≤ n.toNat ∧ n.toNat ≤ 0x0070)
  ∨ (∃ i j, i ≤ c.nAlarms.toNat ∧ j ≤ 2 ∧ n.toNat = 0x0100 + 4 * i + j)
  ∨ ∃ k j, k < c.queueCap.toNat ∧ j ≤ 1 ∧ n.toNat = 0x1000 + 4 * k + j

/-- MAC_SEND's descriptor as R184 lists its fields. -/
def macSendPacket (s : State) (dstStaged ackReq : Bool) (dst : Half) : Descriptor where
  originalSrc := .short s.localShort
  originalDst := if dstStaged then addrOf s.cfg s.txinfo.originalDst else .short dst
  immedSrc := .short 0
  immedDst := .short 0
  srcPort := 0
  dstPort := 0
  seqnum := s.macSeq
  cost := 0
  hopLimit := 0
  authType := 0
  flags := { locallyOriginated := true, moreData := false, ackRequested := ackReq, isAck := false }
  hdrLen := 0
  sendTime := 0

/-- A slot that holds packet `x` with header `h` and payload `d`. -/
def packetSlot (st : SlotState) (ph : Phase) (attempts : Byte) (x : Descriptor) (h d : List Byte) : Slot where
  state := st
  phase := ph
  attempts := attempts
  hdr := h
  data := d
  seq := x.seqnum
  dst := if isUnspecified x.immedDst then x.originalDst else x.immedDst
  ackreq := x.flags.ackRequested

/-- The first `n` bytes of TXDATA. -/
def payload (s : State) (n : Half) : List Byte := (List.range n.toNat).map (fun a => bufferByte s .txdata a)

/-- `k` is the lowest index of an IDLE slot. -/
def LowestFree (s : State) (k : Nat) : Prop :=
  k < s.slots.length ∧ (s.slot k).state = .idle ∧ ∀ j, j < k → (s.slot j).state ≠ .idle

/-- The checks of R183 all pass: packet `x` with header `h` and `n` bytes of payload goes into slot `k`. -/
def Acceptable (s : State) (x : Descriptor) (h : List Byte) (n : Half) (k : Nat) : Prop :=
  s.macInited = true ∧ n.toNat ≤ s.cfg.bufSize.toNat ∧ buildHeader x = some h
  ∧ h.length + n.toNat ≤ s.cfg.bufSize.toNat ∧ LowestFree s k

/-- Slot `k` heads the queue and is in flight, alone; other packets may wait behind it. -/
def HeadInFlight (s : State) (k : Nat) : Prop :=
  k < s.slots.length ∧ s.order.head? = some k ∧ s.order.Nodup ∧ (∀ j ∈ s.order, j < s.slots.length)
  ∧ (s.slot k).state = .inFlight ∧ ∀ j, j ≠ k → (s.slot j).state ≠ .inFlight

/-- The engine alarm is armed `d` ticks from now: unlinked, then inserted behind every alarm that is not due later;
no other alarm is touched and the others keep their order. -/
def EngineArmed (s t : State) (d : Word) : Prop :=
  t.alarm s.engineAlarm = { s.alarm s.engineAlarm with when := s.jiffies + d, state := .scheduled }
  ∧ (∀ i, i ≠ s.engineAlarm → t.alarm i = s.alarm i)
  ∧ ∃ l1 l2, s.alist.filter (fun j => j != s.engineAlarm) = l1 ++ l2 ∧ t.alist = l1 ++ s.engineAlarm :: l2
    ∧ (∀ e ∈ l1, ¬ IsAfter (s.alarm e).when (s.jiffies + d))
    ∧ ∀ e, l2.head? = some e → IsAfter (s.alarm e).when (s.jiffies + d)

/-- The frame of slot `k` on the air (R192). -/
def transmitted (k : Nat) (s : State) : State :=
  { s with slots := s.slots.set k { s.slot k with attempts := (s.slot k).attempts + 1, phase := .transmitting },
           radioBusy := true, txOwner := .slot, txSlot := BitVec.ofNat 8 k,
           outputs := s.outputs ++ [.radioTx (s.slot k).hdr (s.slot k).data] }

/-- The packet of slot `k` reported and gone, its slot at its reset value (R198), before the arbiter is asked. -/
def released (k : Nat) (code : SendCode) (s : State) : State :=
  { s with slots := s.slots.set k ⟨.idle, .none, 0, [], [], 0, .short 0, false⟩,
           order := s.order.filter (fun j => j != k),
           outputs := s.outputs ++ [.sendDone (BitVec.ofNat 8 k) code (s.slot k).attempts] }

/-- What the arbiter does with no packet in flight (R187, R188): nothing while the radio is busy or the queue is
empty, else the oldest packet goes in flight and makes its attempt, without a question to the channel in the
pass-through variant, through carrier sense in the others. -/
def servedNext (s : State) : State :=
  match s.order with
  | [] => s
  | j :: _ =>
    if s.radioBusy then s
    else
      let u : State := { s with slots := s.slots.set j { s.slot j with state := .inFlight } }
      if s.cfg.variant = .passthrough then transmitted j u else sense j u

/-- The window of host alarm `a` open in `s` (R121, R273). -/
def windowOn (a : Nat) (s : State) : State :=
  { removeAlarm a s with
    procState := .inCallback, fireId := BitVec.ofNat 8 a, fireCb := (s.alarm a).cb, fireArg := (s.alarm a).arg,
    outputs := s.outputs ++ [.alarmFire (BitVec.ofNat 8 a) (s.alarm a).cb (s.alarm a).arg] }

/-- The loop of R121, which pops the engine alarm `n` times before it ends or pauses in a window. -/
inductive PassLoop : Nat → State → State → Prop where
  | ends (s : State) : (∀ a, s.alist.head? = some a → IsAfter (s.alarm a).when s.procNow) →
      PassLoop 0 s { s with procState := .idle }
  | fires (s : State) (a : Nat) (l : List Nat) : s.alist = a :: l → ¬ IsAfter (s.alarm a).when s.procNow →
      (s.alarm a).cb ≠ 0xFFFF → PassLoop 0 s (windowOn a s)
  | engine (n : Nat) (s t : State) (a : Nat) (l : List Nat) : s.alist = a :: l →
      ¬ IsAfter (s.alarm a).when s.procNow → (s.alarm a).cb = 0xFFFF →
      PassLoop n (macAlarm (removeAlarm a s)) t → PassLoop (n + 1) s t

/-- The engine alarm heads the list of `s` and is ready in the running pass. -/
def EngineReady (s : State) : Prop :=
  ∃ a l, s.alist = a :: l ∧ ¬ IsAfter (s.alarm a).when s.procNow ∧ (s.alarm a).cb = 0xFFFF

/-- `n` rounds of R121's loop with the engine alarm, and nothing after them yet. -/
inductive EngineRounds : Nat → State → State → Prop where
  | none (s : State) : EngineRounds 0 s s
  | pop (n : Nat) (s t : State) (a : Nat) (l : List Nat) : s.alist = a :: l →
      ¬ IsAfter (s.alarm a).when s.procNow → (s.alarm a).cb = 0xFFFF →
      EngineRounds n (macAlarm (removeAlarm a s)) t → EngineRounds (n + 1) s t

/-- `s` with the answers and the draws that the outside gives to the coming queries. -/
def supplied (answers : List Bool) (draws : List Word) (s : State) : State :=
  { s with channelAnswers := answers, draws := draws }

/-- `t` and `u` differ at most in what is supplied for coming queries and in how many were answered. -/
def SameButQueries (t u : State) : Prop :=
  t = { u with channelAnswers := t.channelAnswers, draws := t.draws, queries := t.queries }

/-- `t` is where R121's loop ends from `u` after one more round with the engine alarm, in which the channel answers
something and something is drawn from 1 .. MAX_INIT_BACKOFF; what is supplied for later queries is still there. -/
def OneRoundEnds (u t : State) : Prop :=
  ∃ (clear : Bool) (r : Word) (v : State),
    (1 ≤ u.cfg.maxInitBackoff.toNat → 1 ≤ r.toNat ∧ r.toNat ≤ u.cfg.maxInitBackoff.toNat)
    ∧ PassLoop 1 (supplied [clear] [r] u) v ∧ SameButQueries t v
    ∧ t.channelAnswers = u.channelAnswers ∧ t.draws = u.draws

/-- R121's loop goes on from `u` for ever, whatever the outside answers. -/
def LoopIsEndless (u : State) : Prop :=
  ∀ n answers draws v, ¬ PassLoop n (supplied answers draws u) v

/-- Every retry wait, measured from the pass's time, stays below half the tick range: what R199 presumes. -/
def RetrySpan (s : State) : Prop :=
  ∀ a, 1 ≤ a → a < s.cfg.maxAttempts.toNat →
    (s.jiffies - s.procNow).toNat + (s.cfg.retryBase.toNat * a) % 2 ^ 32 < 2 ^ 31

/-- No element of the alarm list is due after one behind it (R24 (b)). -/
def Sorted (s : State) : Prop :=
  s.alist.Pairwise (fun x y => timeAfter (s.alarm x).when (s.alarm y).when = false)

/-- All deadlines in the alarm list lie within a span of less than 2^31 ticks (R115). -/
def Spanned (s : State) : Prop := ∃ base : Word, ∀ e ∈ s.alist, ((s.alarm e).when - base).toNat < 2 ^ 31

/-- An address the node accepts frames for (R142, R144, R223). -/
def ForNode (s : State) (d : Address) : Prop :=
  d = .short s.localShort ∨ isBroadcast d = true ∨ (s.cfg.longAddr = true ∧ d = .long s.localLong)

/-- The acknowledgement of `x` as R227 lists its fields: from the long address if the frame came to that, else from
the short one. -/
def ackPacket (s : State) (x : Descriptor) : Descriptor where
  originalSrc := .short 0
  originalDst := .short 0
  immedSrc := match x.immedDst with
    | .short _ => .short s.localShort
    | .long v => .long v
  immedDst := x.immedSrc
  srcPort := 0
  dstPort := 0
  seqnum := x.seqnum
  cost := 0
  hopLimit := 0
  authType := 0
  flags := { locallyOriginated := false, moreData := false, ackRequested := false, isAck := true }
  hdrLen := 0
  sendTime := 0

/-- How many packets slot `k` holds. -/
def held (s : State) (k : Nat) : Nat := if (s.slot k).state = .idle then 0 else 1

/-- How many SEND_DONE outputs name slot `k`. -/
def reportsOf (k : Nat) (os : List Output) : Nat :=
  os.countP (fun o => match o with | .sendDone i _ _ => i == BitVec.ofNat 8 k | _ => false)

/-- The bytes of an address, least significant first (R62, R154). -/
def rawBytes : Address → List Byte
  | .short v => (List.range 2).map (fun i => v.extractLsb' (8 * i) 8)
  | .long v => (List.range 8).map (fun i => v.extractLsb' (8 * i) 8)

/-- The kind of an address to be built: 0 absent, 1 short, 2 long (R152, R158). -/
def builtKind (a : Address) : Nat :=
  if isUnspecified a then 0 else match a with | .short _ => 1 | .long _ => 2

/-- An address of kind `k` as a parser has it: UNSPEC when absent (R154). -/
def OfKind (k : Nat) (a : Address) : Prop :=
  (k = 0 ∧ a = .short 0) ∨ (k = 1 ∧ ∃ v, a = .short v) ∨ (k = 2 ∧ ∃ v, a = .long v)

/-- The bytes of a field that is there or not. -/
def fieldBytes (present : Bool) (bytes : List Byte) : List Byte := if present then bytes else []

/-- The kind of the source address that the combination code stands for (R152). -/
def srcKindNumber (fcf : Byte) : Nat := (fcf.extractLsb' 0 3).toNat % 3

/-- The kind of the destination address that the combination code stands for (R152). -/
def dstKindNumber (fcf : Byte) : Nat := (fcf.extractLsb' 0 3).toNat / 3

/-- The width of an address of kind `k` (R152). -/
def widthOfKind (k : Nat) : Nat := if k = 0 then 0 else if k = 1 then 2 else 8

/-- The header length that the two flag bytes imply (R162). -/
def impliedLength (fcf ext : Byte) : Nat :=
  1 + (fcf.getLsbD 7).toNat + widthOfKind (srcKindNumber fcf) + widthOfKind (dstKindNumber fcf)
    + (fcf.getLsbD 3 || ext.getLsbD 1).toNat + (fcf.getLsbD 3 || ext.getLsbD 2).toNat
    + (fcf.getLsbD 4).toNat + (fcf.getLsbD 5).toNat + (ext.getLsbD 0).toNat + (ext.getLsbD 3).toNat

/-- The EXT byte behind an FCF byte, 0 when FCF says there is none (R161). -/
def extBehind (fcf : Byte) (rest : List Byte) : Byte := if fcf.getLsbD 7 then rest.headD 0 else 0

/-- UNSPEC for an address of either form whose value is 0, else the address itself. -/
def wireAddr (a : Address) : Address := if isUnspecified a then .short 0 else a

end Sys2Proof

open Sys2Proof Sys2Proof.Machine

/-! ### Commands as words -/

/-- Decode and encode agree: no bit of a command's word is dropped (spec/30_encoding.md section 1). -/
def Obligations.DecodingAnEncodedCommandGivesIt : Prop :=
  ∀ i : Instr, decode (encode i) = .ok i

/-- A word that decodes is the one word of its command (spec/30_encoding.md sections 1 and 3). -/
def Obligations.EncodingADecodedWordGivesIt : Prop :=
  ∀ (c : DWord) (i : Instr), decode c = .ok i → encode i = c

/-- A few words of spec/95_test_vectors.md decode to the commands they stand for, one of each family. -/
def Obligations.WordsOfTheSpecDecode : Prop :=
  decode 0x0000000000160001 = .ok (.rdreg 0x0016)
  ∧ decode 0x0000000A00000011 = .ok (.alarmSched 0 10)
  ∧ decode 0x0000000000020120 = .ok (.addrMake .originalDst 2)
  ∧ decode 0x0000000700000031 = .ok (.hdrParse 7)
  ∧ decode 0x0000000300020241 = .ok (.macSend false true 2 3)
  ∧ decode 0x0000000000000005 = .illegalOpcode
  ∧ decode 0x0000000000000213 = .reservedField

/-- R81: an opcode of no row is answered ILLEGAL_CMD, a row's opcode with a must-be-zero bit set is answered
BAD_ARG, neither changes anything else, every other word runs its command, and the answer always echoes OP. -/
def Obligations.WordsThatAreNoCommandChangeNothing : Prop :=
  ∀ (s : State) (c : DWord) (rest : List Input),
    s.cfg.legal = true → s.inputs = .command c :: rest →
    ((∀ r ∈ opcodeRows, c &&& 0xFF ≠ r.2) →
      step s = .next (answered { s with inputs := rest } (c.extractLsb' 0 8) .illegalCmd 0))
    ∧ ((∃ r ∈ opcodeRows, c &&& 0xFF = r.2) → (∀ r ∈ opcodeRows, c &&& r.1 ≠ r.2) →
      step s = .next (answered { s with inputs := rest } (c.extractLsb' 0 8) .badArg 0))
    ∧ ((∃ r ∈ opcodeRows, c &&& r.1 = r.2) →
      ∃ i, decode c = .ok i ∧ step s = exec i { s with inputs := rest }
        ∧ ∀ t, step s = .next t →
          ∃ r, t.responses = s.responses ++ [r] ∧ r.extractLsb' 8 8 = c.extractLsb' 0 8)

/-- R84, R85: every word at the command port is answered by exactly one response with status 0 to 8, the word's OP,
16 zero bits and the value, which is 0 when the status is not OK; and the numbers of the statuses. -/
def Obligations.EveryWordIsAnsweredOnce : Prop :=
  [Status.ok, .queueFull, .invalidAddrCombination, .malformedHeader, .tooLong, .badArg, .badState, .empty,
    .illegalCmd].map statusCode = [0, 1, 2, 3, 4, 5, 6, 7, 8]
  ∧ ∀ (c : DWord) (s t : State), runWord c s = .next t →
    ∃ r, t.responses = s.responses ++ [r]
      ∧ (r.extractLsb' 0 8).toNat ≤ 8
      ∧ r.extractLsb' 8 8 = c.extractLsb' 0 8
      ∧ r.extractLsb' 16 16 = 0
      ∧ (r.extractLsb' 0 8 ≠ 0 → r.extractLsb' 32 32 = 0)

/-- A step runs the decoded command: when the next input taken is a command word that decodes to a well-formed `i`,
the step is `exec i` on the state with that input taken. The inputs held before it stay where they are. That the
first input not held is the next one is the model's choice (log entry 2). -/
def Obligations.StepRunsTheDecodedCommand : Prop :=
  ∀ (s : State) (c : DWord) (i : Instr) (before rest : List Input),
    s.cfg.legal = true → i.wellFormed = true → decode c = .ok i →
    s.inputs = before ++ .command c :: rest →
    (before = [] ∨ (s.cfg.threaded = false ∧ s.procState = .inCallback ∧ ∀ x ∈ before, IsEvent x)) →
    step s = exec i { s with inputs := before ++ rest }

/-- R286: with THREADED = 0 and a window open no event is taken, and the events waiting keep their order while a
command behind them is taken; otherwise nothing is held. That the first input not held is the one taken, and that a
step with nothing to take answers the same state, is the model's choice (log entry 2, DESIGN CHOICE), where R272
and U9 leave the order free. -/
def Obligations.EventsAreHeldInAnUnthreadedWindow : Prop :=
  ∀ (s : State), s.cfg.legal = true →
    (s.cfg.threaded = false ∧ s.procState = .inCallback →
      (∀ es, (∀ x ∈ es, IsEvent x) → s.inputs = es → step s = .next s)
      ∧ ∀ es c rest, (∀ x ∈ es, IsEvent x) → s.inputs = es ++ .command c :: rest →
        step s = runWord c { s with inputs := es ++ rest })
    ∧ (s.cfg.threaded = true ∨ s.procState = .idle →
      ∀ x rest, s.inputs = x :: rest → step s = runInput x { s with inputs := rest })

/-- R9 with the ranges of R8: outside them the machine has no meaning; RETRY_BASE < 2^24 never breaks the product
rule. -/
def Obligations.IllegalConfigurationsAreRefused : Prop :=
  (∀ s : State,
    (s.cfg.variant = .tdma ∨ s.cfg.bufSize.toNat < 18
      ∨ s.cfg.ackTimeout.toNat = 0 ∨ 2 ^ 31 ≤ s.cfg.ackTimeout.toNat
      ∨ s.cfg.maxAttempts.toNat = 0
      ∨ s.cfg.retryBase.toNat = 0 ∨ 2 ^ 31 ≤ s.cfg.retryBase.toNat
      ∨ s.cfg.maxInitBackoff.toNat = 0 ∨ 2 ^ 31 ≤ s.cfg.maxInitBackoff.toNat
      ∨ s.cfg.queueCap.toNat = 0 ∨ s.cfg.nAlarms.toNat = 0 ∨ 254 < s.cfg.nAlarms.toNat
      ∨ ∃ a, 1 ≤ a ∧ a < s.cfg.maxAttempts.toNat ∧ (s.cfg.retryBase.toNat * a) % 2 ^ 32 = 0)
    ↔ step s = .refused .illegalConfiguration)
  ∧ ∀ (base : Word) (a : Nat), 1 ≤ base.toNat → base.toNat < 2 ^ 24 → 1 ≤ a → a < 255 →
      (base.toNat * a) % 2 ^ 32 ≠ 0

/-! ### Port access -/

/-- R250, R206, R207: NOP, MAC_POLL and MAC_ISKNOWN answer in every state and change nothing, and which words they
are; any other word with their OP breaks a must-be-zero field. -/
def Obligations.NopPollAndIsKnownOnlyAnswer : Prop :=
  (∀ s : State,
    exec .nop s = .next (answered s 0x00 .ok 0)
    ∧ exec .macPoll s = .next (answered s 0x43 .ok (BitVec.ofNat 32 s.order.length))
    ∧ ∀ sel, exec (.macIsKnown sel) s = .next (answered s 0x44 .ok 1))
  ∧ (∀ c : DWord, c.extractLsb' 0 8 = 0x00 → decode c = if c = 0 then .ok .nop else .reservedField)
  ∧ (∀ c : DWord, c.extractLsb' 0 8 = 0x43 → decode c = if c = 0x43 then .ok .macPoll else .reservedField)
  ∧ ∀ c : DWord, c.extractLsb' 0 8 = 0x44 →
    decode c = if c.extractLsb' 11 53 = 0 then .ok (.macIsKnown (addrSelOf (c.extractLsb' 8 3))) else .reservedField

/-- RDREG of the configuration, of the registers that hold one value and of the two register groups, number by number,
and the descriptor a group denotes, bit by bit (10_state.md sections 4 and 6, R40's table); and the numbers of the
variants (00_scope.md section 4). -/
def Obligations.RdregReadsParametersAndPlainRegisters : Prop :=
  [Variant.passthrough, .csma, .csmaAck, .tdma].map Variant.code = [0, 1, 2, 3]
  ∧ (∀ s : State,
    let reads (n : Half) (v : Word) : Prop := exec (.rdreg n) s = .next (answered s 0x01 .ok v)
    reads 0x0000 (0#28 ++ BitVec.ofBool s.cfg.threaded ++ BitVec.ofBool s.cfg.longAddr ++ s.cfg.variant.code)
    ∧ reads 0x0001 (0#16 ++ s.cfg.bufSize) ∧ reads 0x0002 s.cfg.ackTimeout
    ∧ reads 0x0003 (0#24 ++ s.cfg.maxAttempts) ∧ reads 0x0004 s.cfg.retryBase
    ∧ reads 0x0005 s.cfg.maxInitBackoff ∧ reads 0x0006 (0#24 ++ s.cfg.queueCap)
    ∧ reads 0x0007 s.cfg.fwdDelay ∧ reads 0x0008 (0#24 ++ s.cfg.nAlarms)
    ∧ reads 0x0010 s.jiffies ∧ reads 0x0012 s.procNow ∧ reads 0x0013 (0#16 ++ s.localShort)
    ∧ reads 0x0017 (if s.procState = .inCallback then s.fireArg else 0)
    ∧ reads 0x0050 (0#24 ++ s.hdrLen) ∧ reads 0x0070 (0#24 ++ s.pinfoHdrLen)
    ∧ reads 0x0014 (if s.cfg.longAddr then s.localLong.extractLsb' 0 32 else 0)
    ∧ reads 0x0015 (if s.cfg.longAddr then s.localLong.extractLsb' 32 32 else 0)
    ∧ ∀ base r, (base, r) = ((0x0040 : Half), s.txinfo) ∨ (base, r) = ((0x0060 : Half), s.pinfo) →
      reads base r.originalSrc.tag ∧ reads (base + 1) r.originalSrc.lo ∧ reads (base + 2) r.originalSrc.hi
      ∧ reads (base + 3) r.originalDst.tag ∧ reads (base + 4) r.originalDst.lo ∧ reads (base + 5) r.originalDst.hi
      ∧ reads (base + 6) r.immedSrc.tag ∧ reads (base + 7) r.immedSrc.lo ∧ reads (base + 8) r.immedSrc.hi
      ∧ reads (base + 9) r.immedDst.tag ∧ reads (base + 10) r.immedDst.lo ∧ reads (base + 11) r.immedDst.hi
      ∧ reads (base + 12) r.ports ∧ reads (base + 13) r.fields ∧ reads (base + 14) r.flags
      ∧ reads (base + 15) r.sendTime)
  ∧ ∀ (c : Config) (r : DescRegs),
    let x := descOf c r
    x.originalSrc = addrOf c r.originalSrc ∧ x.originalDst = addrOf c r.originalDst
    ∧ x.immedSrc = addrOf c r.immedSrc ∧ x.immedDst = addrOf c r.immedDst
    ∧ r.ports.extractLsb' 0 16 = x.dstPort ++ x.srcPort
    ∧ r.fields = x.authType ++ x.hopLimit ++ x.cost ++ x.seqnum
    ∧ r.flags.getLsbD 0 = x.flags.locallyOriginated ∧ r.flags.getLsbD 1 = x.flags.moreData
    ∧ r.flags.getLsbD 2 = x.flags.ackRequested ∧ r.flags.getLsbD 3 = x.flags.isAck
    ∧ x.hdrLen = 0 ∧ x.sendTime = r.sendTime

/-- ALM_STATUS, MAC_STATUS and the inspection registers of the alarm table and the slot table show their fields bit
by bit (10_state.md section 6), with the numbers of the owners of the radio, of the slot states and of the phases
(10_state.md section 5). -/
def Obligations.RdregShowsTheStatusFieldsAndTheTables : Prop :=
  [TxOwner.none, .slot, .ack, .orphan].map txOwnerCode = [0, 1, 2, 3]
  ∧ [SlotState.idle, .queued, .inFlight].map slotStateCode = [0, 1, 2]
  ∧ [Phase.none, .senseBackoff, .transmitting, .awaitAck, .retryBackoff].map phaseCode = [0, 1, 2, 3, 4]
  ∧ ∀ s : State,
    (∃ v : Word, exec (.rdreg 0x0011) s = .next (answered s 0x01 .ok v)
      ∧ v.getLsbD 0 = s.pendingWork ∧ v.getLsbD 1 = decide (s.procState = .inCallback)
      ∧ v.getLsbD 2 = decide (s.alist ≠ []) ∧ v.extractLsb' 3 5 = 0
      ∧ v.extractLsb' 8 8 = (if s.procState = .inCallback then s.fireId else 0)
      ∧ v.extractLsb' 16 16 = (if s.procState = .inCallback then s.fireCb else 0))
    ∧ (∃ v : Word, exec (.rdreg 0x0016) s = .next (answered s 0x01 .ok v)
      ∧ v.getLsbD 0 = s.macInited ∧ v.getLsbD 1 = s.radioBusy
      ∧ v.extractLsb' 2 2 = txOwnerCode s.txOwner ∧ v.getLsbD 7 = false
      ∧ v.extractLsb' 8 8 = BitVec.ofNat 8 s.order.length ∧ v.extractLsb' 16 8 = s.macSeq
      ∧ ((∀ k, (s.slot k).state ≠ .inFlight) → v.extractLsb' 4 3 = 0 ∧ v.extractLsb' 24 8 = 0xFF)
      ∧ ∀ k, (s.slot k).state = .inFlight → (∀ j, (s.slot j).state = .inFlight → j = k) →
        v.extractLsb' 4 3 = phaseCode (s.slot k).phase ∧ v.extractLsb' 24 8 = BitVec.ofNat 8 k)
    ∧ (∀ i, i ≤ s.cfg.nAlarms.toNat →
      (∃ v : Word, exec (.rdreg (BitVec.ofNat 16 (0x0100 + 4 * i))) s = .next (answered s 0x01 .ok v)
        ∧ v.getLsbD 0 = (s.alarm i).bound ∧ v.getLsbD 1 = decide ((s.alarm i).state = .scheduled)
        ∧ v.extractLsb' 2 14 = 0 ∧ v.extractLsb' 16 16 = (s.alarm i).cb)
      ∧ exec (.rdreg (BitVec.ofNat 16 (0x0100 + 4 * i + 1))) s = .next (answered s 0x01 .ok (s.alarm i).arg)
      ∧ exec (.rdreg (BitVec.ofNat 16 (0x0100 + 4 * i + 2))) s = .next (answered s 0x01 .ok (s.alarm i).when))
    ∧ ∀ k, k < s.cfg.queueCap.toNat →
      (∃ v : Word, exec (.rdreg (BitVec.ofNat 16 (0x1000 + 4 * k))) s = .next (answered s 0x01 .ok v)
        ∧ v.extractLsb' 0 2 = slotStateCode (s.slot k).state ∧ v.extractLsb' 2 3 = phaseCode (s.slot k).phase
        ∧ v.getLsbD 5 = (s.slot k).ackreq ∧ v.extractLsb' 6 2 = 0
        ∧ v.extractLsb' 8 8 = (s.slot k).attempts ∧ v.extractLsb' 16 8 = (s.slot k).seq
        ∧ v.extractLsb' 24 8 = 0)
      ∧ ∃ v : Word, exec (.rdreg (BitVec.ofNat 16 (0x1000 + 4 * k + 1))) s = .next (answered s 0x01 .ok v)
        ∧ ((s.slot k).state = .idle → v = 0)
        ∧ ((s.slot k).state ≠ .idle → v.extractLsb' 0 8 = BitVec.ofNat 8 (s.slot k).hdr.length
          ∧ v.extractLsb' 8 8 = 0 ∧ v.extractLsb' 16 16 = BitVec.ofNat 16 (s.slot k).data.length)

/-- RDREG and WRREG of a number outside R40's table, and WRREG of a read-only one, answer BAD_ARG and change
nothing; RDREG of every number in the table answers OK and changes nothing (46_port_access.md). -/
def Obligations.UnmappedAndReadOnlyRegistersAreRefused : Prop :=
  ∀ (s : State) (n : Half) (w : Word),
    (¬ MappedNumber s.cfg n → exec (.rdreg n) s = .next (answered s 0x01 .badArg 0))
    ∧ (MappedNumber s.cfg n → ∃ v, exec (.rdreg n) s = .next (answered s 0x01 .ok v))
    ∧ (¬ WritableNumber n → exec (.wrreg n w) s = .next (answered s 0x02 .badArg 0))

/-- WRREG of each writable register (46_port_access.md): what it stores, and that it stores nothing else. -/
def Obligations.WrregStoresWhereTheMapSaysReadWrite : Prop :=
  ∀ (s : State) (w : Word),
    exec (.wrreg 0x0013 w) s = .next (answered { s with localShort := w.extractLsb' 0 16 } 0x02 .ok 0)
    ∧ (s.cfg.longAddr = false →
      exec (.wrreg 0x0014 w) s = .next (answered s 0x02 .ok 0)
      ∧ exec (.wrreg 0x0015 w) s = .next (answered s 0x02 .ok 0))
    ∧ (s.cfg.longAddr = true →
      (∃ t, exec (.wrreg 0x0014 w) s = .next t ∧ t.localLong.extractLsb' 0 32 = w
        ∧ t.localLong.extractLsb' 32 32 = s.localLong.extractLsb' 32 32
        ∧ t = answered { s with localLong := t.localLong } 0x02 .ok 0)
      ∧ ∃ t, exec (.wrreg 0x0015 w) s = .next t ∧ t.localLong.extractLsb' 32 32 = w
        ∧ t.localLong.extractLsb' 0 32 = s.localLong.extractLsb' 0 32
        ∧ t = answered { s with localLong := t.localLong } 0x02 .ok 0)
    ∧ ∀ n : Half, 0x0040 ≤ n.toNat → n.toNat ≤ 0x004F →
      ∃ t, exec (.wrreg n w) s = .next t ∧ t = answered { s with txinfo := t.txinfo } 0x02 .ok 0
        ∧ ∀ m : Half, 0x0040 ≤ m.toNat → m.toNat ≤ 0x004F →
          ∃ u v, exec (.rdreg m) t = .next (answered t 0x01 .ok u)
            ∧ exec (.rdreg m) s = .next (answered s 0x01 .ok v)
            ∧ u = if m = n then w else v

/-- WRBUF and RDBUF (46_port_access.md): one byte is written, every other byte of both buffers and all else is
unchanged; a read gives the byte; an offset beyond the buffer answers BAD_ARG. -/
def Obligations.BufferCommandsMoveOneByte : Prop :=
  ∀ (s : State) (off : Half) (v : Byte),
    (off.toNat < s.cfg.bufSize.toNat →
      ∃ t, exec (.wrbuf off v) s = .next t
        ∧ bufferByte t .txdata off.toNat = v
        ∧ (∀ b a, (b, a) ≠ (Buffer.txdata, off.toNat) → bufferByte t b a = bufferByte s b a)
        ∧ t = answered { s with txdata := t.txdata } 0x03 .ok 0)
    ∧ (s.cfg.bufSize.toNat ≤ off.toNat → exec (.wrbuf off v) s = .next (answered s 0x03 .badArg 0))
    ∧ ∀ b : Buffer,
      (off.toNat < (match b with | .txdata => s.cfg.bufSize.toNat | .hdrbuf => 18) →
        exec (.rdbuf b off) s = .next (answered s 0x04 .ok (0#24 ++ bufferByte s b off.toNat)))
      ∧ ((match b with | .txdata => s.cfg.bufSize.toNat | .hdrbuf => 18) ≤ off.toNat →
        exec (.rdbuf b off) s = .next (answered s 0x04 .badArg 0))

/-! ### Alarm scheduler -/

/-- R115: the comparison, its signed form, its consequences, `Ready`, and that within a span of less than 2^31 it
orders tick values. -/
def Obligations.TimeAfterIsTheSignedDifferenceTest : Prop :=
  (∀ a b : Word, timeAfter a b = true ↔ IsAfter a b)
  ∧ (∀ a b : Word, timeAfter a b = true ↔ 0 < (a - b).toInt)
  ∧ (∀ (s : State) (i : Nat) (now : Word), s.ready i now = true ↔ ¬ IsAfter (s.alarm i).when now)
  ∧ (∀ a : Word, timeAfter a a = false)
  ∧ (∀ a b : Word, a - b = BitVec.ofNat 32 (2 ^ 31) → timeAfter a b = false ∧ timeAfter b a = false)
  ∧ ∀ base a b c : Word, (a - base).toNat < 2 ^ 31 → (b - base).toNat < 2 ^ 31 → (c - base).toNat < 2 ^ 31 →
    (timeAfter a b = true ↔ (b - base).toNat < (a - base).toNat)
    ∧ (timeAfter a b = true → timeAfter b c = true → timeAfter a c = true)
    ∧ (a = b ∨ timeAfter a b = true ∨ timeAfter b a = true)

/-- R113: `Remove(i)` takes `i` out of the list, keeps the order of the others, marks `i` IDLE, and touches nothing
else; when `i` is absent the list is as it was. -/
def Obligations.RemoveUnlinksAndMarksIdle : Prop :=
  ∀ (s : State) (i : Nat),
    i ∉ (removeAlarm i s).alist
    ∧ (∀ l1 l2, s.alist = l1 ++ i :: l2 → i ∉ l1 → i ∉ l2 → (removeAlarm i s).alist = l1 ++ l2)
    ∧ (i ∉ s.alist → (removeAlarm i s).alist = s.alist)
    ∧ (removeAlarm i s).alarm i = { s.alarm i with state := .idle }
    ∧ (∀ j, j ≠ i → (removeAlarm i s).alarm j = s.alarm j)
    ∧ removeAlarm i s = { s with alarms := (removeAlarm i s).alarms, alist := (removeAlarm i s).alist }

/-- R114: `Insert(i)` puts `i` before the first element whose deadline is after its own, so behind every element
with an equal deadline that stands before that one, and marks it SCHEDULED. -/
def Obligations.InsertGoesBeforeTheFirstLaterDeadline : Prop :=
  ∀ (s : State) (i : Nat), i < s.alarms.length → i ∉ s.alist →
    ∃ l1 l2, s.alist = l1 ++ l2 ∧ (insertAlarm i s).alist = l1 ++ i :: l2
      ∧ (∀ e ∈ l1, ¬ IsAfter (s.alarm e).when (s.alarm i).when)
      ∧ (∀ e, l2.head? = some e → IsAfter (s.alarm e).when (s.alarm i).when)
      ∧ (insertAlarm i s).alarm i = { s.alarm i with state := .scheduled }
      ∧ (∀ j, j ≠ i → (insertAlarm i s).alarm j = s.alarm j)
      ∧ insertAlarm i s = { s with alarms := (insertAlarm i s).alarms, alist := (insertAlarm i s).alist }

/-- R112: an index that is no host alarm's is refused by the three alarm commands and nothing changes. -/
def Obligations.AlarmCommandsRefuseForeignIndices : Prop :=
  ∀ (s : State) (a : Byte) (cb : Half) (w : Word), s.cfg.nAlarms.toNat ≤ a.toNat →
    exec (.alarmInit a cb w) s = .next (answered s 0x10 .badArg 0)
    ∧ exec (.alarmSched a w) s = .next (answered s 0x11 .badArg 0)
    ∧ exec (.alarmCancel a) s = .next (answered s 0x12 .badArg 0)

/-- ALARM_INIT (40_alarm.md section 5): CB_MAC is refused; otherwise the alarm is unlinked, IDLE and bound, its
deadline stays, and every other alarm and all else is unchanged. -/
def Obligations.AlarmInitBindsAndCancels : Prop :=
  ∀ (s : State) (a : Byte) (cb : Half) (arg : Word), TablesSized s → a.toNat < s.cfg.nAlarms.toNat →
    (cb = 0xFFFF → exec (.alarmInit a cb arg) s = .next (answered s 0x10 .badArg 0))
    ∧ (cb ≠ 0xFFFF → ∃ t, exec (.alarmInit a cb arg) s = .next t
      ∧ t.alarm a.toNat = ⟨(s.alarm a.toNat).when, cb, arg, .idle, true⟩
      ∧ (∀ j, j ≠ a.toNat → t.alarm j = s.alarm j)
      ∧ t.alist = s.alist.filter (fun j => j != a.toNat)
      ∧ SameBytes s t
      ∧ t = answered { s with alarms := t.alarms, alist := t.alist } 0x10 .ok 0)

/-- ALARM_SCHED (40_alarm.md section 5): an unbound alarm is refused; otherwise the deadline is JIFFIES + delay mod
2^32, the alarm is unlinked and inserted behind every alarm that is not due later, and the deadline is answered. -/
def Obligations.AlarmSchedSetsTheDeadlineAndLinks : Prop :=
  ∀ (s : State) (a : Byte) (d : Word), TablesSized s → a.toNat < s.cfg.nAlarms.toNat →
    ((s.alarm a.toNat).bound = false → exec (.alarmSched a d) s = .next (answered s 0x11 .badState 0))
    ∧ ((s.alarm a.toNat).bound = true → ∃ t l1 l2, exec (.alarmSched a d) s = .next t
      ∧ t.alarm a.toNat = { s.alarm a.toNat with when := s.jiffies + d, state := .scheduled }
      ∧ (∀ j, j ≠ a.toNat → t.alarm j = s.alarm j)
      ∧ s.alist.filter (fun j => j != a.toNat) = l1 ++ l2 ∧ t.alist = l1 ++ a.toNat :: l2
      ∧ (∀ e ∈ l1, ¬ IsAfter (s.alarm e).when (s.jiffies + d))
      ∧ (∀ e, l2.head? = some e → IsAfter (s.alarm e).when (s.jiffies + d))
      ∧ SameBytes s t
      ∧ t = answered { s with alarms := t.alarms, alist := t.alist } 0x11 .ok (s.jiffies + d))

/-- R118: ALARM_CANCEL refuses a foreign index; otherwise the alarm is unlinked and IDLE, its binding kept, and the
answer says whether it was scheduled; and which words it is. -/
def Obligations.AlarmCancelUnlinksAndReports : Prop :=
  (∀ (s : State) (a : Byte),
    (s.cfg.nAlarms.toNat ≤ a.toNat → exec (.alarmCancel a) s = .next (answered s 0x12 .badArg 0))
    ∧ (a.toNat < s.cfg.nAlarms.toNat → ∃ t, exec (.alarmCancel a) s = .next t
      ∧ t.alarm a.toNat = { s.alarm a.toNat with state := .idle }
      ∧ (∀ j, j ≠ a.toNat → t.alarm j = s.alarm j)
      ∧ t.alist = s.alist.filter (fun j => j != a.toNat)
      ∧ SameBytes s t
      ∧ t = answered { s with alarms := t.alarms, alist := t.alist } 0x12 .ok
          (if (s.alarm a.toNat).state = .scheduled then 1 else 0)))
  ∧ ∀ c : DWord, c.extractLsb' 0 8 = 0x12 →
    decode c = if c.extractLsb' 16 48 = 0 then .ok (.alarmCancel (c.extractLsb' 8 8)) else .reservedField

/-- R126, R127, R128: what ALARM_PEEK, ALARM_HASPENDING and ALARM_HASREADY answer, that they change nothing, and
which words they are. -/
def Obligations.AlarmQueriesAnswerFromTheHead : Prop :=
  (∀ s : State, s.alist = [] →
    exec .alarmPeek s = .next (answered s 0x14 .empty 0)
    ∧ exec .alarmHasPending s = .next (answered s 0x15 .ok 0)
    ∧ ∀ now, exec (.alarmHasReady now) s = .next (answered s 0x16 .ok 0))
  ∧ (∀ (s : State) (a : Nat) (l : List Nat), s.alist = a :: l →
    exec .alarmPeek s = .next (answered s 0x14 .ok (s.alarm a).when)
    ∧ exec .alarmHasPending s = .next (answered s 0x15 .ok 1)
    ∧ ∀ now,
      (IsAfter (s.alarm a).when now → exec (.alarmHasReady now) s = .next (answered s 0x16 .ok 0))
      ∧ (¬ IsAfter (s.alarm a).when now → exec (.alarmHasReady now) s = .next (answered s 0x16 .ok 1)))
  ∧ (∀ c, c.extractLsb' 0 8 = 0x14 → decode c = if c = 0x14 then .ok .alarmPeek else .reservedField)
  ∧ (∀ c, c.extractLsb' 0 8 = 0x15 → decode c = if c = 0x15 then .ok .alarmHasPending else .reservedField)
  ∧ ∀ c, c.extractLsb' 0 8 = 0x16 →
    decode c = if c.extractLsb' 8 24 = 0 then .ok (.alarmHasReady (c.extractLsb' 32 32)) else .reservedField

/-- ALARM_PROCESS (40_alarm.md section 5): refused in a window; with nothing ready the pass ends; a ready host alarm
at the head is removed and its window opened, with proc_now the JIFFIES of this step; whatever is at the head, the
engine alarm too, the next state is the answered end of a pass started in this step, which is the end of R121's loop
where that pops the engine alarm n ≤ passRounds times, which is 4 and more than the supplied answers take. How a longer
loop is ended is the model's choice (log entry 8, DESIGN CHOICE); APassFiresOnlyDueAlarms says how. -/
def Obligations.AlarmProcessEndsOrOpensAWindow : Prop :=
  ∀ s : State,
    (s.procState = .inCallback → exec .alarmProcess s = .next (answered s 0x13 .badState 0))
    ∧ (s.procState = .idle → (∀ a, s.alist.head? = some a → IsAfter (s.alarm a).when s.jiffies) →
      exec .alarmProcess s
        = .next (answered { s with pendingWork := false, procNow := s.jiffies } 0x13 .ok 0))
    ∧ (s.procState = .idle → ∀ a l, s.alist = a :: l → ¬ IsAfter (s.alarm a).when s.jiffies →
      (s.alarm a).cb ≠ 0xFFFF →
      ∃ t, exec .alarmProcess s = .next t
        ∧ t.alarm a = { s.alarm a with state := .idle } ∧ (∀ j, j ≠ a → t.alarm j = s.alarm j)
        ∧ t.alist = s.alist.filter (fun j => j != a)
        ∧ SameBytes s t
        ∧ t = answered
            { s with alarms := t.alarms, alist := t.alist, pendingWork := false, procNow := s.jiffies,
                     procState := .inCallback, fireId := BitVec.ofNat 8 a, fireCb := (s.alarm a).cb,
                     fireArg := (s.alarm a).arg,
                     outputs := s.outputs
                       ++ [.alarmFire (BitVec.ofNat 8 a) (s.alarm a).cb (s.alarm a).arg] } 0x13 .ok 1)
    ∧ (s.procState = .idle →
      let t := startPass { s with pendingWork := false }
      exec .alarmProcess s = .next (answered t 0x13 .ok (if t.procState = .inCallback then 1 else 0))
      ∧ ∀ n u, PassLoop n { s with pendingWork := false, procNow := s.jiffies } u → n ≤ passRounds s → t = u)

/-- CB_RETURN (40_alarm.md section 5): refused outside a window; the latches are cleared and the pass goes on with
the same proc_now, ending when nothing is ready or opening the next window; whatever is at the head, the engine
alarm too, the next state is the answered end of the resumed pass, which is the end of R121's loop where that pops the
engine alarm n ≤ passRounds times, which is 4 and more than the supplied answers take. How a longer loop is ended is the
model's choice (log entry 8, DESIGN CHOICE); APassFiresOnlyDueAlarms says how. -/
def Obligations.CbReturnResumesThePass : Prop :=
  ∀ s : State,
    (s.procState = .idle → exec .cbReturn s = .next (answered s 0x17 .badState 0))
    ∧ (s.procState = .inCallback → (∀ a, s.alist.head? = some a → IsAfter (s.alarm a).when s.procNow) →
      exec .cbReturn s
        = .next (answered { s with procState := .idle, fireId := 0, fireCb := 0, fireArg := 0 } 0x17 .ok 0))
    ∧ (s.procState = .inCallback → ∀ a l, s.alist = a :: l → ¬ IsAfter (s.alarm a).when s.procNow →
      (s.alarm a).cb ≠ 0xFFFF →
      ∃ t, exec .cbReturn s = .next t
        ∧ t.alarm a = { s.alarm a with state := .idle } ∧ (∀ j, j ≠ a → t.alarm j = s.alarm j)
        ∧ t.alist = s.alist.filter (fun j => j != a)
        ∧ SameBytes s t
        ∧ t = answered
            { s with alarms := t.alarms, alist := t.alist, fireId := BitVec.ofNat 8 a,
                     fireCb := (s.alarm a).cb, fireArg := (s.alarm a).arg,
                     outputs := s.outputs
                       ++ [.alarmFire (BitVec.ofNat 8 a) (s.alarm a).cb (s.alarm a).arg] } 0x17 .ok 1)
    ∧ (s.procState = .inCallback →
      let t := resumePass s
      exec .cbReturn s = .next (answered t 0x17 .ok (if t.procState = .inCallback then 1 else 0))
      ∧ ∀ n u, PassLoop n { s with fireId := 0, fireCb := 0, fireArg := 0 } u → n ≤ passRounds s → t = u)

/-- A pass, however it is entered, is R121's loop. Its first rounds with the engine alarm, more of them than the
supplied answers take, are run as they come; a longer loop ends in one more round, with one answer and one draw of the
outside, or is given up with the engine alarm still ready at the head. In a legal, sound state only an endless loop is
given up, one that no answers of the outside end, because every step terminates (70_reset_and_hazards.md section 3).
No loop of re-senses is lost so: whatever number of rounds ends it, at most two rounds end it in the same state, but
for the model's count of queries. That the loop is ended so where the spec has it go on for as long as
the outside answers busy is the model's choice (log entry 8, DESIGN CHOICE). The loop stops only with nothing ready at
its proc_now or in the window of an alarm that was due at proc_now, already unlinked and IDLE, latched and announced by
the last output (40_alarm.md sections 5 and 7: no alarm whose deadline is after "now" is invoked). In a legal, sound
state a new pass, and a resumed one whose backoffs are within the span, pops the engine alarm at most twice, and at most
once where every retry wait is within the span too. -/
def Obligations.APassFiresOnlyDueAlarms : Prop :=
  (∀ s : State,
    s.channelAnswers.length + s.draws.length + 4 ≤ passRounds s
    ∧ ((∃ n, n ≤ passRounds s ∧ PassLoop n s (pass s))
      ∨ ∃ u, EngineRounds (passRounds s) s u ∧ EngineReady u
        ∧ (OneRoundEnds u (pass s) ∨ pass s = { u with procState := .idle })))
  ∧ (∀ (n : Nat) (s t : State), PassLoop n s t →
    t.procNow = s.procNow
    ∧ ((t.procState = .idle ∧ ∀ a, t.alist.head? = some a → IsAfter (t.alarm a).when s.procNow)
      ∨ ∃ a os, t.procState = .inCallback ∧ ¬ IsAfter (t.alarm a).when s.procNow
        ∧ (t.alarm a).state = .idle ∧ a ∉ t.alist ∧ (t.alarm a).cb ≠ 0xFFFF
        ∧ t.fireId = BitVec.ofNat 8 a ∧ t.fireCb = (t.alarm a).cb ∧ t.fireArg = (t.alarm a).arg
        ∧ t.outputs = os ++ [.alarmFire t.fireId t.fireCb t.fireArg]))
  ∧ (∀ s : State, startPass s = pass { s with procNow := s.jiffies }
    ∧ resumePass s = pass { s with fireId := 0, fireCb := 0, fireArg := 0 })
  ∧ ∀ s : State, s.cfg.legal = true → Inv s →
    (∃ n, PassLoop n { s with procNow := s.jiffies } (startPass s)
      ∧ n ≤ 2 ∧ (RetrySpan { s with procNow := s.jiffies } → n ≤ 1))
    ∧ (s.procState = .inCallback →
      (PassSpan s → ∃ n, PassLoop n { s with fireId := 0, fireCb := 0, fireArg := 0 } (resumePass s)
        ∧ n ≤ 2 ∧ (RetrySpan s → n ≤ 1))
      ∧ ∀ u, EngineRounds (passRounds s) { s with fireId := 0, fireCb := 0, fireArg := 0 } u → EngineReady u →
        LoopIsEndless u ∨ OneRoundEnds u (resumePass s))
    ∧ ∀ k, (s.slot k).state = .inFlight → (s.slot k).phase = .senseBackoff → EngineReady s →
      ∀ n answers draws v, PassLoop n (supplied answers draws s) v →
        ∃ (m : Nat) (c1 c2 : Bool) (r1 r2 : Word) (w : State), m ≤ 2
          ∧ 1 ≤ r1.toNat ∧ r1.toNat ≤ s.cfg.maxInitBackoff.toNat ∧ 1 ≤ r2.toNat ∧ r2.toNat ≤ s.cfg.maxInitBackoff.toNat
          ∧ PassLoop m (supplied [c1, c2] [r1, r2] s) w ∧ SameButQueries v w

/-- TICK (40_alarm.md section 6): JIFFIES advances by 1 mod 2^32; nothing else when nothing is ready; with THREADED
= 1 a ready alarm raises PENDING_WORK; with THREADED = 0 a ready host alarm at the head gets its window, and
whatever is at the head, the engine alarm too, the next state is the end of a pass started at the new JIFFIES, which is
the end of R121's loop where that pops the engine alarm n ≤ passRounds times, which is 4 and more than the supplied
answers take. How a longer loop is ended is the model's choice (log entry 8, DESIGN CHOICE); APassFiresOnlyDueAlarms
says how. -/
def Obligations.TickAdvancesTimeAndFires : Prop :=
  ∀ s : State,
    ((∀ a, s.alist.head? = some a → IsAfter (s.alarm a).when (s.jiffies + 1)) →
      runInput .tick s = .next { s with jiffies := s.jiffies + 1 })
    ∧ ∀ a l, s.alist = a :: l → ¬ IsAfter (s.alarm a).when (s.jiffies + 1) →
      (s.cfg.threaded = true →
        runInput .tick s = .next { s with jiffies := s.jiffies + 1, pendingWork := true })
      ∧ (s.cfg.threaded = false → s.procState = .idle → (s.alarm a).cb ≠ 0xFFFF →
        ∃ t, runInput .tick s = .next t
          ∧ t.alarm a = { s.alarm a with state := .idle } ∧ (∀ j, j ≠ a → t.alarm j = s.alarm j)
          ∧ t = { s with jiffies := s.jiffies + 1, alarms := t.alarms, procNow := s.jiffies + 1,
                         alist := s.alist.filter (fun j => j != a), procState := .inCallback,
                         fireId := BitVec.ofNat 8 a, fireCb := (s.alarm a).cb, fireArg := (s.alarm a).arg,
                         outputs := s.outputs
                           ++ [.alarmFire (BitVec.ofNat 8 a) (s.alarm a).cb (s.alarm a).arg] })
      ∧ (s.cfg.threaded = false → s.procState = .idle →
        runInput .tick s = .next (startPass { s with jiffies := s.jiffies + 1 })
        ∧ ∀ n u, PassLoop n { s with jiffies := s.jiffies + 1, procNow := s.jiffies + 1 } u → n ≤ passRounds s →
          startPass { s with jiffies := s.jiffies + 1 } = u)

/-- An alarm scheduled with delay d < 2^31 becomes ready exactly when JIFFIES has advanced d ticks, also across
the wrap (40_alarm.md section 7). -/
def Obligations.AnAlarmIsReadyExactlyAfterItsDelay : Prop :=
  ∀ (s t : State) (a : Byte) (d : Word) (n : Nat), TablesSized s → a.toNat < s.cfg.nAlarms.toNat →
    (s.alarm a.toNat).bound = true → d.toNat < 2 ^ 31 → n ≤ d.toNat + 2 ^ 31 →
    exec (.alarmSched a d) s = .next t →
    (t.ready a.toNat (s.jiffies + BitVec.ofNat 32 n) = true ↔ d.toNat ≤ n)

/-- Arming any alarm, the engine's too, and removing any keep the list sorted by deadline while all deadlines lie
within a span of less than 2^31 ticks, and so does every step of the machine, passes among them, that leaves the
deadlines within such a span (40_alarm.md section 7, under the span condition of section 2). -/
def Obligations.TheAlarmListStaysSortedWithinTheSpan : Prop :=
  (∀ (s : State) (base d : Word) (i : Nat), i < s.alarms.length → Sorted s →
    Sorted (removeAlarm i s)
    ∧ ((∀ e ∈ s.alist, ((s.alarm e).when - base).toNat < 2 ^ 31) → (s.jiffies + d - base).toNat < 2 ^ 31 →
      Sorted (armAlarm i d s)))
  ∧ ∀ s t : State, Inv s → Sorted s → step s = .next t → Spanned t → Sorted t

/-! ### Addresses -/

/-- R142, R143: the two predicates on every address. -/
def Obligations.AddressPredicatesLookAtTheValue : Prop :=
  (∀ v : Half, isBroadcast (.short v) = true ↔ 0x8000 ≤ v.toNat)
  ∧ (∀ v : DWord, isBroadcast (.long v) = false)
  ∧ (∀ v : Half, isUnspecified (.short v) = true ↔ v.toNat = 0)
  ∧ (∀ v : DWord, isUnspecified (.long v) = true ↔ v.toNat = 0)
  ∧ (∀ v : Half, ¬ (isBroadcast (.short v) = true ∧ isUnspecified (.short v) = true))
  ∧ ∀ v : Half, 0x0001 ≤ v.toNat → v.toNat ≤ 0x7FFF →
    isBroadcast (.short v) = false ∧ isUnspecified (.short v) = false

/-- `AddrOf` and `Triple` (10_state.md section 3): writing an address to a triple and reading it gives it back in
every build that has it; without long addresses TAG and HI mean nothing. -/
def Obligations.AddressesSurviveTheirTriple : Prop :=
  (∀ (c : Config) (v : Half), addrOf c (triple (.short v)) = .short v)
  ∧ (∀ (c : Config) (v : DWord), c.longAddr = true → addrOf c (triple (.long v)) = .long v)
  ∧ (∀ (c : Config) (r : AddrRegs), c.longAddr = false → addrOf c r = .short (r.lo.extractLsb' 0 16))
  ∧ ∀ (c : Config) (r : AddrRegs), c.longAddr = true →
    (r.tag.getLsbD 0 = false → addrOf c r = .short (r.lo.extractLsb' 0 16))
    ∧ (r.tag.getLsbD 0 = true → ∃ v, addrOf c r = .long v
      ∧ v.extractLsb' 0 32 = r.lo ∧ v.extractLsb' 32 32 = r.hi)

/-- R145, R146, R147: what ADDR_MAKE stages and that it stages nothing else, what ADDR_CLASS and ADDR_EQ answer
from the selected addresses, which address each selector selects and its number, and which words the three are. -/
def Obligations.AddressCommandsStageAndCompare : Prop :=
  (∀ s : State,
    (selectedAddr s (.txinfo .originalSrc) = addrOf s.cfg s.txinfo.originalSrc
      ∧ selectedAddr s (.txinfo .originalDst) = addrOf s.cfg s.txinfo.originalDst
      ∧ selectedAddr s (.txinfo .immedSrc) = addrOf s.cfg s.txinfo.immedSrc
      ∧ selectedAddr s (.txinfo .immedDst) = addrOf s.cfg s.txinfo.immedDst
      ∧ selectedAddr s (.pinfo .originalSrc) = addrOf s.cfg s.pinfo.originalSrc
      ∧ selectedAddr s (.pinfo .originalDst) = addrOf s.cfg s.pinfo.originalDst
      ∧ selectedAddr s (.pinfo .immedSrc) = addrOf s.cfg s.pinfo.immedSrc
      ∧ selectedAddr s (.pinfo .immedDst) = addrOf s.cfg s.pinfo.immedDst
      ∧ ∀ r : DescRegs, r.triple .originalSrc = r.originalSrc ∧ r.triple .originalDst = r.originalDst
        ∧ r.triple .immedSrc = r.immedSrc ∧ r.triple .immedDst = r.immedDst)
    ∧ (∀ (f : AddrField) (v : Half), ∃ t, exec (.addrMake f v) s = .next t
      ∧ t.txinfo.triple f = ⟨0, 0#16 ++ v, 0⟩ ∧ selectedAddr t (.txinfo f) = .short v
      ∧ (∀ g, g ≠ f → t.txinfo.triple g = s.txinfo.triple g)
      ∧ t.txinfo.ports = s.txinfo.ports ∧ t.txinfo.fields = s.txinfo.fields
      ∧ t.txinfo.flags = s.txinfo.flags ∧ t.txinfo.sendTime = s.txinfo.sendTime
      ∧ SameBytes s t ∧ t = answered { s with txinfo := t.txinfo } 0x20 .ok 0)
    ∧ (∀ sel : AddrSel,
      (∀ v, selectedAddr s sel = .short v →
        exec (.addrClass sel) s = .next (answered s 0x21 .ok
          (if v.toNat = 0 then 2 else if 0x8000 ≤ v.toNat then 1 else 0)))
      ∧ ∀ v, selectedAddr s sel = .long v →
        exec (.addrClass sel) s = .next (answered s 0x21 .ok (if v.toNat = 0 then 2 else 0)))
    ∧ ∀ sel1 sel2 : AddrSel,
      exec (.addrEq sel1 sel2) s
        = .next (answered s 0x22 .ok (if selectedAddr s sel1 = selectedAddr s sel2 then 1 else 0)))
  ∧ [0, 1, 2, 3].map addrFieldOf = [.originalSrc, .originalDst, .immedSrc, .immedDst]
  ∧ (∀ n : BitVec 2, addrSelOf (0#1 ++ n) = .txinfo (addrFieldOf n) ∧ addrSelOf (1#1 ++ n) = .pinfo (addrFieldOf n))
  ∧ (∀ c : DWord, c.extractLsb' 0 8 = 0x20 → decode c =
      if c.extractLsb' 10 6 = 0 ∧ c.extractLsb' 32 32 = 0 then
        .ok (.addrMake (addrFieldOf (c.extractLsb' 8 2)) (c.extractLsb' 16 16))
      else .reservedField)
  ∧ (∀ c : DWord, c.extractLsb' 0 8 = 0x21 → decode c =
      if c.extractLsb' 11 53 = 0 then .ok (.addrClass (addrSelOf (c.extractLsb' 8 3))) else .reservedField)
  ∧ ∀ c : DWord, c.extractLsb' 0 8 = 0x22 → decode c =
      if c.extractLsb' 11 5 = 0 ∧ c.extractLsb' 19 45 = 0 then
        .ok (.addrEq (addrSelOf (c.extractLsb' 8 3)) (addrSelOf (c.extractLsb' 16 3)))
      else .reservedField

/-! ### Header codec -/

/-- Round trip (42_codec.md section 4): a built header, with any payload behind it, parses to every field the
format carries. An address carried as absent comes back as UNSPEC, whichever form it had (log entry 9). -/
def Obligations.ParsingABuiltHeaderGivesTheFields : Prop :=
  ∀ (longAddr : Bool) (x : Descriptor) (h rest : List Byte), buildHeader x = some h →
    (longAddr = true ∨ (kindOf (hdrSrc x) ≠ .long ∧ kindOf (hdrDst x) ≠ .long)) →
    ∃ y, parseHeader longAddr (h ++ rest) = some y ∧ y.hdrLen.toNat = h.length
      ∧ y.immedSrc = wireAddr (hdrSrc x) ∧ y.originalSrc = wireAddr (hdrSrc x)
      ∧ y.immedDst = wireAddr (hdrDst x) ∧ y.originalDst = wireAddr (hdrDst x)
      ∧ y.srcPort = x.srcPort ∧ y.dstPort = x.dstPort ∧ y.seqnum = x.seqnum ∧ y.cost = x.cost
      ∧ y.authType = x.authType ∧ y.hopLimit = x.hopLimit
      ∧ y.flags = { x.flags with locallyOriginated := false } ∧ y.sendTime = 0

/-- R163: a built header is 1 to 18 bytes long, 12 at most without long addresses, each bound is reached, HDRBUF has
18 bytes; its length is the one its own flag bytes imply. And its layout (42_codec.md sections 1 and 2): which address
is serialized, the combination code, every bit of FCF and EXT, and the bytes in their one order, each field there
exactly when it is not 0. -/
def Obligations.BuiltHeadersHaveTheStatedLayout : Prop :=
  (∀ (x : Descriptor) (h : List Byte), buildHeader x = some h →
    let src := if isUnspecified x.immedSrc then x.originalSrc else x.immedSrc
    let dst := if isUnspecified x.immedDst then x.originalDst else x.immedDst
    let both := x.srcPort != 0 && x.dstPort != 0
    1 ≤ h.length ∧ h.length ≤ 18
    ∧ (builtKind src ≠ 2 → builtKind dst ≠ 2 → h.length ≤ 12)
    ∧ ∃ fcf ext : Byte,
      h = [fcf] ++ fieldBytes (ext != 0) [ext] ++ fieldBytes (builtKind src != 0) (rawBytes src)
          ++ fieldBytes (builtKind dst != 0) (rawBytes dst) ++ fieldBytes (x.srcPort != 0) [x.srcPort]
          ++ fieldBytes (x.dstPort != 0) [x.dstPort] ++ fieldBytes (x.seqnum != 0) [x.seqnum]
          ++ fieldBytes (x.cost != 0) [x.cost] ++ fieldBytes (x.authType != 0) [x.authType]
          ++ fieldBytes (x.hopLimit != 0) [x.hopLimit]
      ∧ h.length = impliedLength fcf ext
      ∧ (fcf.extractLsb' 0 3).toNat = builtKind src + 3 * builtKind dst
      ∧ fcf.getLsbD 3 = both ∧ fcf.getLsbD 4 = (x.seqnum != 0) ∧ fcf.getLsbD 5 = (x.cost != 0)
      ∧ fcf.getLsbD 6 = x.flags.ackRequested ∧ fcf.getLsbD 7 = (ext != 0)
      ∧ ext.getLsbD 0 = (x.authType != 0) ∧ ext.getLsbD 1 = (x.srcPort != 0 && !both)
      ∧ ext.getLsbD 2 = (x.dstPort != 0 && !both) ∧ ext.getLsbD 3 = (x.hopLimit != 0)
      ∧ ext.getLsbD 4 = x.flags.isAck ∧ ext.getLsbD 5 = x.flags.moreData ∧ ext.extractLsb' 6 2 = 0)
  ∧ (∀ x : Descriptor, hdrSrc x = (if isUnspecified x.immedSrc then x.originalSrc else x.immedSrc)
    ∧ hdrDst x = (if isUnspecified x.immedDst then x.originalDst else x.immedDst))
  ∧ (∀ a : Address, kindCode (kindOf a) = builtKind a ∧ (kindOf a = .long ↔ builtKind a = 2))
  ∧ (∀ fcf ext : Byte, hdrLenOf fcf ext = impliedLength fcf ext)
  ∧ (∀ (c : Config) (r : DescRegs) (h : List Byte), c.longAddr = false → buildHeader (descOf c r) = some h →
    h.length ≤ 12)
  ∧ buildHeader Descriptor.empty = some [0x00]
  ∧ (∃ x h, buildHeader x = some h ∧ h.length = 18)
  ∧ (∃ r h, buildHeader (descOf Config.ref r) = some h ∧ h.length = 12)
  ∧ ∀ c : Config, bufferSize c .hdrbuf = 18

/-- R159: Build rejects exactly a specified long source with a specified long destination, which needs LONG_ADDR = 1
when the descriptor comes from the registers and never comes from MAC_SEND; HDR_BUILD and MAC_SEND_EX then answer
INVALID_ADDR_COMBINATION and write nothing. -/
def Obligations.OnlyTwoLongAddressesAreRejected : Prop :=
  (∀ x : Descriptor, buildHeader x = none ↔
    ∃ v w : DWord, hdrSrc x = .long v ∧ hdrDst x = .long w ∧ v ≠ 0 ∧ w ≠ 0)
  ∧ (∀ (c : Config) (r : DescRegs), c.longAddr = false → buildHeader (descOf c r) ≠ none)
  ∧ (∀ (s : State) (staged ack : Bool) (dst : Half), buildHeader (macSendPacket s staged ack dst) ≠ none)
  ∧ ∀ s : State, buildHeader (descOf s.cfg s.txinfo) = none →
    exec .hdrBuild s = .next (answered s 0x30 .invalidAddrCombination 0)
    ∧ ∀ n : Half, s.macInited = true → n.toNat ≤ s.cfg.bufSize.toNat →
      exec (.macSendEx n) s = .next (answered s 0x42 .invalidAddrCombination 0)

/-- A parser fails (42_codec.md section 3) exactly when the buffer is shorter than its flags imply, an empty one and one that ends
before its EXT byte among them, (a) when a reserved EXT bit is set, (b) when FCF.PORTS stands beside EXT.SRC_PORT or
EXT.DST_PORT, and (c) on a long address kind without long addresses; everything else parses. What it then gives
(42_codec.md section 3): the header is as long as its flags imply, 1 to 18 bytes, 12 at most without long addresses;
its bytes are the flag bytes and, in their one order, the fields that the flags announce, and a field not announced is
UNSPEC or 0. It looks at no byte behind the header: what follows is the payload and does not change the result. -/
def Obligations.TheParserReadsExactlyItsHeader : Prop :=
  (∀ (longAddr : Bool) (b : List Byte), parseHeader longAddr b = none ↔
    b = [] ∨ ∃ fcf rest, b = fcf :: rest ∧
      ((fcf.getLsbD 7 = true ∧ rest = [])
      ∨ (extBehind fcf rest).extractLsb' 6 2 ≠ 0
      ∨ (fcf.getLsbD 3 = true
        ∧ ((extBehind fcf rest).getLsbD 1 = true ∨ (extBehind fcf rest).getLsbD 2 = true))
      ∨ (longAddr = false ∧ (srcKindNumber fcf = 2 ∨ dstKindNumber fcf = 2))
      ∨ b.length < impliedLength fcf (extBehind fcf rest)))
  ∧ (∀ (longAddr : Bool) (fcf : Byte) (rest : List Byte) (y : Descriptor),
    parseHeader longAddr (fcf :: rest) = some y →
    let ext := extBehind fcf rest
    y.hdrLen.toNat = impliedLength fcf ext
    ∧ 1 ≤ y.hdrLen.toNat ∧ y.hdrLen.toNat ≤ 18 ∧ (longAddr = false → y.hdrLen.toNat ≤ 12)
    ∧ (fcf :: rest).take y.hdrLen.toNat
      = [fcf] ++ fieldBytes (fcf.getLsbD 7) [ext] ++ fieldBytes (srcKindNumber fcf != 0) (rawBytes y.immedSrc)
        ++ fieldBytes (dstKindNumber fcf != 0) (rawBytes y.immedDst)
        ++ fieldBytes (fcf.getLsbD 3 || ext.getLsbD 1) [y.srcPort]
        ++ fieldBytes (fcf.getLsbD 3 || ext.getLsbD 2) [y.dstPort]
        ++ fieldBytes (fcf.getLsbD 4) [y.seqnum] ++ fieldBytes (fcf.getLsbD 5) [y.cost]
        ++ fieldBytes (ext.getLsbD 0) [y.authType] ++ fieldBytes (ext.getLsbD 3) [y.hopLimit]
    ∧ OfKind (srcKindNumber fcf) y.immedSrc ∧ OfKind (dstKindNumber fcf) y.immedDst
    ∧ y.originalSrc = y.immedSrc ∧ y.originalDst = y.immedDst
    ∧ (fcf.getLsbD 3 = false → ext.getLsbD 1 = false → y.srcPort = 0)
    ∧ (fcf.getLsbD 3 = false → ext.getLsbD 2 = false → y.dstPort = 0)
    ∧ (fcf.getLsbD 4 = false → y.seqnum = 0) ∧ (fcf.getLsbD 5 = false → y.cost = 0)
    ∧ (ext.getLsbD 0 = false → y.authType = 0) ∧ (ext.getLsbD 3 = false → y.hopLimit = 0)
    ∧ y.flags.ackRequested = fcf.getLsbD 6 ∧ y.flags.isAck = ext.getLsbD 4 ∧ y.flags.moreData = ext.getLsbD 5
    ∧ y.flags.locallyOriginated = false ∧ y.sendTime = 0)
  ∧ ∀ (longAddr : Bool) (b rest : List Byte) (y : Descriptor), parseHeader longAddr b = some y →
    y.hdrLen.toNat ≤ b.length
    ∧ parseHeader longAddr (b.take y.hdrLen.toNat ++ rest) = some y

/-- HDR_BUILD and HDR_PARSE (42_codec.md section 5): what they write and that they write nothing else. -/
def Obligations.CodecCommandsWriteTheirResults : Prop :=
  ∀ s : State,
    (buildHeader (descOf s.cfg s.txinfo) = none →
      exec .hdrBuild s = .next (answered s 0x30 .invalidAddrCombination 0))
    ∧ (∀ h, buildHeader (descOf s.cfg s.txinfo) = some h →
      ∃ t, exec .hdrBuild s = .next t
        ∧ (∀ a, bufferByte t .hdrbuf a = if a < h.length then h.getD a 0 else bufferByte s .hdrbuf a)
        ∧ (∀ a, bufferByte t .txdata a = bufferByte s .txdata a)
        ∧ t = answered { s with hdrbuf := t.hdrbuf, hdrLen := BitVec.ofNat 8 h.length } 0x30 .ok
            (BitVec.ofNat 32 h.length))
    ∧ ∀ n : Half,
      (s.cfg.bufSize.toNat < n.toNat → exec (.hdrParse n) s = .next (answered s 0x31 .badArg 0))
      ∧ (n.toNat ≤ s.cfg.bufSize.toNat →
        (parseHeader s.cfg.longAddr (payload s n) = none →
          exec (.hdrParse n) s = .next (answered s 0x31 .malformedHeader 0))
        ∧ ∀ x, parseHeader s.cfg.longAddr (payload s n) = some x →
          ∃ t, exec (.hdrParse n) s = .next t ∧ t.pinfoHdrLen = x.hdrLen
            ∧ t.pinfo.originalSrc = triple x.originalSrc ∧ t.pinfo.originalDst = triple x.originalDst
            ∧ t.pinfo.immedSrc = triple x.immedSrc ∧ t.pinfo.immedDst = triple x.immedDst
            ∧ t.pinfo.ports = 0#16 ++ x.dstPort ++ x.srcPort
            ∧ t.pinfo.fields = x.authType ++ x.hopLimit ++ x.cost ++ x.seqnum
            ∧ flagsOf t.pinfo.flags = x.flags ∧ t.pinfo.flags.extractLsb' 4 28 = 0 ∧ t.pinfo.sendTime = 0
            ∧ SameBytes s t
            ∧ t = answered { s with pinfo := t.pinfo, pinfoHdrLen := t.pinfoHdrLen } 0x31 .ok
                (0#24 ++ x.hdrLen))

/-! ### Engine, outbound -/

/-- MAC_INIT (43_mac_tx.md section 1): once only; it binds the engine alarm and switches the radio on. -/
def Obligations.MacInitBindsTheEngineAlarmOnce : Prop :=
  ∀ s : State, TablesSized s →
    (s.macInited = true → exec .macInit s = .next (answered s 0x40 .badState 0))
    ∧ (s.macInited = false → ∃ t, exec .macInit s = .next t
      ∧ t.alarm s.engineAlarm
        = { s.alarm s.engineAlarm with cb := 0xFFFF, arg := 0, bound := true }
      ∧ (∀ j, j ≠ s.engineAlarm → t.alarm j = s.alarm j)
      ∧ SameBytes s t
      ∧ t = answered { s with alarms := t.alarms, macInited := true, outputs := s.outputs ++ [.radioOn] }
          0x40 .ok 0)

/-- The checks of a send in their order, each with no state change (43_mac_tx.md section 2, 60_exceptions.md
section 1), for both send commands. That the BAD_ARG of a MAC_SEND with DST_STAGED and B not 0 comes before
BAD_STATE is the model's reading (log entry 10). -/
def Obligations.SendsAreRefusedInTheStatedOrder : Prop :=
  (∀ (s : State) (ack : Bool) (dst n : Half), dst ≠ 0 →
    exec (.macSend true ack dst n) s = .next (answered s 0x41 .badArg 0))
  ∧ ∀ (s : State) (n : Half) (x : Descriptor) (i : Instr) (op : Byte),
    ((i = .macSendEx n ∧ op = 0x42 ∧ x = descOf s.cfg s.txinfo)
      ∨ ∃ staged ack dst, i = .macSend staged ack dst n ∧ op = 0x41 ∧ (staged = true → dst = 0)
        ∧ x = macSendPacket s staged ack dst) →
    (s.macInited = false → exec i s = .next (answered s op .badState 0))
    ∧ (s.macInited = true →
      (s.cfg.bufSize.toNat < n.toNat → exec i s = .next (answered s op .tooLong 0))
      ∧ (n.toNat ≤ s.cfg.bufSize.toNat →
        (buildHeader x = none → exec i s = .next (answered s op .invalidAddrCombination 0))
        ∧ ∀ h, buildHeader x = some h →
          (s.cfg.bufSize.toNat < h.length + n.toNat → exec i s = .next (answered s op .tooLong 0))
          ∧ (h.length + n.toNat ≤ s.cfg.bufSize.toNat → (∀ k, k < s.slots.length → (s.slot k).state ≠ .idle) →
            exec i s = .next (answered s op .queueFull 0))))

/-- An accepted send that cannot start yet waits QUEUED in the lowest free slot with its header and a copy of its
payload; MAC_SEND alone counts mac_seq (43_mac_tx.md section 2). -/
def Obligations.AnAcceptedSendWaitsBehindTheRadio : Prop :=
  ∀ (s : State) (n : Half) (k : Nat) (h : List Byte),
    (s.radioBusy = true ∨ ∃ j, (s.slot j).state = .inFlight) →
    (Acceptable s (descOf s.cfg s.txinfo) h n k →
      exec (.macSendEx n) s = .next (answered
        { s with slots := s.slots.set k (packetSlot .queued .none 0 (descOf s.cfg s.txinfo) h (payload s n)),
                 order := s.order ++ [k] } 0x42 .ok (BitVec.ofNat 32 k)))
    ∧ ∀ staged ack dst, (staged = true → dst = 0) → Acceptable s (macSendPacket s staged ack dst) h n k →
      exec (.macSend staged ack dst n) s = .next (answered
        { s with slots := s.slots.set k
                   (packetSlot .queued .none 0 (macSendPacket s staged ack dst) h (payload s n)),
                 order := s.order ++ [k], macSeq := s.macSeq + 1 } 0x41 .ok (BitVec.ofNat 32 k))

/-- An accepted send on an idle engine goes on the air in its own step, in the pass-through variant without a
question to the channel, in the others when the channel answers clear; when it answers busy the packet is in flight
in its backoff, nothing sent, and the engine alarm armed with the draw (43_mac_tx.md sections 2 to 5). -/
def Obligations.AnAcceptedSendOnAnIdleEngineIsTransmitted : Prop :=
  ∀ (s : State) (n : Half) (k : Nat) (h : List Byte) (answers : List Bool),
    s.radioBusy = false → s.order = [] → (∀ j, (s.slot j).state ≠ .inFlight) →
    (((s.cfg.variant = .passthrough ∧ answers = s.channelAnswers)
        ∨ (s.cfg.variant ≠ .passthrough ∧ s.channelAnswers = true :: answers)) →
      let sent (x : Descriptor) (seq : Byte) : State :=
        { s with slots := s.slots.set k (packetSlot .inFlight .transmitting 1 x h (payload s n)),
                 order := [k], radioBusy := true, txOwner := .slot, txSlot := BitVec.ofNat 8 k,
                 channelAnswers := answers, macSeq := seq,
                 outputs := s.outputs ++ [.radioTx h (payload s n)] }
      (Acceptable s (descOf s.cfg s.txinfo) h n k →
        exec (.macSendEx n) s
          = .next (answered (sent (descOf s.cfg s.txinfo) s.macSeq) 0x42 .ok (BitVec.ofNat 32 k)))
      ∧ ∀ staged ack dst, (staged = true → dst = 0) → Acceptable s (macSendPacket s staged ack dst) h n k →
        exec (.macSend staged ack dst n) s
          = .next (answered (sent (macSendPacket s staged ack dst) (s.macSeq + 1)) 0x41 .ok (BitVec.ofNat 32 k)))
    ∧ ∀ r draws, TablesSized s → s.cfg.variant ≠ .passthrough → s.channelAnswers = false :: answers →
      s.draws = r :: draws → 1 ≤ r.toNat → r.toNat ≤ s.cfg.maxInitBackoff.toNat →
      let waits (t : State) (x : Descriptor) (seq : Byte) : Prop :=
        EngineArmed s t r
        ∧ t = { s with slots := s.slots.set k (packetSlot .inFlight .senseBackoff 0 x h (payload s n)),
                       order := [k], channelAnswers := answers, draws := draws, macSeq := seq,
                       alarms := t.alarms, alist := t.alist }
      (Acceptable s (descOf s.cfg s.txinfo) h n k →
        ∃ t, waits t (descOf s.cfg s.txinfo) s.macSeq
          ∧ exec (.macSendEx n) s = .next (answered t 0x42 .ok (BitVec.ofNat 32 k)))
      ∧ ∀ staged ack dst, (staged = true → dst = 0) → Acceptable s (macSendPacket s staged ack dst) h n k →
        ∃ t, waits t (macSendPacket s staged ack dst) (s.macSeq + 1)
          ∧ exec (.macSend staged ack dst n) s = .next (answered t 0x41 .ok (BitVec.ofNat 32 k))

/-- Carrier sense (43_mac_tx.md section 4): one question; a clear channel and an idle radio transmit the slot's own
bytes; otherwise nothing goes out and the engine alarm is armed with the drawn backoff, which lies in
1 .. MAX_INIT_BACKOFF whatever the outside offers (log entry 5) and takes every value of that range. -/
def Obligations.CarrierSenseTransmitsOrBacksOff : Prop :=
  (∀ s : State, 1 ≤ s.cfg.maxInitBackoff.toNat →
    1 ≤ (drawBackoff s).1.toNat ∧ (drawBackoff s).1.toNat ≤ s.cfg.maxInitBackoff.toNat)
  ∧ ∀ (s : State) (k : Nat) (clear : Bool) (answers : List Bool) (r : Word) (draws : List Word),
    TablesSized s → k < s.slots.length → s.channelAnswers = clear :: answers → s.draws = r :: draws →
    1 ≤ r.toNat → r.toNat ≤ s.cfg.maxInitBackoff.toNat →
    (clear = true → s.radioBusy = false →
      sense k s = { transmitted k s with channelAnswers := answers })
    ∧ (clear = false ∨ s.radioBusy = true →
      EngineArmed s (sense k s) r
      ∧ sense k s =
        { s with slots := s.slots.set k { s.slot k with phase := .senseBackoff }, channelAnswers := answers,
                 draws := draws, alarms := (sense k s).alarms, alist := (sense k s).alist })

/-- RADIO_TXDONE (43_mac_tx.md section 5): an awaited acknowledgement arms ACK_TIMEOUT whatever the status; a send
nobody is to acknowledge is completed with the radio's status, and the next packet of the queue is served; with
nothing on the air it is only reported; an acknowledgement's or an orphan's end frees the radio for the oldest
packet, if none is in flight. -/
def Obligations.TransmissionEndWaitsOrCompletes : Prop :=
  ∀ (s : State) (status : Byte),
    (s.radioBusy = false →
      runInput (.radioTxDone status) s = .next { s with outputs := s.outputs ++ [.diag .spuriousTxDone] })
    ∧ (s.radioBusy = true → s.txOwner ≠ .slot →
      ((∀ j, (s.slot j).state ≠ .inFlight) →
        runInput (.radioTxDone status) s = .next (servedNext { s with radioBusy := false, txOwner := .none }))
      ∧ ((∃ j, (s.slot j).state = .inFlight) →
        runInput (.radioTxDone status) s = .next { s with radioBusy := false, txOwner := .none }))
    ∧ ∀ k, TablesSized s → s.radioBusy = true → s.txOwner = .slot → s.txSlot.toNat = k → HeadInFlight s k →
      ((s.cfg.variant = .csmaAck ∧ (s.slot k).ackreq = true ∧ isBroadcast (s.slot k).dst = false →
        ∃ t, runInput (.radioTxDone status) s = .next t ∧ EngineArmed s t s.cfg.ackTimeout
          ∧ t = { s with slots := s.slots.set k { s.slot k with phase := .awaitAck }, radioBusy := false,
                         txOwner := .none, alarms := t.alarms, alist := t.alist })
      ∧ (s.cfg.variant ≠ .csmaAck ∨ (s.slot k).ackreq = false ∨ isBroadcast (s.slot k).dst = true →
        runInput (.radioTxDone status) s = .next (servedNext
          { released k (if status = 0 then .sendOk else .radioFail) s with
            radioBusy := false, txOwner := .none })))

/-- The engine alarm's handler in each phase (43_mac_tx.md section 6). AWAIT_ACK: with attempts left the retry wait
is RETRY_BASE x attempts; after MAX_ATTEMPTS the send ends with ACK_TIMEOUT, its slot is free and the next packet is
served. SENSE_BACKOFF: the channel is sensed again. RETRY_BACKOFF: the next attempt begins. In the other phases, and
with nothing in flight, nothing happens. -/
def Obligations.AnExpiredAckWaitRetriesOrFails : Prop :=
  (∀ (s : State) (k : Nat), TablesSized s → HeadInFlight s k →
    ((s.slot k).phase = .awaitAck →
      ((s.slot k).attempts.toNat < s.cfg.maxAttempts.toNat →
        EngineArmed s (macAlarm s)
          (BitVec.ofNat 32 (s.cfg.retryBase.toNat * (s.slot k).attempts.toNat))
        ∧ macAlarm s =
          { s with slots := s.slots.set k { s.slot k with phase := .retryBackoff },
                   alarms := (macAlarm s).alarms, alist := (macAlarm s).alist })
      ∧ (s.cfg.maxAttempts.toNat ≤ (s.slot k).attempts.toNat →
        macAlarm s = servedNext (released k .ackTimeout s)))
    ∧ ((s.slot k).phase = .senseBackoff → macAlarm s = sense k s)
    ∧ ((s.slot k).phase = .retryBackoff →
      (s.cfg.variant = .passthrough → macAlarm s = transmitted k s)
      ∧ (s.cfg.variant ≠ .passthrough → macAlarm s = sense k s))
    ∧ ((s.slot k).phase = .transmitting ∨ (s.slot k).phase = .none → macAlarm s = s))
  ∧ ∀ s : State, (∀ j, (s.slot j).state ≠ .inFlight) → macAlarm s = s

/-- MAC_CANCEL (43_mac_tx.md section 7): refusals in order; a cancelled slot is free, at its reset value, and
reported in the same step, its timeout gone, and the oldest packet left is served if none is in flight; a frame on
the air becomes an orphan and the radio stays busy. -/
def Obligations.CancelFreesTheSlotAndItsTimeout : Prop :=
  ∀ (s : State) (k : Byte),
    (s.macInited = false → exec (.macCancel k) s = .next (answered s 0x45 .badState 0))
    ∧ (s.macInited = true →
      (s.cfg.queueCap.toNat ≤ k.toNat → exec (.macCancel k) s = .next (answered s 0x45 .badArg 0))
      ∧ (k.toNat < s.cfg.queueCap.toNat →
        ((s.slot k.toNat).state = .idle → exec (.macCancel k) s = .next (answered s 0x45 .badState 0))
        ∧ ((s.slot k.toNat).state ≠ .idle → ∃ t more, exec (.macCancel k) s = .next t
          ∧ t.outputs = s.outputs ++ .sendDone k .cancelled (s.slot k.toNat).attempts :: more
          ∧ t.order = s.order.filter (fun j => j != k.toNat)
          ∧ t.responses = s.responses ++ [responseWord 0x45 .ok 0])
        ∧ ((s.slot k.toNat).state = .queued →
          ((∃ j, (s.slot j).state = .inFlight) →
            exec (.macCancel k) s = .next (answered (released k.toNat .cancelled s) 0x45 .ok 0))
          ∧ ((∀ j, (s.slot j).state ≠ .inFlight) →
            exec (.macCancel k) s
              = .next (answered (servedNext (released k.toNat .cancelled s)) 0x45 .ok 0)))
        ∧ (HeadInFlight s k.toNat →
          ((s.slot k.toNat).phase = .transmitting → s.radioBusy = true →
            exec (.macCancel k) s = .next (answered
              { released k.toNat .cancelled s with txOwner := .orphan } 0x45 .ok 0))
          ∧ ((s.slot k.toNat).phase ≠ .transmitting → ∃ u : State,
            s.engineAlarm ∉ u.alist ∧ u.alarm s.engineAlarm = { s.alarm s.engineAlarm with state := .idle }
            ∧ (∀ i, i ≠ s.engineAlarm → u.alarm i = s.alarm i)
            ∧ u.alist = s.alist.filter (fun j => j != s.engineAlarm)
            ∧ u = { released k.toNat .cancelled s with alarms := u.alarms, alist := u.alist }
            ∧ exec (.macCancel k) s = .next (answered (servedNext u) 0x45 .ok 0)))))

/-! ### Engine, inbound -/

/-- A dropped frame changes no state and leaves one DIAG, in the stated order of checks (44_mac_rx.md section 1). -/
def Obligations.DroppedFramesLeaveOneDiag : Prop :=
  ∀ (s : State) (f : List Byte),
    let drops (r : DiagReason) : Prop :=
      runInput (.radioRx f) s = .next { s with outputs := s.outputs ++ [.diag r] }
    (s.macInited = false → drops .rxNotInit)
    ∧ (s.macInited = true →
      (s.cfg.bufSize.toNat < f.length → drops .rxTooLong)
      ∧ (f.length ≤ s.cfg.bufSize.toNat →
        (parseHeader s.cfg.longAddr f = none → drops .rxMalformed)
        ∧ ∀ x, parseHeader s.cfg.longAddr f = some x →
          x.immedDst ≠ .short s.localShort → (s.cfg.longAddr = true → x.immedDst ≠ .long s.localLong) →
          isBroadcast x.immedDst = false → drops .rxNotForUs))

/-- Acknowledgement matching (44_mac_rx.md section 1), in the CSMA_ACK variant, whatever address of the node the
frame came to: a matching acknowledgement ends the wait and the send in one step, is not delivered, and the next
packet is served; any other changes nothing but for one DIAG. -/
def Obligations.OnlyTheAwaitedAckCompletesTheSend : Prop :=
  ∀ (s : State) (f : List Byte) (x : Descriptor),
    s.macInited = true → f.length ≤ s.cfg.bufSize.toNat → parseHeader s.cfg.longAddr f = some x →
    ForNode s x.immedDst → s.cfg.variant = .csmaAck → x.flags.isAck = true →
    (∀ k, HeadInFlight s k → (s.slot k).phase = .awaitAck → x.seqnum = (s.slot k).seq →
      x.immedSrc = (s.slot k).dst →
      ∃ u : State, s.engineAlarm ∉ u.alist
        ∧ u.alarm s.engineAlarm = { s.alarm s.engineAlarm with state := .idle }
        ∧ (∀ i, i ≠ s.engineAlarm → u.alarm i = s.alarm i)
        ∧ u.alist = s.alist.filter (fun j => j != s.engineAlarm)
        ∧ u = { released k .sendOk s with alarms := u.alarms, alist := u.alist }
        ∧ runInput (.radioRx f) s = .next (servedNext u))
    ∧ ((∀ k, (s.slot k).state = .inFlight → (s.slot k).phase = .awaitAck → x.seqnum = (s.slot k).seq →
        x.immedSrc ≠ (s.slot k).dst) →
      runInput (.radioRx f) s = .next { s with outputs := s.outputs ++ [.diag .ackUnmatched] })

/-- Automatic acknowledgement and delivery (44_mac_rx.md section 1), in the CSMA_ACK variant: a frame for the node
that asks for it is acknowledged to its source before it is delivered, from the long address if it came to that and
else, a broadcast too, from the short one; while the radio is busy or without a source it is delivered all the same.
An acknowledgement between two long addresses is not sent; no header can ask for one, so the acknowledgement of a
frame that parsed always builds. -/
def Obligations.AskedFramesAreAcknowledgedThenDelivered : Prop :=
  (∀ (s : State) (f : List Byte) (x : Descriptor),
    s.macInited = true → f.length ≤ s.cfg.bufSize.toNat → parseHeader s.cfg.longAddr f = some x →
    ForNode s x.immedDst → s.cfg.variant = .csmaAck → x.flags.isAck = false →
    (x.flags.ackRequested = false → runInput (.radioRx f) s = .next
      { s with outputs := s.outputs ++ [.rxDeliver x (f.drop x.hdrLen.toNat)] })
    ∧ (x.flags.ackRequested = true → isUnspecified x.immedSrc = true ∨ s.radioBusy = true →
      runInput (.radioRx f) s = .next
        { s with outputs := s.outputs ++ [.diag .ackNotSent, .rxDeliver x (f.drop x.hdrLen.toNat)] })
    ∧ (x.flags.ackRequested = true → isUnspecified x.immedSrc = false → s.radioBusy = false →
      ∃ h, buildHeader (ackPacket s x) = some h
        ∧ runInput (.radioRx f) s = .next
          { s with radioBusy := true, txOwner := .ack,
                   outputs := s.outputs ++ [.radioTx h [], .rxDeliver x (f.drop x.hdrLen.toNat)] }))
  ∧ ∀ (s : State) (x : Descriptor) (v w : DWord), ForNode s x.immedDst → x.immedSrc = .long v → v ≠ 0 →
    x.immedDst = .long w → w ≠ 0 →
    buildHeader (ackPacket s x) = none
    ∧ autoAck x s = { s with outputs := s.outputs ++ [.diag .ackNotSent] }

/-- R226: PASSTHROUGH and CSMA do not interpret IS_ACK and ACK_REQ: every frame for the node is delivered, nothing
else happens. -/
def Obligations.OtherVariantsDeliverEveryFrame : Prop :=
  ∀ (s : State) (f : List Byte) (x : Descriptor),
    s.macInited = true → f.length ≤ s.cfg.bufSize.toNat → parseHeader s.cfg.longAddr f = some x →
    ForNode s x.immedDst → s.cfg.variant ≠ .csmaAck →
    runInput (.radioRx f) s = .next
      { s with outputs := s.outputs ++ [.rxDeliver x (f.drop x.hdrLen.toNat)] }

/-! ### The whole machine -/

/-- A command answered with a status other than OK has changed no state and produced no output (60_exceptions.md
section 1). -/
def Obligations.AStatusOtherThanOkMeansNothingChanged : Prop :=
  ∀ (c : DWord) (s t : State) (r : DWord), runWord c s = .next t → t.responses = s.responses ++ [r] →
    r.extractLsb' 0 8 ≠ 0 → t = { s with responses := t.responses }

/-- Only TICK moves JIFFIES, and it moves it by one (10_state.md section 2). -/
def Obligations.OnlyTickMovesJiffies : Prop :=
  (∀ (i : Instr) (s t : State), exec i s = .next t → t.jiffies = s.jiffies)
  ∧ (∀ (f : List Byte) (s t : State), runInput (.radioRx f) s = .next t → t.jiffies = s.jiffies)
  ∧ (∀ (st : Byte) (s t : State), runInput (.radioTxDone st) s = .next t → t.jiffies = s.jiffies)
  ∧ ∀ s t : State, runInput .tick s = .next t → t.jiffies = s.jiffies + 1

/-- No step changes the parameters; no event writes TXINFO, PINFO, a buffer, a header length or a local address
(10_state.md section 1, 46_port_access.md). -/
def Obligations.EventsNeverWriteStaging : Prop :=
  (∀ s t : State, step s = .next t → t.cfg = s.cfg)
  ∧ ∀ (x : Input) (s t : State), IsEvent x → runInput x s = .next t →
    t.txinfo = s.txinfo ∧ t.pinfo = s.pinfo ∧ t.hdrLen = s.hdrLen ∧ t.pinfoHdrLen = s.pinfoHdrLen
    ∧ t.localShort = s.localShort ∧ t.localLong = s.localLong ∧ SameBytes s t ∧ t.responses = s.responses

/-- Ownership (60_exceptions.md section 5): no command but MAC_INIT, the sends, MAC_CANCEL and the two that run a
pass touches the slots, the queue, the engine's scalars, the engine alarm or the output trace. -/
def Obligations.OtherCommandsLeaveTheEngineAlone : Prop :=
  ∀ (i : Instr) (s t : State),
    i ≠ .alarmProcess → i ≠ .cbReturn → i ≠ .macInit → (∀ n, i ≠ .macSendEx n) →
    (∀ a b d n, i ≠ .macSend a b d n) → (∀ k, i ≠ .macCancel k) → exec i s = .next t →
    t.slots = s.slots ∧ t.order = s.order ∧ t.macInited = s.macInited ∧ t.macSeq = s.macSeq
    ∧ t.radioBusy = s.radioBusy ∧ t.txOwner = s.txOwner ∧ t.txSlot = s.txSlot
    ∧ t.alarm s.engineAlarm = s.alarm s.engineAlarm ∧ t.outputs = s.outputs

/-- Retransmissions carry the bytes captured at acceptance (20_memory.md section 6): while a packet stays in the
queue no step rewrites its header, payload, sequence number, destination or ACK flag. -/
def Obligations.QueuedPacketsAreNeverRewritten : Prop :=
  ∀ (s t : State) (k : Nat), QueueSound s → step s = .next t → k ∈ s.order → k ∈ t.order →
    (t.slot k).hdr = (s.slot k).hdr ∧ (t.slot k).data = (s.slot k).data ∧ (t.slot k).seq = (s.slot k).seq
    ∧ (t.slot k).dst = (s.slot k).dst ∧ (t.slot k).ackreq = (s.slot k).ackreq

/-- What 43_mac_tx.md section 6 asks of SEND_DONE, as a count each step keeps: in every step but reset, the packets a
slot holds plus the SEND_DONEs that name it grow by one for a send accepted into that slot and not at all for
anything else, and so does the sum over the queue. It does not say that a send ever ends (R319). -/
def Obligations.PacketsAndReportsAreConserved : Prop :=
  (∀ (i : Instr) (s t : State), Inv s → exec i s = .next t →
    let accepted (v : Word) : Prop :=
      t.responses = s.responses ++ [responseWord 0x41 .ok v]
        ∨ t.responses = s.responses ++ [responseWord 0x42 .ok v]
    ((∃ v, accepted v) →
      t.order.length + sendDoneCount t.outputs = s.order.length + sendDoneCount s.outputs + 1)
    ∧ (¬ (∃ v, accepted v) →
      t.order.length + sendDoneCount t.outputs = s.order.length + sendDoneCount s.outputs)
    ∧ ∀ k, k < s.slots.length →
      (accepted (BitVec.ofNat 32 k) →
        held t k + reportsOf k t.outputs = held s k + reportsOf k s.outputs + 1)
      ∧ (¬ accepted (BitVec.ofNat 32 k) →
        held t k + reportsOf k t.outputs = held s k + reportsOf k s.outputs))
  ∧ ∀ (x : Input) (s t : State), Inv s → IsEvent x → runInput x s = .next t →
    t.order.length + sendDoneCount t.outputs = s.order.length + sendDoneCount s.outputs
    ∧ ∀ k, k < s.slots.length → held t k + reportsOf k t.outputs = held s k + reportsOf k s.outputs

/-- Reset (10_state.md section 8): every register at its stated value, both buffers holding values nothing fixes,
and the CFG registers the parameters. The reset input leaves that state and produces no output; that it is an
input a step can take is the model's reading (log entry 7). -/
def Obligations.ResetLeavesTheStatedValues : Prop :=
  (∀ c : Config,
    let s := State.resetOf c
    s.cfg = c ∧ s.jiffies = c.jiffiesReset
    ∧ s.alarms.length = c.nAlarms.toNat + 1 ∧ (∀ i, s.alarm i = ⟨0, 0, 0, .idle, false⟩) ∧ s.alist = []
    ∧ s.procState = .idle ∧ s.procNow = 0 ∧ s.fireId = 0 ∧ s.fireCb = 0 ∧ s.fireArg = 0
    ∧ s.pendingWork = false ∧ s.localShort = 0 ∧ s.localLong = 0
    ∧ (∀ r, s.txinfo.read r = 0) ∧ (∀ r, s.pinfo.read r = 0) ∧ s.hdrLen = 0 ∧ s.pinfoHdrLen = 0
    ∧ (∀ a, bufferByte s .txdata a = Config.txdataUnwritten 0 a)
    ∧ (∀ a, bufferByte s .hdrbuf a = Config.hdrbufUnwritten 0 a)
    ∧ s.macInited = false ∧ s.macSeq = 0 ∧ s.radioBusy = false ∧ s.txOwner = .none ∧ s.txSlot = 0
    ∧ s.slots.length = c.queueCap.toNat
    ∧ (∀ k, s.slot k = ⟨.idle, .none, 0, [], [], 0, .short 0, false⟩) ∧ s.order = [])
  ∧ ∀ s : State, runInput .reset s = .next
    { State.resetOf s.cfg with
      inputs := s.inputs, channelAnswers := s.channelAnswers, draws := s.draws, queries := s.queries,
      resets := s.resets + 1, responses := s.responses, outputs := s.outputs }

/-- The state after reset is sound in every configuration. -/
def Obligations.TheResetStateIsSound : Prop :=
  ∀ c : Config, Inv (State.resetOf c)

/-- Every step keeps the tables at their sizes and the alarm list the list of exactly the SCHEDULED alarms, each
once (10_state.md section 2). -/
def Obligations.EveryStepKeepsTheAlarmListSound : Prop :=
  ∀ s t : State, TablesSized s → AlarmListSound s → step s = .next t → TablesSized t ∧ AlarmListSound t

/-- Every step keeps both buffers in canonical form and within their sizes (20_memory.md section 1). -/
def Obligations.EveryStepKeepsTheBuffersCanonical : Prop :=
  ∀ s t : State, BuffersCanonical s → step s = .next t → BuffersCanonical t

/-- Every step keeps the whole invariant (10_state.md sections 2 and 5, 43_mac_tx.md sections 5 and 6): among its
parts, one packet in flight at the head of the queue, radio_busy and tx_owner in step, the engine alarm scheduled
exactly while the packet in flight waits, attempts within MAX_ATTEMPTS. -/
def Obligations.EveryStepKeepsTheInvariant : Prop :=
  ∀ s t : State, Inv s → step s = .next t → Inv t

/-- Nothing is fatal (60_exceptions.md section 1): every command and every event answers a next state in every state,
and so every step of a legal configuration does, from a sound state again a sound one. -/
def Obligations.NothingIsFatal : Prop :=
  (∀ (i : Instr) (s : State), Safe (exec i s))
  ∧ (∀ (x : Input) (s : State), Safe (runInput x s))
  ∧ ∀ s : State, s.cfg.legal = true → ∃ t, step s = .next t ∧ t.cfg = s.cfg ∧ (Inv s → Inv t)
end

