-- ==== Sys2Proof/Laws/State.lean ====
section
/-! SUPPORT. One lemma per field per update of the state, each true by `rfl`, so that no later proof unfolds a
record update. The updates that choose (a query, carrier sense, the arbiter, a pass) are in the other files of
this folder. -/

namespace Sys2Proof.Machine


/-! ### `State.respond`: only `responses` moves (R84). -/

@[simp] theorem respond_cfg (s : State) (op : Byte) (st : Status) (v : Word) : (s.respond op st v).cfg = s.cfg := rfl
@[simp] theorem respond_jiffies (s : State) (op : Byte) (st : Status) (v : Word) :
    (s.respond op st v).jiffies = s.jiffies := rfl
@[simp] theorem respond_alarms (s : State) (op : Byte) (st : Status) (v : Word) :
    (s.respond op st v).alarms = s.alarms := rfl
@[simp] theorem respond_alist (s : State) (op : Byte) (st : Status) (v : Word) :
    (s.respond op st v).alist = s.alist := rfl
@[simp] theorem respond_procState (s : State) (op : Byte) (st : Status) (v : Word) :
    (s.respond op st v).procState = s.procState := rfl
@[simp] theorem respond_procNow (s : State) (op : Byte) (st : Status) (v : Word) :
    (s.respond op st v).procNow = s.procNow := rfl
@[simp] theorem respond_fireId (s : State) (op : Byte) (st : Status) (v : Word) :
    (s.respond op st v).fireId = s.fireId := rfl
@[simp] theorem respond_fireCb (s : State) (op : Byte) (st : Status) (v : Word) :
    (s.respond op st v).fireCb = s.fireCb := rfl
@[simp] theorem respond_fireArg (s : State) (op : Byte) (st : Status) (v : Word) :
    (s.respond op st v).fireArg = s.fireArg := rfl
@[simp] theorem respond_pendingWork (s : State) (op : Byte) (st : Status) (v : Word) :
    (s.respond op st v).pendingWork = s.pendingWork := rfl
@[simp] theorem respond_localShort (s : State) (op : Byte) (st : Status) (v : Word) :
    (s.respond op st v).localShort = s.localShort := rfl
@[simp] theorem respond_localLong (s : State) (op : Byte) (st : Status) (v : Word) :
    (s.respond op st v).localLong = s.localLong := rfl
@[simp] theorem respond_txinfo (s : State) (op : Byte) (st : Status) (v : Word) :
    (s.respond op st v).txinfo = s.txinfo := rfl
@[simp] theorem respond_pinfo (s : State) (op : Byte) (st : Status) (v : Word) :
    (s.respond op st v).pinfo = s.pinfo := rfl
@[simp] theorem respond_hdrLen (s : State) (op : Byte) (st : Status) (v : Word) :
    (s.respond op st v).hdrLen = s.hdrLen := rfl
@[simp] theorem respond_pinfoHdrLen (s : State) (op : Byte) (st : Status) (v : Word) :
    (s.respond op st v).pinfoHdrLen = s.pinfoHdrLen := rfl
@[simp] theorem respond_txdata (s : State) (op : Byte) (st : Status) (v : Word) :
    (s.respond op st v).txdata = s.txdata := rfl
@[simp] theorem respond_hdrbuf (s : State) (op : Byte) (st : Status) (v : Word) :
    (s.respond op st v).hdrbuf = s.hdrbuf := rfl
@[simp] theorem respond_macInited (s : State) (op : Byte) (st : Status) (v : Word) :
    (s.respond op st v).macInited = s.macInited := rfl
@[simp] theorem respond_macSeq (s : State) (op : Byte) (st : Status) (v : Word) :
    (s.respond op st v).macSeq = s.macSeq := rfl
@[simp] theorem respond_radioBusy (s : State) (op : Byte) (st : Status) (v : Word) :
    (s.respond op st v).radioBusy = s.radioBusy := rfl
@[simp] theorem respond_txOwner (s : State) (op : Byte) (st : Status) (v : Word) :
    (s.respond op st v).txOwner = s.txOwner := rfl
@[simp] theorem respond_txSlot (s : State) (op : Byte) (st : Status) (v : Word) :
    (s.respond op st v).txSlot = s.txSlot := rfl
@[simp] theorem respond_slots (s : State) (op : Byte) (st : Status) (v : Word) :
    (s.respond op st v).slots = s.slots := rfl
@[simp] theorem respond_order (s : State) (op : Byte) (st : Status) (v : Word) :
    (s.respond op st v).order = s.order := rfl
@[simp] theorem respond_inputs (s : State) (op : Byte) (st : Status) (v : Word) :
    (s.respond op st v).inputs = s.inputs := rfl
@[simp] theorem respond_channelAnswers (s : State) (op : Byte) (st : Status) (v : Word) :
    (s.respond op st v).channelAnswers = s.channelAnswers := rfl
@[simp] theorem respond_draws (s : State) (op : Byte) (st : Status) (v : Word) :
    (s.respond op st v).draws = s.draws := rfl
@[simp] theorem respond_queries (s : State) (op : Byte) (st : Status) (v : Word) :
    (s.respond op st v).queries = s.queries := rfl
@[simp] theorem respond_resets (s : State) (op : Byte) (st : Status) (v : Word) :
    (s.respond op st v).resets = s.resets := rfl
@[simp] theorem respond_responses (s : State) (op : Byte) (st : Status) (v : Word) :
    (s.respond op st v).responses = s.responses ++ [responseWord op st v] := rfl
@[simp] theorem respond_outputs (s : State) (op : Byte) (st : Status) (v : Word) :
    (s.respond op st v).outputs = s.outputs := rfl
@[simp] theorem respond_alarm (s : State) (op : Byte) (st : Status) (v : Word) (j : Nat) :
    (s.respond op st v).alarm j = s.alarm j := rfl
@[simp] theorem respond_slot (s : State) (op : Byte) (st : Status) (v : Word) (j : Nat) :
    (s.respond op st v).slot j = s.slot j := rfl
@[simp] theorem respond_inFlight? (s : State) (op : Byte) (st : Status) (v : Word) :
    (s.respond op st v).inFlight? = s.inFlight? := rfl
@[simp] theorem respond_bufferByte (s : State) (op : Byte) (st : Status) (v : Word) (buf : Buffer) (n : Nat) :
    bufferByte (s.respond op st v) buf n = bufferByte s buf n := by cases buf <;> rfl
@[simp] theorem respond_engineAlarm (s : State) (op : Byte) (st : Status) (v : Word) :
    (s.respond op st v).engineAlarm = s.engineAlarm := rfl

/-! ### `State.emit`: only `outputs` moves (R88). -/

@[simp] theorem emit_cfg (s : State) (e : Output) : (s.emit e).cfg = s.cfg := rfl
@[simp] theorem emit_jiffies (s : State) (e : Output) : (s.emit e).jiffies = s.jiffies := rfl
@[simp] theorem emit_alarms (s : State) (e : Output) : (s.emit e).alarms = s.alarms := rfl
@[simp] theorem emit_alist (s : State) (e : Output) : (s.emit e).alist = s.alist := rfl
@[simp] theorem emit_procState (s : State) (e : Output) : (s.emit e).procState = s.procState := rfl
@[simp] theorem emit_procNow (s : State) (e : Output) : (s.emit e).procNow = s.procNow := rfl
@[simp] theorem emit_fireId (s : State) (e : Output) : (s.emit e).fireId = s.fireId := rfl
@[simp] theorem emit_fireCb (s : State) (e : Output) : (s.emit e).fireCb = s.fireCb := rfl
@[simp] theorem emit_fireArg (s : State) (e : Output) : (s.emit e).fireArg = s.fireArg := rfl
@[simp] theorem emit_pendingWork (s : State) (e : Output) : (s.emit e).pendingWork = s.pendingWork := rfl
@[simp] theorem emit_localShort (s : State) (e : Output) : (s.emit e).localShort = s.localShort := rfl
@[simp] theorem emit_localLong (s : State) (e : Output) : (s.emit e).localLong = s.localLong := rfl
@[simp] theorem emit_txinfo (s : State) (e : Output) : (s.emit e).txinfo = s.txinfo := rfl
@[simp] theorem emit_pinfo (s : State) (e : Output) : (s.emit e).pinfo = s.pinfo := rfl
@[simp] theorem emit_hdrLen (s : State) (e : Output) : (s.emit e).hdrLen = s.hdrLen := rfl
@[simp] theorem emit_pinfoHdrLen (s : State) (e : Output) : (s.emit e).pinfoHdrLen = s.pinfoHdrLen := rfl
@[simp] theorem emit_txdata (s : State) (e : Output) : (s.emit e).txdata = s.txdata := rfl
@[simp] theorem emit_hdrbuf (s : State) (e : Output) : (s.emit e).hdrbuf = s.hdrbuf := rfl
@[simp] theorem emit_macInited (s : State) (e : Output) : (s.emit e).macInited = s.macInited := rfl
@[simp] theorem emit_macSeq (s : State) (e : Output) : (s.emit e).macSeq = s.macSeq := rfl
@[simp] theorem emit_radioBusy (s : State) (e : Output) : (s.emit e).radioBusy = s.radioBusy := rfl
@[simp] theorem emit_txOwner (s : State) (e : Output) : (s.emit e).txOwner = s.txOwner := rfl
@[simp] theorem emit_txSlot (s : State) (e : Output) : (s.emit e).txSlot = s.txSlot := rfl
@[simp] theorem emit_slots (s : State) (e : Output) : (s.emit e).slots = s.slots := rfl
@[simp] theorem emit_order (s : State) (e : Output) : (s.emit e).order = s.order := rfl
@[simp] theorem emit_inputs (s : State) (e : Output) : (s.emit e).inputs = s.inputs := rfl
@[simp] theorem emit_channelAnswers (s : State) (e : Output) : (s.emit e).channelAnswers = s.channelAnswers := rfl
@[simp] theorem emit_draws (s : State) (e : Output) : (s.emit e).draws = s.draws := rfl
@[simp] theorem emit_queries (s : State) (e : Output) : (s.emit e).queries = s.queries := rfl
@[simp] theorem emit_resets (s : State) (e : Output) : (s.emit e).resets = s.resets := rfl
@[simp] theorem emit_responses (s : State) (e : Output) : (s.emit e).responses = s.responses := rfl
@[simp] theorem emit_outputs (s : State) (e : Output) : (s.emit e).outputs = s.outputs ++ [e] := rfl
@[simp] theorem emit_alarm (s : State) (e : Output) (j : Nat) :
    (s.emit e).alarm j = s.alarm j := rfl
@[simp] theorem emit_slot (s : State) (e : Output) (j : Nat) :
    (s.emit e).slot j = s.slot j := rfl
@[simp] theorem emit_inFlight? (s : State) (e : Output) :
    (s.emit e).inFlight? = s.inFlight? := rfl
@[simp] theorem emit_bufferByte (s : State) (e : Output) (buf : Buffer) (n : Nat) :
    bufferByte (s.emit e) buf n = bufferByte s buf n := by cases buf <;> rfl
@[simp] theorem emit_engineAlarm (s : State) (e : Output) :
    (s.emit e).engineAlarm = s.engineAlarm := rfl

/-! ### `State.setAlarm` (R23). -/

@[simp] theorem setAlarm_cfg (s : State) (i : Nat) (a : Alarm) : (s.setAlarm i a).cfg = s.cfg := rfl
@[simp] theorem setAlarm_jiffies (s : State) (i : Nat) (a : Alarm) : (s.setAlarm i a).jiffies = s.jiffies := rfl
@[simp] theorem setAlarm_alarms (s : State) (i : Nat) (a : Alarm) : (s.setAlarm i a).alarms = s.alarms.set i a := rfl
@[simp] theorem setAlarm_alist (s : State) (i : Nat) (a : Alarm) : (s.setAlarm i a).alist = s.alist := rfl
@[simp] theorem setAlarm_procState (s : State) (i : Nat) (a : Alarm) : (s.setAlarm i a).procState = s.procState := rfl
@[simp] theorem setAlarm_procNow (s : State) (i : Nat) (a : Alarm) : (s.setAlarm i a).procNow = s.procNow := rfl
@[simp] theorem setAlarm_fireId (s : State) (i : Nat) (a : Alarm) : (s.setAlarm i a).fireId = s.fireId := rfl
@[simp] theorem setAlarm_fireCb (s : State) (i : Nat) (a : Alarm) : (s.setAlarm i a).fireCb = s.fireCb := rfl
@[simp] theorem setAlarm_fireArg (s : State) (i : Nat) (a : Alarm) : (s.setAlarm i a).fireArg = s.fireArg := rfl
@[simp] theorem setAlarm_pendingWork (s : State) (i : Nat) (a : Alarm) :
    (s.setAlarm i a).pendingWork = s.pendingWork := rfl
@[simp] theorem setAlarm_localShort (s : State) (i : Nat) (a : Alarm) :
    (s.setAlarm i a).localShort = s.localShort := rfl
@[simp] theorem setAlarm_localLong (s : State) (i : Nat) (a : Alarm) : (s.setAlarm i a).localLong = s.localLong := rfl
@[simp] theorem setAlarm_txinfo (s : State) (i : Nat) (a : Alarm) : (s.setAlarm i a).txinfo = s.txinfo := rfl
@[simp] theorem setAlarm_pinfo (s : State) (i : Nat) (a : Alarm) : (s.setAlarm i a).pinfo = s.pinfo := rfl
@[simp] theorem setAlarm_hdrLen (s : State) (i : Nat) (a : Alarm) : (s.setAlarm i a).hdrLen = s.hdrLen := rfl
@[simp] theorem setAlarm_pinfoHdrLen (s : State) (i : Nat) (a : Alarm) :
    (s.setAlarm i a).pinfoHdrLen = s.pinfoHdrLen := rfl
@[simp] theorem setAlarm_txdata (s : State) (i : Nat) (a : Alarm) : (s.setAlarm i a).txdata = s.txdata := rfl
@[simp] theorem setAlarm_hdrbuf (s : State) (i : Nat) (a : Alarm) : (s.setAlarm i a).hdrbuf = s.hdrbuf := rfl
@[simp] theorem setAlarm_macInited (s : State) (i : Nat) (a : Alarm) : (s.setAlarm i a).macInited = s.macInited := rfl
@[simp] theorem setAlarm_macSeq (s : State) (i : Nat) (a : Alarm) : (s.setAlarm i a).macSeq = s.macSeq := rfl
@[simp] theorem setAlarm_radioBusy (s : State) (i : Nat) (a : Alarm) : (s.setAlarm i a).radioBusy = s.radioBusy := rfl
@[simp] theorem setAlarm_txOwner (s : State) (i : Nat) (a : Alarm) : (s.setAlarm i a).txOwner = s.txOwner := rfl
@[simp] theorem setAlarm_txSlot (s : State) (i : Nat) (a : Alarm) : (s.setAlarm i a).txSlot = s.txSlot := rfl
@[simp] theorem setAlarm_slots (s : State) (i : Nat) (a : Alarm) : (s.setAlarm i a).slots = s.slots := rfl
@[simp] theorem setAlarm_order (s : State) (i : Nat) (a : Alarm) : (s.setAlarm i a).order = s.order := rfl
@[simp] theorem setAlarm_inputs (s : State) (i : Nat) (a : Alarm) : (s.setAlarm i a).inputs = s.inputs := rfl
@[simp] theorem setAlarm_channelAnswers (s : State) (i : Nat) (a : Alarm) :
    (s.setAlarm i a).channelAnswers = s.channelAnswers := rfl
@[simp] theorem setAlarm_draws (s : State) (i : Nat) (a : Alarm) : (s.setAlarm i a).draws = s.draws := rfl
@[simp] theorem setAlarm_queries (s : State) (i : Nat) (a : Alarm) : (s.setAlarm i a).queries = s.queries := rfl
@[simp] theorem setAlarm_resets (s : State) (i : Nat) (a : Alarm) : (s.setAlarm i a).resets = s.resets := rfl
@[simp] theorem setAlarm_responses (s : State) (i : Nat) (a : Alarm) : (s.setAlarm i a).responses = s.responses := rfl
@[simp] theorem setAlarm_outputs (s : State) (i : Nat) (a : Alarm) : (s.setAlarm i a).outputs = s.outputs := rfl
@[simp] theorem setAlarm_slot (s : State) (i : Nat) (a : Alarm) (j : Nat) :
    (s.setAlarm i a).slot j = s.slot j := rfl
@[simp] theorem setAlarm_inFlight? (s : State) (i : Nat) (a : Alarm) :
    (s.setAlarm i a).inFlight? = s.inFlight? := rfl
@[simp] theorem setAlarm_bufferByte (s : State) (i : Nat) (a : Alarm) (buf : Buffer) (n : Nat) :
    bufferByte (s.setAlarm i a) buf n = bufferByte s buf n := by cases buf <;> rfl
@[simp] theorem setAlarm_engineAlarm (s : State) (i : Nat) (a : Alarm) :
    (s.setAlarm i a).engineAlarm = s.engineAlarm := rfl

/-! ### `State.setSlot` (R36). -/

@[simp] theorem setSlot_cfg (s : State) (k : Nat) (x : Slot) : (s.setSlot k x).cfg = s.cfg := rfl
@[simp] theorem setSlot_jiffies (s : State) (k : Nat) (x : Slot) : (s.setSlot k x).jiffies = s.jiffies := rfl
@[simp] theorem setSlot_alarms (s : State) (k : Nat) (x : Slot) : (s.setSlot k x).alarms = s.alarms := rfl
@[simp] theorem setSlot_alist (s : State) (k : Nat) (x : Slot) : (s.setSlot k x).alist = s.alist := rfl
@[simp] theorem setSlot_procState (s : State) (k : Nat) (x : Slot) : (s.setSlot k x).procState = s.procState := rfl
@[simp] theorem setSlot_procNow (s : State) (k : Nat) (x : Slot) : (s.setSlot k x).procNow = s.procNow := rfl
@[simp] theorem setSlot_fireId (s : State) (k : Nat) (x : Slot) : (s.setSlot k x).fireId = s.fireId := rfl
@[simp] theorem setSlot_fireCb (s : State) (k : Nat) (x : Slot) : (s.setSlot k x).fireCb = s.fireCb := rfl
@[simp] theorem setSlot_fireArg (s : State) (k : Nat) (x : Slot) : (s.setSlot k x).fireArg = s.fireArg := rfl
@[simp] theorem setSlot_pendingWork (s : State) (k : Nat) (x : Slot) :
    (s.setSlot k x).pendingWork = s.pendingWork := rfl
@[simp] theorem setSlot_localShort (s : State) (k : Nat) (x : Slot) : (s.setSlot k x).localShort = s.localShort := rfl
@[simp] theorem setSlot_localLong (s : State) (k : Nat) (x : Slot) : (s.setSlot k x).localLong = s.localLong := rfl
@[simp] theorem setSlot_txinfo (s : State) (k : Nat) (x : Slot) : (s.setSlot k x).txinfo = s.txinfo := rfl
@[simp] theorem setSlot_pinfo (s : State) (k : Nat) (x : Slot) : (s.setSlot k x).pinfo = s.pinfo := rfl
@[simp] theorem setSlot_hdrLen (s : State) (k : Nat) (x : Slot) : (s.setSlot k x).hdrLen = s.hdrLen := rfl
@[simp] theorem setSlot_pinfoHdrLen (s : State) (k : Nat) (x : Slot) :
    (s.setSlot k x).pinfoHdrLen = s.pinfoHdrLen := rfl
@[simp] theorem setSlot_txdata (s : State) (k : Nat) (x : Slot) : (s.setSlot k x).txdata = s.txdata := rfl
@[simp] theorem setSlot_hdrbuf (s : State) (k : Nat) (x : Slot) : (s.setSlot k x).hdrbuf = s.hdrbuf := rfl
@[simp] theorem setSlot_macInited (s : State) (k : Nat) (x : Slot) : (s.setSlot k x).macInited = s.macInited := rfl
@[simp] theorem setSlot_macSeq (s : State) (k : Nat) (x : Slot) : (s.setSlot k x).macSeq = s.macSeq := rfl
@[simp] theorem setSlot_radioBusy (s : State) (k : Nat) (x : Slot) : (s.setSlot k x).radioBusy = s.radioBusy := rfl
@[simp] theorem setSlot_txOwner (s : State) (k : Nat) (x : Slot) : (s.setSlot k x).txOwner = s.txOwner := rfl
@[simp] theorem setSlot_txSlot (s : State) (k : Nat) (x : Slot) : (s.setSlot k x).txSlot = s.txSlot := rfl
@[simp] theorem setSlot_slots (s : State) (k : Nat) (x : Slot) : (s.setSlot k x).slots = s.slots.set k x := rfl
@[simp] theorem setSlot_order (s : State) (k : Nat) (x : Slot) : (s.setSlot k x).order = s.order := rfl
@[simp] theorem setSlot_inputs (s : State) (k : Nat) (x : Slot) : (s.setSlot k x).inputs = s.inputs := rfl
@[simp] theorem setSlot_channelAnswers (s : State) (k : Nat) (x : Slot) :
    (s.setSlot k x).channelAnswers = s.channelAnswers := rfl
@[simp] theorem setSlot_draws (s : State) (k : Nat) (x : Slot) : (s.setSlot k x).draws = s.draws := rfl
@[simp] theorem setSlot_queries (s : State) (k : Nat) (x : Slot) : (s.setSlot k x).queries = s.queries := rfl
@[simp] theorem setSlot_resets (s : State) (k : Nat) (x : Slot) : (s.setSlot k x).resets = s.resets := rfl
@[simp] theorem setSlot_responses (s : State) (k : Nat) (x : Slot) : (s.setSlot k x).responses = s.responses := rfl
@[simp] theorem setSlot_outputs (s : State) (k : Nat) (x : Slot) : (s.setSlot k x).outputs = s.outputs := rfl
@[simp] theorem setSlot_alarm (s : State) (k : Nat) (x : Slot) (j : Nat) :
    (s.setSlot k x).alarm j = s.alarm j := rfl
@[simp] theorem setSlot_bufferByte (s : State) (k : Nat) (x : Slot) (buf : Buffer) (n : Nat) :
    bufferByte (s.setSlot k x) buf n = bufferByte s buf n := by cases buf <;> rfl
@[simp] theorem setSlot_engineAlarm (s : State) (k : Nat) (x : Slot) :
    (s.setSlot k x).engineAlarm = s.engineAlarm := rfl

/-! ### `State.setPhase` (R36). -/

@[simp] theorem setPhase_cfg (s : State) (k : Nat) (p : Phase) : (s.setPhase k p).cfg = s.cfg := rfl
@[simp] theorem setPhase_jiffies (s : State) (k : Nat) (p : Phase) : (s.setPhase k p).jiffies = s.jiffies := rfl
@[simp] theorem setPhase_alarms (s : State) (k : Nat) (p : Phase) : (s.setPhase k p).alarms = s.alarms := rfl
@[simp] theorem setPhase_alist (s : State) (k : Nat) (p : Phase) : (s.setPhase k p).alist = s.alist := rfl
@[simp] theorem setPhase_procState (s : State) (k : Nat) (p : Phase) : (s.setPhase k p).procState = s.procState := rfl
@[simp] theorem setPhase_procNow (s : State) (k : Nat) (p : Phase) : (s.setPhase k p).procNow = s.procNow := rfl
@[simp] theorem setPhase_fireId (s : State) (k : Nat) (p : Phase) : (s.setPhase k p).fireId = s.fireId := rfl
@[simp] theorem setPhase_fireCb (s : State) (k : Nat) (p : Phase) : (s.setPhase k p).fireCb = s.fireCb := rfl
@[simp] theorem setPhase_fireArg (s : State) (k : Nat) (p : Phase) : (s.setPhase k p).fireArg = s.fireArg := rfl
@[simp] theorem setPhase_pendingWork (s : State) (k : Nat) (p : Phase) :
    (s.setPhase k p).pendingWork = s.pendingWork := rfl
@[simp] theorem setPhase_localShort (s : State) (k : Nat) (p : Phase) :
    (s.setPhase k p).localShort = s.localShort := rfl
@[simp] theorem setPhase_localLong (s : State) (k : Nat) (p : Phase) : (s.setPhase k p).localLong = s.localLong := rfl
@[simp] theorem setPhase_txinfo (s : State) (k : Nat) (p : Phase) : (s.setPhase k p).txinfo = s.txinfo := rfl
@[simp] theorem setPhase_pinfo (s : State) (k : Nat) (p : Phase) : (s.setPhase k p).pinfo = s.pinfo := rfl
@[simp] theorem setPhase_hdrLen (s : State) (k : Nat) (p : Phase) : (s.setPhase k p).hdrLen = s.hdrLen := rfl
@[simp] theorem setPhase_pinfoHdrLen (s : State) (k : Nat) (p : Phase) :
    (s.setPhase k p).pinfoHdrLen = s.pinfoHdrLen := rfl
@[simp] theorem setPhase_txdata (s : State) (k : Nat) (p : Phase) : (s.setPhase k p).txdata = s.txdata := rfl
@[simp] theorem setPhase_hdrbuf (s : State) (k : Nat) (p : Phase) : (s.setPhase k p).hdrbuf = s.hdrbuf := rfl
@[simp] theorem setPhase_macInited (s : State) (k : Nat) (p : Phase) : (s.setPhase k p).macInited = s.macInited := rfl
@[simp] theorem setPhase_macSeq (s : State) (k : Nat) (p : Phase) : (s.setPhase k p).macSeq = s.macSeq := rfl
@[simp] theorem setPhase_radioBusy (s : State) (k : Nat) (p : Phase) : (s.setPhase k p).radioBusy = s.radioBusy := rfl
@[simp] theorem setPhase_txOwner (s : State) (k : Nat) (p : Phase) : (s.setPhase k p).txOwner = s.txOwner := rfl
@[simp] theorem setPhase_txSlot (s : State) (k : Nat) (p : Phase) : (s.setPhase k p).txSlot = s.txSlot := rfl
@[simp] theorem setPhase_slots (s : State) (k : Nat) (p : Phase) :
    (s.setPhase k p).slots = s.slots.set k { s.slot k with phase := p } := rfl
@[simp] theorem setPhase_order (s : State) (k : Nat) (p : Phase) : (s.setPhase k p).order = s.order := rfl
@[simp] theorem setPhase_inputs (s : State) (k : Nat) (p : Phase) : (s.setPhase k p).inputs = s.inputs := rfl
@[simp] theorem setPhase_channelAnswers (s : State) (k : Nat) (p : Phase) :
    (s.setPhase k p).channelAnswers = s.channelAnswers := rfl
@[simp] theorem setPhase_draws (s : State) (k : Nat) (p : Phase) : (s.setPhase k p).draws = s.draws := rfl
@[simp] theorem setPhase_queries (s : State) (k : Nat) (p : Phase) : (s.setPhase k p).queries = s.queries := rfl
@[simp] theorem setPhase_resets (s : State) (k : Nat) (p : Phase) : (s.setPhase k p).resets = s.resets := rfl
@[simp] theorem setPhase_responses (s : State) (k : Nat) (p : Phase) : (s.setPhase k p).responses = s.responses := rfl
@[simp] theorem setPhase_outputs (s : State) (k : Nat) (p : Phase) : (s.setPhase k p).outputs = s.outputs := rfl
@[simp] theorem setPhase_alarm (s : State) (k : Nat) (p : Phase) (j : Nat) :
    (s.setPhase k p).alarm j = s.alarm j := rfl
@[simp] theorem setPhase_bufferByte (s : State) (k : Nat) (p : Phase) (buf : Buffer) (n : Nat) :
    bufferByte (s.setPhase k p) buf n = bufferByte s buf n := by cases buf <;> rfl
@[simp] theorem setPhase_engineAlarm (s : State) (k : Nat) (p : Phase) :
    (s.setPhase k p).engineAlarm = s.engineAlarm := rfl

/-! ### `removeAlarm` (R113). -/

@[simp] theorem removeAlarm_cfg (i : Nat) (s : State) : (removeAlarm i s).cfg = s.cfg := rfl
@[simp] theorem removeAlarm_jiffies (i : Nat) (s : State) : (removeAlarm i s).jiffies = s.jiffies := rfl
@[simp] theorem removeAlarm_alarms (i : Nat) (s : State) :
    (removeAlarm i s).alarms = s.alarms.set i { s.alarm i with state := .idle } := rfl
@[simp] theorem removeAlarm_alist (i : Nat) (s : State) :
    (removeAlarm i s).alist = s.alist.filter (fun j => j != i) := rfl
@[simp] theorem removeAlarm_procState (i : Nat) (s : State) : (removeAlarm i s).procState = s.procState := rfl
@[simp] theorem removeAlarm_procNow (i : Nat) (s : State) : (removeAlarm i s).procNow = s.procNow := rfl
@[simp] theorem removeAlarm_fireId (i : Nat) (s : State) : (removeAlarm i s).fireId = s.fireId := rfl
@[simp] theorem removeAlarm_fireCb (i : Nat) (s : State) : (removeAlarm i s).fireCb = s.fireCb := rfl
@[simp] theorem removeAlarm_fireArg (i : Nat) (s : State) : (removeAlarm i s).fireArg = s.fireArg := rfl
@[simp] theorem removeAlarm_pendingWork (i : Nat) (s : State) : (removeAlarm i s).pendingWork = s.pendingWork := rfl
@[simp] theorem removeAlarm_localShort (i : Nat) (s : State) : (removeAlarm i s).localShort = s.localShort := rfl
@[simp] theorem removeAlarm_localLong (i : Nat) (s : State) : (removeAlarm i s).localLong = s.localLong := rfl
@[simp] theorem removeAlarm_txinfo (i : Nat) (s : State) : (removeAlarm i s).txinfo = s.txinfo := rfl
@[simp] theorem removeAlarm_pinfo (i : Nat) (s : State) : (removeAlarm i s).pinfo = s.pinfo := rfl
@[simp] theorem removeAlarm_hdrLen (i : Nat) (s : State) : (removeAlarm i s).hdrLen = s.hdrLen := rfl
@[simp] theorem removeAlarm_pinfoHdrLen (i : Nat) (s : State) : (removeAlarm i s).pinfoHdrLen = s.pinfoHdrLen := rfl
@[simp] theorem removeAlarm_txdata (i : Nat) (s : State) : (removeAlarm i s).txdata = s.txdata := rfl
@[simp] theorem removeAlarm_hdrbuf (i : Nat) (s : State) : (removeAlarm i s).hdrbuf = s.hdrbuf := rfl
@[simp] theorem removeAlarm_macInited (i : Nat) (s : State) : (removeAlarm i s).macInited = s.macInited := rfl
@[simp] theorem removeAlarm_macSeq (i : Nat) (s : State) : (removeAlarm i s).macSeq = s.macSeq := rfl
@[simp] theorem removeAlarm_radioBusy (i : Nat) (s : State) : (removeAlarm i s).radioBusy = s.radioBusy := rfl
@[simp] theorem removeAlarm_txOwner (i : Nat) (s : State) : (removeAlarm i s).txOwner = s.txOwner := rfl
@[simp] theorem removeAlarm_txSlot (i : Nat) (s : State) : (removeAlarm i s).txSlot = s.txSlot := rfl
@[simp] theorem removeAlarm_slots (i : Nat) (s : State) : (removeAlarm i s).slots = s.slots := rfl
@[simp] theorem removeAlarm_order (i : Nat) (s : State) : (removeAlarm i s).order = s.order := rfl
@[simp] theorem removeAlarm_inputs (i : Nat) (s : State) : (removeAlarm i s).inputs = s.inputs := rfl
@[simp] theorem removeAlarm_channelAnswers (i : Nat) (s : State) :
    (removeAlarm i s).channelAnswers = s.channelAnswers := rfl
@[simp] theorem removeAlarm_draws (i : Nat) (s : State) : (removeAlarm i s).draws = s.draws := rfl
@[simp] theorem removeAlarm_queries (i : Nat) (s : State) : (removeAlarm i s).queries = s.queries := rfl
@[simp] theorem removeAlarm_resets (i : Nat) (s : State) : (removeAlarm i s).resets = s.resets := rfl
@[simp] theorem removeAlarm_responses (i : Nat) (s : State) : (removeAlarm i s).responses = s.responses := rfl
@[simp] theorem removeAlarm_outputs (i : Nat) (s : State) : (removeAlarm i s).outputs = s.outputs := rfl
@[simp] theorem removeAlarm_slot (i : Nat) (s : State) (j : Nat) :
    (removeAlarm i s).slot j = s.slot j := rfl
@[simp] theorem removeAlarm_inFlight? (i : Nat) (s : State) :
    (removeAlarm i s).inFlight? = s.inFlight? := rfl
@[simp] theorem removeAlarm_bufferByte (i : Nat) (s : State) (buf : Buffer) (n : Nat) :
    bufferByte (removeAlarm i s) buf n = bufferByte s buf n := by cases buf <;> rfl
@[simp] theorem removeAlarm_engineAlarm (i : Nat) (s : State) :
    (removeAlarm i s).engineAlarm = s.engineAlarm := rfl

/-! ### `insertAlarm` (R114). -/

@[simp] theorem insertAlarm_cfg (i : Nat) (s : State) : (insertAlarm i s).cfg = s.cfg := rfl
@[simp] theorem insertAlarm_jiffies (i : Nat) (s : State) : (insertAlarm i s).jiffies = s.jiffies := rfl
@[simp] theorem insertAlarm_alarms (i : Nat) (s : State) :
    (insertAlarm i s).alarms = s.alarms.set i { s.alarm i with state := .scheduled } := rfl
@[simp] theorem insertAlarm_alist (i : Nat) (s : State) :
    (insertAlarm i s).alist = insertByTime (fun e => (s.alarm e).when) (s.alarm i).when i s.alist := rfl
@[simp] theorem insertAlarm_procState (i : Nat) (s : State) : (insertAlarm i s).procState = s.procState := rfl
@[simp] theorem insertAlarm_procNow (i : Nat) (s : State) : (insertAlarm i s).procNow = s.procNow := rfl
@[simp] theorem insertAlarm_fireId (i : Nat) (s : State) : (insertAlarm i s).fireId = s.fireId := rfl
@[simp] theorem insertAlarm_fireCb (i : Nat) (s : State) : (insertAlarm i s).fireCb = s.fireCb := rfl
@[simp] theorem insertAlarm_fireArg (i : Nat) (s : State) : (insertAlarm i s).fireArg = s.fireArg := rfl
@[simp] theorem insertAlarm_pendingWork (i : Nat) (s : State) : (insertAlarm i s).pendingWork = s.pendingWork := rfl
@[simp] theorem insertAlarm_localShort (i : Nat) (s : State) : (insertAlarm i s).localShort = s.localShort := rfl
@[simp] theorem insertAlarm_localLong (i : Nat) (s : State) : (insertAlarm i s).localLong = s.localLong := rfl
@[simp] theorem insertAlarm_txinfo (i : Nat) (s : State) : (insertAlarm i s).txinfo = s.txinfo := rfl
@[simp] theorem insertAlarm_pinfo (i : Nat) (s : State) : (insertAlarm i s).pinfo = s.pinfo := rfl
@[simp] theorem insertAlarm_hdrLen (i : Nat) (s : State) : (insertAlarm i s).hdrLen = s.hdrLen := rfl
@[simp] theorem insertAlarm_pinfoHdrLen (i : Nat) (s : State) : (insertAlarm i s).pinfoHdrLen = s.pinfoHdrLen := rfl
@[simp] theorem insertAlarm_txdata (i : Nat) (s : State) : (insertAlarm i s).txdata = s.txdata := rfl
@[simp] theorem insertAlarm_hdrbuf (i : Nat) (s : State) : (insertAlarm i s).hdrbuf = s.hdrbuf := rfl
@[simp] theorem insertAlarm_macInited (i : Nat) (s : State) : (insertAlarm i s).macInited = s.macInited := rfl
@[simp] theorem insertAlarm_macSeq (i : Nat) (s : State) : (insertAlarm i s).macSeq = s.macSeq := rfl
@[simp] theorem insertAlarm_radioBusy (i : Nat) (s : State) : (insertAlarm i s).radioBusy = s.radioBusy := rfl
@[simp] theorem insertAlarm_txOwner (i : Nat) (s : State) : (insertAlarm i s).txOwner = s.txOwner := rfl
@[simp] theorem insertAlarm_txSlot (i : Nat) (s : State) : (insertAlarm i s).txSlot = s.txSlot := rfl
@[simp] theorem insertAlarm_slots (i : Nat) (s : State) : (insertAlarm i s).slots = s.slots := rfl
@[simp] theorem insertAlarm_order (i : Nat) (s : State) : (insertAlarm i s).order = s.order := rfl
@[simp] theorem insertAlarm_inputs (i : Nat) (s : State) : (insertAlarm i s).inputs = s.inputs := rfl
@[simp] theorem insertAlarm_channelAnswers (i : Nat) (s : State) :
    (insertAlarm i s).channelAnswers = s.channelAnswers := rfl
@[simp] theorem insertAlarm_draws (i : Nat) (s : State) : (insertAlarm i s).draws = s.draws := rfl
@[simp] theorem insertAlarm_queries (i : Nat) (s : State) : (insertAlarm i s).queries = s.queries := rfl
@[simp] theorem insertAlarm_resets (i : Nat) (s : State) : (insertAlarm i s).resets = s.resets := rfl
@[simp] theorem insertAlarm_responses (i : Nat) (s : State) : (insertAlarm i s).responses = s.responses := rfl
@[simp] theorem insertAlarm_outputs (i : Nat) (s : State) : (insertAlarm i s).outputs = s.outputs := rfl
@[simp] theorem insertAlarm_slot (i : Nat) (s : State) (j : Nat) :
    (insertAlarm i s).slot j = s.slot j := rfl
@[simp] theorem insertAlarm_inFlight? (i : Nat) (s : State) :
    (insertAlarm i s).inFlight? = s.inFlight? := rfl
@[simp] theorem insertAlarm_bufferByte (i : Nat) (s : State) (buf : Buffer) (n : Nat) :
    bufferByte (insertAlarm i s) buf n = bufferByte s buf n := by cases buf <;> rfl
@[simp] theorem insertAlarm_engineAlarm (i : Nat) (s : State) :
    (insertAlarm i s).engineAlarm = s.engineAlarm := rfl

/-! ### `armAlarm` (R117, R130); its table and list are in Laws/AlarmList.lean. -/

@[simp] theorem armAlarm_cfg (i : Nat) (d : Word) (s : State) : (armAlarm i d s).cfg = s.cfg := rfl
@[simp] theorem armAlarm_jiffies (i : Nat) (d : Word) (s : State) : (armAlarm i d s).jiffies = s.jiffies := rfl
@[simp] theorem armAlarm_procState (i : Nat) (d : Word) (s : State) : (armAlarm i d s).procState = s.procState := rfl
@[simp] theorem armAlarm_procNow (i : Nat) (d : Word) (s : State) : (armAlarm i d s).procNow = s.procNow := rfl
@[simp] theorem armAlarm_fireId (i : Nat) (d : Word) (s : State) : (armAlarm i d s).fireId = s.fireId := rfl
@[simp] theorem armAlarm_fireCb (i : Nat) (d : Word) (s : State) : (armAlarm i d s).fireCb = s.fireCb := rfl
@[simp] theorem armAlarm_fireArg (i : Nat) (d : Word) (s : State) : (armAlarm i d s).fireArg = s.fireArg := rfl
@[simp] theorem armAlarm_pendingWork (i : Nat) (d : Word) (s : State) :
    (armAlarm i d s).pendingWork = s.pendingWork := rfl
@[simp] theorem armAlarm_localShort (i : Nat) (d : Word) (s : State) :
    (armAlarm i d s).localShort = s.localShort := rfl
@[simp] theorem armAlarm_localLong (i : Nat) (d : Word) (s : State) : (armAlarm i d s).localLong = s.localLong := rfl
@[simp] theorem armAlarm_txinfo (i : Nat) (d : Word) (s : State) : (armAlarm i d s).txinfo = s.txinfo := rfl
@[simp] theorem armAlarm_pinfo (i : Nat) (d : Word) (s : State) : (armAlarm i d s).pinfo = s.pinfo := rfl
@[simp] theorem armAlarm_hdrLen (i : Nat) (d : Word) (s : State) : (armAlarm i d s).hdrLen = s.hdrLen := rfl
@[simp] theorem armAlarm_pinfoHdrLen (i : Nat) (d : Word) (s : State) :
    (armAlarm i d s).pinfoHdrLen = s.pinfoHdrLen := rfl
@[simp] theorem armAlarm_txdata (i : Nat) (d : Word) (s : State) : (armAlarm i d s).txdata = s.txdata := rfl
@[simp] theorem armAlarm_hdrbuf (i : Nat) (d : Word) (s : State) : (armAlarm i d s).hdrbuf = s.hdrbuf := rfl
@[simp] theorem armAlarm_macInited (i : Nat) (d : Word) (s : State) : (armAlarm i d s).macInited = s.macInited := rfl
@[simp] theorem armAlarm_macSeq (i : Nat) (d : Word) (s : State) : (armAlarm i d s).macSeq = s.macSeq := rfl
@[simp] theorem armAlarm_radioBusy (i : Nat) (d : Word) (s : State) : (armAlarm i d s).radioBusy = s.radioBusy := rfl
@[simp] theorem armAlarm_txOwner (i : Nat) (d : Word) (s : State) : (armAlarm i d s).txOwner = s.txOwner := rfl
@[simp] theorem armAlarm_txSlot (i : Nat) (d : Word) (s : State) : (armAlarm i d s).txSlot = s.txSlot := rfl
@[simp] theorem armAlarm_slots (i : Nat) (d : Word) (s : State) : (armAlarm i d s).slots = s.slots := rfl
@[simp] theorem armAlarm_order (i : Nat) (d : Word) (s : State) : (armAlarm i d s).order = s.order := rfl
@[simp] theorem armAlarm_inputs (i : Nat) (d : Word) (s : State) : (armAlarm i d s).inputs = s.inputs := rfl
@[simp] theorem armAlarm_channelAnswers (i : Nat) (d : Word) (s : State) :
    (armAlarm i d s).channelAnswers = s.channelAnswers := rfl
@[simp] theorem armAlarm_draws (i : Nat) (d : Word) (s : State) : (armAlarm i d s).draws = s.draws := rfl
@[simp] theorem armAlarm_queries (i : Nat) (d : Word) (s : State) : (armAlarm i d s).queries = s.queries := rfl
@[simp] theorem armAlarm_resets (i : Nat) (d : Word) (s : State) : (armAlarm i d s).resets = s.resets := rfl
@[simp] theorem armAlarm_responses (i : Nat) (d : Word) (s : State) : (armAlarm i d s).responses = s.responses := rfl
@[simp] theorem armAlarm_outputs (i : Nat) (d : Word) (s : State) : (armAlarm i d s).outputs = s.outputs := rfl
@[simp] theorem armAlarm_slot (i : Nat) (d : Word) (s : State) (j : Nat) :
    (armAlarm i d s).slot j = s.slot j := rfl
@[simp] theorem armAlarm_inFlight? (i : Nat) (d : Word) (s : State) :
    (armAlarm i d s).inFlight? = s.inFlight? := rfl
@[simp] theorem armAlarm_bufferByte (i : Nat) (d : Word) (s : State) (buf : Buffer) (n : Nat) :
    bufferByte (armAlarm i d s) buf n = bufferByte s buf n := by cases buf <;> rfl
@[simp] theorem armAlarm_engineAlarm (i : Nat) (d : Word) (s : State) :
    (armAlarm i d s).engineAlarm = s.engineAlarm := rfl

/-! ### `schedMA` (R130). -/

@[simp] theorem schedMA_cfg (d : Word) (s : State) : (schedMA d s).cfg = s.cfg := rfl
@[simp] theorem schedMA_jiffies (d : Word) (s : State) : (schedMA d s).jiffies = s.jiffies := rfl
@[simp] theorem schedMA_alarms (d : Word) (s : State) :
    (schedMA d s).alarms = (armAlarm s.engineAlarm d s).alarms := rfl
@[simp] theorem schedMA_alist (d : Word) (s : State) : (schedMA d s).alist = (armAlarm s.engineAlarm d s).alist := rfl
@[simp] theorem schedMA_procState (d : Word) (s : State) : (schedMA d s).procState = s.procState := rfl
@[simp] theorem schedMA_procNow (d : Word) (s : State) : (schedMA d s).procNow = s.procNow := rfl
@[simp] theorem schedMA_fireId (d : Word) (s : State) : (schedMA d s).fireId = s.fireId := rfl
@[simp] theorem schedMA_fireCb (d : Word) (s : State) : (schedMA d s).fireCb = s.fireCb := rfl
@[simp] theorem schedMA_fireArg (d : Word) (s : State) : (schedMA d s).fireArg = s.fireArg := rfl
@[simp] theorem schedMA_pendingWork (d : Word) (s : State) : (schedMA d s).pendingWork = s.pendingWork := rfl
@[simp] theorem schedMA_localShort (d : Word) (s : State) : (schedMA d s).localShort = s.localShort := rfl
@[simp] theorem schedMA_localLong (d : Word) (s : State) : (schedMA d s).localLong = s.localLong := rfl
@[simp] theorem schedMA_txinfo (d : Word) (s : State) : (schedMA d s).txinfo = s.txinfo := rfl
@[simp] theorem schedMA_pinfo (d : Word) (s : State) : (schedMA d s).pinfo = s.pinfo := rfl
@[simp] theorem schedMA_hdrLen (d : Word) (s : State) : (schedMA d s).hdrLen = s.hdrLen := rfl
@[simp] theorem schedMA_pinfoHdrLen (d : Word) (s : State) : (schedMA d s).pinfoHdrLen = s.pinfoHdrLen := rfl
@[simp] theorem schedMA_txdata (d : Word) (s : State) : (schedMA d s).txdata = s.txdata := rfl
@[simp] theorem schedMA_hdrbuf (d : Word) (s : State) : (schedMA d s).hdrbuf = s.hdrbuf := rfl
@[simp] theorem schedMA_macInited (d : Word) (s : State) : (schedMA d s).macInited = s.macInited := rfl
@[simp] theorem schedMA_macSeq (d : Word) (s : State) : (schedMA d s).macSeq = s.macSeq := rfl
@[simp] theorem schedMA_radioBusy (d : Word) (s : State) : (schedMA d s).radioBusy = s.radioBusy := rfl
@[simp] theorem schedMA_txOwner (d : Word) (s : State) : (schedMA d s).txOwner = s.txOwner := rfl
@[simp] theorem schedMA_txSlot (d : Word) (s : State) : (schedMA d s).txSlot = s.txSlot := rfl
@[simp] theorem schedMA_slots (d : Word) (s : State) : (schedMA d s).slots = s.slots := rfl
@[simp] theorem schedMA_order (d : Word) (s : State) : (schedMA d s).order = s.order := rfl
@[simp] theorem schedMA_inputs (d : Word) (s : State) : (schedMA d s).inputs = s.inputs := rfl
@[simp] theorem schedMA_channelAnswers (d : Word) (s : State) : (schedMA d s).channelAnswers = s.channelAnswers := rfl
@[simp] theorem schedMA_draws (d : Word) (s : State) : (schedMA d s).draws = s.draws := rfl
@[simp] theorem schedMA_queries (d : Word) (s : State) : (schedMA d s).queries = s.queries := rfl
@[simp] theorem schedMA_resets (d : Word) (s : State) : (schedMA d s).resets = s.resets := rfl
@[simp] theorem schedMA_responses (d : Word) (s : State) : (schedMA d s).responses = s.responses := rfl
@[simp] theorem schedMA_outputs (d : Word) (s : State) : (schedMA d s).outputs = s.outputs := rfl
@[simp] theorem schedMA_slot (d : Word) (s : State) (j : Nat) :
    (schedMA d s).slot j = s.slot j := rfl
@[simp] theorem schedMA_inFlight? (d : Word) (s : State) :
    (schedMA d s).inFlight? = s.inFlight? := rfl
@[simp] theorem schedMA_bufferByte (d : Word) (s : State) (buf : Buffer) (n : Nat) :
    bufferByte (schedMA d s) buf n = bufferByte s buf n := by cases buf <;> rfl
@[simp] theorem schedMA_engineAlarm (d : Word) (s : State) :
    (schedMA d s).engineAlarm = s.engineAlarm := rfl

/-! ### `cancelMA` (R130). -/

@[simp] theorem cancelMA_cfg (s : State) : (cancelMA s).cfg = s.cfg := rfl
@[simp] theorem cancelMA_jiffies (s : State) : (cancelMA s).jiffies = s.jiffies := rfl
@[simp] theorem cancelMA_alarms (s : State) :
    (cancelMA s).alarms = s.alarms.set s.engineAlarm { s.alarm s.engineAlarm with state := .idle } := rfl
@[simp] theorem cancelMA_alist (s : State) : (cancelMA s).alist = s.alist.filter (fun j => j != s.engineAlarm) := rfl
@[simp] theorem cancelMA_procState (s : State) : (cancelMA s).procState = s.procState := rfl
@[simp] theorem cancelMA_procNow (s : State) : (cancelMA s).procNow = s.procNow := rfl
@[simp] theorem cancelMA_fireId (s : State) : (cancelMA s).fireId = s.fireId := rfl
@[simp] theorem cancelMA_fireCb (s : State) : (cancelMA s).fireCb = s.fireCb := rfl
@[simp] theorem cancelMA_fireArg (s : State) : (cancelMA s).fireArg = s.fireArg := rfl
@[simp] theorem cancelMA_pendingWork (s : State) : (cancelMA s).pendingWork = s.pendingWork := rfl
@[simp] theorem cancelMA_localShort (s : State) : (cancelMA s).localShort = s.localShort := rfl
@[simp] theorem cancelMA_localLong (s : State) : (cancelMA s).localLong = s.localLong := rfl
@[simp] theorem cancelMA_txinfo (s : State) : (cancelMA s).txinfo = s.txinfo := rfl
@[simp] theorem cancelMA_pinfo (s : State) : (cancelMA s).pinfo = s.pinfo := rfl
@[simp] theorem cancelMA_hdrLen (s : State) : (cancelMA s).hdrLen = s.hdrLen := rfl
@[simp] theorem cancelMA_pinfoHdrLen (s : State) : (cancelMA s).pinfoHdrLen = s.pinfoHdrLen := rfl
@[simp] theorem cancelMA_txdata (s : State) : (cancelMA s).txdata = s.txdata := rfl
@[simp] theorem cancelMA_hdrbuf (s : State) : (cancelMA s).hdrbuf = s.hdrbuf := rfl
@[simp] theorem cancelMA_macInited (s : State) : (cancelMA s).macInited = s.macInited := rfl
@[simp] theorem cancelMA_macSeq (s : State) : (cancelMA s).macSeq = s.macSeq := rfl
@[simp] theorem cancelMA_radioBusy (s : State) : (cancelMA s).radioBusy = s.radioBusy := rfl
@[simp] theorem cancelMA_txOwner (s : State) : (cancelMA s).txOwner = s.txOwner := rfl
@[simp] theorem cancelMA_txSlot (s : State) : (cancelMA s).txSlot = s.txSlot := rfl
@[simp] theorem cancelMA_slots (s : State) : (cancelMA s).slots = s.slots := rfl
@[simp] theorem cancelMA_order (s : State) : (cancelMA s).order = s.order := rfl
@[simp] theorem cancelMA_inputs (s : State) : (cancelMA s).inputs = s.inputs := rfl
@[simp] theorem cancelMA_channelAnswers (s : State) : (cancelMA s).channelAnswers = s.channelAnswers := rfl
@[simp] theorem cancelMA_draws (s : State) : (cancelMA s).draws = s.draws := rfl
@[simp] theorem cancelMA_queries (s : State) : (cancelMA s).queries = s.queries := rfl
@[simp] theorem cancelMA_resets (s : State) : (cancelMA s).resets = s.resets := rfl
@[simp] theorem cancelMA_responses (s : State) : (cancelMA s).responses = s.responses := rfl
@[simp] theorem cancelMA_outputs (s : State) : (cancelMA s).outputs = s.outputs := rfl
@[simp] theorem cancelMA_slot (s : State) (j : Nat) :
    (cancelMA s).slot j = s.slot j := rfl
@[simp] theorem cancelMA_inFlight? (s : State) :
    (cancelMA s).inFlight? = s.inFlight? := rfl
@[simp] theorem cancelMA_bufferByte (s : State) (buf : Buffer) (n : Nat) :
    bufferByte (cancelMA s) buf n = bufferByte s buf n := by cases buf <;> rfl
@[simp] theorem cancelMA_engineAlarm (s : State) :
    (cancelMA s).engineAlarm = s.engineAlarm := rfl

/-! ### `openWindow`: taking the exception (R121, R273). -/

@[simp] theorem openWindow_cfg (a : Nat) (s : State) : (openWindow a s).cfg = s.cfg := rfl
@[simp] theorem openWindow_jiffies (a : Nat) (s : State) : (openWindow a s).jiffies = s.jiffies := rfl
@[simp] theorem openWindow_alarms (a : Nat) (s : State) : (openWindow a s).alarms = s.alarms := rfl
@[simp] theorem openWindow_alist (a : Nat) (s : State) : (openWindow a s).alist = s.alist := rfl
@[simp] theorem openWindow_procState (a : Nat) (s : State) : (openWindow a s).procState = .inCallback := rfl
@[simp] theorem openWindow_procNow (a : Nat) (s : State) : (openWindow a s).procNow = s.procNow := rfl
@[simp] theorem openWindow_fireId (a : Nat) (s : State) : (openWindow a s).fireId = BitVec.ofNat 8 a := rfl
@[simp] theorem openWindow_fireCb (a : Nat) (s : State) : (openWindow a s).fireCb = (s.alarm a).cb := rfl
@[simp] theorem openWindow_fireArg (a : Nat) (s : State) : (openWindow a s).fireArg = (s.alarm a).arg := rfl
@[simp] theorem openWindow_pendingWork (a : Nat) (s : State) : (openWindow a s).pendingWork = s.pendingWork := rfl
@[simp] theorem openWindow_localShort (a : Nat) (s : State) : (openWindow a s).localShort = s.localShort := rfl
@[simp] theorem openWindow_localLong (a : Nat) (s : State) : (openWindow a s).localLong = s.localLong := rfl
@[simp] theorem openWindow_txinfo (a : Nat) (s : State) : (openWindow a s).txinfo = s.txinfo := rfl
@[simp] theorem openWindow_pinfo (a : Nat) (s : State) : (openWindow a s).pinfo = s.pinfo := rfl
@[simp] theorem openWindow_hdrLen (a : Nat) (s : State) : (openWindow a s).hdrLen = s.hdrLen := rfl
@[simp] theorem openWindow_pinfoHdrLen (a : Nat) (s : State) : (openWindow a s).pinfoHdrLen = s.pinfoHdrLen := rfl
@[simp] theorem openWindow_txdata (a : Nat) (s : State) : (openWindow a s).txdata = s.txdata := rfl
@[simp] theorem openWindow_hdrbuf (a : Nat) (s : State) : (openWindow a s).hdrbuf = s.hdrbuf := rfl
@[simp] theorem openWindow_macInited (a : Nat) (s : State) : (openWindow a s).macInited = s.macInited := rfl
@[simp] theorem openWindow_macSeq (a : Nat) (s : State) : (openWindow a s).macSeq = s.macSeq := rfl
@[simp] theorem openWindow_radioBusy (a : Nat) (s : State) : (openWindow a s).radioBusy = s.radioBusy := rfl
@[simp] theorem openWindow_txOwner (a : Nat) (s : State) : (openWindow a s).txOwner = s.txOwner := rfl
@[simp] theorem openWindow_txSlot (a : Nat) (s : State) : (openWindow a s).txSlot = s.txSlot := rfl
@[simp] theorem openWindow_slots (a : Nat) (s : State) : (openWindow a s).slots = s.slots := rfl
@[simp] theorem openWindow_order (a : Nat) (s : State) : (openWindow a s).order = s.order := rfl
@[simp] theorem openWindow_inputs (a : Nat) (s : State) : (openWindow a s).inputs = s.inputs := rfl
@[simp] theorem openWindow_channelAnswers (a : Nat) (s : State) :
    (openWindow a s).channelAnswers = s.channelAnswers := rfl
@[simp] theorem openWindow_draws (a : Nat) (s : State) : (openWindow a s).draws = s.draws := rfl
@[simp] theorem openWindow_queries (a : Nat) (s : State) : (openWindow a s).queries = s.queries := rfl
@[simp] theorem openWindow_resets (a : Nat) (s : State) : (openWindow a s).resets = s.resets := rfl
@[simp] theorem openWindow_responses (a : Nat) (s : State) : (openWindow a s).responses = s.responses := rfl
@[simp] theorem openWindow_outputs (a : Nat) (s : State) :
    (openWindow a s).outputs = s.outputs ++ [.alarmFire (BitVec.ofNat 8 a) (s.alarm a).cb (s.alarm a).arg] := rfl
@[simp] theorem openWindow_alarm (a : Nat) (s : State) (j : Nat) :
    (openWindow a s).alarm j = s.alarm j := rfl
@[simp] theorem openWindow_slot (a : Nat) (s : State) (j : Nat) :
    (openWindow a s).slot j = s.slot j := rfl
@[simp] theorem openWindow_inFlight? (a : Nat) (s : State) :
    (openWindow a s).inFlight? = s.inFlight? := rfl
@[simp] theorem openWindow_bufferByte (a : Nat) (s : State) (buf : Buffer) (n : Nat) :
    bufferByte (openWindow a s) buf n = bufferByte s buf n := by cases buf <;> rfl
@[simp] theorem openWindow_engineAlarm (a : Nat) (s : State) :
    (openWindow a s).engineAlarm = s.engineAlarm := rfl

/-! ### `closeWindow`: what CB_RETURN clears (R122, R274). -/

@[simp] theorem closeWindow_cfg (s : State) : (closeWindow s).cfg = s.cfg := rfl
@[simp] theorem closeWindow_jiffies (s : State) : (closeWindow s).jiffies = s.jiffies := rfl
@[simp] theorem closeWindow_alarms (s : State) : (closeWindow s).alarms = s.alarms := rfl
@[simp] theorem closeWindow_alist (s : State) : (closeWindow s).alist = s.alist := rfl
@[simp] theorem closeWindow_procState (s : State) : (closeWindow s).procState = s.procState := rfl
@[simp] theorem closeWindow_procNow (s : State) : (closeWindow s).procNow = s.procNow := rfl
@[simp] theorem closeWindow_fireId (s : State) : (closeWindow s).fireId = 0 := rfl
@[simp] theorem closeWindow_fireCb (s : State) : (closeWindow s).fireCb = 0 := rfl
@[simp] theorem closeWindow_fireArg (s : State) : (closeWindow s).fireArg = 0 := rfl
@[simp] theorem closeWindow_pendingWork (s : State) : (closeWindow s).pendingWork = s.pendingWork := rfl
@[simp] theorem closeWindow_localShort (s : State) : (closeWindow s).localShort = s.localShort := rfl
@[simp] theorem closeWindow_localLong (s : State) : (closeWindow s).localLong = s.localLong := rfl
@[simp] theorem closeWindow_txinfo (s : State) : (closeWindow s).txinfo = s.txinfo := rfl
@[simp] theorem closeWindow_pinfo (s : State) : (closeWindow s).pinfo = s.pinfo := rfl
@[simp] theorem closeWindow_hdrLen (s : State) : (closeWindow s).hdrLen = s.hdrLen := rfl
@[simp] theorem closeWindow_pinfoHdrLen (s : State) : (closeWindow s).pinfoHdrLen = s.pinfoHdrLen := rfl
@[simp] theorem closeWindow_txdata (s : State) : (closeWindow s).txdata = s.txdata := rfl
@[simp] theorem closeWindow_hdrbuf (s : State) : (closeWindow s).hdrbuf = s.hdrbuf := rfl
@[simp] theorem closeWindow_macInited (s : State) : (closeWindow s).macInited = s.macInited := rfl
@[simp] theorem closeWindow_macSeq (s : State) : (closeWindow s).macSeq = s.macSeq := rfl
@[simp] theorem closeWindow_radioBusy (s : State) : (closeWindow s).radioBusy = s.radioBusy := rfl
@[simp] theorem closeWindow_txOwner (s : State) : (closeWindow s).txOwner = s.txOwner := rfl
@[simp] theorem closeWindow_txSlot (s : State) : (closeWindow s).txSlot = s.txSlot := rfl
@[simp] theorem closeWindow_slots (s : State) : (closeWindow s).slots = s.slots := rfl
@[simp] theorem closeWindow_order (s : State) : (closeWindow s).order = s.order := rfl
@[simp] theorem closeWindow_inputs (s : State) : (closeWindow s).inputs = s.inputs := rfl
@[simp] theorem closeWindow_channelAnswers (s : State) : (closeWindow s).channelAnswers = s.channelAnswers := rfl
@[simp] theorem closeWindow_draws (s : State) : (closeWindow s).draws = s.draws := rfl
@[simp] theorem closeWindow_queries (s : State) : (closeWindow s).queries = s.queries := rfl
@[simp] theorem closeWindow_resets (s : State) : (closeWindow s).resets = s.resets := rfl
@[simp] theorem closeWindow_responses (s : State) : (closeWindow s).responses = s.responses := rfl
@[simp] theorem closeWindow_outputs (s : State) : (closeWindow s).outputs = s.outputs := rfl
@[simp] theorem closeWindow_alarm (s : State) (j : Nat) :
    (closeWindow s).alarm j = s.alarm j := rfl
@[simp] theorem closeWindow_slot (s : State) (j : Nat) :
    (closeWindow s).slot j = s.slot j := rfl
@[simp] theorem closeWindow_inFlight? (s : State) :
    (closeWindow s).inFlight? = s.inFlight? := rfl
@[simp] theorem closeWindow_bufferByte (s : State) (buf : Buffer) (n : Nat) :
    bufferByte (closeWindow s) buf n = bufferByte s buf n := by cases buf <;> rfl
@[simp] theorem closeWindow_engineAlarm (s : State) :
    (closeWindow s).engineAlarm = s.engineAlarm := rfl

/-! ### `endPass` (R121). -/

@[simp] theorem endPass_cfg (s : State) : (endPass s).cfg = s.cfg := rfl
@[simp] theorem endPass_jiffies (s : State) : (endPass s).jiffies = s.jiffies := rfl
@[simp] theorem endPass_alarms (s : State) : (endPass s).alarms = s.alarms := rfl
@[simp] theorem endPass_alist (s : State) : (endPass s).alist = s.alist := rfl
@[simp] theorem endPass_procState (s : State) : (endPass s).procState = .idle := rfl
@[simp] theorem endPass_procNow (s : State) : (endPass s).procNow = s.procNow := rfl
@[simp] theorem endPass_fireId (s : State) : (endPass s).fireId = s.fireId := rfl
@[simp] theorem endPass_fireCb (s : State) : (endPass s).fireCb = s.fireCb := rfl
@[simp] theorem endPass_fireArg (s : State) : (endPass s).fireArg = s.fireArg := rfl
@[simp] theorem endPass_pendingWork (s : State) : (endPass s).pendingWork = s.pendingWork := rfl
@[simp] theorem endPass_localShort (s : State) : (endPass s).localShort = s.localShort := rfl
@[simp] theorem endPass_localLong (s : State) : (endPass s).localLong = s.localLong := rfl
@[simp] theorem endPass_txinfo (s : State) : (endPass s).txinfo = s.txinfo := rfl
@[simp] theorem endPass_pinfo (s : State) : (endPass s).pinfo = s.pinfo := rfl
@[simp] theorem endPass_hdrLen (s : State) : (endPass s).hdrLen = s.hdrLen := rfl
@[simp] theorem endPass_pinfoHdrLen (s : State) : (endPass s).pinfoHdrLen = s.pinfoHdrLen := rfl
@[simp] theorem endPass_txdata (s : State) : (endPass s).txdata = s.txdata := rfl
@[simp] theorem endPass_hdrbuf (s : State) : (endPass s).hdrbuf = s.hdrbuf := rfl
@[simp] theorem endPass_macInited (s : State) : (endPass s).macInited = s.macInited := rfl
@[simp] theorem endPass_macSeq (s : State) : (endPass s).macSeq = s.macSeq := rfl
@[simp] theorem endPass_radioBusy (s : State) : (endPass s).radioBusy = s.radioBusy := rfl
@[simp] theorem endPass_txOwner (s : State) : (endPass s).txOwner = s.txOwner := rfl
@[simp] theorem endPass_txSlot (s : State) : (endPass s).txSlot = s.txSlot := rfl
@[simp] theorem endPass_slots (s : State) : (endPass s).slots = s.slots := rfl
@[simp] theorem endPass_order (s : State) : (endPass s).order = s.order := rfl
@[simp] theorem endPass_inputs (s : State) : (endPass s).inputs = s.inputs := rfl
@[simp] theorem endPass_channelAnswers (s : State) : (endPass s).channelAnswers = s.channelAnswers := rfl
@[simp] theorem endPass_draws (s : State) : (endPass s).draws = s.draws := rfl
@[simp] theorem endPass_queries (s : State) : (endPass s).queries = s.queries := rfl
@[simp] theorem endPass_resets (s : State) : (endPass s).resets = s.resets := rfl
@[simp] theorem endPass_responses (s : State) : (endPass s).responses = s.responses := rfl
@[simp] theorem endPass_outputs (s : State) : (endPass s).outputs = s.outputs := rfl
@[simp] theorem endPass_alarm (s : State) (j : Nat) :
    (endPass s).alarm j = s.alarm j := rfl
@[simp] theorem endPass_slot (s : State) (j : Nat) :
    (endPass s).slot j = s.slot j := rfl
@[simp] theorem endPass_inFlight? (s : State) :
    (endPass s).inFlight? = s.inFlight? := rfl
@[simp] theorem endPass_bufferByte (s : State) (buf : Buffer) (n : Nat) :
    bufferByte (endPass s) buf n = bufferByte s buf n := by cases buf <;> rfl
@[simp] theorem endPass_engineAlarm (s : State) :
    (endPass s).engineAlarm = s.engineAlarm := rfl

/-! ### `transmit` (R192). -/

@[simp] theorem transmit_cfg (k : Nat) (s : State) : (transmit k s).cfg = s.cfg := rfl
@[simp] theorem transmit_jiffies (k : Nat) (s : State) : (transmit k s).jiffies = s.jiffies := rfl
@[simp] theorem transmit_alarms (k : Nat) (s : State) : (transmit k s).alarms = s.alarms := rfl
@[simp] theorem transmit_alist (k : Nat) (s : State) : (transmit k s).alist = s.alist := rfl
@[simp] theorem transmit_procState (k : Nat) (s : State) : (transmit k s).procState = s.procState := rfl
@[simp] theorem transmit_procNow (k : Nat) (s : State) : (transmit k s).procNow = s.procNow := rfl
@[simp] theorem transmit_fireId (k : Nat) (s : State) : (transmit k s).fireId = s.fireId := rfl
@[simp] theorem transmit_fireCb (k : Nat) (s : State) : (transmit k s).fireCb = s.fireCb := rfl
@[simp] theorem transmit_fireArg (k : Nat) (s : State) : (transmit k s).fireArg = s.fireArg := rfl
@[simp] theorem transmit_pendingWork (k : Nat) (s : State) : (transmit k s).pendingWork = s.pendingWork := rfl
@[simp] theorem transmit_localShort (k : Nat) (s : State) : (transmit k s).localShort = s.localShort := rfl
@[simp] theorem transmit_localLong (k : Nat) (s : State) : (transmit k s).localLong = s.localLong := rfl
@[simp] theorem transmit_txinfo (k : Nat) (s : State) : (transmit k s).txinfo = s.txinfo := rfl
@[simp] theorem transmit_pinfo (k : Nat) (s : State) : (transmit k s).pinfo = s.pinfo := rfl
@[simp] theorem transmit_hdrLen (k : Nat) (s : State) : (transmit k s).hdrLen = s.hdrLen := rfl
@[simp] theorem transmit_pinfoHdrLen (k : Nat) (s : State) : (transmit k s).pinfoHdrLen = s.pinfoHdrLen := rfl
@[simp] theorem transmit_txdata (k : Nat) (s : State) : (transmit k s).txdata = s.txdata := rfl
@[simp] theorem transmit_hdrbuf (k : Nat) (s : State) : (transmit k s).hdrbuf = s.hdrbuf := rfl
@[simp] theorem transmit_macInited (k : Nat) (s : State) : (transmit k s).macInited = s.macInited := rfl
@[simp] theorem transmit_macSeq (k : Nat) (s : State) : (transmit k s).macSeq = s.macSeq := rfl
@[simp] theorem transmit_radioBusy (k : Nat) (s : State) : (transmit k s).radioBusy = true := rfl
@[simp] theorem transmit_txOwner (k : Nat) (s : State) : (transmit k s).txOwner = .slot := rfl
@[simp] theorem transmit_txSlot (k : Nat) (s : State) : (transmit k s).txSlot = BitVec.ofNat 8 k := rfl
@[simp] theorem transmit_slots (k : Nat) (s : State) :
    (transmit k s).slots
      = s.slots.set k { s.slot k with attempts := (s.slot k).attempts + 1, phase := .transmitting } := rfl
@[simp] theorem transmit_order (k : Nat) (s : State) : (transmit k s).order = s.order := rfl
@[simp] theorem transmit_inputs (k : Nat) (s : State) : (transmit k s).inputs = s.inputs := rfl
@[simp] theorem transmit_channelAnswers (k : Nat) (s : State) :
    (transmit k s).channelAnswers = s.channelAnswers := rfl
@[simp] theorem transmit_draws (k : Nat) (s : State) : (transmit k s).draws = s.draws := rfl
@[simp] theorem transmit_queries (k : Nat) (s : State) : (transmit k s).queries = s.queries := rfl
@[simp] theorem transmit_resets (k : Nat) (s : State) : (transmit k s).resets = s.resets := rfl
@[simp] theorem transmit_responses (k : Nat) (s : State) : (transmit k s).responses = s.responses := rfl
@[simp] theorem transmit_outputs (k : Nat) (s : State) :
    (transmit k s).outputs = s.outputs ++ [.radioTx (s.slot k).hdr (s.slot k).data] := rfl
@[simp] theorem transmit_alarm (k : Nat) (s : State) (j : Nat) :
    (transmit k s).alarm j = s.alarm j := rfl
@[simp] theorem transmit_bufferByte (k : Nat) (s : State) (buf : Buffer) (n : Nat) :
    bufferByte (transmit k s) buf n = bufferByte s buf n := by cases buf <;> rfl
@[simp] theorem transmit_engineAlarm (k : Nat) (s : State) :
    (transmit k s).engineAlarm = s.engineAlarm := rfl

/-! ### `release` (R198). -/

@[simp] theorem release_cfg (k : Nat) (c : SendCode) (s : State) : (release k c s).cfg = s.cfg := rfl
@[simp] theorem release_jiffies (k : Nat) (c : SendCode) (s : State) : (release k c s).jiffies = s.jiffies := rfl
@[simp] theorem release_alarms (k : Nat) (c : SendCode) (s : State) : (release k c s).alarms = s.alarms := rfl
@[simp] theorem release_alist (k : Nat) (c : SendCode) (s : State) : (release k c s).alist = s.alist := rfl
@[simp] theorem release_procState (k : Nat) (c : SendCode) (s : State) :
    (release k c s).procState = s.procState := rfl
@[simp] theorem release_procNow (k : Nat) (c : SendCode) (s : State) : (release k c s).procNow = s.procNow := rfl
@[simp] theorem release_fireId (k : Nat) (c : SendCode) (s : State) : (release k c s).fireId = s.fireId := rfl
@[simp] theorem release_fireCb (k : Nat) (c : SendCode) (s : State) : (release k c s).fireCb = s.fireCb := rfl
@[simp] theorem release_fireArg (k : Nat) (c : SendCode) (s : State) : (release k c s).fireArg = s.fireArg := rfl
@[simp] theorem release_pendingWork (k : Nat) (c : SendCode) (s : State) :
    (release k c s).pendingWork = s.pendingWork := rfl
@[simp] theorem release_localShort (k : Nat) (c : SendCode) (s : State) :
    (release k c s).localShort = s.localShort := rfl
@[simp] theorem release_localLong (k : Nat) (c : SendCode) (s : State) :
    (release k c s).localLong = s.localLong := rfl
@[simp] theorem release_txinfo (k : Nat) (c : SendCode) (s : State) : (release k c s).txinfo = s.txinfo := rfl
@[simp] theorem release_pinfo (k : Nat) (c : SendCode) (s : State) : (release k c s).pinfo = s.pinfo := rfl
@[simp] theorem release_hdrLen (k : Nat) (c : SendCode) (s : State) : (release k c s).hdrLen = s.hdrLen := rfl
@[simp] theorem release_pinfoHdrLen (k : Nat) (c : SendCode) (s : State) :
    (release k c s).pinfoHdrLen = s.pinfoHdrLen := rfl
@[simp] theorem release_txdata (k : Nat) (c : SendCode) (s : State) : (release k c s).txdata = s.txdata := rfl
@[simp] theorem release_hdrbuf (k : Nat) (c : SendCode) (s : State) : (release k c s).hdrbuf = s.hdrbuf := rfl
@[simp] theorem release_macInited (k : Nat) (c : SendCode) (s : State) :
    (release k c s).macInited = s.macInited := rfl
@[simp] theorem release_macSeq (k : Nat) (c : SendCode) (s : State) : (release k c s).macSeq = s.macSeq := rfl
@[simp] theorem release_radioBusy (k : Nat) (c : SendCode) (s : State) :
    (release k c s).radioBusy = s.radioBusy := rfl
@[simp] theorem release_txOwner (k : Nat) (c : SendCode) (s : State) : (release k c s).txOwner = s.txOwner := rfl
@[simp] theorem release_txSlot (k : Nat) (c : SendCode) (s : State) : (release k c s).txSlot = s.txSlot := rfl
@[simp] theorem release_slots (k : Nat) (c : SendCode) (s : State) :
    (release k c s).slots = s.slots.set k Slot.reset := rfl
@[simp] theorem release_order (k : Nat) (c : SendCode) (s : State) :
    (release k c s).order = s.order.filter (fun j => j != k) := rfl
@[simp] theorem release_inputs (k : Nat) (c : SendCode) (s : State) : (release k c s).inputs = s.inputs := rfl
@[simp] theorem release_channelAnswers (k : Nat) (c : SendCode) (s : State) :
    (release k c s).channelAnswers = s.channelAnswers := rfl
@[simp] theorem release_draws (k : Nat) (c : SendCode) (s : State) : (release k c s).draws = s.draws := rfl
@[simp] theorem release_queries (k : Nat) (c : SendCode) (s : State) : (release k c s).queries = s.queries := rfl
@[simp] theorem release_resets (k : Nat) (c : SendCode) (s : State) : (release k c s).resets = s.resets := rfl
@[simp] theorem release_responses (k : Nat) (c : SendCode) (s : State) :
    (release k c s).responses = s.responses := rfl
@[simp] theorem release_outputs (k : Nat) (c : SendCode) (s : State) :
    (release k c s).outputs = s.outputs ++ [.sendDone (BitVec.ofNat 8 k) c (s.slot k).attempts] := rfl
@[simp] theorem release_alarm (k : Nat) (c : SendCode) (s : State) (j : Nat) :
    (release k c s).alarm j = s.alarm j := rfl
@[simp] theorem release_bufferByte (k : Nat) (c : SendCode) (s : State) (buf : Buffer) (n : Nat) :
    bufferByte (release k c s) buf n = bufferByte s buf n := by cases buf <;> rfl
@[simp] theorem release_engineAlarm (k : Nat) (c : SendCode) (s : State) :
    (release k c s).engineAlarm = s.engineAlarm := rfl

/-! ### `radioFree` (R193). -/

@[simp] theorem radioFree_cfg (s : State) : (radioFree s).cfg = s.cfg := rfl
@[simp] theorem radioFree_jiffies (s : State) : (radioFree s).jiffies = s.jiffies := rfl
@[simp] theorem radioFree_alarms (s : State) : (radioFree s).alarms = s.alarms := rfl
@[simp] theorem radioFree_alist (s : State) : (radioFree s).alist = s.alist := rfl
@[simp] theorem radioFree_procState (s : State) : (radioFree s).procState = s.procState := rfl
@[simp] theorem radioFree_procNow (s : State) : (radioFree s).procNow = s.procNow := rfl
@[simp] theorem radioFree_fireId (s : State) : (radioFree s).fireId = s.fireId := rfl
@[simp] theorem radioFree_fireCb (s : State) : (radioFree s).fireCb = s.fireCb := rfl
@[simp] theorem radioFree_fireArg (s : State) : (radioFree s).fireArg = s.fireArg := rfl
@[simp] theorem radioFree_pendingWork (s : State) : (radioFree s).pendingWork = s.pendingWork := rfl
@[simp] theorem radioFree_localShort (s : State) : (radioFree s).localShort = s.localShort := rfl
@[simp] theorem radioFree_localLong (s : State) : (radioFree s).localLong = s.localLong := rfl
@[simp] theorem radioFree_txinfo (s : State) : (radioFree s).txinfo = s.txinfo := rfl
@[simp] theorem radioFree_pinfo (s : State) : (radioFree s).pinfo = s.pinfo := rfl
@[simp] theorem radioFree_hdrLen (s : State) : (radioFree s).hdrLen = s.hdrLen := rfl
@[simp] theorem radioFree_pinfoHdrLen (s : State) : (radioFree s).pinfoHdrLen = s.pinfoHdrLen := rfl
@[simp] theorem radioFree_txdata (s : State) : (radioFree s).txdata = s.txdata := rfl
@[simp] theorem radioFree_hdrbuf (s : State) : (radioFree s).hdrbuf = s.hdrbuf := rfl
@[simp] theorem radioFree_macInited (s : State) : (radioFree s).macInited = s.macInited := rfl
@[simp] theorem radioFree_macSeq (s : State) : (radioFree s).macSeq = s.macSeq := rfl
@[simp] theorem radioFree_radioBusy (s : State) : (radioFree s).radioBusy = false := rfl
@[simp] theorem radioFree_txOwner (s : State) : (radioFree s).txOwner = .none := rfl
@[simp] theorem radioFree_txSlot (s : State) : (radioFree s).txSlot = s.txSlot := rfl
@[simp] theorem radioFree_slots (s : State) : (radioFree s).slots = s.slots := rfl
@[simp] theorem radioFree_order (s : State) : (radioFree s).order = s.order := rfl
@[simp] theorem radioFree_inputs (s : State) : (radioFree s).inputs = s.inputs := rfl
@[simp] theorem radioFree_channelAnswers (s : State) : (radioFree s).channelAnswers = s.channelAnswers := rfl
@[simp] theorem radioFree_draws (s : State) : (radioFree s).draws = s.draws := rfl
@[simp] theorem radioFree_queries (s : State) : (radioFree s).queries = s.queries := rfl
@[simp] theorem radioFree_resets (s : State) : (radioFree s).resets = s.resets := rfl
@[simp] theorem radioFree_responses (s : State) : (radioFree s).responses = s.responses := rfl
@[simp] theorem radioFree_outputs (s : State) : (radioFree s).outputs = s.outputs := rfl
@[simp] theorem radioFree_alarm (s : State) (j : Nat) :
    (radioFree s).alarm j = s.alarm j := rfl
@[simp] theorem radioFree_slot (s : State) (j : Nat) :
    (radioFree s).slot j = s.slot j := rfl
@[simp] theorem radioFree_inFlight? (s : State) :
    (radioFree s).inFlight? = s.inFlight? := rfl
@[simp] theorem radioFree_bufferByte (s : State) (buf : Buffer) (n : Nat) :
    bufferByte (radioFree s) buf n = bufferByte s buf n := by cases buf <;> rfl
@[simp] theorem radioFree_engineAlarm (s : State) :
    (radioFree s).engineAlarm = s.engineAlarm := rfl

/-! ### `transmitAck` (R227). -/

@[simp] theorem transmitAck_cfg (h : List Byte) (s : State) : (transmitAck h s).cfg = s.cfg := rfl
@[simp] theorem transmitAck_jiffies (h : List Byte) (s : State) : (transmitAck h s).jiffies = s.jiffies := rfl
@[simp] theorem transmitAck_alarms (h : List Byte) (s : State) : (transmitAck h s).alarms = s.alarms := rfl
@[simp] theorem transmitAck_alist (h : List Byte) (s : State) : (transmitAck h s).alist = s.alist := rfl
@[simp] theorem transmitAck_procState (h : List Byte) (s : State) : (transmitAck h s).procState = s.procState := rfl
@[simp] theorem transmitAck_procNow (h : List Byte) (s : State) : (transmitAck h s).procNow = s.procNow := rfl
@[simp] theorem transmitAck_fireId (h : List Byte) (s : State) : (transmitAck h s).fireId = s.fireId := rfl
@[simp] theorem transmitAck_fireCb (h : List Byte) (s : State) : (transmitAck h s).fireCb = s.fireCb := rfl
@[simp] theorem transmitAck_fireArg (h : List Byte) (s : State) : (transmitAck h s).fireArg = s.fireArg := rfl
@[simp] theorem transmitAck_pendingWork (h : List Byte) (s : State) :
    (transmitAck h s).pendingWork = s.pendingWork := rfl
@[simp] theorem transmitAck_localShort (h : List Byte) (s : State) :
    (transmitAck h s).localShort = s.localShort := rfl
@[simp] theorem transmitAck_localLong (h : List Byte) (s : State) : (transmitAck h s).localLong = s.localLong := rfl
@[simp] theorem transmitAck_txinfo (h : List Byte) (s : State) : (transmitAck h s).txinfo = s.txinfo := rfl
@[simp] theorem transmitAck_pinfo (h : List Byte) (s : State) : (transmitAck h s).pinfo = s.pinfo := rfl
@[simp] theorem transmitAck_hdrLen (h : List Byte) (s : State) : (transmitAck h s).hdrLen = s.hdrLen := rfl
@[simp] theorem transmitAck_pinfoHdrLen (h : List Byte) (s : State) :
    (transmitAck h s).pinfoHdrLen = s.pinfoHdrLen := rfl
@[simp] theorem transmitAck_txdata (h : List Byte) (s : State) : (transmitAck h s).txdata = s.txdata := rfl
@[simp] theorem transmitAck_hdrbuf (h : List Byte) (s : State) : (transmitAck h s).hdrbuf = s.hdrbuf := rfl
@[simp] theorem transmitAck_macInited (h : List Byte) (s : State) : (transmitAck h s).macInited = s.macInited := rfl
@[simp] theorem transmitAck_macSeq (h : List Byte) (s : State) : (transmitAck h s).macSeq = s.macSeq := rfl
@[simp] theorem transmitAck_radioBusy (h : List Byte) (s : State) : (transmitAck h s).radioBusy = true := rfl
@[simp] theorem transmitAck_txOwner (h : List Byte) (s : State) : (transmitAck h s).txOwner = .ack := rfl
@[simp] theorem transmitAck_txSlot (h : List Byte) (s : State) : (transmitAck h s).txSlot = s.txSlot := rfl
@[simp] theorem transmitAck_slots (h : List Byte) (s : State) : (transmitAck h s).slots = s.slots := rfl
@[simp] theorem transmitAck_order (h : List Byte) (s : State) : (transmitAck h s).order = s.order := rfl
@[simp] theorem transmitAck_inputs (h : List Byte) (s : State) : (transmitAck h s).inputs = s.inputs := rfl
@[simp] theorem transmitAck_channelAnswers (h : List Byte) (s : State) :
    (transmitAck h s).channelAnswers = s.channelAnswers := rfl
@[simp] theorem transmitAck_draws (h : List Byte) (s : State) : (transmitAck h s).draws = s.draws := rfl
@[simp] theorem transmitAck_queries (h : List Byte) (s : State) : (transmitAck h s).queries = s.queries := rfl
@[simp] theorem transmitAck_resets (h : List Byte) (s : State) : (transmitAck h s).resets = s.resets := rfl
@[simp] theorem transmitAck_responses (h : List Byte) (s : State) : (transmitAck h s).responses = s.responses := rfl
@[simp] theorem transmitAck_outputs (h : List Byte) (s : State) :
    (transmitAck h s).outputs = s.outputs ++ [.radioTx h []] := rfl
@[simp] theorem transmitAck_alarm (h : List Byte) (s : State) (j : Nat) :
    (transmitAck h s).alarm j = s.alarm j := rfl
@[simp] theorem transmitAck_slot (h : List Byte) (s : State) (j : Nat) :
    (transmitAck h s).slot j = s.slot j := rfl
@[simp] theorem transmitAck_inFlight? (h : List Byte) (s : State) :
    (transmitAck h s).inFlight? = s.inFlight? := rfl
@[simp] theorem transmitAck_bufferByte (h : List Byte) (s : State) (buf : Buffer) (n : Nat) :
    bufferByte (transmitAck h s) buf n = bufferByte s buf n := by cases buf <;> rfl
@[simp] theorem transmitAck_engineAlarm (h : List Byte) (s : State) :
    (transmitAck h s).engineAlarm = s.engineAlarm := rfl

/-! ### `initEngine` (R181). -/

@[simp] theorem initEngine_cfg (s : State) : (initEngine s).cfg = s.cfg := rfl
@[simp] theorem initEngine_jiffies (s : State) : (initEngine s).jiffies = s.jiffies := rfl
@[simp] theorem initEngine_alarms (s : State) :
    (initEngine s).alarms
      = s.alarms.set s.engineAlarm { s.alarm s.engineAlarm with cb := cbMac, arg := 0, bound := true } := rfl
@[simp] theorem initEngine_alist (s : State) : (initEngine s).alist = s.alist := rfl
@[simp] theorem initEngine_procState (s : State) : (initEngine s).procState = s.procState := rfl
@[simp] theorem initEngine_procNow (s : State) : (initEngine s).procNow = s.procNow := rfl
@[simp] theorem initEngine_fireId (s : State) : (initEngine s).fireId = s.fireId := rfl
@[simp] theorem initEngine_fireCb (s : State) : (initEngine s).fireCb = s.fireCb := rfl
@[simp] theorem initEngine_fireArg (s : State) : (initEngine s).fireArg = s.fireArg := rfl
@[simp] theorem initEngine_pendingWork (s : State) : (initEngine s).pendingWork = s.pendingWork := rfl
@[simp] theorem initEngine_localShort (s : State) : (initEngine s).localShort = s.localShort := rfl
@[simp] theorem initEngine_localLong (s : State) : (initEngine s).localLong = s.localLong := rfl
@[simp] theorem initEngine_txinfo (s : State) : (initEngine s).txinfo = s.txinfo := rfl
@[simp] theorem initEngine_pinfo (s : State) : (initEngine s).pinfo = s.pinfo := rfl
@[simp] theorem initEngine_hdrLen (s : State) : (initEngine s).hdrLen = s.hdrLen := rfl
@[simp] theorem initEngine_pinfoHdrLen (s : State) : (initEngine s).pinfoHdrLen = s.pinfoHdrLen := rfl
@[simp] theorem initEngine_txdata (s : State) : (initEngine s).txdata = s.txdata := rfl
@[simp] theorem initEngine_hdrbuf (s : State) : (initEngine s).hdrbuf = s.hdrbuf := rfl
@[simp] theorem initEngine_macInited (s : State) : (initEngine s).macInited = true := rfl
@[simp] theorem initEngine_macSeq (s : State) : (initEngine s).macSeq = s.macSeq := rfl
@[simp] theorem initEngine_radioBusy (s : State) : (initEngine s).radioBusy = s.radioBusy := rfl
@[simp] theorem initEngine_txOwner (s : State) : (initEngine s).txOwner = s.txOwner := rfl
@[simp] theorem initEngine_txSlot (s : State) : (initEngine s).txSlot = s.txSlot := rfl
@[simp] theorem initEngine_slots (s : State) : (initEngine s).slots = s.slots := rfl
@[simp] theorem initEngine_order (s : State) : (initEngine s).order = s.order := rfl
@[simp] theorem initEngine_inputs (s : State) : (initEngine s).inputs = s.inputs := rfl
@[simp] theorem initEngine_channelAnswers (s : State) : (initEngine s).channelAnswers = s.channelAnswers := rfl
@[simp] theorem initEngine_draws (s : State) : (initEngine s).draws = s.draws := rfl
@[simp] theorem initEngine_queries (s : State) : (initEngine s).queries = s.queries := rfl
@[simp] theorem initEngine_resets (s : State) : (initEngine s).resets = s.resets := rfl
@[simp] theorem initEngine_responses (s : State) : (initEngine s).responses = s.responses := rfl
@[simp] theorem initEngine_outputs (s : State) : (initEngine s).outputs = s.outputs ++ [.radioOn] := rfl
@[simp] theorem initEngine_slot (s : State) (j : Nat) :
    (initEngine s).slot j = s.slot j := rfl
@[simp] theorem initEngine_inFlight? (s : State) :
    (initEngine s).inFlight? = s.inFlight? := rfl
@[simp] theorem initEngine_bufferByte (s : State) (buf : Buffer) (n : Nat) :
    bufferByte (initEngine s) buf n = bufferByte s buf n := by cases buf <;> rfl
@[simp] theorem initEngine_engineAlarm (s : State) :
    (initEngine s).engineAlarm = s.engineAlarm := rfl

end Sys2Proof.Machine
end

