-- ==== Sys2Proof/Laws/Tables.lean ====
section
/-! SUPPORT. The laws of the two tables: reading an entry after writing one, entries beyond the table, the
slot in flight and the free slot (R23, R36, R37, R183). -/

namespace Sys2Proof.Machine

/-! ### The alarm table -/

/-- Beyond the table an alarm reads as the reset alarm. -/
theorem alarm_of_length_le (s : State) (i : Nat) (h : s.alarms.length ≤ i) : s.alarm i = Alarm.reset := by
  simp [State.alarm, List.getElem?_eq_none h]

/-- A SCHEDULED alarm is in the table. -/
theorem lt_of_scheduled (s : State) (i : Nat) (h : (s.alarm i).state = .scheduled) : i < s.alarms.length := by
  by_contra hn
  rw [alarm_of_length_le s i (by omega)] at h
  cases h

/-- An alarm after `alarm[i] <- a`. -/
theorem setAlarm_alarm (s : State) (i j : Nat) (a : Alarm) :
    (s.setAlarm i a).alarm j = if j = i ∧ i < s.alarms.length then a else s.alarm j := by
  simp only [State.alarm, setAlarm_alarms, List.getD_eq_getElem?_getD, List.getElem?_set]
  by_cases h : i = j
  · subst h
    by_cases hl : i < s.alarms.length
    · simp [hl]
    · simp [hl]
  · simp [h, Ne.symm h]

/-- The alarm written. -/
@[simp] theorem setAlarm_alarm_self (s : State) (i : Nat) (a : Alarm) (h : i < s.alarms.length) :
    (s.setAlarm i a).alarm i = a := by simp [setAlarm_alarm, h]

/-- Every other alarm. -/
theorem setAlarm_alarm_ne (s : State) (i j : Nat) (a : Alarm) (h : j ≠ i) :
    (s.setAlarm i a).alarm j = s.alarm j := by simp [setAlarm_alarm, h]

/-! ### The slot table -/

/-- Beyond the table a slot reads as the reset slot. -/
theorem slot_of_length_le (s : State) (k : Nat) (h : s.slots.length ≤ k) : s.slot k = Slot.reset := by
  simp [State.slot, List.getElem?_eq_none h]

/-- A slot that is not IDLE is in the table. -/
theorem lt_of_not_idle (s : State) (k : Nat) (h : (s.slot k).state ≠ .idle) : k < s.slots.length := by
  by_contra hn
  exact h (by rw [slot_of_length_le s k (by omega)]; rfl)

/-- A slot after `slot[k] <- x`. -/
theorem setSlot_slot (s : State) (k j : Nat) (x : Slot) :
    (s.setSlot k x).slot j = if j = k ∧ k < s.slots.length then x else s.slot j := by
  simp only [State.slot, setSlot_slots, List.getD_eq_getElem?_getD, List.getElem?_set]
  by_cases h : k = j
  · subst h
    by_cases hl : k < s.slots.length
    · simp [hl]
    · simp [hl]
  · simp [h, Ne.symm h]

/-- The slot written. -/
@[simp] theorem setSlot_slot_self (s : State) (k : Nat) (x : Slot) (h : k < s.slots.length) :
    (s.setSlot k x).slot k = x := by simp [setSlot_slot, h]

/-- Every other slot. -/
theorem setSlot_slot_ne (s : State) (k j : Nat) (x : Slot) (h : j ≠ k) :
    (s.setSlot k x).slot j = s.slot j := by simp [setSlot_slot, h]

/-- A slot after its release: the reset slot, inside the table and outside it (R198). -/
@[simp] theorem release_slot_self (k : Nat) (c : SendCode) (s : State) : (release k c s).slot k = Slot.reset := by
  show (s.setSlot k Slot.reset).slot k = Slot.reset
  rw [setSlot_slot]
  split
  · rfl
  · exact slot_of_length_le s k (by simp_all)

/-- Every other slot after a release (R198). -/
theorem release_slot_ne (k : Nat) (c : SendCode) (s : State) (j : Nat) (h : j ≠ k) :
    (release k c s).slot j = s.slot j := setSlot_slot_ne s k j _ h

/-- The slot that is transmitted (R192). -/
theorem transmit_slot_self (k : Nat) (s : State) (h : k < s.slots.length) :
    (transmit k s).slot k = { s.slot k with attempts := (s.slot k).attempts + 1, phase := .transmitting } :=
  setSlot_slot_self s k _ h

/-- Every other slot of a transmission (R192). -/
theorem transmit_slot_ne (k : Nat) (s : State) (j : Nat) (h : j ≠ k) : (transmit k s).slot j = s.slot j :=
  setSlot_slot_ne s k j _ h

/-- The slot whose phase is set. -/
theorem setPhase_slot_self (s : State) (k : Nat) (p : Phase) (h : k < s.slots.length) :
    (s.setPhase k p).slot k = { s.slot k with phase := p } := setSlot_slot_self s k _ h

/-- Every other slot of a phase change. -/
theorem setPhase_slot_ne (s : State) (k : Nat) (p : Phase) (j : Nat) (h : j ≠ k) :
    (s.setPhase k p).slot j = s.slot j := setSlot_slot_ne s k j _ h

/-! ### Searching the slot table -/

/-- A slot the search finds is in the table and has the state looked for, and no lower one has. -/
theorem findSlot_eq_some_iff (s : State) (p : SlotState) (k : Nat) :
    s.slots.findIdx? (fun x => x.state == p) = some k ↔
      k < s.slots.length ∧ (s.slot k).state = p ∧ ∀ j, j < k → (s.slot j).state ≠ p := by
  rw [List.findIdx?_eq_some_iff_getElem]
  constructor
  · rintro ⟨h, hp, hj⟩
    refine ⟨h, by simpa [State.slot, h] using hp, fun j hjk => ?_⟩
    have hjl : j < s.slots.length := by omega
    simpa [State.slot, hjl] using hj j hjk
  · rintro ⟨h, hp, hj⟩
    refine ⟨h, by simpa [State.slot, h] using hp, fun j hjk => ?_⟩
    have hjl : j < s.slots.length := by omega
    simpa [State.slot, hjl] using hj j hjk

/-- The slot in flight (R37). -/
theorem inFlight?_eq_some_iff (s : State) (k : Nat) : s.inFlight? = some k ↔
    k < s.slots.length ∧ (s.slot k).state = .inFlight ∧ ∀ j, j < k → (s.slot j).state ≠ .inFlight :=
  findSlot_eq_some_iff s .inFlight k

/-- A single slot in flight is the one found. -/
theorem inFlight?_of_unique (s : State) (k : Nat) (h : (s.slot k).state = .inFlight)
    (hu : ∀ j, j ≠ k → (s.slot j).state ≠ .inFlight) : s.inFlight? = some k :=
  (inFlight?_eq_some_iff s k).2
    ⟨lt_of_not_idle s k (by rw [h]; decide), h, fun j hj => hu j (Nat.ne_of_lt hj)⟩

/-- No slot is in flight (R37). -/
theorem inFlight?_eq_none_iff (s : State) : s.inFlight? = none ↔ ∀ k, (s.slot k).state ≠ .inFlight := by
  constructor
  · intro h k hk
    have hk' := lt_of_not_idle s k (by rw [hk]; decide)
    simp only [State.inFlight?, List.findIdx?_eq_none_iff] at h
    have := h s.slots[k] (List.getElem_mem hk')
    simp [State.slot, hk'] at hk
    simp [hk] at this
  · intro h
    cases hf : s.inFlight? with
    | none => rfl
    | some k => exact absurd ((inFlight?_eq_some_iff s k).1 hf).2.1 (h k)

/-- The lowest free slot (R183). -/
theorem freeSlot?_eq_some_iff (s : State) (k : Nat) : s.freeSlot? = some k ↔
    k < s.slots.length ∧ (s.slot k).state = .idle ∧ ∀ j, j < k → (s.slot j).state ≠ .idle :=
  findSlot_eq_some_iff s .idle k

/-- The queue is full (R183). -/
theorem freeSlot?_eq_none_iff (s : State) :
    s.freeSlot? = none ↔ ∀ k, k < s.slots.length → (s.slot k).state ≠ .idle := by
  constructor
  · intro h k hk hi
    simp only [State.freeSlot?, List.findIdx?_eq_none_iff] at h
    have := h s.slots[k] (List.getElem_mem hk)
    simp [State.slot, hk] at hi
    simp [hi] at this
  · intro h
    cases hf : s.freeSlot? with
    | none => rfl
    | some k =>
      obtain ⟨hk, hi, _⟩ := (freeSlot?_eq_some_iff s k).1 hf
      exact absurd hi (h k hk)

end Sys2Proof.Machine
end

