-- ==== Sys2Proof/Laws/AlarmList.lean ====
section
/-! SUPPORT. The laws of the alarm list: what `removeAlarm`, `insertByTime`, `insertAlarm` and `armAlarm` do
(R113, R114, R117, R130), and that each keeps the list the list of exactly the SCHEDULED alarms (R24). -/

namespace Sys2Proof.Machine

/-! ### Tick values -/

/-- No tick value is after itself (R115). -/
@[simp] theorem timeAfter_self (a : Word) : timeAfter a a = false := by simp [timeAfter]

/-- One step of TICK's delay: TICKS_PER_MS is 1 (R8, R11). -/
@[simp] theorem deadline_eq (now d : Word) : deadline now d = now + d := by simp [deadline, ticksPerMs]

/-! ### Remove -/

/-- The removed alarm is IDLE and otherwise as it was. -/
@[simp] theorem removeAlarm_alarm_self (i : Nat) (s : State) :
    (removeAlarm i s).alarm i = { s.alarm i with state := .idle } := by
  show (s.setAlarm i { s.alarm i with state := .idle }).alarm i = _
  rw [setAlarm_alarm]
  split
  · rfl
  · rw [alarm_of_length_le s i (by simp_all)]; rfl

/-- Removing an alarm touches no other. -/
theorem removeAlarm_alarm_ne (i : Nat) (s : State) (j : Nat) (h : j ≠ i) :
    (removeAlarm i s).alarm j = s.alarm j := setAlarm_alarm_ne s i j _ h

/-- Deadlines do not move. -/
@[simp] theorem removeAlarm_when (i : Nat) (s : State) (j : Nat) :
    ((removeAlarm i s).alarm j).when = (s.alarm j).when := by
  by_cases h : j = i
  · subst h; simp
  · rw [removeAlarm_alarm_ne i s j h]

/-- Bindings do not move. -/
@[simp] theorem removeAlarm_cb (i : Nat) (s : State) (j : Nat) :
    ((removeAlarm i s).alarm j).cb = (s.alarm j).cb := by
  by_cases h : j = i
  · subst h; simp
  · rw [removeAlarm_alarm_ne i s j h]

/-- What the list holds afterwards. -/
theorem mem_removeAlarm (i : Nat) (s : State) (j : Nat) :
    j ∈ (removeAlarm i s).alist ↔ j ∈ s.alist ∧ j ≠ i := by simp

/-- A list without `i` is not changed by taking `i` out. -/
theorem filter_ne_of_notMem (l : List Nat) (i : Nat) (h : i ∉ l) : l.filter (fun j => j != i) = l := by
  rw [List.filter_eq_self]
  intro j hj
  simpa using fun hji : j = i => h (hji ▸ hj)

/-! ### Insert -/

/-- Where `insertByTime` puts its element (R114). -/
theorem insertByTime_split (f : Nat → Word) (w : Word) (i : Nat) (l : List Nat) :
    ∃ l1 l2, l = l1 ++ l2 ∧ insertByTime f w i l = l1 ++ i :: l2
      ∧ (∀ e ∈ l1, timeAfter (f e) w = false) ∧ ∀ e, l2.head? = some e → timeAfter (f e) w = true := by
  induction l with
  | nil => exact ⟨[], [], rfl, rfl, by simp, by simp⟩
  | cons e es ih =>
    by_cases h : timeAfter (f e) w = true
    · exact ⟨[], e :: es, rfl, by simp [insertByTime, h], by simp, by simp [h]⟩
    · obtain ⟨l1, l2, rfl, h2, h3, h4⟩ := ih
      refine ⟨e :: l1, l2, rfl, by simp [insertByTime, h, h2], ?_, h4⟩
      intro x hx
      rcases List.mem_cons.1 hx with rfl | hx
      · simpa using h
      · exact h3 x hx

/-- The elements after an insertion. -/
@[simp] theorem mem_insertByTime (f : Nat → Word) (w : Word) (i : Nat) (l : List Nat) (j : Nat) :
    j ∈ insertByTime f w i l ↔ j = i ∨ j ∈ l := by
  obtain ⟨l1, l2, rfl, h, -, -⟩ := insertByTime_split f w i l
  rw [h]; simp only [List.mem_append, List.mem_cons]; tauto

/-- Inserting an absent element keeps the list without repeats. -/
theorem insertByTime_nodup (f : Nat → Word) (w : Word) (i : Nat) (l : List Nat) (h : l.Nodup) (hi : i ∉ l) :
    (insertByTime f w i l).Nodup := by
  obtain ⟨l1, l2, rfl, h2, -, -⟩ := insertByTime_split f w i l
  rw [h2]
  exact (List.perm_middle.nodup_iff).2 (List.nodup_cons.2 ⟨hi, h⟩)

/-- Only the deadlines of the list's own elements matter. -/
theorem insertByTime_congr (f g : Nat → Word) (w : Word) (i : Nat) (l : List Nat) (h : ∀ e ∈ l, f e = g e) :
    insertByTime f w i l = insertByTime g w i l := by
  induction l with
  | nil => rfl
  | cons e es ih =>
    simp only [insertByTime, h e List.mem_cons_self, ih fun x hx => h x (List.mem_cons_of_mem _ hx)]

/-- The inserted alarm is SCHEDULED and otherwise as it was. -/
theorem insertAlarm_alarm_self (i : Nat) (s : State) (h : i < s.alarms.length) :
    (insertAlarm i s).alarm i = { s.alarm i with state := .scheduled } := setAlarm_alarm_self s i _ h

/-- Inserting an alarm touches no other. -/
theorem insertAlarm_alarm_ne (i : Nat) (s : State) (j : Nat) (h : j ≠ i) :
    (insertAlarm i s).alarm j = s.alarm j := setAlarm_alarm_ne s i j _ h

/-! ### Arming (R117, R130) -/

/-- The armed alarm: its deadline, SCHEDULED, its binding kept. -/
theorem armAlarm_alarm_self (i : Nat) (d : Word) (s : State) (h : i < s.alarms.length) :
    (armAlarm i d s).alarm i = { s.alarm i with when := s.jiffies + d, state := .scheduled } := by
  rw [armAlarm, insertAlarm_alarm_self _ _ (by simpa using h), removeAlarm_alarm_self, setAlarm_alarm_self _ _ _ h]
  simp

/-- Arming an alarm touches no other. -/
theorem armAlarm_alarm_ne (i : Nat) (d : Word) (s : State) (j : Nat) (h : j ≠ i) :
    (armAlarm i d s).alarm j = s.alarm j := by
  rw [armAlarm, insertAlarm_alarm_ne _ _ _ h, removeAlarm_alarm_ne _ _ _ h, setAlarm_alarm_ne _ _ _ _ h]

/-- The table keeps its size. -/
@[simp] theorem armAlarm_length (i : Nat) (d : Word) (s : State) :
    (armAlarm i d s).alarms.length = s.alarms.length := by simp [armAlarm]

/-- The list after arming: `i` taken out and put back by its new deadline. -/
theorem armAlarm_alist (i : Nat) (d : Word) (s : State) (h : i < s.alarms.length) :
    (armAlarm i d s).alist
      = insertByTime (fun e => (s.alarm e).when) (s.jiffies + d) i (s.alist.filter (fun j => j != i)) := by
  simp only [armAlarm, insertAlarm_alist, removeAlarm_alist, setAlarm_alist, removeAlarm_when,
    setAlarm_alarm_self _ _ _ h, deadline_eq]
  apply insertByTime_congr
  intro e he
  have : e ≠ i := by simpa using (List.mem_filter.1 he).2
  rw [setAlarm_alarm_ne _ _ _ _ this]

/-- What the list holds after arming. -/
theorem mem_armAlarm (i : Nat) (d : Word) (s : State) (j : Nat) :
    j ∈ (armAlarm i d s).alist ↔ j = i ∨ j ∈ s.alist := by
  simp only [armAlarm, insertAlarm_alist, mem_insertByTime, mem_removeAlarm, setAlarm_alist]
  tauto

/-! ### The list holds exactly the SCHEDULED alarms (R24) -/

/-- `Remove` keeps the list sound. -/
theorem removeAlarm_sound (i : Nat) (s : State) (h : AlarmListSound s) : AlarmListSound (removeAlarm i s) where
  nodup := h.nodup.filter _
  mem_iff j := by
    rw [mem_removeAlarm, h.mem_iff]
    by_cases hj : j = i
    · subst hj; simp
    · simp [hj, removeAlarm_alarm_ne]

/-- `Insert` of an alarm of the table that is not in the list keeps the list sound. -/
theorem insertAlarm_sound (i : Nat) (s : State) (hl : i < s.alarms.length) (hi : i ∉ s.alist)
    (h : AlarmListSound s) : AlarmListSound (insertAlarm i s) where
  nodup := insertByTime_nodup _ _ _ _ h.nodup hi
  mem_iff j := by
    rw [insertAlarm_alist, mem_insertByTime, h.mem_iff]
    by_cases hj : j = i
    · subst hj; simp [insertAlarm_alarm_self _ _ hl]
    · simp [hj, insertAlarm_alarm_ne]

/-- A change of an alarm that leaves its `state` keeps the list sound. -/
theorem setAlarm_sound (s : State) (i : Nat) (a : Alarm) (ha : a.state = (s.alarm i).state)
    (h : AlarmListSound s) : AlarmListSound (s.setAlarm i a) where
  nodup := h.nodup
  mem_iff j := by
    rw [setAlarm_alist, h.mem_iff, setAlarm_alarm]
    split
    · rename_i hj; rw [hj.1, ha]
    · rfl

/-- Arming keeps the list sound. -/
theorem armAlarm_sound (i : Nat) (d : Word) (s : State) (hl : i < s.alarms.length) (h : AlarmListSound s) :
    AlarmListSound (armAlarm i d s) :=
  insertAlarm_sound _ _ (by simpa using hl) (by simp)
    (removeAlarm_sound _ _ (setAlarm_sound _ _ _ rfl h))

/-- A state with the same alarms and list is as sound. -/
theorem AlarmListSound.congr {s t : State} (ha : t.alarms = s.alarms) (hl : t.alist = s.alist)
    (h : AlarmListSound s) : AlarmListSound t where
  nodup := hl ▸ h.nodup
  mem_iff i := by rw [hl, h.mem_iff]; simp [State.alarm, ha]

end Sys2Proof.Machine
end

