-- ==== Sys2Proof/Laws/Check.lean ====
section
/-! SUPPORT. A check, by evaluation, that a concrete state meets `Inv`: every clause over all indices is looked at
inside the tables only, because beyond them an entry is at its reset value. -/

namespace Sys2Proof.Machine

/-- What holds of the slots of the table and of the reset slot holds of every slot. -/
theorem forall_slot (s : State) (P : Nat → Slot → Prop) (hd : ∀ k, s.slots.length ≤ k → P k Slot.reset)
    (h : ∀ k, k < s.slots.length → P k (s.slot k)) (k : Nat) : P k (s.slot k) := by
  by_cases hk : k < s.slots.length
  · exact h k hk
  · rw [slot_of_length_le s k (by omega)]; exact hd k (by omega)

/-- The alarm list: without repeats, inside the table, and exactly the SCHEDULED alarms of the table. -/
def alistCheck (s : State) : Bool :=
  decide s.alist.Nodup && s.alist.all (fun i => decide (i < s.alarms.length))
  && (List.range s.alarms.length).all (fun i => decide (i ∈ s.alist) == ((s.alarm i).state == .scheduled))

theorem alistSound_of_check (s : State) (h : alistCheck s = true) : AlarmListSound s := by
  simp only [alistCheck, Bool.and_eq_true, decide_eq_true_eq, List.all_eq_true, List.mem_range, beq_iff_eq] at h
  obtain ⟨⟨h1, h2⟩, h3⟩ := h
  refine ⟨h1, fun i => ?_⟩
  by_cases hi : i < s.alarms.length
  · have := h3 i hi
    rw [Bool.eq_iff_iff] at this
    simpa using this
  · constructor
    · exact fun hm => absurd (h2 i hm) hi
    · exact fun hs => absurd (lt_of_scheduled s i hs) hi

/-- The bindings. -/
def bindingCheck (s : State) : Bool :=
  (List.range s.cfg.nAlarms.toNat).all (fun i => (s.alarm i).cb != cbMac)
  && (!s.macInited || ((s.alarm s.engineAlarm).cb == cbMac && (s.alarm s.engineAlarm).bound))

theorem bindingSound_of_check (s : State) (h : bindingCheck s = true) : BindingSound s := by
  simp only [bindingCheck, Bool.and_eq_true, List.all_eq_true, List.mem_range, bne_iff_ne] at h
  refine ⟨h.1, fun hm => ?_⟩
  simpa [hm] using h.2

/-- The callback window. -/
def windowCheck (s : State) : Bool :=
  (s.procState == .inCallback || (s.fireId == 0 && s.fireCb == 0 && s.fireArg == 0))
  && (s.procState == .idle || decide (s.fireId.toNat < s.cfg.nAlarms.toNat))
  && (s.cfg.threaded || s.procState == .idle || s.procNow == s.jiffies)
  && (s.cfg.threaded || !s.pendingWork)

theorem windowSound_of_check (s : State) (h : windowCheck s = true) : WindowSound s := by
  simp only [windowCheck, Bool.and_eq_true, Bool.or_eq_true, decide_eq_true_eq, beq_iff_eq] at h
  obtain ⟨⟨⟨h1, h2⟩, h3⟩, h4⟩ := h
  constructor
  · intro hp; rw [hp] at h1; simpa [and_assoc] using h1
  · intro hp; rw [hp] at h2; simpa using h2
  · intro ht hp; rw [hp, ht] at h3; simpa using h3
  · intro ht; rw [ht] at h4; simpa using h4

/-- What the queue asks of one slot. -/
def queueSlotCheck (s : State) (k : Nat) (x : Slot) : Bool :=
  (decide (k ∈ s.order) == (x.state != .idle)) && (x.state != .inFlight || s.order.head? == some k)
  && ((x.phase == .none) == (x.state != .inFlight)) && (x.state != .idle || x == Slot.reset)

/-- The queue. -/
def queueCheck (s : State) : Bool :=
  decide s.order.Nodup && s.order.all (fun k => decide (k < s.slots.length))
  && (s.macInited || s.order == [])
  && (List.range s.slots.length).all (fun k => queueSlotCheck s k (s.slot k))

theorem queueSound_of_check (s : State) (h : queueCheck s = true) : QueueSound s := by
  simp only [queueCheck, Bool.and_eq_true, decide_eq_true_eq, List.all_eq_true, List.mem_range,
    Bool.or_eq_true] at h
  obtain ⟨⟨⟨h1, h2⟩, h3⟩, h4⟩ := h
  have hall := forall_slot s (fun k x => queueSlotCheck s k x = true)
    (fun k hk => by
      have : k ∉ s.order := fun hm => absurd (h2 k hm) (by omega)
      simp [queueSlotCheck, this, Slot.reset]) h4
  simp only [queueSlotCheck, Bool.and_eq_true, Bool.or_eq_true, bne_iff_ne, beq_iff_eq] at hall
  constructor
  · exact h1
  · intro k
    have := (hall k).1.1.1
    rw [Bool.eq_iff_iff] at this
    simpa using this
  · intro k hk
    have := (hall k).1.1.2
    simp_all
  · intro k
    have := (hall k).1.2
    rw [Bool.eq_iff_iff] at this
    simpa using this
  · intro k hk
    have := (hall k).2
    simp_all
  · intro hm
    simpa [hm] using h3

/-- The radio and the engine alarm. -/
def radioCheck (s : State) : Bool :=
  ((s.radioBusy == false) == (s.txOwner == .none))
  && ((s.txOwner == .slot) == (List.range s.slots.length).any (fun k => (s.slot k).phase == .transmitting))
  && (List.range s.slots.length).all (fun k => (s.slot k).phase != .transmitting || s.txSlot.toNat == k)
  && (((s.alarm s.engineAlarm).state == .scheduled)
      == (List.range s.slots.length).any
          (fun k => (s.slot k).state == .inFlight && (s.slot k).phase != .transmitting))

/-- Looking for a slot inside the table is looking for it anywhere, when the reset slot is none. -/
theorem any_slot_iff (s : State) (p : Slot → Bool) (hp : p Slot.reset = false) :
    (List.range s.slots.length).any (fun k => p (s.slot k)) = true ↔ ∃ k, p (s.slot k) = true := by
  simp only [List.any_eq_true, List.mem_range]
  constructor
  · rintro ⟨k, -, h⟩; exact ⟨k, h⟩
  · rintro ⟨k, h⟩
    refine ⟨k, ?_, h⟩
    by_contra hn
    rw [slot_of_length_le s k (by omega), hp] at h
    cases h

theorem radioSound_of_check (s : State) (h : radioCheck s = true) : RadioSound s := by
  simp only [radioCheck, Bool.and_eq_true, List.all_eq_true, List.mem_range, Bool.or_eq_true] at h
  obtain ⟨⟨⟨h1, h2⟩, h3⟩, h4⟩ := h
  have h2' := any_slot_iff s (fun x => x.phase == .transmitting) rfl
  have h4' := any_slot_iff s (fun x => x.state == .inFlight && x.phase != .transmitting) rfl
  constructor
  · have := beq_iff_eq.1 h1
    rw [Bool.eq_iff_iff] at this
    simpa using this
  · have := beq_iff_eq.1 h2
    rw [Bool.eq_iff_iff, h2'] at this
    simpa using this
  · exact forall_slot s (fun k x => x.phase = .transmitting → s.txSlot.toNat = k)
      (fun k _ hk => by cases hk) (fun k hk hp => by simpa [hp] using h3 k hk)
  · have := beq_iff_eq.1 h4
    rw [Bool.eq_iff_iff, h4'] at this
    simpa using this

/-- What R36 and R192 ask of one slot. -/
def slotBoundsCheck (c : Config) (x : Slot) : Bool :=
  (x.state == .idle || (decide (1 ≤ x.hdr.length) && decide (x.hdr.length ≤ hdrbufSize)
    && decide (x.hdr.length + x.data.length ≤ c.bufSize.toNat)))
  && (x.state != .queued || x.attempts == 0)
  && (!(x.phase == .senseBackoff || x.phase == .retryBackoff) || decide (x.attempts.toNat < c.maxAttempts.toNat))
  && (!(x.phase == .transmitting || x.phase == .awaitAck)
      || (decide (1 ≤ x.attempts.toNat) && decide (x.attempts.toNat ≤ c.maxAttempts.toNat)))

theorem slotsBounded_of_check (s : State) (h : s.slots.all (slotBoundsCheck s.cfg) = true) : SlotsBounded s := by
  have hall := forall_slot s (fun _ x => slotBoundsCheck s.cfg x = true) (fun _ _ => rfl)
    (fun k hk => by
      rw [List.all_eq_true] at h
      have := h s.slots[k] (List.getElem_mem hk)
      simpa [State.slot, hk] using this)
  simp only [slotBoundsCheck, Bool.and_eq_true, Bool.or_eq_true, decide_eq_true_eq, beq_iff_eq] at hall
  constructor
  · intro k hk
    have := (hall k).1.1.1
    simp_all
  · intro k hk
    have := (hall k).1.1.2
    simp_all
  · intro k hk
    have := (hall k).1.2
    rcases hk with hk | hk <;> simp_all
  · intro k hk
    have := (hall k).2
    rcases hk with hk | hk <;> simp_all

/-- Everything together. -/
def invCheck (s : State) : Bool :=
  (s.alarms.length == s.cfg.nAlarms.toNat + 1 && s.slots.length == s.cfg.queueCap.toNat)
  && (s.txdata.wf && s.txdata.below s.cfg.bufSize.toNat && s.hdrbuf.wf && s.hdrbuf.below hdrbufSize)
  && alistCheck s && bindingCheck s && windowCheck s && queueCheck s && radioCheck s
  && s.slots.all (slotBoundsCheck s.cfg) && (s.cfg.longAddr || s.localLong == 0)

/-- A state that passes the check is sound. -/
theorem inv_of_check (s : State) (h : invCheck s = true) : Inv s := by
  simp only [invCheck, Bool.and_eq_true, beq_iff_eq] at h
  obtain ⟨⟨⟨⟨⟨⟨⟨⟨h1, h2⟩, h3⟩, h4⟩, h5⟩, h6⟩, h7⟩, h8⟩, h9⟩ := h
  exact ⟨h1, ⟨⟨h2.1.1.1, h2.1.1.2⟩, ⟨h2.1.2, h2.2⟩⟩, alistSound_of_check s h3, bindingSound_of_check s h4,
    windowSound_of_check s h5, queueSound_of_check s h6, radioSound_of_check s h7, slotsBounded_of_check s h8,
    fun hl => by simpa [hl] using h9⟩

end Sys2Proof.Machine
end

