-- ==== Sys2Proof/Laws/Codec.lean ====
section
/-! SUPPORT. The laws of the codec: what each field of the flag bytes holds, and that taking a field off the front
undoes putting it there (R151 to R162). -/

namespace Sys2Proof.Machine

/-! ### The flag bytes (R151, R153) -/

/-- The fields of a byte put together as FCF (R151). -/
theorem fcf_fields (a b c d e : Bool) (k : BitVec 3) :
    let f : Byte := BitVec.ofBool a ++ BitVec.ofBool b ++ BitVec.ofBool c ++ BitVec.ofBool d ++ BitVec.ofBool e ++ k
    f.getLsbD 7 = a ∧ f.getLsbD 6 = b ∧ f.getLsbD 5 = c ∧ f.getLsbD 4 = d ∧ f.getLsbD 3 = e
      ∧ f.extractLsb' 0 3 = k := by
  decide +revert

/-- The fields of a byte put together as EXT (R153). -/
theorem ext_fields (a b c d e f : Bool) :
    let x : Byte := 0#2 ++ BitVec.ofBool a ++ BitVec.ofBool b ++ BitVec.ofBool c ++ BitVec.ofBool d
      ++ BitVec.ofBool e ++ BitVec.ofBool f
    x.extractLsb' 6 2 = 0 ∧ x.getLsbD 5 = a ∧ x.getLsbD 4 = b ∧ x.getLsbD 3 = c ∧ x.getLsbD 2 = d
      ∧ x.getLsbD 1 = e ∧ x.getLsbD 0 = f := by
  decide +revert

/-- The fields of a built FCF (R151, R158). -/
theorem fcfByte_fields (x : Descriptor) :
    (fcfByte x).getLsbD 7 = (extByte x != 0) ∧ (fcfByte x).getLsbD 6 = x.flags.ackRequested
    ∧ (fcfByte x).getLsbD 5 = (x.cost != 0) ∧ (fcfByte x).getLsbD 4 = (x.seqnum != 0)
    ∧ (fcfByte x).getLsbD 3 = bothPorts x ∧ (fcfByte x).extractLsb' 0 3 = addrCode x :=
  fcf_fields _ _ _ _ _ _

/-- The fields of a built EXT (R153, R158). -/
theorem extByte_fields (x : Descriptor) :
    (extByte x).extractLsb' 6 2 = 0 ∧ (extByte x).getLsbD 5 = x.flags.moreData
    ∧ (extByte x).getLsbD 4 = x.flags.isAck ∧ (extByte x).getLsbD 3 = (x.hopLimit != 0)
    ∧ (extByte x).getLsbD 2 = (x.dstPort != 0 && !bothPorts x)
    ∧ (extByte x).getLsbD 1 = (x.srcPort != 0 && !bothPorts x)
    ∧ (extByte x).getLsbD 0 = (x.authType != 0) :=
  ext_fields _ _ _ _ _ _

/-- The source kind that a built FCF carries (R152). -/
theorem srcKindOf_fcfByte (x : Descriptor) (h : ¬ (kindOf (hdrSrc x) = .long ∧ kindOf (hdrDst x) = .long)) :
    srcKindOf (fcfByte x) = kindOf (hdrSrc x) := by
  simp only [srcKindOf, (fcfByte_fields x).2.2.2.2.2, addrCode]
  cases hs : kindOf (hdrSrc x) <;> cases hd : kindOf (hdrDst x) <;> simp_all [kindCode, kindOfCode]

/-- The destination kind that a built FCF carries (R152). -/
theorem dstKindOf_fcfByte (x : Descriptor) (h : ¬ (kindOf (hdrSrc x) = .long ∧ kindOf (hdrDst x) = .long)) :
    dstKindOf (fcfByte x) = kindOf (hdrDst x) := by
  simp only [dstKindOf, (fcfByte_fields x).2.2.2.2.2, addrCode]
  cases hs : kindOf (hdrSrc x) <;> cases hd : kindOf (hdrDst x) <;> simp_all [kindCode, kindOfCode]

/-! ### Fields taken off the front -/

/-- The bytes of an address are as many as its kind says (R152). -/
@[simp] theorem addrBytes_length (a : Address) : (addrBytes a).length = kindWidth (kindOf a) := by
  unfold addrBytes kindOf
  split
  · rfl
  · split <;> rfl

/-- A one-byte field takes one byte exactly when it is not 0 (R157). -/
@[simp] theorem optByte_length (b : Byte) : (optByte b).length = (b != 0).toNat := by
  unfold optByte
  by_cases h : b = 0
  · simp [h]
  · rw [if_neg h, bne_iff_ne.2 h]; rfl

/-- Taking a one-byte field that was put there. -/
@[simp] theorem takeByte_optByte (b : Byte) (r : List Byte) : takeByte (b != 0) (optByte b ++ r) = (b, r) := by
  unfold optByte takeByte
  split <;> simp_all

/-- Taking an address that was put there; an absent one comes back as UNSPEC (R158, R161; log entry 9). -/
theorem takeAddr_addrBytes (a : Address) (r : List Byte) :
    takeAddr (kindOf a) (addrBytes a ++ r) = (if isUnspecified a then .short 0 else a, r) := by
  unfold addrBytes kindOf
  split
  · rfl
  · cases a with
    | short v =>
      simp only [takeAddr, List.cons_append, List.nil_append, List.getD_cons_succ, List.getD_cons_zero]
      refine Prod.ext (congrArg Address.short ?_) rfl
      ext i hi; simp; grind
    | long v =>
      simp only [takeAddr, List.cons_append, List.nil_append, List.getD_cons_succ, List.getD_cons_zero]
      refine Prod.ext (congrArg Address.long ?_) rfl
      ext i hi; simp; grind

end Sys2Proof.Machine
end

