-- ==== Sys2Proof/Laws/Engine.lean ====
section
/-! SUPPORT. The laws of the engine's procedures (spec/43_mac_tx.md, spec/44_mac_rx.md): `EngineFrame` says once
what none of them touches, and one lemma per procedure says that it keeps it. -/

namespace Sys2Proof.Machine

/-- What the engine's procedures leave alone: everything but the engine's own scalars, slots and queue, the
engine alarm and its place in the list, the two queries, and an output trace that only grows. -/
structure EngineFrame (s t : State) : Prop where
  cfg : t.cfg = s.cfg
  jiffies : t.jiffies = s.jiffies
  procState : t.procState = s.procState
  procNow : t.procNow = s.procNow
  fireId : t.fireId = s.fireId
  fireCb : t.fireCb = s.fireCb
  fireArg : t.fireArg = s.fireArg
  pendingWork : t.pendingWork = s.pendingWork
  localShort : t.localShort = s.localShort
  localLong : t.localLong = s.localLong
  txinfo : t.txinfo = s.txinfo
  pinfo : t.pinfo = s.pinfo
  hdrLen : t.hdrLen = s.hdrLen
  pinfoHdrLen : t.pinfoHdrLen = s.pinfoHdrLen
  txdata : t.txdata = s.txdata
  hdrbuf : t.hdrbuf = s.hdrbuf
  macInited : t.macInited = s.macInited
  macSeq : t.macSeq = s.macSeq
  inputs : t.inputs = s.inputs
  resets : t.resets = s.resets
  responses : t.responses = s.responses
  alarmsLength : t.alarms.length = s.alarms.length
  slotsLength : t.slots.length = s.slots.length
  otherAlarms : ∀ i, i ≠ s.engineAlarm → t.alarm i = s.alarm i
  binding : (t.alarm s.engineAlarm).cb = (s.alarm s.engineAlarm).cb
    ∧ (t.alarm s.engineAlarm).arg = (s.alarm s.engineAlarm).arg
    ∧ (t.alarm s.engineAlarm).bound = (s.alarm s.engineAlarm).bound
  otherListed : t.alist.filter (fun j => j != s.engineAlarm) = s.alist.filter (fun j => j != s.engineAlarm)
  outputs : ∃ more, t.outputs = s.outputs ++ more

theorem EngineFrame.engineAlarm {s t : State} (h : EngineFrame s t) : t.engineAlarm = s.engineAlarm := by
  simp [State.engineAlarm, h.cfg]

/-- Every byte of both buffers is kept. -/
theorem EngineFrame.sameBytes {s t : State} (h : EngineFrame s t) : SameBytes s t := by
  intro b a
  cases b
  · simp [bufferByte, txByte, h.txdata, h.resets]
  · simp [bufferByte, hdrByte, h.hdrbuf, h.resets]

theorem EngineFrame.refl (s : State) : EngineFrame s s := by
  constructor <;> simp

theorem EngineFrame.trans {s t u : State} (h : EngineFrame s t) (k : EngineFrame t u) : EngineFrame s u := by
  have hma := h.engineAlarm
  constructor
  case outputs =>
    obtain ⟨m, hm⟩ := h.outputs
    obtain ⟨n, hn⟩ := k.outputs
    exact ⟨m ++ n, by rw [hn, hm, List.append_assoc]⟩
  case otherAlarms =>
    intro i hi
    rw [k.otherAlarms i (hma ▸ hi), h.otherAlarms i hi]
  case binding =>
    have hk := k.binding
    rw [hma] at hk
    exact ⟨hk.1.trans h.binding.1, hk.2.1.trans h.binding.2.1, hk.2.2.trans h.binding.2.2⟩
  case otherListed =>
    have hk := k.otherListed
    rw [hma] at hk
    exact hk.trans h.otherListed
  all_goals first
    | exact k.cfg.trans h.cfg | exact k.jiffies.trans h.jiffies | exact k.procState.trans h.procState
    | exact k.procNow.trans h.procNow | exact k.fireId.trans h.fireId | exact k.fireCb.trans h.fireCb
    | exact k.fireArg.trans h.fireArg | exact k.pendingWork.trans h.pendingWork
    | exact k.localShort.trans h.localShort | exact k.localLong.trans h.localLong
    | exact k.txinfo.trans h.txinfo | exact k.pinfo.trans h.pinfo | exact k.hdrLen.trans h.hdrLen
    | exact k.pinfoHdrLen.trans h.pinfoHdrLen | exact k.txdata.trans h.txdata | exact k.hdrbuf.trans h.hdrbuf
    | exact k.macInited.trans h.macInited | exact k.macSeq.trans h.macSeq | exact k.inputs.trans h.inputs
    | exact k.resets.trans h.resets | exact k.responses.trans h.responses
    | exact k.alarmsLength.trans h.alarmsLength | exact k.slotsLength.trans h.slotsLength

/-! ### The updates the procedures are made of -/

theorem setSlot_frame (s : State) (k : Nat) (x : Slot) : EngineFrame s (s.setSlot k x) := by
  constructor <;> simp

theorem setPhase_frame (s : State) (k : Nat) (p : Phase) : EngineFrame s (s.setPhase k p) := setSlot_frame _ _ _

theorem emit_frame (s : State) (e : Output) : EngineFrame s (s.emit e) := by
  constructor <;> simp

theorem transmit_frame (k : Nat) (s : State) : EngineFrame s (transmit k s) := by
  constructor <;> simp

theorem release_frame (k : Nat) (c : SendCode) (s : State) : EngineFrame s (release k c s) := by
  constructor <;> simp

theorem radioFree_frame (s : State) : EngineFrame s (radioFree s) := by
  constructor <;> simp

theorem transmitAck_frame (h : List Byte) (s : State) : EngineFrame s (transmitAck h s) := by
  constructor <;> simp

/-- Removing `i` again is what a list without `i` shows. -/
theorem filter_insertByTime (f : Nat → Word) (w : Word) (i : Nat) (l : List Nat) :
    (insertByTime f w i l).filter (fun j => j != i) = l.filter (fun j => j != i) := by
  obtain ⟨l1, l2, rfl, h, -, -⟩ := insertByTime_split f w i l
  rw [h]; simp

theorem cancelMA_frame (s : State) : EngineFrame s (cancelMA s) := by
  have hself := removeAlarm_alarm_self s.engineAlarm s
  constructor <;> try (simp; done)
  case otherAlarms => exact fun i hi => removeAlarm_alarm_ne _ s i hi
  case binding => rw [cancelMA, hself]; exact ⟨rfl, rfl, rfl⟩

theorem schedMA_frame (d : Word) (s : State) : EngineFrame s (schedMA d s) := by
  constructor <;> try (simp; done)
  case otherAlarms => exact fun i hi => armAlarm_alarm_ne _ d s i hi
  case binding =>
    by_cases h : s.engineAlarm < s.alarms.length
    · rw [schedMA, armAlarm_alarm_self _ _ _ h]; exact ⟨rfl, rfl, rfl⟩
    · rw [alarm_of_length_le s _ (by omega), alarm_of_length_le (schedMA d s) _ (by simpa using h)]
      exact ⟨rfl, rfl, rfl⟩
  case otherListed =>
    simp only [schedMA, armAlarm, insertAlarm_alist, filter_insertByTime, removeAlarm_alist, setAlarm_alist,
      List.filter_filter, Bool.and_self]

/-! ### The two queries -/

theorem askChannel_frame (s : State) : EngineFrame s (askChannel s).2 := by
  unfold askChannel
  split <;> constructor <;> simp [State.alarm, State.engineAlarm]

theorem drawBackoff_frame (s : State) : EngineFrame s (drawBackoff s).2 := by
  unfold drawBackoff
  split <;> constructor <;> simp [State.alarm, State.engineAlarm]

/-- The channel query touches neither the engine nor the tables. -/
theorem askChannel_keeps (s : State) :
    (askChannel s).2.alarms = s.alarms ∧ (askChannel s).2.alist = s.alist ∧ (askChannel s).2.slots = s.slots
    ∧ (askChannel s).2.order = s.order ∧ (askChannel s).2.radioBusy = s.radioBusy
    ∧ (askChannel s).2.txOwner = s.txOwner ∧ (askChannel s).2.txSlot = s.txSlot
    ∧ (askChannel s).2.outputs = s.outputs ∧ (askChannel s).2.draws = s.draws := by
  unfold askChannel
  split <;> simp

/-- The draw touches neither the engine nor the tables. -/
theorem drawBackoff_keeps (s : State) :
    (drawBackoff s).2.alarms = s.alarms ∧ (drawBackoff s).2.alist = s.alist ∧ (drawBackoff s).2.slots = s.slots
    ∧ (drawBackoff s).2.order = s.order ∧ (drawBackoff s).2.radioBusy = s.radioBusy
    ∧ (drawBackoff s).2.txOwner = s.txOwner ∧ (drawBackoff s).2.txSlot = s.txSlot
    ∧ (drawBackoff s).2.outputs = s.outputs ∧ (drawBackoff s).2.channelAnswers = s.channelAnswers := by
  unfold drawBackoff
  split <;> simp

/-- A supplied answer is the answer, and it is used up (R7). -/
theorem askChannel_supplied (s : State) (b : Bool) (rest : List Bool) (h : s.channelAnswers = b :: rest) :
    askChannel s = (b, { s with channelAnswers := rest }) := by
  unfold askChannel; rw [h]

/-- A draw never leaves 1 .. m when that range is not empty (R191). -/
theorem boundedDraw_range (m r : Word) (h : 1 ≤ m.toNat) :
    1 ≤ (boundedDraw m r).toNat ∧ (boundedDraw m r).toNat ≤ m.toNat := by
  unfold boundedDraw
  split
  · exact ⟨by decide, h⟩
  · split
    · omega
    · split <;> [omega; omega]

/-! ### The procedures -/

theorem senseBusy_frame (k : Nat) (s : State) : EngineFrame s (senseBusy k s) :=
  (drawBackoff_frame s).trans ((schedMA_frame _ _).trans (setPhase_frame _ _ _))

theorem sense_frame (k : Nat) (s : State) : EngineFrame s (sense k s) := by
  unfold sense
  split
  · exact (askChannel_frame s).trans (transmit_frame _ _)
  · exact (askChannel_frame s).trans (senseBusy_frame _ _)

theorem beginAttempt_frame (k : Nat) (s : State) : EngineFrame s (beginAttempt k s) := by
  unfold beginAttempt
  split
  · exact transmit_frame _ _
  · exact sense_frame _ _

theorem arbitrate_frame (s : State) : EngineFrame s (arbitrate s) := by
  unfold arbitrate
  split
  · exact .refl s
  · split
    · exact .refl s
    · split
      · exact .refl s
      · exact (setSlot_frame _ _ _).trans (beginAttempt_frame _ _)

/-- Nothing starts while the radio is busy (R187). -/
theorem arbitrate_of_busy (s : State) (h : s.radioBusy = true) : arbitrate s = s := by simp [arbitrate, h]

/-- Nothing starts while a packet is in flight (R187). -/
theorem arbitrate_of_inFlight (s : State) (k : Nat) (h : s.inFlight? = some k) : arbitrate s = s := by
  simp [arbitrate, h]

/-- Nothing starts when nothing is queued (R187). -/
theorem arbitrate_of_empty (s : State) (h : s.order = []) : arbitrate s = s := by simp [arbitrate, h]

/-- The head of the queue starts on an idle engine (R187). -/
theorem arbitrate_of_idle (s : State) (k : Nat) (l : List Nat) (hb : s.radioBusy = false)
    (hf : s.inFlight? = none) (ho : s.order = k :: l) :
    arbitrate s = beginAttempt k (s.setSlot k { s.slot k with state := .inFlight }) := by
  simp [arbitrate, hb, hf, ho]

theorem complete_frame (k : Nat) (c : SendCode) (s : State) : EngineFrame s (complete k c s) :=
  (release_frame _ _ _).trans (arbitrate_frame _)

theorem ackTimedOut_frame (k : Nat) (s : State) : EngineFrame s (ackTimedOut k s) := by
  unfold ackTimedOut
  split
  · exact (schedMA_frame _ _).trans (setPhase_frame _ _ _)
  · exact complete_frame _ _ _

theorem macAlarm_frame (s : State) : EngineFrame s (macAlarm s) := by
  unfold macAlarm
  split
  · exact .refl s
  · split
    · exact sense_frame _ _
    · exact ackTimedOut_frame _ _
    · exact beginAttempt_frame _ _
    · exact .refl s
    · exact .refl s

theorem abandon_frame (k : Nat) (s : State) : EngineFrame s (abandon k s) := by
  unfold abandon
  split
  · split
    · constructor <;> simp [State.alarm, State.engineAlarm]
    · exact cancelMA_frame s
  · exact .refl s

/-- Everything `Accept` does when it accepts (R183). -/
theorem accept_accepted (x : Descriptor) (n k : Nat) (s t : State) (h : accept x n s = .accepted k t) :
    ∃ hdr, s.macInited = true ∧ n ≤ s.cfg.bufSize.toNat ∧ buildHeader x = some hdr
      ∧ hdr.length + n ≤ s.cfg.bufSize.toNat ∧ s.freeSlot? = some k ∧ t = enqueue k x hdr n s := by
  unfold accept at h
  split at h
  · cases h
  · split at h
    · cases h
    · split at h
      · cases h
      · split at h
        · cases h
        · split at h
          · cases h
          · rename_i h1 h2 _ hdr h3 h4 _ j h5
            cases h
            exact ⟨hdr, by simpa using h1, by omega, h3, by omega, h5, rfl⟩

/-- `Accept` accepts when its checks pass (R183). -/
theorem accept_of (x : Descriptor) (n k : Nat) (s : State) (hdr : List Byte) (h1 : s.macInited = true)
    (h2 : n ≤ s.cfg.bufSize.toNat) (h3 : buildHeader x = some hdr) (h4 : hdr.length + n ≤ s.cfg.bufSize.toNat)
    (h5 : s.freeSlot? = some k) : accept x n s = .accepted k (enqueue k x hdr n s) := by
  simp [accept, h1, Nat.not_lt.2 h2, h3, Nat.not_lt.2 h4, h5]

theorem enqueue_frame (k : Nat) (x : Descriptor) (h : List Byte) (n : Nat) (s : State) :
    EngineFrame s (enqueue k x h n s) := by
  refine EngineFrame.trans ?_ (arbitrate_frame _)
  constructor <;> simp [State.alarm, State.engineAlarm, State.setSlot]

/-! ### The engine's events -/

theorem slotSent_frame (k : Nat) (st : Byte) (s : State) : EngineFrame s (slotSent k st s) := by
  unfold slotSent
  split
  · exact (schedMA_frame _ _).trans (setPhase_frame _ _ _)
  · exact complete_frame _ _ _

theorem onTxDone_frame (st : Byte) (s : State) : EngineFrame s (onTxDone st s) := by
  unfold onTxDone
  split
  · exact emit_frame _ _
  · split
    · exact (radioFree_frame s).trans ((slotSent_frame _ _ _).trans (arbitrate_frame _))
    · exact (radioFree_frame s).trans (arbitrate_frame _)

theorem autoAck_frame (x : Descriptor) (s : State) : EngineFrame s (autoAck x s) := by
  unfold autoAck
  split
  · exact emit_frame _ _
  · split
    · exact emit_frame _ _
    · split
      · exact emit_frame _ _
      · exact transmitAck_frame _ _

theorem matchAck_frame (x : Descriptor) (s : State) : EngineFrame s (matchAck x s) := by
  unfold matchAck
  split
  · exact emit_frame _ _
  · split
    · exact (cancelMA_frame s).trans (complete_frame _ _ _)
    · exact emit_frame _ _

theorem deliver_frame (x : Descriptor) (p : List Byte) (s : State) : EngineFrame s (deliver x p s) := by
  unfold deliver
  split
  · exact (autoAck_frame x s).trans (emit_frame _ _)
  · exact emit_frame _ _

theorem onRadioRx_frame (f : List Byte) (s : State) : EngineFrame s (onRadioRx f s) := by
  unfold onRadioRx
  split
  · exact emit_frame _ _
  · split
    · exact emit_frame _ _
    · split
      · exact emit_frame _ _
      · unfold receiveParsed
        split
        · exact emit_frame _ _
        · split
          · exact matchAck_frame _ _
          · exact deliver_frame _ _ _

end Sys2Proof.Machine
end

