-- ==== Sys2Proof/Laws/Memory.lean ====
section
/-! SUPPORT. The laws of the byte buffers (R61): a read after a write, and the canonical form that every
operation keeps. -/

namespace Sys2Proof.Machine

/-! ### Read after write -/

/-- A write lands where it is aimed, whatever the list. -/
@[simp] theorem read?_write_self (m : Memory) (a : Nat) (v : Byte) : (m.write a v).read? a = some v := by
  induction m with
  | nil => simp [Memory.write, Memory.read?]
  | cons c m ih =>
    obtain ⟨b, w⟩ := c
    simp only [Memory.write]
    split
    · simp [Memory.read?]
    · split
      · simp [Memory.read?]
      · have : ¬ b = a := by omega
        simp [Memory.read?, this, ih]

/-- A write leaves every other byte alone. -/
theorem read?_write_ne (m : Memory) (a b : Nat) (v : Byte) (h : b ≠ a) : (m.write a v).read? b = m.read? b := by
  induction m with
  | nil => simp [Memory.write, Memory.read?, h.symm]
  | cons c m ih =>
    obtain ⟨e, w⟩ := c
    simp only [Memory.write]
    split
    · simp [Memory.read?, h.symm]
    · split
      · rename_i h1 h2; subst h2; simp [Memory.read?, h.symm]
      · simp [Memory.read?, ih]

/-- What a buffer reads as after `MemWrite` (R61). -/
theorem read?_writeBytes (bs : List Byte) : ∀ (m : Memory) (a b : Nat),
    (m.writeBytes a bs).read? b = if a ≤ b ∧ b < a + bs.length then bs[b - a]? else m.read? b := by
  induction bs with
  | nil => intro m a b; simp only [Memory.writeBytes, List.length_nil]; split <;> [omega; rfl]
  | cons x xs ih =>
    intro m a b
    simp only [Memory.writeBytes, ih, List.length_cons]
    by_cases hb : b = a
    · subst hb; simp
    · rw [read?_write_ne _ _ _ _ hb]
      by_cases h1 : a + 1 ≤ b ∧ b < a + 1 + xs.length
      · rw [if_pos h1, if_pos (by omega)]
        obtain ⟨n, rfl⟩ : ∃ n, b = a + 1 + n := ⟨b - (a + 1), by omega⟩
        rw [show a + 1 + n - (a + 1) = n by omega, show a + 1 + n - a = n + 1 by omega]
        rfl
      · rw [if_neg h1, if_neg (by omega)]

/-! ### The canonical form -/

/-- The canonical form as a pairwise statement. -/
theorem wf_iff (m : Memory) : m.wf = true ↔ m.Pairwise (fun c d => c.1 < d.1) := by
  induction m with
  | nil => simp [Memory.wf]
  | cons c m ih =>
    cases m with
    | nil => simp [Memory.wf]
    | cons d m =>
      obtain ⟨a, v⟩ := c
      obtain ⟨b, w⟩ := d
      simp only [Memory.wf, Bool.and_eq_true, decide_eq_true_eq, ih, List.pairwise_cons, List.mem_cons]
      constructor
      · rintro ⟨hab, hm, hp⟩
        refine ⟨?_, hm, hp⟩
        rintro e (rfl | he)
        · exact hab
        · exact lt_trans hab (hm e he)
      · rintro ⟨h, hm, hp⟩
        exact ⟨h (b, w) (Or.inl rfl), hm, hp⟩

/-- The cells of a written buffer. -/
theorem mem_write (m : Memory) (a : Nat) (v : Byte) (c : Host.Cell) (h : c ∈ m.write a v) :
    c = (a, v) ∨ c ∈ m := by
  induction m with
  | nil => left; simpa [Memory.write] using h
  | cons d m ih =>
    obtain ⟨b, w⟩ := d
    simp only [Memory.write] at h
    split at h
    · simpa using h
    · split at h
      · rcases List.mem_cons.1 h with h | h
        · exact .inl h
        · exact .inr (List.mem_cons_of_mem _ h)
      · rcases List.mem_cons.1 h with h | h
        · exact .inr (h ▸ List.mem_cons_self)
        · exact (ih h).imp id (List.mem_cons_of_mem _)

/-- A write keeps the canonical form. -/
theorem write_wf (m : Memory) (a : Nat) (v : Byte) (h : m.wf = true) : (m.write a v).wf = true := by
  rw [wf_iff] at h ⊢
  induction m with
  | nil => simp [Memory.write]
  | cons d m ih =>
    obtain ⟨b, w⟩ := d
    obtain ⟨hd, hm⟩ := List.pairwise_cons.1 h
    simp only [Memory.write]
    split
    · refine List.pairwise_cons.2 ⟨?_, h⟩
      intro c hc
      rcases List.mem_cons.1 hc with rfl | hc
      · assumption
      · exact lt_trans ‹a < b› (hd c hc)
    · split
      · subst ‹a = b›; exact List.pairwise_cons.2 ⟨hd, hm⟩
      · refine List.pairwise_cons.2 ⟨?_, ih hm⟩
        intro c hc
        rcases mem_write m a v c hc with rfl | hc
        · show b < a; omega
        · exact hd c hc

/-- A write below `n` keeps every address below `n`. -/
theorem write_below (m : Memory) (n a : Nat) (v : Byte) (h : m.below n = true) (ha : a < n) :
    (m.write a v).below n = true := by
  simp only [Memory.below, List.all_eq_true, decide_eq_true_eq] at h ⊢
  intro c hc
  rcases mem_write m a v c hc with rfl | hc
  · exact ha
  · exact h c hc

/-- `MemWrite` keeps the canonical form. -/
theorem writeBytes_wf (bs : List Byte) : ∀ (m : Memory) (a : Nat), m.wf = true → (m.writeBytes a bs).wf = true := by
  induction bs with
  | nil => intro m a h; exact h
  | cons b bs ih => intro m a h; exact ih _ _ (write_wf m a b h)

/-- `MemWrite` within the first `n` bytes keeps every address below `n`. -/
theorem writeBytes_below (bs : List Byte) : ∀ (m : Memory) (n a : Nat), m.below n = true → a + bs.length ≤ n →
    (m.writeBytes a bs).below n = true := by
  induction bs with
  | nil => intro m n a h _; exact h
  | cons b bs ih =>
    intro m n a h hn
    simp only [List.length_cons] at hn
    exact ih _ _ _ (write_below m n a b h (by omega)) (by omega)

/-- Both buffers of the reset state are in canonical form. -/
theorem resetOf_buffers_wf (c : Config) :
    (State.resetOf c).txdata.wf = true ∧ (State.resetOf c).hdrbuf.wf = true := ⟨rfl, rfl⟩

/-- `MemRead(TXDATA, 0, n)` is `n` bytes long (R61). -/
@[simp] theorem readTxdata_length (s : State) (n : Nat) : (readTxdata s n).length = n := by simp [readTxdata]

/-! ### Bytes of a state -/

/-- A byte of TXDATA after `WRBUF`'s write (R253). -/
theorem txByte_write (s : State) (a b : Nat) (v : Byte) :
    txByte { s with txdata := s.txdata.write a v } b = if b = a then v else txByte s b := by
  by_cases h : b = a
  · subst h; simp [txByte]
  · simp [txByte, h, read?_write_ne]

/-- A byte of HDRBUF after `HDR_BUILD`'s write at offset 0 (R166). -/
theorem hdrByte_writeBytes (s : State) (bs : List Byte) (n : Byte) (a : Nat) :
    hdrByte { s with hdrbuf := s.hdrbuf.writeBytes 0 bs, hdrLen := n } a
      = if a < bs.length then bs.getD a 0 else hdrByte s a := by
  simp only [hdrByte, read?_writeBytes, Nat.zero_le, true_and, Nat.zero_add, Nat.sub_zero]
  by_cases h : a < bs.length
  · simp [h]
  · simp [h]

end Sys2Proof.Machine
end

