-- ==== Sys2Proof/Laws/Pass.lean ====
section
/-! SUPPORT. The laws of a pass (R119, R121, R122): its three ways on, what it leaves alone, and what it leaves
behind. -/

namespace Sys2Proof.Machine

/-- What a pass leaves alone: everything the engine leaves alone but the latches and the host alarms it
unlinks. -/
structure PassFrame (s t : State) : Prop where
  cfg : t.cfg = s.cfg
  jiffies : t.jiffies = s.jiffies
  procNow : t.procNow = s.procNow
  pendingWork : t.pendingWork = s.pendingWork
  localShort : t.localShort = s.localShort
  localLong : t.localLong = s.localLong
  txinfo : t.txinfo = s.txinfo
  pinfo : t.pinfo = s.pinfo
  hdrLen : t.hdrLen = s.hdrLen
  pinfoHdrLen : t.pinfoHdrLen = s.pinfoHdrLen
  txdata : t.txdata = s.txdata
  hdrbuf : t.hdrbuf = s.hdrbuf
  macInited : t.macInited = s.macInited
  macSeq : t.macSeq = s.macSeq
  inputs : t.inputs = s.inputs
  resets : t.resets = s.resets
  responses : t.responses = s.responses
  alarmsLength : t.alarms.length = s.alarms.length
  slotsLength : t.slots.length = s.slots.length
  binding : ∀ i, (t.alarm i).cb = (s.alarm i).cb ∧ (t.alarm i).arg = (s.alarm i).arg
    ∧ (t.alarm i).bound = (s.alarm i).bound
  outputs : ∃ more, t.outputs = s.outputs ++ more

theorem PassFrame.trans {s t u : State} (h : PassFrame s t) (k : PassFrame t u) : PassFrame s u := by
  constructor
  case outputs =>
    obtain ⟨m, hm⟩ := h.outputs
    obtain ⟨n, hn⟩ := k.outputs
    exact ⟨m ++ n, by rw [hn, hm, List.append_assoc]⟩
  case binding =>
    exact fun i => ⟨(k.binding i).1.trans (h.binding i).1, (k.binding i).2.1.trans (h.binding i).2.1,
      (k.binding i).2.2.trans (h.binding i).2.2⟩
  all_goals first
    | exact k.cfg.trans h.cfg | exact k.jiffies.trans h.jiffies | exact k.procNow.trans h.procNow
    | exact k.pendingWork.trans h.pendingWork | exact k.localShort.trans h.localShort
    | exact k.localLong.trans h.localLong | exact k.txinfo.trans h.txinfo | exact k.pinfo.trans h.pinfo
    | exact k.hdrLen.trans h.hdrLen | exact k.pinfoHdrLen.trans h.pinfoHdrLen | exact k.txdata.trans h.txdata
    | exact k.hdrbuf.trans h.hdrbuf | exact k.macInited.trans h.macInited | exact k.macSeq.trans h.macSeq
    | exact k.inputs.trans h.inputs | exact k.resets.trans h.resets | exact k.responses.trans h.responses
    | exact k.alarmsLength.trans h.alarmsLength | exact k.slotsLength.trans h.slotsLength

/-- The engine's frame gives the pass's. -/
theorem EngineFrame.pass {s t : State} (h : EngineFrame s t) : PassFrame s t where
  cfg := h.cfg
  jiffies := h.jiffies
  procNow := h.procNow
  pendingWork := h.pendingWork
  localShort := h.localShort
  localLong := h.localLong
  txinfo := h.txinfo
  pinfo := h.pinfo
  hdrLen := h.hdrLen
  pinfoHdrLen := h.pinfoHdrLen
  txdata := h.txdata
  hdrbuf := h.hdrbuf
  macInited := h.macInited
  macSeq := h.macSeq
  inputs := h.inputs
  resets := h.resets
  responses := h.responses
  alarmsLength := h.alarmsLength
  slotsLength := h.slotsLength
  binding i := by
    by_cases hi : i = s.engineAlarm
    · exact hi ▸ h.binding
    · rw [h.otherAlarms i hi]; exact ⟨rfl, rfl, rfl⟩
  outputs := h.outputs

theorem removeAlarm_pass (i : Nat) (s : State) : PassFrame s (removeAlarm i s) := by
  constructor <;> try (simp; done)
  intro j
  by_cases hj : j = i
  · subst hj; rw [removeAlarm_alarm_self]; exact ⟨rfl, rfl, rfl⟩
  · rw [removeAlarm_alarm_ne _ _ _ hj]; exact ⟨rfl, rfl, rfl⟩

theorem openWindow_pass (a : Nat) (s : State) : PassFrame s (openWindow a s) := by
  constructor <;> simp

theorem endPass_pass (s : State) : PassFrame s (endPass s) := by
  constructor <;> simp

theorem closeWindow_pass (s : State) : PassFrame s (closeWindow s) := by
  constructor <;> simp

/-- Supplying answers touches nothing else. -/
theorem withAnswers_pass (answers : List Bool) (draws : List Word) (s : State) :
    PassFrame s (withAnswers answers draws s) := by
  constructor
  case binding => exact fun _ => ⟨rfl, rfl, rfl⟩
  case outputs => exact ⟨[], (List.append_nil _).symm⟩
  all_goals rfl

/-- Counting a query touches nothing else. -/
theorem queries_pass (n : Nat) (s : State) : PassFrame s { s with queries := n } := by
  constructor
  case binding => exact fun _ => ⟨rfl, rfl, rfl⟩
  case outputs => exact ⟨[], (List.append_nil _).symm⟩
  all_goals rfl

/-- What a round leaves alone, whatever the outside answers. -/
theorem answeredRound_pass (a : Nat) (s : State) (x : Bool × Word) : PassFrame s (answeredRound a s x) :=
  (removeAlarm_pass a s).trans ((withAnswers_pass _ _ _).trans (macAlarm_frame _).pass)

/-- Everything the rest of a loop can be: nothing, or one round after which the loop does not go on, whose answers are
not left behind. -/
theorem restOfLoop_cases (a : Nat) (s : State) :
    (endingAnswers a s = none ∧ restOfLoop a s = s)
    ∨ ∃ x, engineDue (answeredRound a s x) = none ∧ restOfLoop a s
        = withAnswers s.channelAnswers s.draws { answeredRound a s x with queries := s.queries + 1 } := by
  unfold restOfLoop
  cases h : endingAnswers a s with
  | none => exact .inl ⟨rfl, rfl⟩
  | some x => exact .inr ⟨x, by simpa using List.find?_some h, rfl⟩

/-- What the rest of a loop leaves alone. -/
theorem restOfLoop_pass (a : Nat) (s : State) : PassFrame s (restOfLoop a s) := by
  rcases restOfLoop_cases a s with ⟨-, e⟩ | ⟨x, -, e⟩ <;> rw [e]
  · exact (EngineFrame.refl s).pass
  · exact (answeredRound_pass a s x).trans ((queries_pass _ _).trans (withAnswers_pass _ _ _))

/-! ### The ways on (R121) -/

/-- What it takes for the loop to go on. -/
theorem engineDue_eq_some (s : State) (a : Nat) :
    engineDue s = some a ↔
      (∃ l, s.alist = a :: l) ∧ s.ready a s.procNow = true ∧ (s.alarm a).cb = cbMac := by
  unfold engineDue
  split
  · rename_i h; simp [h]
  · rename_i b l h
    simp only [h, List.cons.injEq, Option.ite_none_right_eq_some, Bool.and_eq_true, beq_iff_eq, Option.some.injEq]
    constructor
    · rintro ⟨⟨hr, hc⟩, rfl⟩; exact ⟨⟨l, rfl, rfl⟩, hr, hc⟩
    · rintro ⟨⟨m, rfl, rfl⟩, hr, hc⟩; exact ⟨⟨hr, hc⟩, rfl⟩

/-- Out of the loop: the end, with nothing but an engine alarm ready at the head, or a host alarm's window. -/
theorem leavePass_cases (s : State) :
    (leavePass s = endPass s ∧ (headReady s = false ∨ ∃ a, engineDue s = some a))
    ∨ ∃ a l, s.alist = a :: l ∧ s.ready a s.procNow = true ∧ (s.alarm a).cb ≠ cbMac
        ∧ leavePass s = openWindow a (removeAlarm a s) := by
  unfold leavePass
  split
  · rename_i h; exact .inl ⟨rfl, .inl (by simp [headReady, State.hasReady, h])⟩
  · rename_i a l h
    by_cases hr : s.ready a s.procNow = true
    · by_cases hc : (s.alarm a).cb = cbMac
      · exact .inl ⟨by simp [hc], .inr ⟨a, (engineDue_eq_some s a).2 ⟨⟨l, h⟩, hr, hc⟩⟩⟩
      · exact .inr ⟨a, l, h, hr, hc, by simp [hr, hc]⟩
    · exact .inl ⟨by simp [hr], .inl (by simpa [headReady, State.hasReady, h] using hr)⟩

/-- Nothing ready: no engine alarm is due. -/
theorem engineDue_of_not_ready (s : State) (h : headReady s = false) : engineDue s = none := by
  cases hd : engineDue s with
  | none => rfl
  | some a =>
    obtain ⟨⟨l, hl⟩, hr, -⟩ := (engineDue_eq_some s a).1 hd
    simp [headReady, State.hasReady, hl, hr] at h

/-- A pass with no engine alarm due leaves the loop at once, however many rounds are allowed. -/
theorem runPass_leave (rounds : Nat) (s : State) (h : engineDue s = none) : runPass rounds s = leavePass s := by
  cases rounds <;> simp [runPass, h]

/-- Nothing ready: the pass ends. -/
theorem runPass_stop (rounds : Nat) (s : State) (h : headReady s = false) : runPass rounds s = endPass s := by
  have hd := engineDue_of_not_ready s h
  rw [runPass_leave rounds s hd]
  rcases leavePass_cases s with ⟨e, -⟩ | ⟨a, l, hl, hr, -, -⟩
  · exact e
  · simp [headReady, State.hasReady, hl, hr] at h

/-- A ready host alarm: removed, its window opened. -/
theorem runPass_host (rounds : Nat) (s : State) (a : Nat) (l : List Nat) (h : s.alist = a :: l)
    (hr : s.ready a s.procNow = true) (hc : (s.alarm a).cb ≠ cbMac) :
    runPass rounds s = openWindow a (removeAlarm a s) := by
  rw [runPass_leave rounds s (by simp [engineDue, h, hc])]
  simp [leavePass, h, hr, hc]

/-- A ready engine alarm: removed, the engine's handler run, and on with the pass. -/
theorem runPass_engine (rounds : Nat) (s : State) (a : Nat) (l : List Nat) (h : s.alist = a :: l)
    (hr : s.ready a s.procNow = true) (hc : (s.alarm a).cb = cbMac) :
    runPass (rounds + 1) s = runPass rounds (macAlarm (removeAlarm a s)) := by
  simp [runPass, (engineDue_eq_some s a).2 ⟨⟨l, h⟩, hr, hc⟩]

/-- With the engine alarm still due after the rounds run one by one, the rest of the loop. -/
theorem runPass_last (s : State) (a : Nat) (h : engineDue s = some a) :
    runPass 0 s = leavePass (restOfLoop a s) := by
  simp [runPass, h]

/-- A new pass with nothing ready (R119). -/
theorem startPass_stop (s : State) (h : s.hasReady s.jiffies = false) :
    startPass s = { s with procNow := s.jiffies, procState := .idle } :=
  runPass_stop _ { s with procNow := s.jiffies } h

/-- A new pass with a ready host alarm at the head (R119, R121). -/
theorem startPass_host (s : State) (a : Nat) (l : List Nat) (h : s.alist = a :: l)
    (hr : s.ready a s.jiffies = true) (hc : (s.alarm a).cb ≠ cbMac) :
    startPass s = openWindow a (removeAlarm a { s with procNow := s.jiffies }) :=
  runPass_host _ { s with procNow := s.jiffies } a l h hr hc

/-- A resumed pass with nothing ready (R122). -/
theorem resumePass_stop (s : State) (h : s.hasReady s.procNow = false) :
    resumePass s = { s with procState := .idle, fireId := 0, fireCb := 0, fireArg := 0 } :=
  runPass_stop _ (closeWindow s) h

/-- A resumed pass with a ready host alarm at the head (R122). -/
theorem resumePass_host (s : State) (a : Nat) (l : List Nat) (h : s.alist = a :: l)
    (hr : s.ready a s.procNow = true) (hc : (s.alarm a).cb ≠ cbMac) :
    resumePass s = openWindow a (removeAlarm a (closeWindow s)) :=
  runPass_host _ (closeWindow s) a l h hr hc

/-! ### What every pass keeps -/

/-- A property that the end of a pass, opening the window of a listed host alarm and the engine's handler keep holds
after every pass. -/
theorem runPass_induct (P : State → Prop)
    (stop : ∀ s, P s → P (endPass s))
    (host : ∀ s a l, P s → s.alist = a :: l → s.ready a s.procNow = true → (s.alarm a).cb ≠ cbMac →
      P (openWindow a (removeAlarm a s)))
    (engine : ∀ s a l, P s → s.alist = a :: l → s.ready a s.procNow = true → (s.alarm a).cb = cbMac →
      P (macAlarm (removeAlarm a s)) ∧ P (restOfLoop a s))
    (rounds : Nat) (s : State) (hp : P s) : P (runPass rounds s) := by
  have leave : ∀ s, P s → P (leavePass s) := by
    intro s hp
    rcases leavePass_cases s with ⟨e, -⟩ | ⟨a, l, hl, hr, hc, e⟩
    · exact e ▸ stop s hp
    · exact e ▸ host s a l hp hl hr hc
  induction rounds generalizing s with
  | zero =>
    cases hd : engineDue s with
    | none => exact runPass_leave 0 s hd ▸ leave s hp
    | some a =>
      obtain ⟨⟨l, hl⟩, hr, hc⟩ := (engineDue_eq_some s a).1 hd
      exact runPass_last s a hd ▸ leave _ (engine s a l hp hl hr hc).2
  | succ n ih =>
    cases hd : engineDue s with
    | none => exact runPass_leave (n + 1) s hd ▸ leave s hp
    | some a =>
      obtain ⟨⟨l, hl⟩, hr, hc⟩ := (engineDue_eq_some s a).1 hd
      exact runPass_engine n s a l hl hr hc ▸ ih _ (engine s a l hp hl hr hc).1

/-- What a pass leaves alone. -/
theorem runPass_frame (rounds : Nat) (s : State) : PassFrame s (runPass rounds s) :=
  runPass_induct (PassFrame s) (fun u hu => hu.trans (endPass_pass u))
    (fun u a _ hu _ _ _ => hu.trans ((removeAlarm_pass a u).trans (openWindow_pass a _)))
    (fun u a _ hu _ _ _ => ⟨hu.trans ((removeAlarm_pass a u).trans (macAlarm_frame _).pass),
      hu.trans (restOfLoop_pass a u)⟩)
    rounds s (EngineFrame.refl s).pass

end Sys2Proof.Machine
end

