-- ==== Sys2Proof/Laws/Word.lean ====
section
/-! SUPPORT. The fields of a command word: splitting and joining undo each other (R80). -/

namespace Sys2Proof

/-- The four fields of a joined word are the fields it was joined from. -/
@[simp] theorem splitWord_joinWord (f : CmdFields) : splitWord (joinWord f) = f := by
  obtain ⟨op, a, b, w⟩ := f
  simp only [splitWord, joinWord, CmdFields.mk.injEq]
  refine ⟨?_, ?_, ?_, ?_⟩ <;> ext i hi <;> simp <;> grind

/-- Joining the four fields of a word gives the word. -/
@[simp] theorem joinWord_splitWord (c : DWord) : joinWord (splitWord c) = c := by
  simp only [splitWord, joinWord]
  ext i hi
  simp
  grind

/-- A word is determined by its fields. -/
theorem splitWord_inj (c d : DWord) (h : splitWord c = splitWord d) : c = d := by
  rw [← joinWord_splitWord c, h, joinWord_splitWord]

/-- OP of a command's word is the command's opcode (R82). -/
theorem splitWord_encode_op (i : Instr) : (splitWord (encode i)).op = opcode i := by
  rw [encode, splitWord_joinWord, opcode]

end Sys2Proof
end

