-- ==== Sys2Proof/Laws/PerInstr.lean ====
section
/-! SUPPORT. The family of statements made per instruction: `OpcodeEcho`, that the OP field of a command's word is
the opcode of its row (R80, R82), which is what its response echoes (R84). -/

namespace Sys2Proof.Laws.OpcodeEcho

/-- OP of the command's word is the command's opcode. -/
def Statement (i : Instr) : Prop := (splitWord (encode i)).op = opcode i

theorem nop : Statement (.nop) :=
  splitWord_encode_op _

theorem rdreg (reg : Half) : Statement (.rdreg reg) :=
  splitWord_encode_op _

theorem wrreg (reg : Half) (value : Word) : Statement (.wrreg reg value) :=
  splitWord_encode_op _

theorem wrbuf (offset : Half) (byte : Byte) : Statement (.wrbuf offset byte) :=
  splitWord_encode_op _

theorem rdbuf (buf : Buffer) (offset : Half) : Statement (.rdbuf buf offset) :=
  splitWord_encode_op _

theorem alarmInit (alarm : Byte) (cb : Half) (arg : Word) : Statement (.alarmInit alarm cb arg) :=
  splitWord_encode_op _

theorem alarmSched (alarm : Byte) (delayMs : Word) : Statement (.alarmSched alarm delayMs) :=
  splitWord_encode_op _

theorem alarmCancel (alarm : Byte) : Statement (.alarmCancel alarm) :=
  splitWord_encode_op _

theorem alarmProcess : Statement (.alarmProcess) :=
  splitWord_encode_op _

theorem alarmPeek : Statement (.alarmPeek) :=
  splitWord_encode_op _

theorem alarmHasPending : Statement (.alarmHasPending) :=
  splitWord_encode_op _

theorem alarmHasReady (now : Word) : Statement (.alarmHasReady now) :=
  splitWord_encode_op _

theorem cbReturn : Statement (.cbReturn) :=
  splitWord_encode_op _

theorem addrMake (sel : AddrField) (value : Half) : Statement (.addrMake sel value) :=
  splitWord_encode_op _

theorem addrClass (sel : AddrSel) : Statement (.addrClass sel) :=
  splitWord_encode_op _

theorem addrEq (sel1 sel2 : AddrSel) : Statement (.addrEq sel1 sel2) :=
  splitWord_encode_op _

theorem hdrBuild : Statement (.hdrBuild) :=
  splitWord_encode_op _

theorem hdrParse (len : Half) : Statement (.hdrParse len) :=
  splitWord_encode_op _

theorem macInit : Statement (.macInit) :=
  splitWord_encode_op _

theorem macSend (dstStaged ackReq : Bool) (dst len : Half) : Statement (.macSend dstStaged ackReq dst len) :=
  splitWord_encode_op _

theorem macSendEx (len : Half) : Statement (.macSendEx len) :=
  splitWord_encode_op _

theorem macPoll : Statement (.macPoll) :=
  splitWord_encode_op _

theorem macIsKnown (sel : AddrSel) : Statement (.macIsKnown sel) :=
  splitWord_encode_op _

theorem macCancel (slot : Byte) : Statement (.macCancel slot) :=
  splitWord_encode_op _

end Sys2Proof.Laws.OpcodeEcho
end

