-- ==== Sys2Proof/Laws/Step.lean ====
section
/-! SUPPORT. The laws of a step: what it can be (R5, R9, R286), which input it takes, and that a command always
answers a next state. -/

namespace Sys2Proof.Machine

/-! ### Taking an input (R271, R272, R286) -/

/-- Inputs that are all held are passed over, in their order. -/
theorem takeFirst_held (held : Bool) (before rest : List Input) (x : Input)
    (hb : ∀ y ∈ before, takeable held y = false) (hx : takeable held x = true) :
    takeFirst held (before ++ x :: rest) = some (x, before ++ rest) := by
  induction before with
  | nil => simp [takeFirst, hx]
  | cons y ys ih =>
    have hy := hb y List.mem_cons_self
    simp [takeFirst, hy, ih fun z hz => hb z (List.mem_cons_of_mem _ hz)]

/-- When everything is held nothing is taken. -/
theorem takeFirst_none (held : Bool) (xs : List Input) (h : ∀ y ∈ xs, takeable held y = false) :
    takeFirst held xs = none := by
  induction xs with
  | nil => rfl
  | cons y ys ih =>
    simp [takeFirst, h y List.mem_cons_self, ih fun z hz => h z (List.mem_cons_of_mem _ hz)]

/-- What is taken could be taken. -/
theorem takeFirst_takeable (held : Bool) (xs : List Input) (x : Input) (rest : List Input)
    (h : takeFirst held xs = some (x, rest)) : takeable held x = true := by
  induction xs generalizing rest with
  | nil => cases h
  | cons y ys ih =>
    simp only [takeFirst] at h
    split at h
    · cases h; assumption
    · split at h
      · cases h
      · rename_i z zs hz
        cases h
        exact ih _ hz

/-- Outside a held window every input can be taken. -/
@[simp] theorem takeable_false (x : Input) : takeable false x = true := by cases x <;> rfl

/-- Commands and reset are never held. -/
@[simp] theorem takeable_command (held : Bool) (c : DWord) : takeable held (.command c) = true := rfl

/-- The reset input is never held. -/
@[simp] theorem takeable_reset (held : Bool) : takeable held .reset = true := rfl

/-- A step that takes the first waiting input. -/
theorem step_of_head (s : State) (x : Input) (rest : List Input) (hl : s.cfg.legal = true)
    (hi : s.inputs = x :: rest) (hx : takeable s.holdsEvents x = true) :
    step s = runInput x { s with inputs := rest } := by
  simp [step, hl, takeAndRun, takeInput, hi, takeFirst, hx]

/-- Everything a step can be. -/
theorem step_cases (s : State) (r : Result) (h : step s = r) :
    (s.cfg.legal = false ∧ r = .refused .illegalConfiguration)
    ∨ (s.cfg.legal = true ∧ takeFirst s.holdsEvents s.inputs = none ∧ r = .next s)
    ∨ ∃ x rest, s.cfg.legal = true ∧ takeFirst s.holdsEvents s.inputs = some (x, rest)
        ∧ r = runInput x { s with inputs := rest } := by
  subst h
  unfold step
  split
  · rename_i hl
    right
    unfold takeAndRun takeInput
    cases hf : takeFirst s.holdsEvents s.inputs with
    | none => left; exact ⟨hl, rfl, rfl⟩
    | some p => right; exact ⟨p.1, p.2, hl, rfl, rfl⟩
  · left; exact ⟨by simp_all, rfl⟩

/-- The step right after a command word has been placed takes it. -/
theorem step_withFetchWord (s : State) (nbits w : Nat) (hl : s.cfg.legal = true) :
    step (s.withFetchWord nbits w) = runWord (BitVec.ofNat 64 (w % 2 ^ nbits)) s :=
  step_of_head (s.withFetchWord nbits w) (.command (BitVec.ofNat 64 (w % 2 ^ nbits))) s.inputs hl rfl rfl

/-! ### What an answered command is -/

/-- Every command answers a next state, in every state (R264). -/
theorem exec_next (i : Instr) (s : State) : ∃ t, exec i s = .next t := by
  cases i <;>
    simp only [exec, execNop, execRdreg, execWrreg, execWrbuf, execRdbuf, execAlarmInit, execAlarmSched,
      execAlarmCancel, execAlarmProcess, execAlarmPeek, execAlarmHasPending, execAlarmHasReady, execCbReturn,
      execAddrMake, execAddrClass, execAddrEq, execHdrBuild, execHdrParse, execMacInit, execMacSend,
      execMacSendEx, execMacPoll, execMacIsKnown, execMacCancel, answer, answerPass] <;>
    repeat' (first | split | exact ⟨_, rfl⟩)

/-- The status byte of a response (R84, R85). -/
@[simp] theorem responseWord_status (op : Byte) (st : Status) (v : Word) :
    (responseWord op st v).extractLsb' 0 8 = statusCode st := by
  unfold responseWord
  ext i hi
  simp
  grind

/-- The opcode a response echoes (R84). -/
@[simp] theorem responseWord_op (op : Byte) (st : Status) (v : Word) :
    (responseWord op st v).extractLsb' 8 8 = op := by
  unfold responseWord
  ext i hi
  simp
  grind

/-- The middle half of a response is 0 (R84). -/
@[simp] theorem responseWord_zero (op : Byte) (st : Status) (v : Word) :
    (responseWord op st v).extractLsb' 16 16 = 0 := by
  unfold responseWord
  ext i hi
  simp
  grind

/-- The value of a response (R84). -/
@[simp] theorem responseWord_value (op : Byte) (st : Status) (v : Word) :
    (responseWord op st v).extractLsb' 32 32 = v := by
  unfold responseWord
  ext i hi
  simp
  grind

/-- OK is the one status with code 0 (R85). -/
@[simp] theorem statusCode_eq_zero (st : Status) : statusCode st = 0 ↔ st = .ok := by
  cases st <;> decide

end Sys2Proof.Machine
end

