-- ==== Sys2Proof/Tests/Slice0.lean ====
section
/-! SUPPORT. Tests. Expected words, bytes and states are those of spec/95_test_vectors.md and of the examples in the
rules; each theorem's comment names its source. The last part gives, for every statement with hypotheses, a state
and operands that meet them. -/

namespace Sys2Proof.Tests

open Sys2Proof Sys2Proof.Machine

/-! ### Helpers -/

/-- The next state, if there is one. -/
def after (r : Result) : Option State :=
  match r with
  | .next t => some t
  | .fault _ => none
  | .refused _ => none

/-- The responses that one step on word `c` adds to a state that has none. -/
def replies (c : Nat) (s : State) : Option (List DWord) :=
  (after (step (s.withFetchWord 64 c))).map State.responses

/-- The output trace after one step on word `c`. -/
def trace (c : Nat) (s : State) : Option (List Output) := (after (step (s.withFetchWord 64 c))).map State.outputs

/-- An alarm bound to `cb` that is idle. -/
def bound (cb : Half) : Alarm := ⟨0, cb, 0, .idle, true⟩

/-- The same alarm, due at `w`. -/
def due (cb : Half) (w : Word) : Alarm := ⟨w, cb, 0, .scheduled, true⟩

/-- The engine alarm after MAC_INIT. -/
def engineIdle : Alarm := ⟨0, 0xFFFF, 0, .idle, true⟩

/-- REF after MAC_INIT with LOCAL_SHORT = 1. -/
def on : State :=
  { State.reset with macInited := true, localShort := 1,
                     alarms := [.reset, .reset, .reset, .reset, engineIdle] }

/-- REF with alarms 0 and 2 due at 700 and 900, JIFFIES = 700. -/
def twoDue : State :=
  { State.reset with jiffies := 700, alist := [0, 2],
                     alarms := [due 0x10 700, .reset, due 0x12 900, .reset, .reset] }

/-- The window of alarm 0 open in the pass at 700; alarm 2 is due at the same tick. -/
def windowOpen : State :=
  { State.reset with jiffies := 700, procNow := 700, procState := .inCallback, fireCb := 0x10, alist := [2],
                     alarms := [bound 0x10, .reset, due 0x12 700, .reset, .reset] }

/-- The packet of `MAC_SEND 2, 0x0002, 1` with payload 55 after one transmission. -/
def packet (ph : Phase) : Slot := ⟨.inFlight, ph, 1, [0x44, 1, 0, 2, 0], [0x55], 0, .short 2, true⟩

/-- That packet waiting for its acknowledgement. -/
def awaiting : State :=
  { on with slots := [packet .awaitAck], order := [0], macSeq := 1, alist := [4],
            alarms := [.reset, .reset, .reset, .reset, ⟨100, 0xFFFF, 0, .scheduled, true⟩] }

/-- That packet on the air. -/
def onAir : State :=
  { on with slots := [packet .transmitting], order := [0], macSeq := 1, radioBusy := true, txOwner := .slot }

/-- The byte 55 at offset 0 of TXDATA, and a clear channel. -/
def loaded : State := { on with txdata := [(0, 0x55)], channelAnswers := [true] }

/-- A state with LONG_ADDR = 1. -/
def longOn : State := { on with cfg := { Config.ref with longAddr := true } }

/-! ### Well-formedness (R184) -/

theorem test_wellFormed_refuses_staged_with_short :
    Instr.wellFormed (.macSend true false 2 3) = false ∧ Instr.wellFormed (.macSend true false 0 3) = true
    ∧ Instr.wellFormed (.macSend false true 2 3) = true := by decide

/-! ### Decoding: words written out from R80 and R82, most of them the rules' own examples -/

theorem test_decode_port :
    decode 0x0000000000000000 = .ok .nop ∧ decode 0x0000000000160001 = .ok (.rdreg 0x0016)
    ∧ decode 0x0000000200130002 = .ok (.wrreg 0x0013 2) ∧ decode 0x000000AA00000003 = .ok (.wrbuf 0 0xAA)
    ∧ decode 0x0000000000030104 = .ok (.rdbuf .hdrbuf 3) ∧ decode 0x0000000000110004 = .ok (.rdbuf .txdata 17) := by
  decide

theorem test_decode_alarm :
    decode 0x0000002A00010010 = .ok (.alarmInit 0 1 0x2A) ∧ decode 0x0000000A00000011 = .ok (.alarmSched 0 10)
    ∧ decode 0x0000000000000112 = .ok (.alarmCancel 1) ∧ decode 0x0000000000000013 = .ok .alarmProcess
    ∧ decode 0x0000000000000014 = .ok .alarmPeek ∧ decode 0x0000000000000015 = .ok .alarmHasPending
    ∧ decode 0xFFFFFFFF00000016 = .ok (.alarmHasReady 0xFFFFFFFF)
    ∧ decode 0x0000000000000017 = .ok .cbReturn := by
  decide

theorem test_decode_address :
    decode 0x0000000000020120 = .ok (.addrMake .originalDst 2) ∧ decode 0x00000000FFFF0320 = .ok (.addrMake .immedDst 0xFFFF)
    ∧ decode 0x0000000000000621 = .ok (.addrClass (.pinfo .immedSrc))
    ∧ decode 0x0000000000010022 = .ok (.addrEq (.txinfo .originalSrc) (.txinfo .originalDst)) := by
  decide

theorem test_decode_codec_and_mac :
    decode 0x0000000000000030 = .ok .hdrBuild ∧ decode 0x0000000700000031 = .ok (.hdrParse 7)
    ∧ decode 0x0000000000000040 = .ok .macInit ∧ decode 0x0000000300020241 = .ok (.macSend false true 2 3)
    ∧ decode 0x0000000100000141 = .ok (.macSend true false 0 1) ∧ decode 0x0000000500000042 = .ok (.macSendEx 5)
    ∧ decode 0x0000000000000043 = .ok .macPoll ∧ decode 0x0000000000000744 = .ok (.macIsKnown (.pinfo .immedDst))
    ∧ decode 0x0000000000000345 = .ok (.macCancel 3) := by
  decide

/-- E2 to E12 and AD14. -/
theorem test_decode_rejections :
    decode 0x0000000000000005 = .illegalOpcode ∧ decode 0xFFFFFFFFFFFFFFFF = .illegalOpcode
    ∧ decode 0x123456789ABCDE46 = .illegalOpcode ∧ decode 0x0000000000000100 = .reservedField
    ∧ decode 0x0000000100160001 = .reservedField ∧ decode 0x0000010000000003 = .reservedField
    ∧ decode 0x0000000A00010011 = .reservedField ∧ decode 0x0000000100020441 = .reservedField
    ∧ decode 0x0001000000020041 = .reservedField ∧ decode 0x0000000000010420 = .reservedField
    ∧ decode 0x0000000000000213 = .reservedField ∧ decode 0x0000000000000821 = .reservedField := by
  decide

/-! ### One step per command -/

/-- E1, E2, E12, E17. -/
theorem test_step_answers :
    replies 0x0 State.reset = some [0x0] ∧ replies 0x5 State.reset = some [0x508]
    ∧ replies 0x213 State.reset = some [0x1305] ∧ replies 0x0000000300020141 State.reset = some [0x4105] := by
  decide

/-- A1, E13, A5, A7. -/
theorem test_rdreg :
    replies 0x1 State.reset = some [0x200000100] ∧ replies 0x160001 State.reset = some [0xFF00000000000100]
    ∧ replies 0x90001 State.reset = some [0x105] ∧ replies 0x1030001 State.reset = some [0x105] := by
  decide

/-- R252's example, A13. -/
theorem test_wrreg :
    (after (step (State.reset.withFetchWord 64 0x200130002))).map State.localShort = some 2
    ∧ replies 0x500100002 State.reset = some [0x205] := by
  decide

/-- R253's example, A15. -/
theorem test_wrbuf :
    (after (step (State.reset.withFetchWord 64 0xAA00000003))).map State.txdata = some [(0, 0xAA)]
    ∧ replies 0x400003 State.reset = some [0x305] := by
  decide

/-- R254's example, A16. -/
theorem test_rdbuf :
    replies 0x30104 { State.reset with hdrbuf := [(0, 4), (1, 1), (2, 0), (3, 2), (4, 0)] } = some [0x200000400]
    ∧ replies 0x120104 State.reset = some [0x405] := by
  decide

/-- R116's example. -/
theorem test_alarmInit :
    (after (step (State.reset.withFetchWord 64 0x2A00010010))).map (fun t => (alarmCtl (t.alarm 0), (t.alarm 0).arg))
      = some (0x00010001, 0x2A) := by
  decide

/-- E14, AL1. -/
theorem test_alarmSched :
    replies 0xA00000011 { State.reset with jiffies := 0xFFFFFFFA, alarms := [bound 0x10] } = some [0x400001100]
    ∧ replies 0x500000011 State.reset = some [0x1106] := by
  decide

/-- AL6: alarm 1 is removed, then inserted behind alarm 2, whose deadline is equal. -/
theorem test_alarmSched_fifo :
    (after (exec (.alarmSched 1 7) { State.reset with
        alist := [1, 2, 0], alarms := [due 0x10 10, due 0x11 5, due 0x12 7, .reset, .reset] })).map State.alist
      = some [2, 1, 0] := by
  decide

/-- R118's example. -/
theorem test_alarmCancel :
    replies 0x112 { State.reset with alist := [1], alarms := [.reset, due 0x11 5, .reset, .reset, .reset] }
      = some [0x100001200]
    ∧ replies 0x112 State.reset = some [0x1200] := by
  decide

/-- R119's example, AL11. -/
theorem test_alarmProcess :
    trace 0x13 twoDue = some [.alarmFire 0 0x10 0] ∧ replies 0x13 twoDue = some [0x100001300]
    ∧ replies 0x13 windowOpen = some [0x1306] := by
  decide

/-- R126's example, AL8. -/
theorem test_alarm_queries :
    replies 0x14 twoDue = some [0x2BC00001400] ∧ replies 0x14 State.reset = some [0x1407]
    ∧ replies 0x15 twoDue = some [0x100001500] ∧ replies 0x15 State.reset = some [0x1500] := by
  decide

/-- AL9, with head deadline 4. -/
theorem test_alarmHasReady :
    let s : State := { State.reset with alist := [0], alarms := [due 0x10 4] }
    replies 0xFFFFFFFF00000016 s = some [0x1600] ∧ replies 0x400000016 s = some [0x100001600]
    ∧ replies 0x8000000400000016 s = some [0x100001600] ∧ replies 0x8000000500000016 s = some [0x1600] := by
  decide

/-- R122's example. -/
theorem test_cbReturn :
    trace 0x17 windowOpen = some [.alarmFire 2 0x12 0]
    ∧ replies 0x17 { windowOpen with alist := [], alarms := [bound 0x10] } = some [0x1700] := by
  decide

/-- R121 with THREADED = 1 and JIFFIES 2^31 ahead of proc_now: the engine alarm is due at once each time it is armed,
and the pass goes on through two busy answers to the clear one. -/
theorem test_cbReturn_engine_alarm :
    let s : State := { on with
      cfg := { Config.ref with threaded := true }, jiffies := 0x80000000, procState := .inCallback,
      slots := [{ packet .senseBackoff with attempts := 0 }], order := [0], alist := [4],
      alarms := [.reset, .reset, .reset, .reset, ⟨0, 0xFFFF, 0, .scheduled, true⟩],
      channelAnswers := [false, false, true], draws := [3, 7] }
    replies 0x17 s = some [0x1700] ∧ trace 0x17 s = some [.radioTx [0x44, 1, 0, 2, 0] [0x55]] := by
  decide

/-- R145's example. -/
theorem test_addrMake :
    (after (step (State.reset.withFetchWord 64 0x20120))).map (fun t => t.txinfo.originalDst) = some ⟨0, 2, 0⟩ := by
  decide

/-- R146's examples, AD12. -/
theorem test_addrClass :
    replies 0x121 { State.reset with txinfo := { DescRegs.zero with originalDst := ⟨0, 0xFFFF, 0⟩ } }
      = some [0x100002100]
    ∧ replies 0x21 State.reset = some [0x200002100]
    ∧ replies 0x21 { State.reset with txinfo := { DescRegs.zero with originalSrc := ⟨1, 0x18001, 0⟩ } }
      = some [0x100002100] := by
  decide

/-- R147's example, AD10. -/
theorem test_addrEq :
    replies 0x10022 State.reset = some [0x100002200]
    ∧ replies 0x10022 { longOn with
        txinfo := { DescRegs.zero with originalSrc := ⟨1, 5, 0⟩, originalDst := ⟨0, 5, 0⟩ } } = some [0x2200] := by
  decide

/-- R166's example. -/
theorem test_hdrBuild :
    (after (step ({ State.reset with
        txinfo := { DescRegs.zero with originalSrc := ⟨0, 1, 0⟩, originalDst := ⟨0, 2, 0⟩ } }.withFetchWord 64 0x30))).map
      (fun t => (t.hdrbuf, t.hdrLen, t.responses))
      = some ([(0, 4), (1, 1), (2, 0), (3, 2), (4, 0)], 5, [0x500003000]) := by
  decide

/-- R170's example (HC2), HC5. -/
theorem test_hdrParse :
    (after (step ({ State.reset with
        txdata := [(0, 0x94), (1, 0x10), (2, 2), (3, 0), (4, 1), (5, 0), (6, 5)] }.withFetchWord 64 0x700000031))).map
      (fun t => (t.pinfo.immedSrc, t.pinfo.immedDst, t.pinfo.fields, t.pinfo.flags, t.pinfoHdrLen))
      = some (⟨0, 2, 0⟩, ⟨0, 1, 0⟩, 5, 8, 7)
    ∧ replies 0x4100000031 State.reset = some [0x3105] := by
  decide

/-- V6 and V13: the longest headers, bit by bit. -/
theorem test_build_longest :
    buildHeader { Descriptor.empty with
        originalSrc := .short 0xABCD, originalDst := .short 0x0102, srcPort := 1, dstPort := 2, seqnum := 3, cost := 4,
        authType := 5, hopLimit := 6, flags := ⟨true, true, true, false⟩ }
      = some [0xFC, 0x29, 0xCD, 0xAB, 0x02, 0x01, 1, 2, 3, 4, 5, 6]
    ∧ buildHeader { Descriptor.empty with
        originalSrc := .long 0x1122334455667788, originalDst := .short 0x8000, srcPort := 1, dstPort := 2, seqnum := 3,
        cost := 4, authType := 5, hopLimit := 6, flags := ⟨true, true, true, true⟩ }
      = some [0xFD, 0x39, 0x88, 0x77, 0x66, 0x55, 0x44, 0x33, 0x22, 0x11, 0x00, 0x80, 1, 2, 3, 4, 5, 6] := by
  decide

/-- PF2 to PF7 and PF11. -/
theorem test_parse :
    parseHeader true [0x80] = none ∧ parseHeader true [4, 1, 0, 2] = none ∧ parseHeader true [0x80, 0x40] = none
    ∧ parseHeader true [0x88, 2, 1, 2] = none ∧ parseHeader false [2, 1, 1, 1, 1, 1, 1, 1, 1] = none
    ∧ parseHeader true [2, 1, 1, 1, 1, 1, 1, 1, 1] = some { Descriptor.empty with
        originalSrc := .long 0x0101010101010101, immedSrc := .long 0x0101010101010101, hdrLen := 9 }
    ∧ parseHeader true [0x80, 6, 1, 2] = some { Descriptor.empty with srcPort := 1, dstPort := 2, hdrLen := 4 } := by
  decide

/-- R181's example, TX2. -/
theorem test_macInit :
    trace 0x40 State.reset = some [.radioOn]
    ∧ (after (step (State.reset.withFetchWord 64 0x40))).map (fun t => alarmCtl (t.alarm 4)) = some 0xFFFF0001
    ∧ replies 0x40 on = some [0x4006] := by
  decide

/-- S4's first transmission; E15; TX6. -/
theorem test_macSend :
    trace 0x100020241 loaded = some [.radioTx [0x44, 1, 0, 2, 0] [0x55]]
    ∧ replies 0x100020241 awaiting = some [0x4101] ∧ replies 0x4100020041 awaiting = some [0x4104] := by
  decide

/-- TX10's first step: the channel is busy, the draw 3. -/
theorem test_macSend_busy_channel :
    (after (exec (.macSend false false 2 1) { loaded with channelAnswers := [false], draws := [3] })).map
      (fun t => ((t.slot 0).phase, (t.slot 0).attempts, (t.alarm 4).when, t.alist, t.outputs))
      = some (.senseBackoff, 0, 3, [4], []) := by
  decide

/-- TX18. -/
theorem test_macSendEx :
    trace 0x42 { loaded with
        txinfo := { DescRegs.zero with
          immedSrc := ⟨0, 1, 0⟩, immedDst := ⟨0, 0xFFFF, 0⟩, ports := 0x0905, fields := 0x321 } }
      = some [.radioTx [0x3C, 1, 0, 0xFF, 0xFF, 5, 9, 0x21, 3] []] := by
  decide

/-- TX17, AD13. -/
theorem test_macPoll_and_macIsKnown :
    replies 0x43 awaiting = some [0x100004300] ∧ replies 0x43 on = some [0x4300]
    ∧ replies 0x144 State.reset = some [0x100004400] := by
  decide

/-- TX13, TX14. -/
theorem test_macCancel :
    (after (step (awaiting.withFetchWord 64 0x45))).map
      (fun t => (t.outputs, (t.alarm 4).state, t.alist, macStatus t))
      = some ([.sendDone 0 .cancelled 1], .idle, [], 0xFF010001)
    ∧ replies 0x145 on = some [0x4505] := by
  decide

/-! ### Events -/

/-- S3 and P2's last TICK; AL16. -/
theorem test_tick :
    (some (onTick { State.reset with jiffies := 3, alist := [0], alarms := [due 0x10 4] })).map State.outputs
      = some [.alarmFire 0 0x10 0]
    ∧ (some (onTick { State.reset with jiffies := 2, alist := [0], alarms := [due 0x10 4] })).map State.outputs
      = some []
    ∧ (some (onTick { State.reset with
        cfg := { Config.ref with threaded := true }, jiffies := 2, alist := [0], alarms := [due 0x10 3] })).map
          almStatus = some 5 := by
  decide

/-- TX15, TX16: the status is ignored while an acknowledgement is wanted. -/
theorem test_txDone :
    ((onTxDone 7 onAir).slot 0).phase = .awaitAck ∧ ((onTxDone 7 onAir).alarm 4).when = 100
    ∧ (onTxDone 0 on).outputs = [.diag .spuriousTxDone] := by
  decide

/-- S4: the first timeout of program P4 waits 50, the last ends the send. -/
theorem test_ack_timeout :
    ((macAlarm { awaiting with jiffies := 100 }).alarm 4).when = 150
    ∧ (macAlarm { awaiting with slots := [{ packet .awaitAck with attempts := 3 }] }).outputs
      = [.sendDone 0 .ackTimeout 3] := by
  decide

/-- RX9, with LOCAL_SHORT = 2. -/
theorem test_radioRx_acknowledged :
    (onRadioRx [0x54, 1, 0, 2, 0, 5, 0x68, 0x69] { on with localShort := 2 }).outputs
      = [.radioTx [0x94, 0x10, 2, 0, 1, 0, 5] [],
         .rxDeliver { Descriptor.empty with
           originalSrc := .short 1, originalDst := .short 2, immedSrc := .short 1, immedDst := .short 2, seqnum := 5,
           flags := ⟨false, false, true, false⟩, hdrLen := 6 } [0x68, 0x69]] := by
  decide

/-- RX14, RX15 and RX16, seen from the sender of `awaiting`. -/
theorem test_radioRx_ack :
    (onRadioRx [0x84, 0x10, 2, 0, 1, 0] awaiting).outputs = [.sendDone 0 .sendOk 1]
    ∧ (onRadioRx [0x94, 0x10, 2, 0, 1, 0, 1] awaiting).outputs = [.diag .ackUnmatched]
    ∧ (onRadioRx [0x84, 0x10, 3, 0, 1, 0] awaiting).outputs = [.diag .ackUnmatched] := by
  decide

/-- RX1 to RX5. -/
theorem test_radioRx_dropped :
    (onRadioRx [4, 1, 0, 2, 0, 0xAA] State.reset).outputs = [.diag .rxNotInit]
    ∧ (onRadioRx (List.replicate 65 0) on).outputs = [.diag .rxTooLong]
    ∧ (onRadioRx [] on).outputs = [.diag .rxMalformed] ∧ (onRadioRx [4, 1, 0] on).outputs = [.diag .rxMalformed]
    ∧ (onRadioRx [4, 1, 0, 3, 0, 0xAA] on).outputs = [.diag .rxNotForUs] := by
  decide

/-! ### The laws of memory on a small buffer (R61) -/

theorem test_memory_canonical :
    (Memory.write (Memory.write (Memory.write [] 5 1) 2 3) 5 7) = [(2, 3), (5, 7)]
    ∧ Memory.wf [(2, 3), (5, 7)] = true ∧ Memory.wf [(5, 7), (2, 3)] = false := by
  decide

/-! ### Witnesses: for each statement with hypotheses, a state and operands that meet them, clause by clause -/

/-- With one slot, occupied and in flight, nothing else is. -/
theorem head_of_one_slot (s : State) (hl : s.slots.length = 1) (ho : s.order = [0])
    (hs : (s.slot 0).state = .inFlight) : HeadInFlight s 0 := by
  refine ⟨by omega, by simp [ho], by simp [ho], by simp [ho, hl], hs, fun j hj => ?_⟩
  rw [slot_of_length_le s j (by omega)]
  decide

/-- With two slots, the first in flight at the head and the second QUEUED, only the first is in flight. -/
theorem head_of_two_slots (s : State) (hl : s.slots.length = 2) (ho : s.order = [0, 1])
    (hs : (s.slot 0).state = .inFlight) (hq : (s.slot 1).state = .queued) : HeadInFlight s 0 := by
  refine ⟨by omega, by simp [ho], by simp [ho], by simp [ho, hl], hs, fun j hj => ?_⟩
  by_cases h1 : j = 1
  · rw [h1, hq]; decide
  · rw [slot_of_length_le s j (by omega)]; decide

/-- REF with two slots, the packet of slot 1 waiting behind `x`. -/
def queuedBehind (x : Slot) (s : State) : State :=
  { s with cfg := { Config.ref with queueCap := 2 }, order := [0, 1],
           slots := [x, { packet .none with state := .queued, attempts := 0 }] }

theorem witness_EncodingADecodedWordGivesIt :
    decode 0x0000000300020241 = .ok (.macSend false true 2 3) ∧ decode 0xFFFFFFFFFFFFFF10 = .ok (.alarmInit 255 0xFFFF 0xFFFFFFFF) := by
  decide

theorem witness_WordsThatAreNoCommandChangeNothing :
    Config.ref.legal = true ∧ ({ State.reset with inputs := [.command 0x46] } : State).inputs = .command 0x46 :: []
    ∧ (∀ r ∈ opcodeRows, (0x46 : DWord) &&& 0xFF ≠ r.2)
    ∧ (∃ r ∈ opcodeRows, (0x213 : DWord) &&& 0xFF = r.2) ∧ (∀ r ∈ opcodeRows, (0x213 : DWord) &&& r.1 ≠ r.2)
    ∧ ∃ r ∈ opcodeRows, (0xFF45 : DWord) &&& r.1 = r.2 :=
  ⟨by decide, rfl, by simp [opcodeRows], by simp [opcodeRows], by simp [opcodeRows], by simp [opcodeRows]⟩

theorem witness_EveryWordIsAnsweredOnce :
    (∃ t, runWord 0x160001 State.reset = .next t) ∧ (∃ t, runWord 0x14 State.reset = .next t)
    ∧ ∃ t, runWord 0x5 State.reset = .next t :=
  ⟨⟨_, rfl⟩, ⟨_, rfl⟩, ⟨_, rfl⟩⟩

/-- Nothing held back, and two events held back in a window. -/
theorem witness_StepRunsTheDecodedCommand :
    Config.ref.legal = true ∧ Instr.wellFormed .cbReturn = true ∧ decode 0x17 = .ok .cbReturn
    ∧ ({ State.reset with inputs := [.command 0x17] } : State).inputs = [] ++ .command 0x17 :: []
    ∧ ({ windowOpen with inputs := [.tick, .radioTxDone 0, .command 0x17, .tick] } : State).inputs
      = [.tick, .radioTxDone 0] ++ .command 0x17 :: [.tick]
    ∧ windowOpen.cfg.threaded = false ∧ windowOpen.procState = .inCallback
    ∧ ∀ x ∈ [Input.tick, .radioTxDone 0], IsEvent x :=
  ⟨by decide, rfl, by decide, rfl, rfl, rfl, rfl, by
    intro x hx
    rcases List.mem_cons.1 hx with rfl | hx
    · exact .inl rfl
    · rcases List.mem_cons.1 hx with rfl | hx
      · exact .inr (.inr ⟨0, rfl⟩)
      · cases hx⟩

theorem witness_EventsAreHeldInAnUnthreadedWindow :
    Config.ref.legal = true ∧ (windowOpen.cfg.threaded = false ∧ windowOpen.procState = .inCallback)
    ∧ (∀ x ∈ [Input.tick, .radioRx [1]], IsEvent x)
    ∧ State.reset.procState = .idle
    ∧ ({ windowOpen with cfg := { Config.ref with threaded := true } } : State).cfg.threaded = true
    ∧ ({ Config.ref with threaded := true } : Config).legal = true :=
  ⟨by decide, ⟨rfl, rfl⟩, (by
    intro x hx
    rcases List.mem_cons.1 hx with rfl | hx
    · exact .inl rfl
    · rcases List.mem_cons.1 hx with rfl | hx
      · exact .inr (.inl ⟨[1], rfl⟩)
      · cases hx), rfl, rfl, by decide⟩

/-- One legal and one illegal value at each bound of R8. -/
theorem witness_IllegalConfigurationsAreRefused :
    Config.ref.legal = true
    ∧ Config.legal { Config.ref with bufSize := 17 } = false ∧ Config.legal { Config.ref with bufSize := 18 } = true
    ∧ Config.legal { Config.ref with ackTimeout := 0x7FFFFFFF } = true
    ∧ Config.legal { Config.ref with ackTimeout := 0x80000000 } = false
    ∧ Config.legal { Config.ref with nAlarms := 254 } = true ∧ Config.legal { Config.ref with nAlarms := 255 } = false
    ∧ Config.legal { Config.ref with retryBase := 0x40000000, maxAttempts := 4 } = true
    ∧ Config.legal { Config.ref with retryBase := 0x40000000, maxAttempts := 5 } = false
    ∧ (1 ≤ (0xFFFFFF : Word).toNat ∧ (0xFFFFFF : Word).toNat < 2 ^ 24 ∧ 1 ≤ 254 ∧ 254 < 255) := by
  decide

theorem witness_NopPollAndIsKnownOnlyAnswer :
    (0x8000000000000000 : DWord).extractLsb' 0 8 = 0x00 ∧ (0x143 : DWord).extractLsb' 0 8 = 0x43
    ∧ (0x744 : DWord).extractLsb' 0 8 = 0x44 := by
  decide

theorem witness_RdregReadsParametersAndPlainRegisters :
    ((0x0040 : Half), on.txinfo) = (0x0040, on.txinfo) ∧ ((0x0060 : Half), on.pinfo) = (0x0060, on.pinfo) :=
  ⟨rfl, rfl⟩

theorem witness_RdregShowsTheStatusFieldsAndTheTables :
    (∀ k, (on.slot k).state ≠ .inFlight) ∧ (awaiting.slot 0).state = .inFlight
    ∧ (∀ j, (awaiting.slot j).state = .inFlight → j = 0) ∧ 4 ≤ on.cfg.nAlarms.toNat ∧ 0 < on.cfg.queueCap.toNat
    ∧ (on.slot 0).state = .idle :=
  ⟨(inFlight?_eq_none_iff on).1 (by decide), rfl, fun j hj => by
    have := lt_of_not_idle awaiting j (by rw [hj]; decide)
    have hl : awaiting.slots.length = 1 := rfl
    omega, by decide, by decide, rfl⟩

theorem witness_UnmappedAndReadOnlyRegistersAreRefused :
    ¬ MappedNumber Config.ref 0x0009 ∧ MappedNumber Config.ref 0x0008 ∧ MappedNumber Config.ref 0x0112
    ∧ ¬ WritableNumber 0x0050 ∧ ¬ WritableNumber 0x0016 := by
  refine ⟨?_, ?_, ?_, ?_, ?_⟩
  · rintro (h | h | h | h | ⟨i, j, -, -, h⟩ | ⟨k, j, -, -, h⟩)
    · revert h; decide
    · revert h; decide
    · revert h; decide
    · revert h; decide
    · have h9 : (0x0009 : Half).toNat = 9 := rfl
      omega
    · have h9 : (0x0009 : Half).toNat = 9 := rfl
      omega
  · exact .inl (by decide)
  · exact .inr (.inr (.inr (.inr (.inl ⟨4, 2, by decide, by decide, by decide⟩))))
  · unfold WritableNumber; decide
  · unfold WritableNumber; decide

theorem witness_WrregStoresWhereTheMapSaysReadWrite :
    on.cfg.longAddr = false ∧ longOn.cfg.longAddr = true
    ∧ (0x0040 ≤ (0x0040 : Half).toNat ∧ (0x0040 : Half).toNat ≤ 0x004F)
    ∧ (0x0040 ≤ (0x004F : Half).toNat ∧ (0x004F : Half).toNat ≤ 0x004F) := by
  decide

theorem witness_BufferCommandsMoveOneByte :
    (63 : Half).toNat < State.reset.cfg.bufSize.toNat ∧ State.reset.cfg.bufSize.toNat ≤ (64 : Half).toNat
    ∧ (17 : Half).toNat < 18 ∧ 18 ≤ (18 : Half).toNat := by
  decide

/-- A difference of exactly 2^31, and three values at the ends of a span. -/
theorem witness_TimeAfterIsTheSignedDifferenceTest :
    (0x80000000 : Word) - 0 = BitVec.ofNat 32 (2 ^ 31)
    ∧ ((0xFFFFFFFA : Word) - 0xFFFFFFFA).toNat < 2 ^ 31 ∧ ((4 : Word) - 0xFFFFFFFA).toNat < 2 ^ 31
    ∧ ((0x7FFFFFF9 : Word) - 0xFFFFFFFA).toNat < 2 ^ 31 := by
  decide

theorem witness_RemoveUnlinksAndMarksIdle :
    twoDue.alist = [0] ++ 2 :: [] ∧ 2 ∉ [0] ∧ 2 ∉ ([] : List Nat) ∧ 1 ∉ twoDue.alist := by
  decide

theorem witness_InsertGoesBeforeTheFirstLaterDeadline :
    4 < twoDue.alarms.length ∧ 4 ∉ twoDue.alist := by
  decide

theorem witness_AlarmCommandsRefuseForeignIndices :
    on.cfg.nAlarms.toNat ≤ (4 : Byte).toNat ∧ on.cfg.nAlarms.toNat ≤ (255 : Byte).toNat := by
  decide

theorem witness_AlarmInitBindsAndCancels :
    TablesSized twoDue ∧ (3 : Byte).toNat < twoDue.cfg.nAlarms.toNat ∧ (0xFFFE : Half) ≠ 0xFFFF :=
  ⟨⟨rfl, rfl⟩, by decide, by decide⟩

theorem witness_AlarmSchedSetsTheDeadlineAndLinks :
    TablesSized twoDue ∧ (0 : Byte).toNat < twoDue.cfg.nAlarms.toNat ∧ (3 : Byte).toNat < twoDue.cfg.nAlarms.toNat
    ∧ (twoDue.alarm 3).bound = false ∧ (twoDue.alarm 0).bound = true :=
  ⟨⟨rfl, rfl⟩, by decide, by decide, rfl, rfl⟩

theorem witness_AlarmCancelUnlinksAndReports :
    twoDue.cfg.nAlarms.toNat ≤ (4 : Byte).toNat ∧ (3 : Byte).toNat < twoDue.cfg.nAlarms.toNat
    ∧ (0x0000000000010012 : DWord).extractLsb' 0 8 = 0x12 := by
  decide

theorem witness_AlarmQueriesAnswerFromTheHead :
    State.reset.alist = [] ∧ twoDue.alist = 0 :: [2] ∧ IsAfter (twoDue.alarm 0).when 699
    ∧ ¬ IsAfter (twoDue.alarm 0).when 700 ∧ (0x14 : DWord).extractLsb' 0 8 = 0x14
    ∧ (0x115 : DWord).extractLsb' 0 8 = 0x15 ∧ (0xFFFFFFFF00000016 : DWord).extractLsb' 0 8 = 0x16 := by
  unfold IsAfter; decide

/-- `awaiting` when its ack timeout of 100 expires, in a pass begun at 100. -/
def expired : State := { awaiting with jiffies := 100, procNow := 100 }

/-- That pass is one round of R121's loop: the engine alarm is armed for 150, and nothing else is due. -/
theorem expired_loop : PassLoop 1 expired { macAlarm (removeAlarm 4 expired) with procState := .idle } :=
  .engine 0 expired _ 4 [] rfl (by unfold IsAfter; decide) rfl (.ends _ fun a ha => by
    obtain rfl : 4 = a := Option.some.inj ha
    unfold IsAfter; decide)

/-- Every pass may make one round. -/
theorem one_round (s : State) : 1 ≤ passRounds s := by unfold passRounds; omega

/-- The head due at the very tick, and one tick later; the engine alarm due. -/
theorem witness_AlarmProcessEndsOrOpensAWindow :
    windowOpen.procState = .inCallback
    ∧ (twoDue.procState = .idle ∧ twoDue.alist = 0 :: [2] ∧ ¬ IsAfter (twoDue.alarm 0).when twoDue.jiffies
      ∧ (twoDue.alarm 0).cb ≠ 0xFFFF)
    ∧ (∀ a, ({ twoDue with jiffies := 699 } : State).alist.head? = some a →
      IsAfter (({ twoDue with jiffies := 699 } : State).alarm a).when 699)
    ∧ expired.procState = .idle
    ∧ ∃ n t, PassLoop n { expired with pendingWork := false, procNow := expired.jiffies } t
      ∧ n ≤ passRounds expired := by
  refine ⟨rfl, ⟨rfl, rfl, by unfold IsAfter; decide, by decide⟩, ?_, rfl, ⟨1, _, expired_loop, one_round _⟩⟩
  intro a ha
  obtain rfl : 0 = a := Option.some.inj ha
  unfold IsAfter; decide

theorem witness_CbReturnResumesThePass :
    State.reset.procState = .idle
    ∧ (windowOpen.procState = .inCallback ∧ windowOpen.alist = 2 :: []
      ∧ ¬ IsAfter (windowOpen.alarm 2).when windowOpen.procNow ∧ (windowOpen.alarm 2).cb ≠ 0xFFFF)
    ∧ (∀ a, ({ windowOpen with procNow := 699 } : State).alist.head? = some a →
      IsAfter (({ windowOpen with procNow := 699 } : State).alarm a).when 699)
    ∧ ∃ n t, PassLoop n { expired with procState := .inCallback, fireId := 0, fireCb := 0, fireArg := 0 } t
      ∧ n ≤ passRounds expired := by
  refine ⟨rfl, ⟨rfl, rfl, by unfold IsAfter; decide, by decide⟩, ?_, ⟨1, _,
    .engine 0 _ _ 4 [] rfl (by unfold IsAfter; decide) rfl (.ends _ fun a ha => by
      obtain rfl : 4 = a := Option.some.inj ha
      unfold IsAfter; decide), one_round _⟩⟩
  intro a ha
  obtain rfl : 2 = a := Option.some.inj ha
  unfold IsAfter; decide

/-- The waits of REF are within the span of a pass that begins now. -/
theorem retrySpan_ref (s : State) (hc : s.cfg.maxAttempts = 3) (hr : s.cfg.retryBase = 50)
    (hj : s.jiffies = s.procNow) : RetrySpan s := by
  intro a h1 h3
  rw [hc] at h3
  have h : a = 1 ∨ a = 2 := by
    have : (3 : Byte).toNat = 3 := rfl
    omega
  rw [hj, hr]
  rcases h with rfl | rfl <;> simp

/-- A retry wait of 2^31 + 2, ready in the pass that armed it. -/
def farRetry : State :=
  { expired with cfg := { Config.ref with retryBase := 0x40000001 }, slots := [{ packet .awaitAck with attempts := 2 }] }

/-- R121 and R115 there: the same pass pops the engine alarm again, and the retry is on the air at once. -/
theorem test_alarmProcess_far_retry :
    (after (exec .alarmProcess { farRetry with channelAnswers := [true] })).map (fun t => (t.alist, t.radioBusy))
      = some ([], true) := by
  decide

/-- A threaded window resumed 2^31 ticks late, the radio busy with an acknowledgement, the only backoff 1: the engine
alarm is due again as often as it is popped, whatever the outside answers. -/
def endless (queries : Nat) : State :=
  { on with
    cfg := { Config.ref with threaded := true, maxInitBackoff := 1 }, jiffies := 0x80000000, procState := .inCallback,
    slots := [{ packet .senseBackoff with attempts := 0 }], order := [0], alist := [4],
    alarms := [.reset, .reset, .reset, .reset, ⟨0x80000001, 0xFFFF, 0, .scheduled, true⟩],
    radioBusy := true, txOwner := .ack, queries := queries }

theorem boundedDraw_one (r : Word) : boundedDraw 1 r = 1 := by
  have h := boundedDraw_range 1 r (by decide)
  apply BitVec.eq_of_toNat_eq
  have : (1 : Word).toNat = 1 := rfl
  omega

/-- One round there leaves everything but the count of queries as it was. -/
theorem endless_round (q : Nat) : macAlarm (removeAlarm 4 (endless q)) = endless (q + 2) := by
  show sense 0 _ = _
  unfold sense senseBusy
  have h : (removeAlarm 4 (endless q)).radioBusy = true := rfl
  simp only [h, Bool.not_true, Bool.and_false, Bool.false_eq_true, if_false]
  show (schedMA (boundedDraw 1 (Config.backoffDraw (q + 1))) _).setPhase 0 .senseBackoff = _
  rw [boundedDraw_one]
  rfl

/-- And the engine alarm due. -/
theorem endless_due (q : Nat) : ¬ IsAfter ((endless q).alarm 4).when (endless q).procNow := by
  show ¬ IsAfter 0x80000001 0
  unfold IsAfter; decide

/-- As many rounds as one likes. -/
theorem endless_rounds (n q : Nat) : EngineRounds n (endless q) (endless (q + 2 * n)) := by
  induction n generalizing q with
  | zero => exact .none _
  | succ n ih =>
    refine .pop n _ _ 4 [] rfl (endless_due q) rfl ?_
    rw [endless_round, show q + 2 * (n + 1) = q + 2 + 2 * n by omega]
    exact ih (q + 2)

/-- With the radio idle that loop ends at the first clear answer. -/
theorem test_cbReturn_clear_at_last :
    trace 0x17 { endless 0 with radioBusy := false, txOwner := .none, channelAnswers := [false, true], draws := [1] }
      = some [.radioTx [0x44, 1, 0, 2, 0] [0x55]] := by
  decide

/-- A threaded window whose pass began 2^31 - 11 ticks ago, at the end of the span; one within every span; a pass of
one round; the engine alarm due again after its handler; a loop without an end, and one that ends. -/
theorem witness_APassFiresOnlyDueAlarms :
    let s : State := { windowOpen with
      cfg := { Config.ref with threaded := true }, jiffies := 700 + 0x7FFFFFF5, inputs := [.command 0x17] }
    (s.cfg.legal = true ∧ Inv s ∧ s.procState = .inCallback ∧ PassSpan s)
    ∧ (Inv windowOpen ∧ PassSpan windowOpen ∧ RetrySpan windowOpen)
    ∧ (Inv expired ∧ RetrySpan { expired with procNow := expired.jiffies })
    ∧ (∃ n t, PassLoop n expired t)
    ∧ (EngineReady (macAlarm (removeAlarm 4 farRetry)) ∧ farRetry.cfg.legal = true)
    ∧ ((endless 0).cfg.legal = true ∧ Inv (endless 0) ∧ (endless 0).procState = .inCallback
      ∧ ∃ u, EngineRounds (passRounds (endless 0)) { endless 0 with fireId := 0, fireCb := 0, fireArg := 0 } u
        ∧ EngineReady u)
    ∧ (((endless 0).slot 0).state = .inFlight ∧ ((endless 0).slot 0).phase = .senseBackoff ∧ EngineReady (endless 0))
    ∧ ∃ (s v : State), s.cfg.legal = true ∧ Inv s ∧ (s.slot 0).state = .inFlight ∧ (s.slot 0).phase = .senseBackoff
      ∧ EngineReady s ∧ PassLoop 2 (supplied [false, true] [1] s) v := by
  have ready : ∀ q, EngineReady (endless q) := fun q => ⟨4, [], rfl, endless_due q, rfl⟩
  refine ⟨⟨by decide, inv_of_check _ (by decide), rfl, by unfold PassSpan; decide⟩,
    ⟨inv_of_check _ (by decide), by unfold PassSpan; decide, retrySpan_ref _ rfl rfl rfl⟩,
    ⟨inv_of_check _ (by decide), retrySpan_ref _ rfl rfl rfl⟩,
    ⟨1, _, expired_loop⟩, ⟨⟨4, [], rfl, by unfold IsAfter; decide, rfl⟩, by decide⟩,
    ⟨by decide, inv_of_check _ (by decide), rfl, _, endless_rounds _ 0, ready _⟩, ⟨rfl, rfl, ready 0⟩,
    { endless 0 with radioBusy := false, txOwner := .none }, _, by decide, inv_of_check _ (by decide), rfl, rfl,
    ⟨4, [], rfl, by unfold IsAfter endless; decide, rfl⟩,
    .engine 1 _ _ 4 [] rfl (by unfold IsAfter endless; decide) rfl
      (.engine 0 _ _ 4 [] rfl (by unfold IsAfter endless; decide) rfl (.ends _ fun a ha => nomatch ha))⟩

theorem witness_TickAdvancesTimeAndFires :
    (∀ a, ({ twoDue with jiffies := 698 } : State).alist.head? = some a →
      IsAfter (({ twoDue with jiffies := 698 } : State).alarm a).when (698 + 1))
    ∧ twoDue.alist = 0 :: [2] ∧ ¬ IsAfter (twoDue.alarm 0).when (699 + 1)
    ∧ twoDue.cfg.threaded = false ∧ twoDue.procState = .idle ∧ (twoDue.alarm 0).cb ≠ 0xFFFF
    ∧ ({ twoDue with cfg := { Config.ref with threaded := true } } : State).cfg.threaded = true
    ∧ ∃ n t, PassLoop n
        { ({ awaiting with jiffies := 99 } : State) with jiffies := 99 + 1, procNow := 99 + 1 } t
      ∧ n ≤ passRounds { awaiting with jiffies := 99 } := by
  refine ⟨?_, rfl, by unfold IsAfter; decide, rfl, rfl, by decide, rfl, ⟨1, _, expired_loop, one_round _⟩⟩
  intro a ha
  obtain rfl : 0 = a := Option.some.inj ha
  unfold IsAfter; decide

/-- The longest delay, looked at as late as the statement goes, across the wrap. -/
theorem witness_AnAlarmIsReadyExactlyAfterItsDelay :
    TablesSized twoDue ∧ (0 : Byte).toNat < twoDue.cfg.nAlarms.toNat ∧ (twoDue.alarm 0).bound = true
    ∧ (0x7FFFFFFF : Word).toNat < 2 ^ 31 ∧ 0xFFFFFFFF ≤ (0x7FFFFFFF : Word).toNat + 2 ^ 31
    ∧ ∃ t, exec (.alarmSched 0 0x7FFFFFFF) twoDue = .next t :=
  ⟨⟨rfl, rfl⟩, by decide, rfl, by decide, by decide, ⟨_, rfl⟩⟩

/-- Arming a host alarm and the engine alarm at the end of the span, and a step that schedules. -/
theorem witness_TheAlarmListStaysSortedWithinTheSpan :
    Sorted twoDue ∧ 0 < twoDue.alarms.length ∧ 4 < twoDue.alarms.length
    ∧ (∀ e ∈ twoDue.alist, ((twoDue.alarm e).when - 700).toNat < 2 ^ 31)
    ∧ (twoDue.jiffies + 0x7FFFFFFF - 700).toNat < 2 ^ 31
    ∧ Inv twoDue
    ∧ ∃ t, step { twoDue with inputs := [.command 0x500000211] } = .next t ∧ Spanned t :=
  ⟨by unfold Sorted; decide, by decide, by decide, by decide, by decide, inv_of_check _ (by decide),
    _, rfl, 700, by decide⟩

theorem witness_AddressPredicatesLookAtTheValue :
    (0x0001 ≤ (0x0001 : Half).toNat ∧ (0x0001 : Half).toNat ≤ 0x7FFF)
    ∧ (0x0001 ≤ (0x7FFF : Half).toNat ∧ (0x7FFF : Half).toNat ≤ 0x7FFF) := by
  decide

theorem witness_AddressesSurviveTheirTriple :
    on.cfg.longAddr = false ∧ longOn.cfg.longAddr = true ∧ (⟨2, 0, 0⟩ : AddrRegs).tag.getLsbD 0 = false
    ∧ (⟨3, 0, 0⟩ : AddrRegs).tag.getLsbD 0 = true := by
  decide

theorem witness_AddressCommandsStageAndCompare :
    AddrField.immedSrc ≠ AddrField.originalSrc ∧ (0xFFFF0320 : DWord).extractLsb' 0 8 = 0x20
    ∧ (0x721 : DWord).extractLsb' 0 8 = 0x21 ∧ (0x70722 : DWord).extractLsb' 0 8 = 0x22
    ∧ selectedAddr State.reset (.txinfo .originalSrc) = .short 0
    ∧ selectedAddr { State.reset with txinfo := { DescRegs.zero with immedDst := ⟨0, 0x8000, 0⟩ } } (.txinfo .immedDst)
      = .short 0x8000
    ∧ selectedAddr { longOn with txinfo := { DescRegs.zero with originalSrc := ⟨1, 5, 0⟩ } } (.txinfo .originalSrc)
      = .long 5 := by
  decide

/-- TXINFO with two long addresses. -/
def twoLong : State :=
  { longOn with txinfo := { DescRegs.zero with originalSrc := ⟨1, 1, 0⟩, originalDst := ⟨1, 2, 0⟩ } }

/-- A long source, a short destination, a sequence number and an acknowledgement: 13 header bytes. -/
def longPacket : Descriptor :=
  { Descriptor.empty with originalSrc := .long 1, originalDst := .short 2, seqnum := 9, flags := ⟨true, false, false, true⟩ }

theorem witness_ParsingABuiltHeaderGivesTheFields :
    buildHeader longPacket = some [0x95, 0x10, 1, 0, 0, 0, 0, 0, 0, 0, 2, 0, 9]
    ∧ buildHeader Descriptor.empty = some [0]
    ∧ (kindOf (hdrSrc Descriptor.empty) ≠ .long ∧ kindOf (hdrDst Descriptor.empty) ≠ .long) := by
  decide

theorem witness_BuiltHeadersHaveTheStatedLayout :
    buildHeader longPacket = some [0x95, 0x10, 1, 0, 0, 0, 0, 0, 0, 0, 2, 0, 9]
    ∧ buildHeader Descriptor.empty = some [0]
    ∧ builtKind (hdrSrc Descriptor.empty) ≠ 2 ∧ builtKind (hdrDst Descriptor.empty) ≠ 2
    ∧ on.cfg.longAddr = false ∧ buildHeader (descOf on.cfg on.txinfo) = some [0] := by
  decide

theorem witness_OnlyTwoLongAddressesAreRejected :
    buildHeader { longPacket with originalDst := .long 2 } = none
    ∧ buildHeader { longPacket with originalDst := .long 0 } ≠ none ∧ on.cfg.longAddr = false
    ∧ buildHeader (descOf twoLong.cfg twoLong.txinfo) = none ∧ twoLong.macInited = true
    ∧ (64 : Half).toNat ≤ twoLong.cfg.bufSize.toNat := by
  decide

/-- A frame with a payload, one without, and one that announces every field but a second long address. -/
theorem witness_TheParserReadsExactlyItsHeader :
    (∃ y, parseHeader false [4, 1, 0, 2, 0, 0xDE, 0xAD] = some y) ∧ (∃ y, parseHeader true [0] = some y)
    ∧ ∃ y, parseHeader true [0xFD, 0x39, 8, 7, 6, 5, 4, 3, 2, 1, 2, 0, 3, 4, 5, 6, 7, 8] = some y ∧ y.hdrLen = 18 :=
  ⟨⟨_, rfl⟩, ⟨_, rfl⟩, ⟨_, rfl, rfl⟩⟩

/-- R164 (a), (b) and (c), a header that ends before its EXT byte and one a byte short; and one that is not minimal. -/
theorem test_parse_fails :
    parseHeader true [0x80, 0x40] = none ∧ parseHeader true [0x88, 0x02, 1, 2] = none
    ∧ parseHeader false [2, 1, 2, 3, 4, 5, 6, 7, 8] = none ∧ parseHeader true [0x80] = none
    ∧ parseHeader true [4, 1, 0, 2] = none ∧ parseHeader true [0x80, 0] ≠ none := by
  decide

theorem witness_CodecCommandsWriteTheirResults :
    buildHeader (descOf twoLong.cfg twoLong.txinfo) = none
    ∧ buildHeader (descOf on.cfg on.txinfo) = some [0]
    ∧ on.cfg.bufSize.toNat < (65 : Half).toNat ∧ (64 : Half).toNat ≤ on.cfg.bufSize.toNat
    ∧ parseHeader on.cfg.longAddr (payload on 0) = none
    ∧ ∃ x, parseHeader false (payload { on with txdata := [(0, 0)] } 1) = some x :=
  ⟨by decide, by decide, by decide, by decide, by decide, ⟨_, rfl⟩⟩

theorem witness_MacInitBindsTheEngineAlarmOnce :
    TablesSized on ∧ on.macInited = true ∧ TablesSized State.reset ∧ State.reset.macInited = false :=
  ⟨⟨rfl, rfl⟩, rfl, ⟨rfl, rfl⟩, rfl⟩

/-- Each refusal at the length where it starts: 65 is over BUF_SIZE, a header of 5 leaves room for 59. -/
theorem witness_SendsAreRefusedInTheStatedOrder :
    (2 : Half) ≠ 0 ∧ State.reset.macInited = false ∧ on.macInited = true
    ∧ on.cfg.bufSize.toNat < (65 : Half).toNat ∧ (64 : Half).toNat ≤ on.cfg.bufSize.toNat
    ∧ buildHeader (descOf twoLong.cfg twoLong.txinfo) = none
    ∧ buildHeader (macSendPacket on false false 2) = some [4, 1, 0, 2, 0]
    ∧ on.cfg.bufSize.toNat < [4, 1, 0, 2, 0].length + (60 : Half).toNat
    ∧ [4, 1, 0, 2, 0].length + (59 : Half).toNat ≤ awaiting.cfg.bufSize.toNat
    ∧ ∀ k, k < awaiting.slots.length → (awaiting.slot k).state ≠ .idle :=
  ⟨by decide, rfl, rfl, by decide, by decide, by decide, by decide, by decide, by decide,
    (freeSlot?_eq_none_iff awaiting).1 (by decide)⟩

/-- REF with two slots, the first packet waiting for its acknowledgement. -/
def twoSlots : State :=
  { awaiting with cfg := { Config.ref with queueCap := 2 }, slots := [packet .awaitAck, Slot.reset] }

theorem witness_AnAcceptedSendWaitsBehindTheRadio :
    (∃ j, (twoSlots.slot j).state = .inFlight) ∧ ({ on with radioBusy := true } : State).radioBusy = true
    ∧ Acceptable twoSlots (descOf twoSlots.cfg twoSlots.txinfo) [0] 63 1
    ∧ Acceptable { on with radioBusy := true } (macSendPacket { on with radioBusy := true } true false 0) [1, 1, 0] 61 0 :=
  ⟨⟨0, rfl⟩, rfl,
    ⟨rfl, by decide, by decide, by decide, (freeSlot?_eq_some_iff twoSlots 1).1 (by decide)⟩,
    ⟨rfl, by decide, by decide, by decide, (freeSlot?_eq_some_iff { on with radioBusy := true } 0).1 (by decide)⟩⟩

/-- REF as the pass-through variant. -/
def passOn : State := { on with cfg := { Config.ref with variant := .passthrough } }

theorem witness_AnAcceptedSendOnAnIdleEngineIsTransmitted :
    (loaded.radioBusy = false ∧ loaded.order = [] ∧ (∀ j, (loaded.slot j).state ≠ .inFlight)
      ∧ loaded.cfg.variant ≠ .passthrough ∧ loaded.channelAnswers = true :: []
      ∧ Acceptable loaded (descOf loaded.cfg loaded.txinfo) [0] 1 0
      ∧ Acceptable loaded (macSendPacket loaded false true 2) [0x44, 1, 0, 2, 0] 59 0)
    ∧ passOn.radioBusy = false ∧ passOn.order = [] ∧ (∀ j, (passOn.slot j).state ≠ .inFlight)
      ∧ passOn.cfg.variant = .passthrough ∧ Acceptable passOn (descOf passOn.cfg passOn.txinfo) [0] 0 0
      ∧ TablesSized { loaded with channelAnswers := [false], draws := [10] }
      ∧ ({ loaded with channelAnswers := [false], draws := [10] } : State).channelAnswers = false :: []
      ∧ (10 : Word).toNat ≤ loaded.cfg.maxInitBackoff.toNat :=
  ⟨⟨rfl, rfl, (inFlight?_eq_none_iff loaded).1 (by decide), by decide, rfl,
    ⟨rfl, by decide, by decide, by decide, (freeSlot?_eq_some_iff loaded 0).1 (by decide)⟩,
    ⟨rfl, by decide, by decide, by decide, (freeSlot?_eq_some_iff loaded 0).1 (by decide)⟩⟩,
   rfl, rfl, (inFlight?_eq_none_iff passOn).1 (by decide), rfl,
    ⟨rfl, by decide, by decide, by decide, (freeSlot?_eq_some_iff passOn 0).1 (by decide)⟩,
    ⟨rfl, rfl⟩, rfl, by decide⟩

/-- A clear channel, a busy one, and a busy radio; the draw at both ends of 1 .. 10. -/
theorem witness_CarrierSenseTransmitsOrBacksOff :
    1 ≤ on.cfg.maxInitBackoff.toNat ∧ TablesSized { loaded with draws := [1] }
    ∧ 0 < ({ loaded with draws := [1] } : State).slots.length
    ∧ ({ loaded with draws := [1] } : State).channelAnswers = true :: []
    ∧ ({ loaded with draws := [10] } : State).draws = 10 :: []
    ∧ (1 ≤ (1 : Word).toNat ∧ (10 : Word).toNat ≤ on.cfg.maxInitBackoff.toNat) ∧ loaded.radioBusy = false
    ∧ ({ loaded with channelAnswers := [false] } : State).channelAnswers = false :: []
    ∧ ({ loaded with radioBusy := true } : State).radioBusy = true :=
  ⟨by decide, ⟨rfl, rfl⟩, by decide, rfl, rfl, by decide, rfl, rfl, rfl⟩

/-- Each end with nothing behind it, and with a packet waiting behind it. -/
theorem witness_TransmissionEndWaitsOrCompletes :
    on.radioBusy = false
    ∧ (({ on with radioBusy := true, txOwner := .ack } : State).txOwner ≠ .slot
      ∧ (∀ j, (on.slot j).state ≠ .inFlight) ∧ ∃ j, (awaiting.slot j).state = .inFlight)
    ∧ (TablesSized onAir ∧ onAir.radioBusy = true ∧ onAir.txOwner = .slot ∧ onAir.txSlot.toNat = 0
      ∧ HeadInFlight onAir 0)
    ∧ (onAir.cfg.variant = .csmaAck ∧ (onAir.slot 0).ackreq = true ∧ isBroadcast (onAir.slot 0).dst = false)
    ∧ TablesSized (queuedBehind { packet .transmitting with dst := .short 0x8000 } onAir)
    ∧ HeadInFlight (queuedBehind { packet .transmitting with dst := .short 0x8000 } onAir) 0
    ∧ isBroadcast (.short 0x8000) = true :=
  ⟨rfl, ⟨by decide, (inFlight?_eq_none_iff on).1 (by decide), 0, rfl⟩,
    ⟨⟨rfl, rfl⟩, rfl, rfl, rfl, head_of_one_slot _ rfl rfl rfl⟩, by decide,
    ⟨rfl, rfl⟩, head_of_two_slots _ rfl rfl rfl rfl, by decide⟩

/-- One attempt below MAX_ATTEMPTS, at it with a packet waiting behind, and the other phases. -/
theorem witness_AnExpiredAckWaitRetriesOrFails :
    TablesSized awaiting ∧ HeadInFlight awaiting 0 ∧ (awaiting.slot 0).phase = .awaitAck
    ∧ (2 : Byte).toNat < awaiting.cfg.maxAttempts.toNat ∧ (awaiting.slot 0).attempts.toNat < awaiting.cfg.maxAttempts.toNat
    ∧ HeadInFlight (queuedBehind { packet .awaitAck with attempts := 3 } awaiting) 0
    ∧ awaiting.cfg.maxAttempts.toNat ≤ (3 : Byte).toNat
    ∧ HeadInFlight { awaiting with slots := [packet .senseBackoff] } 0
    ∧ HeadInFlight { awaiting with slots := [packet .retryBackoff] } 0
    ∧ HeadInFlight { passOn with slots := [packet .retryBackoff], order := [0] } 0 ∧ passOn.cfg.variant = .passthrough
    ∧ HeadInFlight onAir 0 ∧ (onAir.slot 0).phase = .transmitting
    ∧ ∀ j, (on.slot j).state ≠ .inFlight :=
  ⟨⟨rfl, rfl⟩, head_of_one_slot _ rfl rfl rfl, rfl, by decide, by decide, head_of_two_slots _ rfl rfl rfl rfl,
    by decide, head_of_one_slot _ rfl rfl rfl, head_of_one_slot _ rfl rfl rfl, head_of_one_slot _ rfl rfl rfl, rfl,
    head_of_one_slot _ rfl rfl rfl, rfl, (inFlight?_eq_none_iff on).1 (by decide)⟩

/-- Besides the refusals: a packet on the air, one waiting, and one QUEUED behind a packet or behind the radio. -/
theorem witness_CancelFreesTheSlotAndItsTimeout :
    State.reset.macInited = false ∧ on.macInited = true ∧ on.cfg.queueCap.toNat ≤ (1 : Byte).toNat
    ∧ (0 : Byte).toNat < on.cfg.queueCap.toNat ∧ (on.slot 0).state = .idle ∧ (awaiting.slot 0).state ≠ .idle
    ∧ (HeadInFlight onAir 0 ∧ (onAir.slot 0).phase = .transmitting ∧ onAir.radioBusy = true)
    ∧ (HeadInFlight awaiting 0 ∧ (awaiting.slot 0).phase ≠ .transmitting)
    ∧ (HeadInFlight (queuedBehind (packet .awaitAck) awaiting) 0
      ∧ ((queuedBehind (packet .awaitAck) awaiting).slot 1).state = .queued
      ∧ ∃ j, ((queuedBehind (packet .awaitAck) awaiting).slot j).state = .inFlight)
    ∧ (({ on with slots := [{ packet .none with state := .queued }], order := [0] } : State).slot 0).state = .queued
    ∧ ∀ j, (({ on with slots := [{ packet .none with state := .queued }], order := [0] } : State).slot j).state
        ≠ .inFlight :=
  ⟨rfl, rfl, by decide, by decide, rfl, by decide, ⟨head_of_one_slot _ rfl rfl rfl, rfl, rfl⟩,
    ⟨head_of_one_slot _ rfl rfl rfl, by decide⟩, ⟨head_of_two_slots _ rfl rfl rfl rfl, rfl, 0, rfl⟩, rfl,
    (inFlight?_eq_none_iff _).1 (by decide)⟩

/-- 65 bytes are too long, 64 are not; a frame for node 3 is not for node 1. -/
theorem witness_DroppedFramesLeaveOneDiag :
    State.reset.macInited = false ∧ on.macInited = true
    ∧ on.cfg.bufSize.toNat < (List.replicate 65 (0 : Byte)).length
    ∧ (List.replicate 64 (0 : Byte)).length ≤ on.cfg.bufSize.toNat
    ∧ parseHeader on.cfg.longAddr [0x80] = none
    ∧ (parseHeader on.cfg.longAddr [4, 1, 0, 3, 0]).map (fun x => x.immedDst) = some (.short 3)
    ∧ Address.short 3 ≠ .short on.localShort ∧ isBroadcast (.short 3) = false := by
  decide

/-- The frame of RX14 and the frame of RX15, seen from `awaiting`. -/
theorem witness_OnlyTheAwaitedAckCompletesTheSend :
    (∃ x, parseHeader awaiting.cfg.longAddr [0x84, 0x10, 2, 0, 1, 0] = some x
      ∧ ForNode awaiting x.immedDst ∧ x.flags.isAck = true ∧ x.seqnum = (awaiting.slot 0).seq
      ∧ x.immedSrc = (awaiting.slot 0).dst)
    ∧ awaiting.macInited = true ∧ awaiting.cfg.variant = .csmaAck ∧ HeadInFlight awaiting 0
    ∧ HeadInFlight (queuedBehind (packet .awaitAck) awaiting) 0
    ∧ (awaiting.slot 0).phase = .awaitAck
    ∧ ∃ x, parseHeader awaiting.cfg.longAddr [0x94, 0x10, 2, 0, 1, 0, 1] = some x
      ∧ ForNode awaiting x.immedDst ∧ x.flags.isAck = true
      ∧ ∀ k, (awaiting.slot k).state = .inFlight → (awaiting.slot k).phase = .awaitAck →
        x.seqnum = (awaiting.slot k).seq → x.immedSrc ≠ (awaiting.slot k).dst :=
  ⟨⟨_, rfl, .inl rfl, rfl, rfl, rfl⟩, rfl, rfl, head_of_one_slot _ rfl rfl rfl,
    head_of_two_slots _ rfl rfl rfl rfl, rfl, ⟨_, rfl, .inl rfl, rfl, by
    intro k hk _ hq
    have hlt := lt_of_not_idle awaiting k (by rw [hk]; decide)
    have hl : awaiting.slots.length = 1 := rfl
    obtain rfl : k = 0 := by omega
    exact absurd hq (by decide)⟩⟩

/-- RX9, RX10 and RX12 seen from node 1, a broadcast, and a frame to the long address 5. -/
theorem witness_AskedFramesAreAcknowledgedThenDelivered :
    (∃ x, parseHeader on.cfg.longAddr [0x54, 2, 0, 1, 0, 5, 0x68] = some x ∧ ForNode on x.immedDst
      ∧ x.flags.isAck = false ∧ x.flags.ackRequested = true ∧ isUnspecified x.immedSrc = false)
    ∧ on.radioBusy = false ∧ onAir.radioBusy = true
    ∧ (∃ x, parseHeader on.cfg.longAddr [0x43, 1, 0, 7] = some x ∧ ForNode on x.immedDst
      ∧ x.flags.ackRequested = true ∧ isUnspecified x.immedSrc = true)
    ∧ (∃ x, parseHeader on.cfg.longAddr [0x04, 2, 0, 1, 0] = some x ∧ ForNode on x.immedDst
      ∧ x.flags.isAck = false ∧ x.flags.ackRequested = false)
    ∧ (∃ x, parseHeader on.cfg.longAddr [0x54, 2, 0, 0, 0x80, 5] = some x ∧ ForNode on x.immedDst
      ∧ x.flags.ackRequested = true ∧ isUnspecified x.immedSrc = false)
    ∧ (∃ x, parseHeader true [0x47, 2, 0, 5, 0, 0, 0, 0, 0, 0, 0] = some x
      ∧ ForNode { longOn with localLong := 5 } x.immedDst ∧ x.flags.ackRequested = true)
    ∧ ForNode { longOn with localLong := 5 } (.long 5) ∧ (5 : DWord) ≠ 0 :=
  ⟨⟨_, rfl, .inl rfl, rfl, rfl, rfl⟩, rfl, rfl, ⟨_, rfl, .inl rfl, rfl, rfl⟩, ⟨_, rfl, .inl rfl, rfl, rfl⟩,
    ⟨_, rfl, .inr (.inl rfl), rfl, rfl⟩, ⟨_, rfl, .inr (.inr ⟨rfl, rfl⟩), rfl⟩, .inr (.inr ⟨rfl, rfl⟩), by decide⟩

theorem witness_OtherVariantsDeliverEveryFrame :
    passOn.macInited = true ∧ passOn.cfg.variant ≠ .csmaAck
    ∧ (∃ x, parseHeader passOn.cfg.longAddr [4, 2, 0, 1, 0] = some x ∧ x.immedDst = .short passOn.localShort)
    ∧ (∃ x, parseHeader passOn.cfg.longAddr [4, 2, 0, 0, 0x80] = some x ∧ isBroadcast x.immedDst = true)
    ∧ ∃ x, parseHeader true [7, 2, 0, 5, 0, 0, 0, 0, 0, 0, 0] = some x ∧ x.immedDst = .long 5 :=
  ⟨rfl, by decide, ⟨_, rfl, rfl⟩, ⟨_, rfl, rfl⟩, ⟨_, rfl, rfl⟩⟩

theorem witness_AStatusOtherThanOkMeansNothingChanged :
    (∃ t r, runWord 0x5 State.reset = .next t ∧ t.responses = State.reset.responses ++ [r] ∧ r.extractLsb' 0 8 ≠ 0)
    ∧ ∃ t r, runWord 0x40 on = .next t ∧ t.responses = on.responses ++ [r] ∧ r.extractLsb' 0 8 ≠ 0 :=
  ⟨⟨_, _, rfl, rfl, by decide⟩, ⟨_, _, rfl, rfl, by decide⟩⟩

theorem witness_OnlyTickMovesJiffies :
    (∃ t, exec .alarmProcess twoDue = .next t) ∧ (∃ t, runInput (.radioRx [4, 2, 0, 1, 0]) on = .next t)
    ∧ (∃ t, runInput (.radioTxDone 0) onAir = .next t) ∧ ∃ t, runInput .tick { twoDue with jiffies := 699 } = .next t :=
  ⟨⟨_, rfl⟩, ⟨_, rfl⟩, ⟨_, rfl⟩, ⟨_, rfl⟩⟩

theorem witness_EventsNeverWriteStaging :
    (∃ t, step { on with inputs := [.command 0x20120] } = .next t) ∧ IsEvent .tick ∧ IsEvent (.radioRx [4, 2, 0, 1, 0])
    ∧ IsEvent (.radioTxDone 0) ∧ ∃ t, runInput (.radioTxDone 0) onAir = .next t :=
  ⟨⟨_, rfl⟩, .inl rfl, .inr (.inl ⟨_, rfl⟩), .inr (.inr ⟨_, rfl⟩), ⟨_, rfl⟩⟩

theorem witness_OtherCommandsLeaveTheEngineAlone :
    ∃ t, exec (.alarmSched 0 5) { awaiting with alarms := bound 1 :: awaiting.alarms.tail } = .next t :=
  ⟨_, rfl⟩

/-- A packet that stays over a TICK, and one that stays while another is cancelled. -/
theorem witness_QueuedPacketsAreNeverRewritten :
    QueueSound awaiting ∧ (∃ t, step { awaiting with inputs := [.tick] } = .next t ∧ 0 ∈ t.order) ∧ 0 ∈ awaiting.order :=
  ⟨queueSound_of_check _ (by decide), ⟨_, rfl, by decide⟩, by decide⟩

theorem witness_PacketsAndReportsAreConserved :
    Inv loaded ∧ (∃ t, exec (.macSend false true 2 1) loaded = .next t
      ∧ t.responses = loaded.responses ++ [responseWord 0x41 .ok 0])
    ∧ Inv awaiting ∧ (∃ t, exec (.macCancel 0) awaiting = .next t)
    ∧ ∃ t, runInput (.radioRx [0x84, 0x10, 2, 0, 1, 0]) awaiting = .next t :=
  ⟨inv_of_check _ (by decide), ⟨_, rfl, rfl⟩, inv_of_check _ (by decide), ⟨_, rfl⟩, ⟨_, rfl⟩⟩

theorem witness_EveryStepKeepsTheAlarmListSound :
    TablesSized twoDue ∧ AlarmListSound twoDue ∧ ∃ t, step { twoDue with inputs := [.command 0x13] } = .next t :=
  ⟨⟨rfl, rfl⟩, alistSound_of_check _ (by decide), ⟨_, rfl⟩⟩

theorem witness_EveryStepKeepsTheBuffersCanonical :
    BuffersCanonical loaded ∧ ∃ t, step { loaded with inputs := [.command 0x7F003F0003] } = .next t :=
  ⟨⟨⟨rfl, rfl⟩, ⟨rfl, rfl⟩⟩, ⟨_, rfl⟩⟩

/-- An engine alarm that expires in the TICK of the step. -/
theorem witness_EveryStepKeepsTheInvariant :
    Inv { awaiting with jiffies := 99, inputs := [.tick] }
    ∧ ∃ t, step { awaiting with jiffies := 99, inputs := [.tick] } = .next t :=
  ⟨inv_of_check _ (by decide), ⟨_, rfl⟩⟩

theorem witness_NothingIsFatal : Config.ref.legal = true ∧ Inv awaiting :=
  ⟨by decide, inv_of_check _ (by decide)⟩

end Sys2Proof.Tests
end

/-! SUPPORT. The legal configurations (spec/00_scope.md R8, R9): what `Config.legal` refuses, and that a step is
refused for no other reason. -/

namespace Sys2Proof.Machine

/-! ### The product rule of R9 -/

/-- No retry wait RETRY_BASE x a, for a in 1 .. MAX_ATTEMPTS - 1, is 0 mod 2^32. -/
def RetryWaitsNonzero (c : Config) : Prop :=
  ∀ a, 1 ≤ a → a < c.maxAttempts.toNat → (c.retryBase.toNat * a) % 2 ^ 32 ≠ 0

/-- `Config.legal` runs through the waits of a = k + 1 for k below MAX_ATTEMPTS - 1. -/
theorem all_retryWaits_iff (c : Config) :
    (List.range (c.maxAttempts.toNat - 1)).all
      (fun k => decide ((c.retryBase.toNat * (k + 1)) % 2 ^ 32 ≠ 0)) = true ↔ RetryWaitsNonzero c := by
  rw [List.all_eq_true]
  constructor
  · intro h a ha hm
    have hk := h (a - 1) (List.mem_range.2 (by omega))
    rw [Nat.sub_add_cancel ha] at hk
    exact of_decide_eq_true hk
  · intro h k hk
    have hm := List.mem_range.1 hk
    exact decide_eq_true (h (k + 1) (by omega) (by omega))

/-- The product rule is broken by a wait that is 0 mod 2^32. -/
theorem not_retryWaitsNonzero_iff (c : Config) :
    ¬ RetryWaitsNonzero c
      ↔ ∃ a, 1 ≤ a ∧ a < c.maxAttempts.toNat ∧ (c.retryBase.toNat * a) % 2 ^ 32 = 0 := by
  simp only [RetryWaitsNonzero, not_forall, not_not, exists_prop]

/-- A wait of a base below 2^24 does not wrap for any 8-bit count of attempts, so it is its own residue. -/
theorem retryWait_mod_ne_zero (base : Word) (a : Nat) (hpos : 1 ≤ base.toNat) (hbase : base.toNat < 2 ^ 24)
    (ha : 1 ≤ a) (hmax : a < 255) : (base.toNat * a) % 2 ^ 32 ≠ 0 := by
  have hlt : base.toNat * a < 2 ^ 32 :=
    calc base.toNat * a < 2 ^ 24 * 2 ^ 8 := Nat.mul_lt_mul'' hbase (by omega)
      _ = 2 ^ 32 := by norm_num
  rw [Nat.mod_eq_of_lt hlt]
  exact (Nat.mul_pos hpos ha).ne'

/-! ### The legal configurations -/

/-- The ranges of R8 and the product rule of R9, parameter by parameter. -/
theorem legal_iff (c : Config) :
    c.legal = true ↔
      c.variant ≠ .tdma ∧ 18 ≤ c.bufSize.toNat
      ∧ (1 ≤ c.ackTimeout.toNat ∧ c.ackTimeout.toNat < 2 ^ 31) ∧ 1 ≤ c.maxAttempts.toNat
      ∧ (1 ≤ c.retryBase.toNat ∧ c.retryBase.toNat < 2 ^ 31)
      ∧ (1 ≤ c.maxInitBackoff.toNat ∧ c.maxInitBackoff.toNat < 2 ^ 31)
      ∧ 1 ≤ c.queueCap.toNat ∧ (1 ≤ c.nAlarms.toNat ∧ c.nAlarms.toNat ≤ 254) ∧ RetryWaitsNonzero c := by
  simp only [Config.legal, Bool.and_eq_true, all_retryWaits_iff, bne_iff_ne, decide_eq_true_eq, and_assoc]

/-- A configuration is illegal when one parameter is outside its range or one retry wait is 0 mod 2^32. -/
theorem legal_eq_false_iff (c : Config) :
    c.legal = false ↔
      c.variant = .tdma ∨ c.bufSize.toNat < 18
      ∨ c.ackTimeout.toNat = 0 ∨ 2 ^ 31 ≤ c.ackTimeout.toNat
      ∨ c.maxAttempts.toNat = 0
      ∨ c.retryBase.toNat = 0 ∨ 2 ^ 31 ≤ c.retryBase.toNat
      ∨ c.maxInitBackoff.toNat = 0 ∨ 2 ^ 31 ≤ c.maxInitBackoff.toNat
      ∨ c.queueCap.toNat = 0 ∨ c.nAlarms.toNat = 0 ∨ 254 < c.nAlarms.toNat
      ∨ ∃ a, 1 ≤ a ∧ a < c.maxAttempts.toNat ∧ (c.retryBase.toNat * a) % 2 ^ 32 = 0 := by
  rw [← Bool.not_eq_true, legal_iff, ← not_retryWaitsNonzero_iff]
  simp only [not_and_or, not_not, not_le, not_lt, Nat.lt_one_iff, ne_eq, or_assoc]

/-! ### When a step is refused -/

/-- Every input answers a next state, in every state (R264). -/
theorem runInput_next (x : Input) (s : State) : ∃ t, runInput x s = .next t := by
  cases x with
  | command c =>
    show ∃ t, runWord c s = .next t
    unfold runWord
    cases decode c with
    | ok i => exact exec_next i s
    | illegalOpcode => exact ⟨_, rfl⟩
    | reservedField => exact ⟨_, rfl⟩
  | tick => exact ⟨_, rfl⟩
  | radioRx frame => exact ⟨_, rfl⟩
  | radioTxDone status => exact ⟨_, rfl⟩
  | reset => exact ⟨_, rfl⟩

/-- A step of a legal configuration answers a next state: its input's, or the same one when none is taken. -/
theorem step_next_of_legal (s : State) (hl : s.cfg.legal = true) : ∃ t, step s = .next t := by
  obtain ⟨hf, -⟩ | ⟨-, -, hs⟩ | ⟨x, rest, -, -, hs⟩ := step_cases s _ rfl
  · rw [hl] at hf
    cases hf
  · exact ⟨s, hs⟩
  · rw [hs]
    exact runInput_next x _

/-- A step is refused exactly in an illegal configuration. -/
theorem step_eq_refused_iff (s : State) : step s = .refused .illegalConfiguration ↔ s.cfg.legal = false := by
  constructor
  · intro h
    rw [← Bool.not_eq_true]
    intro hl
    obtain ⟨t, ht⟩ := step_next_of_legal s hl
    rw [ht] at h
    cases h
  · intro hf
    simp [step, hf]

/-- Settles O8: a step is refused exactly in an illegal configuration, and those are the ones outside a range or
with a retry wait that is 0 mod 2^32. -/
theorem illegalConfigurationsAreRefused : Obligations.IllegalConfigurationsAreRefused :=
  ⟨fun s => (legal_eq_false_iff s.cfg).symm.trans (step_eq_refused_iff s).symm, retryWait_mod_ne_zero⟩

end Sys2Proof.Machine

/-! SUPPORT. Decoding and answering a command word (spec/30_encoding.md R81 to R85): which rows of the opcode table a
word matches and what it then decodes to, and that every command is answered by one response. -/

namespace Sys2Proof.Machine

/-! ### A word against a row of the opcode table (R81, R82) -/

/-- The bits of `f` outside OP that row `r` marks "0" are zero. -/
def reservedZero (r : DWord × DWord) (f : CmdFields) : Bool :=
  f.a &&& (splitWord r.1).a == 0 && f.b &&& (splitWord r.1).b == 0 && f.w &&& (splitWord r.1).w == 0

/-- The opcode of a row. -/
def rowOp (r : DWord × DWord) : Byte := (splitWord r.2).op

/-- The fields of a masked word are the masked fields. -/
theorem splitWord_and (c d : DWord) :
    splitWord (c &&& d) = ⟨(splitWord c).op &&& (splitWord d).op, (splitWord c).a &&& (splitWord d).a,
      (splitWord c).b &&& (splitWord d).b, (splitWord c).w &&& (splitWord d).w⟩ := by
  simp only [splitWord, BitVec.extractLsb'_and]

/-- Every row masks the whole of OP and asks of it the row's opcode, and of the other fields only zeros. -/
theorem splitWord_of_mem_opcodeRows :
    ∀ r ∈ opcodeRows, (splitWord r.1).op = 0xFF ∧ splitWord r.2 = ⟨rowOp r, 0, 0, 0⟩ := by
  have hall : opcodeRows.all
      (fun r => (splitWord r.1).op == 0xFF && splitWord r.2 == ⟨rowOp r, 0, 0, 0⟩) = true := by
    decide
  simpa using hall

/-- The opcodes of the rows, in the table's order. -/
theorem map_rowOp_opcodeRows :
    opcodeRows.map rowOp =
      [Op.nop, Op.rdreg, Op.wrreg, Op.wrbuf, Op.rdbuf, Op.alarmInit, Op.alarmSched, Op.alarmCancel,
        Op.alarmProcess, Op.alarmPeek, Op.alarmHasPending, Op.alarmHasReady, Op.cbReturn, Op.addrMake,
        Op.addrClass, Op.addrEq, Op.hdrBuild, Op.hdrParse, Op.macInit, Op.macSend, Op.macSendEx, Op.macPoll,
        Op.macIsKnown, Op.macCancel] := by
  decide

/-- Masking a byte by 0xFF leaves it. -/
@[simp] theorem and_ff (x : Byte) : x &&& 255#8 = x := BitVec.and_allOnes

/-- A word has the opcode of a row exactly when its low byte is the row's match. -/
theorem and_ff_eq_iff (c : DWord) (r : DWord × DWord) (hr : r ∈ opcodeRows) :
    c &&& 0xFF = r.2 ↔ (splitWord c).op = rowOp r := by
  obtain ⟨-, hmatch⟩ := splitWord_of_mem_opcodeRows r hr
  have hff : splitWord 0xFF = ⟨0xFF, 0, 0, 0⟩ := by decide
  rw [← Function.Injective.eq_iff (f := splitWord) splitWord_inj, splitWord_and, hmatch, hff]
  simp

/-- A word matches a row exactly when it has the row's opcode and zeros where the row marks "0". -/
theorem and_mask_eq_iff (c : DWord) (r : DWord × DWord) (hr : r ∈ opcodeRows) :
    c &&& r.1 = r.2 ↔ (splitWord c).op = rowOp r ∧ reservedZero r (splitWord c) = true := by
  obtain ⟨hmask, hmatch⟩ := splitWord_of_mem_opcodeRows r hr
  rw [← Function.Injective.eq_iff (f := splitWord) splitWord_inj, splitWord_and, hmatch, hmask]
  simp [reservedZero, and_assoc]

/-- The mask of the `m` high bits leaves nothing of a word exactly when those bits are zero. -/
theorem and_highBits_eq_zero (m k : Nat) (x : BitVec (m + k)) :
    (x &&& (BitVec.allOnes m ++ 0#k) == 0) = (x.extractLsb' k m == 0) := by
  have hbits : x &&& (BitVec.allOnes m ++ 0#k) = x.extractLsb' k m ++ 0#k := by
    ext i hi
    by_cases hk : i < k
    · simp [BitVec.getElem_append, hk]
    · simp [BitVec.getElem_append, hk, show k + (i - k) = i by omega, BitVec.getLsbD_eq_getElem hi]
  rw [hbits, Bool.eq_iff_iff, beq_iff_eq, beq_iff_eq]
  constructor
  · intro h
    ext i hi
    have hbit := congrArg (fun y => y.getLsbD (k + i)) h
    simpa [BitVec.getLsbD_append, hi] using hbit
  · intro h
    simp [h]

/-! The masks of a single field that occur in the table, in the form `decodeFields` checks them in. -/

theorem and_fe (x : Byte) : (x &&& 254#8 == 0#8) = (x.extractLsb' 1 7 == 0#7) := and_highBits_eq_zero 7 1 x

theorem and_fc (x : Byte) : (x &&& 252#8 == 0#8) = (x.extractLsb' 2 6 == 0#6) := and_highBits_eq_zero 6 2 x

theorem and_f8 (x : Byte) : (x &&& 248#8 == 0#8) = (x.extractLsb' 3 5 == 0#5) := and_highBits_eq_zero 5 3 x

theorem and_fff8 (x : Half) : (x &&& 65528#16 == 0#16) = (x.extractLsb' 3 13 == 0#13) :=
  and_highBits_eq_zero 13 3 x

theorem and_ffffff00 (x : Word) : (x &&& 4294967040#32 == 0#32) = (x.extractLsb' 8 24 == 0#24) :=
  and_highBits_eq_zero 24 8 x

theorem and_ffff0000 (x : Word) : (x &&& 4294901760#32 == 0#32) = (x.extractLsb' 16 16 == 0#16) :=
  and_highBits_eq_zero 16 16 x

theorem and_ffff (x : Half) : x &&& 65535#16 = x := BitVec.and_allOnes

theorem and_ffffffff (x : Word) : x &&& 4294967295#32 = x := BitVec.and_allOnes

/-- What a row's case of `decodeFields_of_rowOp` comes to: the command, and the check that stands for the mask. -/
theorem exists_command_of_ifZero (r : DWord × DWord) (f : CmdFields) (zero : Bool) (i : Instr) (ho : opcode i = f.op)
    (hd : decodeFields f = ifZero zero i) (hz : zero = reservedZero r f) :
    ∃ i, opcode i = f.op ∧ decodeFields f = ifZero (reservedZero r f) i :=
  ⟨i, ho, hz ▸ hd⟩

/-- Under the opcode of a row, the word decodes to a command of that opcode if what the row marks "0" is zero. -/
theorem decodeFields_of_rowOp (f : CmdFields) (r : DWord × DWord) (hr : r ∈ opcodeRows) (hop : f.op = rowOp r) :
    ∃ i, opcode i = f.op ∧ decodeFields f = ifZero (reservedZero r f) i := by
  obtain ⟨op, a, b, w⟩ := f
  obtain rfl : op = rowOp r := hop
  simp only [opcodeRows, List.cons_append, List.nil_append, List.mem_cons, List.not_mem_nil, or_false] at hr
  rcases hr with rfl | rfl | rfl | rfl | rfl | rfl | rfl | rfl | rfl | rfl | rfl | rfl | rfl | rfl | rfl | rfl | rfl
    | rfl | rfl | rfl | rfl | rfl | rfl | rfl
  -- ALARM_INIT is the one row without a must-be-zero bit, and the decoder checks none.
  on_goal 6 => exact exists_command_of_ifZero _ _ true (.alarmInit a b w) rfl rfl (by simp [reservedZero, splitWord])
  all_goals
    refine exists_command_of_ifZero _ _ _ _ ?_ rfl ?_
    · rfl
    · simp [reservedZero, splitWord, and_fe, and_fc, and_f8, and_fff8, and_ffffff00, and_ffff0000, and_ffff,
        and_ffffffff]

/-- An opcode of no row decodes to no command (R81 (1)). -/
theorem decodeFields_of_no_row (f : CmdFields) (h : ∀ r ∈ opcodeRows, f.op ≠ rowOp r) :
    decodeFields f = .illegalOpcode := by
  have hop : f.op ∉ opcodeRows.map rowOp := by
    intro hmem
    obtain ⟨r, hr, he⟩ := List.mem_map.1 hmem
    exact h r hr he.symm
  rw [map_rowOp_opcodeRows] at hop
  simp only [List.mem_cons, List.not_mem_nil, or_false, not_or] at hop
  simp only [decodeFields, hop, if_false]

/-! ### What a word decodes to (R81) -/

/-- A word with an opcode of no row is no command. -/
theorem decode_of_no_row (c : DWord) (h : ∀ r ∈ opcodeRows, c &&& 0xFF ≠ r.2) : decode c = .illegalOpcode :=
  decodeFields_of_no_row (splitWord c) fun r hr he => h r hr ((and_ff_eq_iff c r hr).2 he)

/-- A word with the opcode of a row that does not match the row has a reserved bit set. -/
theorem decode_of_opcode_only (c : DWord) (r : DWord × DWord) (hr : r ∈ opcodeRows) (hop : c &&& 0xFF = r.2)
    (hm : c &&& r.1 ≠ r.2) : decode c = .reservedField := by
  have hrow : (splitWord c).op = rowOp r := (and_ff_eq_iff c r hr).1 hop
  have hzero : reservedZero r (splitWord c) = false := by
    rw [← Bool.not_eq_true]
    exact fun hz => hm ((and_mask_eq_iff c r hr).2 ⟨hrow, hz⟩)
  obtain ⟨i, -, hi⟩ := decodeFields_of_rowOp (splitWord c) r hr hrow
  simp [decode, hi, hzero, ifZero]

/-- A word that matches a row is a command with the word's opcode. -/
theorem decode_of_row (c : DWord) (r : DWord × DWord) (hr : r ∈ opcodeRows) (hm : c &&& r.1 = r.2) :
    ∃ i, opcode i = (splitWord c).op ∧ decode c = .ok i := by
  obtain ⟨hrow, hzero⟩ := (and_mask_eq_iff c r hr).1 hm
  obtain ⟨i, hop, hi⟩ := decodeFields_of_rowOp (splitWord c) r hr hrow
  exact ⟨i, hop, by simp [decode, hi, hzero, ifZero]⟩

/-- The command of a word has the word's opcode. -/
theorem opcode_of_decode (c : DWord) (i : Instr) (h : decode c = .ok i) : opcode i = (splitWord c).op := by
  by_cases hex : ∃ r ∈ opcodeRows, c &&& 0xFF = r.2
  · obtain ⟨r, hr, hop⟩ := hex
    by_cases hm : c &&& r.1 = r.2
    · obtain ⟨j, hj, hd⟩ := decode_of_row c r hr hm
      obtain rfl : j = i := Decoded.ok.inj (hd.symm.trans h)
      exact hj
    · cases (decode_of_opcode_only c r hr hop hm).symm.trans h
  · cases (decode_of_no_row c fun r hr he => hex ⟨r, hr, he⟩).symm.trans h

/-! ### One response per command (R84, R85) -/

/-- `r` ends in one response with opcode `op`, its value 0 unless its status is OK, after work on `s` that made none. -/
def AnswersOnce (op : Byte) (s : State) (r : Result) : Prop :=
  ∃ st v u, r = answer op st v u ∧ u.responses = s.responses ∧ (st ≠ .ok → v = 0)

/-- An answer with value 0 of a state left as it is. -/
theorem answersOnce_zero (op : Byte) (st : Status) (s : State) : AnswersOnce op s (answer op st 0 s) :=
  ⟨st, 0, s, rfl, rfl, fun _ => rfl⟩

/-- An OK answer, with any value. -/
theorem answersOnce_ok (op : Byte) (v : Word) (s u : State) (h : u.responses = s.responses) :
    AnswersOnce op s (answer op .ok v u) :=
  ⟨.ok, v, u, rfl, h, fun hne => absurd rfl hne⟩

/-- A check that refuses with value 0 before the rest of a command. -/
theorem answersOnce_guard {op : Byte} {st : Status} {s : State} {p : Prop} [Decidable p] {r : Result}
    (h : AnswersOnce op s r) : AnswersOnce op s (if p then answer op st 0 s else r) := by
  split
  · exact answersOnce_zero op st s
  · exact h

/-- The one response of an answer, field by field (R84). -/
theorem AnswersOnce.response {op : Byte} {s t : State} (h : AnswersOnce op s (.next t)) :
    ∃ r, t.responses = s.responses ++ [r]
      ∧ (r.extractLsb' 0 8).toNat ≤ 8
      ∧ r.extractLsb' 8 8 = op
      ∧ r.extractLsb' 16 16 = 0
      ∧ (r.extractLsb' 0 8 ≠ 0 → r.extractLsb' 32 32 = 0) := by
  obtain ⟨st, v, u, ht, hu, hv⟩ := h
  obtain rfl : t = u.respond op st v := Host.Outcome.next.inj ht
  have hcode : (statusCode st).toNat ≤ 8 := by cases st <;> decide
  refine ⟨responseWord op st v, by rw [respond_responses, hu], ?_, responseWord_op op st v,
    responseWord_zero op st v, ?_⟩
  · rwa [responseWord_status]
  · rw [responseWord_status, responseWord_value, ne_eq, statusCode_eq_zero]
    exact hv

/-- A register write makes no response (R252). -/
theorem writeReg_responses (s t : State) (w : Word) (r : Reg) (h : writeReg s w r = some t) :
    t.responses = s.responses := by
  cases r with
  | localShort => cases h; rfl
  | txinfo d => cases h; rfl
  | localLongLo => cases h; split <;> rfl
  | localLongHi => cases h; split <;> rfl
  | _ => cases h

/-- Binding an alarm makes no response (R116). -/
@[simp] theorem bindAlarm_responses (i : Nat) (cb : Half) (arg : Word) (s : State) :
    (bindAlarm i cb arg s).responses = s.responses := rfl

/-- A pass makes no response of its own (R119). -/
theorem startPass_responses (s : State) : (startPass s).responses = s.responses :=
  (runPass_frame _ _).responses

/-- A continued pass makes no response of its own (R122). -/
theorem resumePass_responses (s : State) : (resumePass s).responses = s.responses :=
  (runPass_frame _ _).responses

/-- Accepting a packet makes no response (R183). -/
theorem accept_responses (x : Descriptor) (n k : Nat) (s t : State) (h : accept x n s = .accepted k t) :
    t.responses = s.responses := by
  obtain ⟨hdr, -, -, -, -, -, rfl⟩ := accept_accepted x n k s t h
  exact (enqueue_frame k x hdr n s).responses

/-- Every command answers once, with its own opcode (R84): its refusals at once, the rest after work that makes no
response of its own. -/
theorem exec_answersOnce (i : Instr) (s : State) : AnswersOnce (opcode i) s (exec i s) := by
  cases i with
  | nop => exact answersOnce_ok _ _ _ _ rfl
  | rdreg reg =>
    show AnswersOnce _ s (execRdreg reg s)
    unfold execRdreg
    split
    · exact answersOnce_zero _ _ _
    · exact answersOnce_ok _ _ _ _ rfl
  | wrreg reg value =>
    show AnswersOnce _ s (execWrreg reg value s)
    unfold execWrreg
    split
    · exact answersOnce_zero _ _ _
    next t ht =>
      obtain ⟨r, -, hr⟩ := Option.bind_eq_some_iff.1 ht
      exact answersOnce_ok _ _ _ _ (writeReg_responses s t value r hr)
  | wrbuf offset byte => exact answersOnce_guard (answersOnce_ok _ _ _ _ rfl)
  | rdbuf buf offset => exact answersOnce_guard (answersOnce_ok _ _ _ _ rfl)
  | alarmInit alarm cb arg =>
    exact answersOnce_guard (answersOnce_guard (answersOnce_ok _ _ _ _ (bindAlarm_responses _ _ _ _)))
  | alarmSched alarm delayMs =>
    exact answersOnce_guard (answersOnce_guard (answersOnce_ok _ _ _ _ (armAlarm_responses _ _ _)))
  | alarmCancel alarm => exact answersOnce_guard (answersOnce_ok _ _ _ _ (removeAlarm_responses _ _))
  | alarmProcess => exact answersOnce_guard (answersOnce_ok _ _ _ _ (startPass_responses _))
  | alarmPeek =>
    show AnswersOnce _ s (execAlarmPeek s)
    unfold execAlarmPeek
    split
    · exact answersOnce_zero _ _ _
    · exact answersOnce_ok _ _ _ _ rfl
  | alarmHasPending => exact answersOnce_ok _ _ _ _ rfl
  | alarmHasReady now => exact answersOnce_ok _ _ _ _ rfl
  | cbReturn => exact answersOnce_guard (answersOnce_ok _ _ _ _ (resumePass_responses s))
  | addrMake sel value => exact answersOnce_ok _ _ _ _ rfl
  | addrClass sel => exact answersOnce_ok _ _ _ _ rfl
  | addrEq sel1 sel2 => exact answersOnce_ok _ _ _ _ rfl
  | hdrBuild =>
    show AnswersOnce _ s (execHdrBuild s)
    unfold execHdrBuild
    split
    · exact answersOnce_zero _ _ _
    · exact answersOnce_ok _ _ _ _ rfl
  | hdrParse len =>
    refine answersOnce_guard ?_
    cases parseHeader s.cfg.longAddr (readTxdata s len.toNat) with
    | none => exact answersOnce_zero _ _ _
    | some x => exact answersOnce_ok _ _ _ _ rfl
  | macInit => exact answersOnce_guard (answersOnce_ok _ _ _ _ (initEngine_responses s))
  | macSend dstStaged ackReq dst len =>
    refine answersOnce_guard ?_
    split
    · exact answersOnce_zero _ _ _
    next k t ht => exact answersOnce_ok _ _ _ _ (accept_responses _ _ k s t ht)
  | macSendEx len =>
    show AnswersOnce _ s (execMacSendEx len s)
    unfold execMacSendEx
    split
    · exact answersOnce_zero _ _ _
    next k t ht => exact answersOnce_ok _ _ _ _ (accept_responses _ _ k s t ht)
  | macPoll => exact answersOnce_ok _ _ _ _ rfl
  | macIsKnown sel => exact answersOnce_ok _ _ _ _ rfl
  | macCancel slot =>
    exact answersOnce_guard (answersOnce_guard (answersOnce_guard
      (answersOnce_ok _ _ _ _ ((abandon_frame _ s).trans (complete_frame _ _ _)).responses)))

/-! ### A word at the command port -/

/-- Every word is answered once, with its OP echoed, whether or not it is a command (R81, R84). -/
theorem runWord_answersOnce (c : DWord) (s : State) : AnswersOnce (splitWord c).op s (runWord c s) := by
  unfold runWord
  split
  next i hi => exact opcode_of_decode c i hi ▸ exec_answersOnce i s
  · exact answersOnce_zero _ _ _
  · exact answersOnce_zero _ _ _

/-- A step whose first waiting input is a command word runs that word. -/
theorem step_of_command (s : State) (c : DWord) (rest : List Input) (hl : s.cfg.legal = true)
    (hi : s.inputs = .command c :: rest) : step s = runWord c { s with inputs := rest } :=
  step_of_head s (.command c) rest hl hi (takeable_command _ c)

/-- Settles O4: the rows' masks and matches tell the three outcomes of `decode` apart, and each is answered as R81
says. -/
theorem wordsThatAreNoCommandChangeNothing : Obligations.WordsThatAreNoCommandChangeNothing := by
  intro s c rest hl hi
  have hstep := step_of_command s c rest hl hi
  refine ⟨fun hno => ?_, fun ⟨r, hr, hop⟩ hm => ?_, fun ⟨r, hr, hm⟩ => ?_⟩
  · rw [hstep, runWord, decode_of_no_row c hno]
    rfl
  · rw [hstep, runWord, decode_of_opcode_only c r hr hop (hm r hr)]
    rfl
  · obtain ⟨i, -, hd⟩ := decode_of_row c r hr hm
    refine ⟨i, hd, by rw [hstep, runWord, hd], fun t ht => ?_⟩
    obtain ⟨w, hw, -, hecho, -⟩ := (ht ▸ hstep ▸ runWord_answersOnce c { s with inputs := rest }).response
    exact ⟨w, hw, hecho⟩

/-- Settles O5: every word answers once, and a response word is laid out as R84 says. -/
theorem everyWordIsAnsweredOnce : Obligations.EveryWordIsAnsweredOnce := by
  refine ⟨by decide, fun c s t ht => ?_⟩
  have hanswer : AnswersOnce (splitWord c).op s (.next t) := ht ▸ runWord_answersOnce c s
  exact hanswer.response

end Sys2Proof.Machine

/-! SUPPORT. The alarm scheduler (spec/40_alarm.md): the order of tick values (R115), what `Remove` and `Insert` do to
the list and the table (R113, R114), and the commands that cancel an alarm or ask about the list (R112, R118, R126 to
R128), with the words they are. -/

namespace Sys2Proof.Machine

/-! ### The tick comparison (R115) -/

/-- The model's comparison is R115's, the difference taken with or without borrowing 2^32. -/
theorem timeAfter_iff (a b : Word) : timeAfter a b = true ↔ IsAfter a b := by
  have hdiff : (a - b).toNat = (a.toNat + 2 ^ 32 - b.toNat) % 2 ^ 32 := by
    rw [BitVec.toNat_sub]
    congr 1
    omega
  rw [timeAfter, decide_eq_true_iff, hdiff, IsAfter]

/-- No comparison where R115's fails. -/
theorem timeAfter_eq_false_iff (a b : Word) : timeAfter a b = false ↔ ¬ IsAfter a b := by
  rw [← timeAfter_iff, Bool.not_eq_true]

/-- An alarm is ready when its deadline is not after `now` (R115). -/
theorem ready_iff (s : State) (i : Nat) (now : Word) :
    s.ready i now = true ↔ ¬ IsAfter (s.alarm i).when now := by
  rw [State.ready, Bool.not_eq_true', timeAfter_eq_false_iff]

/-- A word is a positive signed number when it lies strictly between 0 and 2^31. -/
theorem toInt_pos_iff_toNat (x : Word) : 0 < x.toInt ↔ 0 < x.toNat ∧ x.toNat < 2 ^ 31 := by
  have hx := x.isLt
  rw [BitVec.toInt_eq_toNat_cond]
  split <;> omega

/-- The comparison is of the signed difference. -/
theorem timeAfter_iff_toInt_pos (a b : Word) : timeAfter a b = true ↔ 0 < (a - b).toInt := by
  rw [toInt_pos_iff_toNat, timeAfter, decide_eq_true_iff]

/-- At a difference of exactly 2^31 the comparison is false: the signed difference is negative. -/
theorem timeAfter_of_sub_eq_half (a b : Word) (h : a - b = BitVec.ofNat 32 (2 ^ 31)) : timeAfter a b = false := by
  rw [timeAfter, h]
  decide

/-- A difference of 2^31 is the same seen from either side. -/
theorem sub_eq_half_comm (a b : Word) (h : a - b = BitVec.ofNat 32 (2 ^ 31)) : b - a = BitVec.ofNat 32 (2 ^ 31) := by
  rw [← neg_sub, h]
  decide

/-- The difference of two tick values, from their distances to a third. -/
theorem toNat_sub_eq_of_base (base a b : Word) :
    (a - b).toNat = ((a - base).toNat + (2 ^ 32 - (b - base).toNat)) % 2 ^ 32 := by
  rw [← sub_sub_sub_cancel_right a b base, BitVec.toNat_sub, Nat.add_comm]

/-- Within a span of less than 2^31 the comparison is the order of the distances from the span's base. -/
theorem timeAfter_iff_of_span (base a b : Word) (ha : (a - base).toNat < 2 ^ 31) (hb : (b - base).toNat < 2 ^ 31) :
    timeAfter a b = true ↔ (b - base).toNat < (a - base).toNat := by
  rw [timeAfter, decide_eq_true_iff, toNat_sub_eq_of_base base]
  omega

/-- Tick values at the same distance from a base are the same. -/
theorem eq_of_toNat_sub_eq (base a b : Word) (h : (a - base).toNat = (b - base).toNat) : a = b :=
  sub_left_injective (BitVec.eq_of_toNat_eq h)

/-- Settles O15: within a span the comparison is that of the distances, so it is transitive and total there. -/
theorem timeAfterIsTheSignedDifferenceTest : Obligations.TimeAfterIsTheSignedDifferenceTest := by
  refine ⟨timeAfter_iff, timeAfter_iff_toInt_pos, ready_iff, timeAfter_self, ?_, ?_⟩
  · intro a b h
    exact ⟨timeAfter_of_sub_eq_half a b h, timeAfter_of_sub_eq_half b a (sub_eq_half_comm a b h)⟩
  · intro base a b c ha hb hc
    refine ⟨timeAfter_iff_of_span base a b ha hb, ?_, ?_⟩
    · rw [timeAfter_iff_of_span base a b ha hb, timeAfter_iff_of_span base b c hb hc,
        timeAfter_iff_of_span base a c ha hc]
      exact fun hab hbc => hbc.trans hab
    · rw [timeAfter_iff_of_span base a b ha hb, timeAfter_iff_of_span base b a hb ha]
      rcases lt_trichotomy (b - base).toNat (a - base).toNat with hlt | heq | hgt
      · exact .inr (.inl hlt)
      · exact .inl (eq_of_toNat_sub_eq base a b heq.symm)
      · exact .inr (.inr hgt)

/-! ### Remove and Insert (R113, R114) -/

/-- `Remove` changes the table and the list only. -/
theorem removeAlarm_eq (i : Nat) (s : State) :
    removeAlarm i s = { s with alarms := (removeAlarm i s).alarms, alist := (removeAlarm i s).alist } := rfl

/-- `Insert` changes the table and the list only. -/
theorem insertAlarm_eq (i : Nat) (s : State) :
    insertAlarm i s = { s with alarms := (insertAlarm i s).alarms, alist := (insertAlarm i s).alist } := rfl

/-- Taking out an alarm that stands once in the list leaves what stood around it, in order. -/
theorem removeAlarm_alist_of_split (i : Nat) (s : State) (l1 l2 : List Nat) (h : s.alist = l1 ++ i :: l2)
    (h1 : i ∉ l1) (h2 : i ∉ l2) : (removeAlarm i s).alist = l1 ++ l2 := by
  rw [removeAlarm_alist, h, List.filter_append, List.filter_cons_of_neg (by simp), filter_ne_of_notMem l1 i h1,
    filter_ne_of_notMem l2 i h2]

/-- Settles O16. -/
theorem removeUnlinksAndMarksIdle : Obligations.RemoveUnlinksAndMarksIdle := by
  intro s i
  refine ⟨?_, removeAlarm_alist_of_split i s, filter_ne_of_notMem s.alist i, removeAlarm_alarm_self i s,
    removeAlarm_alarm_ne i s, removeAlarm_eq i s⟩
  rw [mem_removeAlarm]
  exact fun h => h.2 rfl

/-- Settles O17: the list is cut where `insertByTime` puts the alarm. -/
theorem insertGoesBeforeTheFirstLaterDeadline : Obligations.InsertGoesBeforeTheFirstLaterDeadline := by
  intro s i hi _
  obtain ⟨l1, l2, hl, hins, hbefore, hbehind⟩ :=
    insertByTime_split (fun e => (s.alarm e).when) (s.alarm i).when i s.alist
  exact ⟨l1, l2, hl, hins, fun e he => (timeAfter_eq_false_iff _ _).1 (hbefore e he),
    fun e he => (timeAfter_iff _ _).1 (hbehind e he), insertAlarm_alarm_self i s hi, insertAlarm_alarm_ne i s,
    insertAlarm_eq i s⟩

/-! ### The index check (R112) -/

/-- An index from N_ALARMS on is no host alarm's. -/
theorem hostAlarm_eq_false_iff (s : State) (a : Byte) : hostAlarm s a = false ↔ s.cfg.nAlarms.toNat ≤ a.toNat := by
  rw [hostAlarm, decide_eq_false_iff_not, not_lt]

/-- ALARM_INIT refuses a foreign index. -/
theorem exec_alarmInit_of_foreign (s : State) (a : Byte) (cb : Half) (w : Word)
    (h : s.cfg.nAlarms.toNat ≤ a.toNat) : exec (.alarmInit a cb w) s = .next (answered s 0x10 .badArg 0) :=
  if_pos ((hostAlarm_eq_false_iff s a).2 h)

/-- ALARM_SCHED refuses a foreign index. -/
theorem exec_alarmSched_of_foreign (s : State) (a : Byte) (w : Word) (h : s.cfg.nAlarms.toNat ≤ a.toNat) :
    exec (.alarmSched a w) s = .next (answered s 0x11 .badArg 0) :=
  if_pos ((hostAlarm_eq_false_iff s a).2 h)

/-- ALARM_CANCEL refuses a foreign index. -/
theorem exec_alarmCancel_of_foreign (s : State) (a : Byte) (h : s.cfg.nAlarms.toNat ≤ a.toNat) :
    exec (.alarmCancel a) s = .next (answered s 0x12 .badArg 0) :=
  if_pos ((hostAlarm_eq_false_iff s a).2 h)

/-- Settles O18. -/
theorem alarmCommandsRefuseForeignIndices : Obligations.AlarmCommandsRefuseForeignIndices := fun s a cb w h =>
  ⟨exec_alarmInit_of_foreign s a cb w h, exec_alarmSched_of_foreign s a w h, exec_alarmCancel_of_foreign s a h⟩

/-! ### The words of the commands (R82) -/

/-- Two fields side by side are zero when each is. -/
theorem append_eq_zero_iff {m n : Nat} (x : BitVec m) (y : BitVec n) : x ++ y = 0#(m + n) ↔ x = 0#m ∧ y = 0#n := by
  constructor
  · intro h
    constructor
    · rw [← BitVec.extractLsb'_append_eq_left (a := x) (b := y), h, BitVec.extractLsb'_zero]
    · rw [← BitVec.extractLsb'_append_eq_right (a := x) (b := y), h, BitVec.extractLsb'_zero]
  · rintro ⟨rfl, rfl⟩
    exact BitVec.zero_append_zero

/-- B and W of a word are zero when all its bits from 16 on are. -/
theorem extract_b_w_eq_zero_iff (c : DWord) :
    c.extractLsb' 16 48 = 0 ↔ c.extractLsb' 16 16 = 0 ∧ c.extractLsb' 32 32 = 0 := by
  rw [← BitVec.extractLsb'_append_extractLsb'_eq_extractLsb' (start₂ := 32) (len₁ := 16) (len₂ := 32) rfl]
  exact (append_eq_zero_iff _ _).trans and_comm

/-- A and B of a word are zero when its bits 8 to 31 are. -/
theorem extract_a_b_eq_zero_iff (c : DWord) :
    c.extractLsb' 8 24 = 0 ↔ c.extractLsb' 8 8 = 0 ∧ c.extractLsb' 16 16 = 0 := by
  rw [← BitVec.extractLsb'_append_extractLsb'_eq_extractLsb' (start₂ := 16) (len₁ := 8) (len₂ := 16) rfl]
  exact (append_eq_zero_iff _ _).trans and_comm

/-- A word is its bare opcode when its other fields are zero. -/
theorem eq_bareWord_iff (c : DWord) (op : Byte) (h : c.extractLsb' 0 8 = op) :
    c = joinWord ⟨op, 0, 0, 0⟩
      ↔ c.extractLsb' 8 8 = 0 ∧ c.extractLsb' 16 16 = 0 ∧ c.extractLsb' 32 32 = 0 := by
  rw [← Function.Injective.eq_iff (f := splitWord) splitWord_inj, splitWord_joinWord]
  simp [splitWord, h]

/-- Decoding goes by the opcode and the other three fields. -/
theorem decode_of_op (c : DWord) (op : Byte) (h : c.extractLsb' 0 8 = op) :
    decode c = decodeFields ⟨op, c.extractLsb' 8 8, c.extractLsb' 16 16, c.extractLsb' 32 32⟩ := by
  subst h
  rfl

/-- The check of the must-be-zero fields, with what it checks as a proposition. -/
theorem ifZero_eq_ite {zero : Bool} {p : Prop} [Decidable p] (h : zero = true ↔ p) (i : Instr) :
    ifZero zero i = if p then .ok i else .reservedField := by
  simp only [ifZero, h]

/-- A command without operands is its bare opcode; with anything else in the word it is rejected. -/
theorem decode_of_bare_command (op : Byte) (i : Instr)
    (hd : ∀ a b w, decodeFields ⟨op, a, b, w⟩ = ifZero (a == 0 && b == 0 && w == 0) i) (c : DWord)
    (h : c.extractLsb' 0 8 = op) :
    decode c = if c = joinWord ⟨op, 0, 0, 0⟩ then .ok i else .reservedField := by
  rw [decode_of_op c op h, hd]
  exact ifZero_eq_ite (by rw [eq_bareWord_iff c op h]; simp [and_assoc]) i

/-- The words of ALARM_CANCEL. -/
theorem decode_alarmCancel (c : DWord) (h : c.extractLsb' 0 8 = 0x12) :
    decode c = if c.extractLsb' 16 48 = 0 then .ok (.alarmCancel (c.extractLsb' 8 8)) else .reservedField := by
  rw [decode_of_op c 0x12 h]
  exact ifZero_eq_ite (by rw [extract_b_w_eq_zero_iff]; simp) (.alarmCancel (c.extractLsb' 8 8))

/-- The word of ALARM_PEEK. -/
theorem decode_alarmPeek (c : DWord) (h : c.extractLsb' 0 8 = 0x14) :
    decode c = if c = 0x14 then .ok .alarmPeek else .reservedField :=
  decode_of_bare_command 0x14 .alarmPeek (fun _ _ _ => rfl) c h

/-- The word of ALARM_HASPENDING. -/
theorem decode_alarmHasPending (c : DWord) (h : c.extractLsb' 0 8 = 0x15) :
    decode c = if c = 0x15 then .ok .alarmHasPending else .reservedField :=
  decode_of_bare_command 0x15 .alarmHasPending (fun _ _ _ => rfl) c h

/-- The words of ALARM_HASREADY. -/
theorem decode_alarmHasReady (c : DWord) (h : c.extractLsb' 0 8 = 0x16) :
    decode c = if c.extractLsb' 8 24 = 0 then .ok (.alarmHasReady (c.extractLsb' 32 32)) else .reservedField := by
  rw [decode_of_op c 0x16 h]
  exact ifZero_eq_ite (by rw [extract_a_b_eq_zero_iff]; simp) (.alarmHasReady (c.extractLsb' 32 32))

/-! ### ALARM_CANCEL (R118) -/

/-- Whether an alarm is SCHEDULED, as the value of a response. -/
theorem boolWord_scheduled (st : AlarmState) : boolWord (st == .scheduled) = if st = .scheduled then 1 else 0 := by
  cases st <;> rfl

/-- Cancelling a host alarm removes it and answers whether it was scheduled. -/
theorem exec_alarmCancel_of_host (s : State) (a : Byte) (h : a.toNat < s.cfg.nAlarms.toNat) :
    exec (.alarmCancel a) s = .next (answered (removeAlarm a.toNat s) 0x12 .ok
      (if (s.alarm a.toNat).state = .scheduled then 1 else 0)) := by
  have hhost : ¬ hostAlarm s a = false := fun hf => absurd ((hostAlarm_eq_false_iff s a).1 hf) (not_le.2 h)
  rw [← boolWord_scheduled]
  exact if_neg hhost

/-- Settles O21: the cancelled state is `Remove`'s, with the answer behind the responses so far. -/
theorem alarmCancelUnlinksAndReports : Obligations.AlarmCancelUnlinksAndReports := by
  refine ⟨fun s a => ⟨exec_alarmCancel_of_foreign s a, fun h => ?_⟩, decode_alarmCancel⟩
  exact ⟨_, exec_alarmCancel_of_host s a h, removeAlarm_alarm_self a.toNat s, removeAlarm_alarm_ne a.toNat s,
    removeAlarm_alist a.toNat s, removeAlarm_bufferByte a.toNat s, rfl⟩

/-! ### The queries (R126, R127, R128) -/

/-- ALARM_PEEK of an empty list. -/
theorem exec_alarmPeek_of_nil (s : State) (h : s.alist = []) :
    exec .alarmPeek s = .next (answered s 0x14 .empty 0) := by
  show execAlarmPeek s = _
  rw [execAlarmPeek, h]
  rfl

/-- ALARM_PEEK answers the head's deadline. -/
theorem exec_alarmPeek_of_cons (s : State) (a : Nat) (l : List Nat) (h : s.alist = a :: l) :
    exec .alarmPeek s = .next (answered s 0x14 .ok (s.alarm a).when) := by
  show execAlarmPeek s = _
  rw [execAlarmPeek, h]
  rfl

/-- ALARM_HASPENDING answers `hasPending`. -/
theorem exec_alarmHasPending (s : State) (b : Bool) (h : s.hasPending = b) :
    exec .alarmHasPending s = .next (answered s 0x15 .ok (boolWord b)) := h ▸ rfl

/-- ALARM_HASREADY answers `hasReady`. -/
theorem exec_alarmHasReady (s : State) (now : Word) (b : Bool) (h : s.hasReady now = b) :
    exec (.alarmHasReady now) s = .next (answered s 0x16 .ok (boolWord b)) := h ▸ rfl

/-- Nothing is ready in an empty list. -/
theorem hasReady_of_nil (s : State) (now : Word) (h : s.alist = []) : s.hasReady now = false := by
  simp [State.hasReady, h]

/-- Something is ready when the head is. -/
theorem hasReady_of_cons (s : State) (now : Word) (a : Nat) (l : List Nat) (h : s.alist = a :: l) :
    s.hasReady now = s.ready a now := by
  simp [State.hasReady, h]

/-- Settles O22: each query by what stands at the head. -/
theorem alarmQueriesAnswerFromTheHead : Obligations.AlarmQueriesAnswerFromTheHead := by
  refine ⟨fun s h => ⟨?_, ?_, fun now => ?_⟩, fun s a l h => ⟨?_, ?_, fun now => ⟨fun hlater => ?_, fun hdue => ?_⟩⟩,
    decode_alarmPeek, decode_alarmHasPending, decode_alarmHasReady⟩
  · exact exec_alarmPeek_of_nil s h
  · exact exec_alarmHasPending s false (by simp [State.hasPending, h])
  · exact exec_alarmHasReady s now false (hasReady_of_nil s now h)
  · exact exec_alarmPeek_of_cons s a l h
  · exact exec_alarmHasPending s true (by simp [State.hasPending, h])
  · refine exec_alarmHasReady s now false ?_
    rw [hasReady_of_cons s now a l h, ← Bool.not_eq_true, ready_iff, not_not]
    exact hlater
  · refine exec_alarmHasReady s now true ?_
    rw [hasReady_of_cons s now a l h, ready_iff]
    exact hdue

end Sys2Proof.Machine

/-! SUPPORT. The address model (spec/41_address.md): the two predicates on the value (R142, R143), a triple in a
register group (R26, R31), and the commands that stage, classify and compare addresses (R145 to R147), with the
selectors and the words they are (R82, R83). -/

namespace Sys2Proof.Machine

/-! ### The two predicates (R142, R143) -/

/-- A short address is broadcast when its value is in the upper half (R142). -/
theorem isBroadcast_short (v : Half) : isBroadcast (.short v) = true ↔ 0x8000 ≤ v.toNat := by
  show v.msb = true ↔ _
  rw [BitVec.msb_eq_decide, decide_eq_true_iff]

/-- No long address is broadcast (R142). -/
@[simp] theorem isBroadcast_long (v : DWord) : isBroadcast (.long v) = false := rfl

/-- A word is 0 when its number is. -/
theorem beq_zero_iff_toNat {n : Nat} (v : BitVec n) : (v == 0) = true ↔ v.toNat = 0 := by
  rw [beq_iff_eq, ← BitVec.toNat_inj]
  simp

/-- A short address is unspecified when its value is 0 (R143). -/
theorem isUnspecified_short (v : Half) : isUnspecified (.short v) = true ↔ v.toNat = 0 := beq_zero_iff_toNat v

/-- A long address is unspecified when its value is 0 (R143). -/
theorem isUnspecified_long (v : DWord) : isUnspecified (.long v) = true ↔ v.toNat = 0 := beq_zero_iff_toNat v

/-- Settles O29: both predicates compare the value, and no short value is in both ranges. -/
theorem addressPredicatesLookAtTheValue : Obligations.AddressPredicatesLookAtTheValue := by
  refine ⟨isBroadcast_short, isBroadcast_long, isUnspecified_short, isUnspecified_long, ?_, ?_⟩
  · intro v
    rw [isBroadcast_short, isUnspecified_short]
    omega
  · intro v hlow hhigh
    rw [← Bool.not_eq_true, ← Bool.not_eq_true, isBroadcast_short, isUnspecified_short]
    omega

/-! ### Triples of a register group (R26, R31) -/

/-- Every triple of a group of which one was replaced. -/
theorem triple_setTriple (r : DescRegs) (f g : AddrField) (t : AddrRegs) :
    (r.setTriple f t).triple g = if g = f then t else r.triple g := by
  cases f <;> cases g <;> rfl

@[simp] theorem triple_setTriple_same (r : DescRegs) (f : AddrField) (t : AddrRegs) :
    (r.setTriple f t).triple f = t := by
  rw [triple_setTriple, if_pos rfl]

theorem triple_setTriple_of_ne (r : DescRegs) (f g : AddrField) (t : AddrRegs) (h : g ≠ f) :
    (r.setTriple f t).triple g = r.triple g := by
  rw [triple_setTriple, if_neg h]

/-! `DescRegs.setTriple` leaves the rest of the group. -/

@[simp] theorem setTriple_ports (r : DescRegs) (f : AddrField) (t : AddrRegs) :
    (r.setTriple f t).ports = r.ports := by cases f <;> rfl
@[simp] theorem setTriple_fields (r : DescRegs) (f : AddrField) (t : AddrRegs) :
    (r.setTriple f t).fields = r.fields := by cases f <;> rfl
@[simp] theorem setTriple_flags (r : DescRegs) (f : AddrField) (t : AddrRegs) :
    (r.setTriple f t).flags = r.flags := by cases f <;> rfl
@[simp] theorem setTriple_sendTime (r : DescRegs) (f : AddrField) (t : AddrRegs) :
    (r.setTriple f t).sendTime = r.sendTime := by cases f <;> rfl

/-- `Triple(ShortAddr(n))` is TAG 0, LO the zero-extended n, HI 0 (R145). -/
theorem triple_short (v : Half) : triple (.short v) = ⟨0, 0#16 ++ v, 0⟩ := by
  rw [triple, BitVec.zeroExtend, BitVec.setWidth_eq_append (by decide)]
  rfl

/-- A triple with TAG bit 0 clear holds a short address in every build (R26). -/
theorem addrOf_of_tag_clear (c : Config) (r : AddrRegs) (h : r.tag.getLsbD 0 = false) :
    addrOf c r = .short (r.lo.extractLsb' 0 16) :=
  if_pos (Or.inr h)

/-- A short address reads back from its triple in every build (R26). -/
@[simp] theorem addrOf_triple_short (c : Config) (v : Half) : addrOf c (triple (.short v)) = .short v := by
  rw [triple_short, addrOf_of_tag_clear c _ BitVec.getLsbD_zero, BitVec.extractLsb'_append_eq_right]

/-- `s` with the address of selector `f` in TXINFO replaced by a short one: what ADDR_MAKE stages (R145). -/
def stageShort (s : State) (f : AddrField) (v : Half) : State :=
  { s with txinfo := s.txinfo.setTriple f (triple (.short v)) }

/-- Staging an address touches neither buffer. -/
theorem stageShort_sameBytes (s : State) (f : AddrField) (v : Half) : SameBytes s (stageShort s f v) := by
  intro b a
  cases b <;> rfl

/-! ### The three commands (R145, R146, R147) -/

/-- ADDR_MAKE stages a short address and answers OK (R145). -/
theorem exec_addrMake (f : AddrField) (v : Half) (s : State) :
    exec (.addrMake f v) s = .next (answered (stageShort s f v) 0x20 .ok 0) := rfl

/-- The value of ADDR_CLASS, from the answers of the two predicates. -/
theorem addrClassWord_of_predicates {a : Address} {u b : Bool} (hu : isUnspecified a = u) (hb : isBroadcast a = b) :
    addrClassWord a = 0#30 ++ BitVec.ofBool u ++ BitVec.ofBool b := by
  rw [addrClassWord, hu, hb]

/-- The class of a short address (R146): 2 unspecified, 1 broadcast, 0 neither. -/
theorem addrClassWord_short (v : Half) :
    addrClassWord (.short v) = if v.toNat = 0 then 2 else if 0x8000 ≤ v.toNat then 1 else 0 := by
  have hu : isUnspecified (.short v) = decide (v.toNat = 0) := by
    rw [Bool.eq_iff_iff, isUnspecified_short, decide_eq_true_iff]
  have hb : isBroadcast (.short v) = decide (0x8000 ≤ v.toNat) := by
    rw [Bool.eq_iff_iff, isBroadcast_short, decide_eq_true_iff]
  rw [addrClassWord_of_predicates hu hb]
  by_cases hzero : v.toNat = 0
  · simp [hzero]
  · by_cases hhigh : 0x8000 ≤ v.toNat <;> simp [hzero, hhigh]

/-- The class of a long address (R146): 2 unspecified, 0 otherwise. -/
theorem addrClassWord_long (v : DWord) : addrClassWord (.long v) = if v.toNat = 0 then 2 else 0 := by
  have hu : isUnspecified (.long v) = decide (v.toNat = 0) := by
    rw [Bool.eq_iff_iff, isUnspecified_long, decide_eq_true_iff]
  rw [addrClassWord_of_predicates hu (isBroadcast_long v)]
  by_cases hzero : v.toNat = 0 <;> simp [hzero]

/-- ADDR_CLASS only answers, by the class of the selected address (R146). -/
theorem exec_addrClass (sel : AddrSel) (s : State) :
    exec (.addrClass sel) s = .next (answered s 0x21 .ok (addrClassWord (selectedAddr s sel))) := rfl

/-- ADDR_EQ only answers, whether the selected addresses are the same (R147). -/
theorem exec_addrEq (sel1 sel2 : AddrSel) (s : State) :
    exec (.addrEq sel1 sel2) s
      = .next (answered s 0x22 .ok (if selectedAddr s sel1 = selectedAddr s sel2 then 1 else 0)) := by
  have hword : boolWord (addrEq (selectedAddr s sel1) (selectedAddr s sel2))
      = if selectedAddr s sel1 = selectedAddr s sel2 then 1 else 0 := by
    simp only [boolWord, addrEq, beq_iff_eq]
  rw [← hword]
  rfl

/-! ### The words of the commands (R82, R83) -/

/-- Bit 2 of a selector chooses the group (R83), the low bits the address. -/
theorem addrSelOf_append (b : BitVec 1) (n : BitVec 2) :
    addrSelOf (b ++ n) = if b.getLsbD 0 then .pinfo (addrFieldOf n) else .txinfo (addrFieldOf n) := by
  have hbit : (b ++ n).getLsbD 2 = b.getLsbD 0 := BitVec.getLsbD_append
  rw [addrSelOf, BitVec.extractLsb'_append_eq_right, hbit]

/-- A field of a field is a field of the whole word. -/
theorem extractLsb'_extractLsb' {n : Nat} (x : BitVec n) (s₁ l₁ s₂ l₂ : Nat) (h : s₂ + l₂ ≤ l₁) :
    (x.extractLsb' s₁ l₁).extractLsb' s₂ l₂ = x.extractLsb' (s₁ + s₂) l₂ := by
  ext i hi
  have hlt : s₂ + i < l₁ := by omega
  simp [hlt, Nat.add_assoc]

/-- A field is zero when its lower and its upper part are. -/
theorem extractLsb'_add_eq_zero_iff {n : Nat} (x : BitVec n) (start lo hi : Nat) :
    x.extractLsb' start (hi + lo) = 0 ↔ x.extractLsb' start lo = 0 ∧ x.extractLsb' (start + lo) hi = 0 := by
  rw [← BitVec.extractLsb'_append_extractLsb'_eq_extractLsb' (start₂ := start + lo) rfl]
  exact (append_eq_zero_iff _ _).trans and_comm

/-- The words of ADDR_MAKE. -/
theorem decode_addrMake (c : DWord) (h : c.extractLsb' 0 8 = 0x20) :
    decode c = if c.extractLsb' 10 6 = 0 ∧ c.extractLsb' 32 32 = 0 then
        .ok (.addrMake (addrFieldOf (c.extractLsb' 8 2)) (c.extractLsb' 16 16))
      else .reservedField := by
  have hsel : (c.extractLsb' 8 8).extractLsb' 0 2 = c.extractLsb' 8 2 := extractLsb'_extractLsb' c 8 8 0 2 (by decide)
  have hres : (c.extractLsb' 8 8).extractLsb' 2 6 = c.extractLsb' 10 6 := extractLsb'_extractLsb' c 8 8 2 6 (by decide)
  rw [decode_of_op c 0x20 h, ← hsel, ← hres]
  exact ifZero_eq_ite (by simp) (.addrMake _ _)

/-- The words of ADDR_CLASS. -/
theorem decode_addrClass (c : DWord) (h : c.extractLsb' 0 8 = 0x21) :
    decode c =
      if c.extractLsb' 11 53 = 0 then .ok (.addrClass (addrSelOf (c.extractLsb' 8 3))) else .reservedField := by
  have hsel : (c.extractLsb' 8 8).extractLsb' 0 3 = c.extractLsb' 8 3 := extractLsb'_extractLsb' c 8 8 0 3 (by decide)
  have hres : (c.extractLsb' 8 8).extractLsb' 3 5 = c.extractLsb' 11 5 := extractLsb'_extractLsb' c 8 8 3 5 (by decide)
  have hzero : c.extractLsb' 11 53 = 0
      ↔ c.extractLsb' 11 5 = 0 ∧ c.extractLsb' 16 16 = 0 ∧ c.extractLsb' 32 32 = 0 := by
    rw [← extract_b_w_eq_zero_iff]
    exact extractLsb'_add_eq_zero_iff c 11 5 48
  rw [decode_of_op c 0x21 h, ← hsel]
  exact ifZero_eq_ite (by rw [hzero, ← hres]; simp [and_assoc]) (.addrClass _)

/-- The words of ADDR_EQ. -/
theorem decode_addrEq (c : DWord) (h : c.extractLsb' 0 8 = 0x22) :
    decode c = if c.extractLsb' 11 5 = 0 ∧ c.extractLsb' 19 45 = 0 then
        .ok (.addrEq (addrSelOf (c.extractLsb' 8 3)) (addrSelOf (c.extractLsb' 16 3)))
      else .reservedField := by
  have hsel₁ : (c.extractLsb' 8 8).extractLsb' 0 3 = c.extractLsb' 8 3 :=
    extractLsb'_extractLsb' c 8 8 0 3 (by decide)
  have hsel₂ : (c.extractLsb' 16 16).extractLsb' 0 3 = c.extractLsb' 16 3 :=
    extractLsb'_extractLsb' c 16 16 0 3 (by decide)
  have hresA : (c.extractLsb' 8 8).extractLsb' 3 5 = c.extractLsb' 11 5 :=
    extractLsb'_extractLsb' c 8 8 3 5 (by decide)
  have hresB : (c.extractLsb' 16 16).extractLsb' 3 13 = c.extractLsb' 19 13 :=
    extractLsb'_extractLsb' c 16 16 3 13 (by decide)
  have hzero : c.extractLsb' 19 45 = 0 ↔ c.extractLsb' 19 13 = 0 ∧ c.extractLsb' 32 32 = 0 :=
    extractLsb'_add_eq_zero_iff c 19 13 32
  rw [decode_of_op c 0x22 h, ← hsel₁, ← hsel₂]
  exact ifZero_eq_ite (by rw [hzero, ← hresA, ← hresB]; simp [and_assoc]) (.addrEq _ _)

/-- Settles O31: the selectors by name, the three commands by their answers, and their words. -/
theorem addressCommandsStageAndCompare : Obligations.AddressCommandsStageAndCompare := by
  refine ⟨fun s => ⟨⟨rfl, rfl, rfl, rfl, rfl, rfl, rfl, rfl, fun _ => ⟨rfl, rfl, rfl, rfl⟩⟩, fun f v => ?_,
      fun sel => ⟨fun v hsel => ?_, fun v hsel => ?_⟩, fun sel1 sel2 => exec_addrEq sel1 sel2 s⟩,
    rfl, fun n => ⟨addrSelOf_append 0 n, addrSelOf_append 1 n⟩, decode_addrMake, decode_addrClass, decode_addrEq⟩
  · refine ⟨answered (stageShort s f v) 0x20 .ok 0, exec_addrMake f v s, ?_, ?_, fun g hg => ?_, ?_, ?_, ?_, ?_,
      stageShort_sameBytes s f v, rfl⟩
    · exact (triple_setTriple_same _ _ _).trans (triple_short v)
    · show addrOf s.cfg ((s.txinfo.setTriple f (triple (.short v))).triple f) = .short v
      rw [triple_setTriple_same, addrOf_triple_short]
    · exact triple_setTriple_of_ne _ _ _ _ hg
    · exact setTriple_ports _ _ _
    · exact setTriple_fields _ _ _
    · exact setTriple_flags _ _ _
    · exact setTriple_sendTime _ _ _
  · rw [exec_addrClass, hsel, addrClassWord_short]
  · rw [exec_addrClass, hsel, addrClassWord_long]

end Sys2Proof.Machine

/-! SUPPORT. Building a header (spec/42_codec.md sections 1 and 2): the kinds and the bytes of an address as the
statements name them, when `Build` rejects and what the two commands that meet it then answer (R159), and the length
of a header, by its fields and by its own flag bytes (R162, R163). -/

namespace Sys2Proof.Machine

/-! ### The kind of an address (R152, R158) -/

/-- The code of an address's kind is its kind number. -/
@[simp] theorem kindCode_kindOf (a : Address) : kindCode (kindOf a) = builtKind a := by
  unfold kindOf builtKind
  split
  · rfl
  · cases a <;> rfl

/-- The kind numbers are 0, 1 and 2. -/
theorem builtKind_le (a : Address) : builtKind a ≤ 2 := by
  rw [← kindCode_kindOf]
  cases kindOf a <;> decide

/-- The long kind is the one with code 2. -/
theorem kindOf_eq_long_iff_builtKind (a : Address) : kindOf a = .long ↔ builtKind a = 2 := by
  rw [← kindCode_kindOf]
  cases kindOf a <;> simp [kindCode]

/-- An address is of the long kind when it has the long form and is specified. -/
theorem kindOf_eq_long_iff (a : Address) : kindOf a = .long ↔ ∃ v : DWord, a = .long v ∧ v ≠ 0 := by
  cases a with
  | short v =>
    unfold kindOf
    split <;> simp
  | long v => simp [kindOf, isUnspecified]

/-- A short address is never of the long kind. -/
theorem kindOf_short_ne_long (v : Half) : kindOf (.short v) ≠ .long := by
  simp [kindOf_eq_long_iff]

/-- The width of an address with a given kind code. -/
theorem kindWidth_kindOfCode (n : Nat) : kindWidth (kindOfCode n) = widthOfKind n := by
  unfold kindOfCode widthOfKind
  split
  · rfl
  · split <;> rfl

/-- No address takes more than 8 bytes. -/
theorem kindWidth_le (k : AddrKind) : kindWidth k ≤ 8 := by
  cases k <;> decide

/-- An address that is not long takes 2 bytes at most. -/
theorem kindWidth_le_of_ne_long (k : AddrKind) (h : k ≠ .long) : kindWidth k ≤ 2 := by
  cases k with
  | absent => decide
  | short => decide
  | long => exact absurd rfl h

/-- Two addresses that are not both long take 10 bytes at most. -/
theorem kindWidth_add_le (k l : AddrKind) (h : ¬ (k = .long ∧ l = .long)) : kindWidth k + kindWidth l ≤ 10 := by
  have hk := kindWidth_le k
  have hl := kindWidth_le l
  obtain hne | hne := not_and_or.1 h
  · have := kindWidth_le_of_ne_long k hne
    omega
  · have := kindWidth_le_of_ne_long l hne
    omega

/-! ### The serialized addresses (R156) -/

/-- A descriptor whose two source addresses are short serializes no long source. -/
theorem kindOf_hdrSrc_ne_long (x : Descriptor) (v w : Half) (himm : x.immedSrc = .short v)
    (horig : x.originalSrc = .short w) : kindOf (hdrSrc x) ≠ .long := by
  rw [hdrSrc, himm, horig]
  split <;> exact kindOf_short_ne_long _

/-- A descriptor whose two destination addresses are short serializes no long destination. -/
theorem kindOf_hdrDst_ne_long (x : Descriptor) (v w : Half) (himm : x.immedDst = .short v)
    (horig : x.originalDst = .short w) : kindOf (hdrDst x) ≠ .long := by
  rw [hdrDst, himm, horig]
  split <;> exact kindOf_short_ne_long _

/-- Without long addresses every triple holds a short one (R26). -/
theorem addrOf_of_not_longAddr (c : Config) (r : AddrRegs) (h : c.longAddr = false) :
    addrOf c r = .short (r.lo.extractLsb' 0 16) :=
  if_pos (Or.inl h)

/-- Without long addresses the staged descriptor serializes no long source. -/
theorem kindOf_hdrSrc_descOf_ne_long (c : Config) (r : DescRegs) (h : c.longAddr = false) :
    kindOf (hdrSrc (descOf c r)) ≠ .long :=
  kindOf_hdrSrc_ne_long _ _ _ (addrOf_of_not_longAddr c r.immedSrc h) (addrOf_of_not_longAddr c r.originalSrc h)

/-- Without long addresses the staged descriptor serializes no long destination. -/
theorem kindOf_hdrDst_descOf_ne_long (c : Config) (r : DescRegs) (h : c.longAddr = false) :
    kindOf (hdrDst (descOf c r)) ≠ .long :=
  kindOf_hdrDst_ne_long _ _ _ (addrOf_of_not_longAddr c r.immedDst h) (addrOf_of_not_longAddr c r.originalDst h)

/-- MAC_SEND's descriptor serializes no long source: it comes from LOCAL_SHORT. -/
theorem kindOf_hdrSrc_macSendPacket_ne_long (s : State) (staged ack : Bool) (dst : Half) :
    kindOf (hdrSrc (macSendPacket s staged ack dst)) ≠ .long :=
  kindOf_hdrSrc_ne_long _ _ _ rfl rfl

/-! ### When `Build` rejects (R159) -/

/-- `Build` rejects exactly two long addresses. -/
theorem buildHeader_eq_none_iff (x : Descriptor) :
    buildHeader x = none ↔ kindOf (hdrSrc x) = .long ∧ kindOf (hdrDst x) = .long := by
  unfold buildHeader
  split <;> simp [*]

/-- Every other descriptor builds, to `headerBytes`. -/
theorem buildHeader_eq_some_iff (x : Descriptor) (h : List Byte) :
    buildHeader x = some h ↔ ¬ (kindOf (hdrSrc x) = .long ∧ kindOf (hdrDst x) = .long) ∧ headerBytes x = h := by
  unfold buildHeader
  split <;> simp [*]

/-- A descriptor without a long source builds. -/
theorem buildHeader_ne_none_of_src (x : Descriptor) (h : kindOf (hdrSrc x) ≠ .long) : buildHeader x ≠ none :=
  fun hnone => h ((buildHeader_eq_none_iff x).1 hnone).1

/-- HDR_BUILD of a descriptor that `Build` rejects (R166). -/
theorem exec_hdrBuild_of_reject (s : State) (h : buildHeader (descOf s.cfg s.txinfo) = none) :
    exec .hdrBuild s = .next (answered s 0x30 .invalidAddrCombination 0) := by
  show execHdrBuild s = _
  rw [execHdrBuild, h]
  rfl

/-- `Accept` of a descriptor that `Build` rejects, when the checks before the build pass (R183). -/
theorem accept_of_reject (x : Descriptor) (n : Nat) (s : State) (hinit : s.macInited = true)
    (hlen : n ≤ s.cfg.bufSize.toNat) (h : buildHeader x = none) :
    accept x n s = .rejected .invalidAddrCombination := by
  simp [accept, hinit, Nat.not_lt.2 hlen, h]

/-- MAC_SEND_EX of a descriptor that `Build` rejects, when the checks before the build pass (R185). -/
theorem exec_macSendEx_of_reject (s : State) (n : Half) (hinit : s.macInited = true)
    (hlen : n.toNat ≤ s.cfg.bufSize.toNat) (h : buildHeader (descOf s.cfg s.txinfo) = none) :
    exec (.macSendEx n) s = .next (answered s 0x42 .invalidAddrCombination 0) := by
  show execMacSendEx n s = _
  rw [execMacSendEx, accept_of_reject _ _ s hinit hlen h]
  rfl

/-- Settles O34: the rejected descriptors by their serialized addresses, and where those come from. -/
theorem onlyTwoLongAddressesAreRejected : Obligations.OnlyTwoLongAddressesAreRejected := by
  refine ⟨fun x => ?_, fun c r hc => ?_, fun s staged ack dst => ?_, fun s hs => ⟨?_, fun n hinit hlen => ?_⟩⟩
  · rw [buildHeader_eq_none_iff, kindOf_eq_long_iff, kindOf_eq_long_iff]
    constructor
    · rintro ⟨⟨v, hv, hv0⟩, w, hw, hw0⟩
      exact ⟨v, w, hv, hw, hv0, hw0⟩
    · rintro ⟨v, w, hv, hw, hv0, hw0⟩
      exact ⟨⟨v, hv, hv0⟩, w, hw, hw0⟩
  · exact buildHeader_ne_none_of_src _ (kindOf_hdrSrc_descOf_ne_long c r hc)
  · exact buildHeader_ne_none_of_src _ (kindOf_hdrSrc_macSendPacket_ne_long s staged ack dst)
  · exact exec_hdrBuild_of_reject s hs
  · exact exec_macSendEx_of_reject s n hinit hlen hs

/-! ### The bytes of the fields (R154, R155, R157) -/

/-- A one-byte field is there when it is not 0. -/
theorem optByte_eq_fieldBytes (b : Byte) : optByte b = fieldBytes (b != 0) [b] := by
  unfold optByte
  by_cases h : b = 0
  · simp [h, fieldBytes]
  · rw [if_neg h, bne_iff_ne.2 h]
    rfl

/-- An address is there when its kind is not absent, least significant byte first. -/
theorem addrBytes_eq_fieldBytes (a : Address) : addrBytes a = fieldBytes (builtKind a != 0) (rawBytes a) := by
  unfold addrBytes builtKind
  split
  · rfl
  · cases a <;> rfl

/-- The bytes of a header in R155's order, each field there or not as R157 says. -/
theorem headerBytes_eq_fieldBytes (x : Descriptor) :
    headerBytes x =
      [fcfByte x] ++ fieldBytes (extByte x != 0) [extByte x]
        ++ fieldBytes (builtKind (hdrSrc x) != 0) (rawBytes (hdrSrc x))
        ++ fieldBytes (builtKind (hdrDst x) != 0) (rawBytes (hdrDst x))
        ++ fieldBytes (x.srcPort != 0) [x.srcPort] ++ fieldBytes (x.dstPort != 0) [x.dstPort]
        ++ fieldBytes (x.seqnum != 0) [x.seqnum] ++ fieldBytes (x.cost != 0) [x.cost]
        ++ fieldBytes (x.authType != 0) [x.authType] ++ fieldBytes (x.hopLimit != 0) [x.hopLimit] := by
  simp only [headerBytes, optByte_eq_fieldBytes, addrBytes_eq_fieldBytes]

/-! ### The flag bytes of a built header (R151 to R153) -/

/-- The combination code of two addresses that are not both long fits its three bits. -/
theorem addrCode_toNat (x : Descriptor) (h : ¬ (kindOf (hdrSrc x) = .long ∧ kindOf (hdrDst x) = .long)) :
    (addrCode x).toNat = builtKind (hdrSrc x) + 3 * builtKind (hdrDst x) := by
  rw [addrCode, BitVec.toNat_ofNat, kindCode_kindOf, kindCode_kindOf]
  refine Nat.mod_eq_of_lt ?_
  rw [kindOf_eq_long_iff_builtKind, kindOf_eq_long_iff_builtKind] at h
  have hsrc := builtKind_le (hdrSrc x)
  have hdst := builtKind_le (hdrDst x)
  omega

/-- The two flag bytes together announce the source port when it is not 0 (R157). -/
theorem hasSrcPort_built (x : Descriptor) : hasSrcPort (fcfByte x) (extByte x) = (x.srcPort != 0) := by
  obtain ⟨-, -, -, -, hports, -⟩ := fcfByte_fields x
  obtain ⟨-, -, -, -, -, hsrc, -⟩ := extByte_fields x
  rw [hasSrcPort, hports, hsrc, bothPorts]
  cases x.srcPort != 0 <;> cases x.dstPort != 0 <;> rfl

/-- The two flag bytes together announce the destination port when it is not 0 (R157). -/
theorem hasDstPort_built (x : Descriptor) : hasDstPort (fcfByte x) (extByte x) = (x.dstPort != 0) := by
  obtain ⟨-, -, -, -, hports, -⟩ := fcfByte_fields x
  obtain ⟨-, -, -, -, hdst, -, -⟩ := extByte_fields x
  rw [hasDstPort, hports, hdst, bothPorts]
  cases x.srcPort != 0 <;> cases x.dstPort != 0 <;> rfl

/-! ### The length of a header (R162, R163) -/

/-- `HdrLenOf` is the length the flag bytes imply. -/
theorem hdrLenOf_eq_impliedLength (fcf ext : Byte) : hdrLenOf fcf ext = impliedLength fcf ext := by
  simp only [hdrLenOf, impliedLength, srcKindOf, dstKindOf, kindWidth_kindOfCode, srcKindNumber, dstKindNumber,
    hasSrcPort, hasDstPort]

/-- A built header is as long as its fields. -/
theorem headerBytes_length (x : Descriptor) :
    (headerBytes x).length = 1 + (extByte x != 0).toNat + kindWidth (kindOf (hdrSrc x)) + kindWidth (kindOf (hdrDst x))
      + (x.srcPort != 0).toNat + (x.dstPort != 0).toNat + (x.seqnum != 0).toNat + (x.cost != 0).toNat
      + (x.authType != 0).toNat + (x.hopLimit != 0).toNat := by
  simp only [headerBytes, List.length_append, List.length_singleton, optByte_length, addrBytes_length]

/-- A built header is as long as its own flag bytes say. -/
theorem headerBytes_length_eq_hdrLenOf (x : Descriptor)
    (h : ¬ (kindOf (hdrSrc x) = .long ∧ kindOf (hdrDst x) = .long)) :
    (headerBytes x).length = hdrLenOf (fcfByte x) (extByte x) := by
  obtain ⟨hext, -, hcost, hseq, -, -⟩ := fcfByte_fields x
  obtain ⟨-, -, -, hhop, -, -, hauth⟩ := extByte_fields x
  rw [headerBytes_length, hdrLenOf, srcKindOf_fcfByte x h, dstKindOf_fcfByte x h, hasSrcPort_built, hasDstPort_built,
    hext, hcost, hseq, hhop, hauth]

/-- FCF and EXT, the addresses, and six fields of one byte each. -/
theorem headerBytes_length_le (x : Descriptor) :
    (headerBytes x).length ≤ 8 + (kindWidth (kindOf (hdrSrc x)) + kindWidth (kindOf (hdrDst x))) := by
  have hext := Bool.toNat_le (extByte x != 0)
  have hsrc := Bool.toNat_le (x.srcPort != 0)
  have hdst := Bool.toNat_le (x.dstPort != 0)
  have hseq := Bool.toNat_le (x.seqnum != 0)
  have hcost := Bool.toNat_le (x.cost != 0)
  have hauth := Bool.toNat_le (x.authType != 0)
  have hhop := Bool.toNat_le (x.hopLimit != 0)
  rw [headerBytes_length]
  omega

/-- A header is 1 byte long at least: FCF. -/
theorem one_le_headerBytes_length (x : Descriptor) : 1 ≤ (headerBytes x).length := by
  rw [headerBytes_length]
  omega

/-- A header that builds is 18 bytes long at most. -/
theorem headerBytes_length_le_eighteen (x : Descriptor)
    (h : ¬ (kindOf (hdrSrc x) = .long ∧ kindOf (hdrDst x) = .long)) : (headerBytes x).length ≤ 18 :=
  (headerBytes_length_le x).trans (Nat.add_le_add_left (kindWidth_add_le _ _ h) 8)

/-- A header without a long address is 12 bytes long at most. -/
theorem headerBytes_length_le_twelve (x : Descriptor) (hsrc : kindOf (hdrSrc x) ≠ .long)
    (hdst : kindOf (hdrDst x) ≠ .long) : (headerBytes x).length ≤ 12 :=
  (headerBytes_length_le x).trans
    (Nat.add_le_add_left (Nat.add_le_add (kindWidth_le_of_ne_long _ hsrc) (kindWidth_le_of_ne_long _ hdst)) 8)

/-! ### The longest headers (R163) -/

/-- A long source, a short destination and every other field: 18 header bytes. -/
def fullPacket : Descriptor :=
  { Descriptor.empty with
    originalSrc := .long 1, originalDst := .short 2, srcPort := 3, dstPort := 4, seqnum := 5, cost := 6, authType := 7,
    hopLimit := 8 }

/-- Two short addresses and every other field, as registers: 12 header bytes. -/
def fullShortRegs : DescRegs :=
  { DescRegs.zero with
    originalSrc := ⟨0, 1, 0⟩, originalDst := ⟨0, 2, 0⟩, ports := 0x0403, fields := 0x07080605 }

/-- The header of `fullPacket`. -/
theorem buildHeader_fullPacket :
    buildHeader fullPacket = some [0xBD, 0x09, 1, 0, 0, 0, 0, 0, 0, 0, 2, 0, 3, 4, 5, 6, 7, 8] := by
  decide

/-- The header of `fullShortRegs`. -/
theorem buildHeader_fullShortRegs :
    buildHeader (descOf Config.ref fullShortRegs) = some [0xBC, 0x09, 1, 0, 2, 0, 3, 4, 5, 6, 7, 8] := by
  decide

/-- Settles O33: the layout is that of `headerBytes`, field by field; the bounds are those of its length. -/
theorem builtHeadersHaveTheStatedLayout : Obligations.BuiltHeadersHaveTheStatedLayout := by
  refine ⟨fun x h hbuild => ?_, fun x => ⟨rfl, rfl⟩, fun a => ⟨kindCode_kindOf a, kindOf_eq_long_iff_builtKind a⟩,
    hdrLenOf_eq_impliedLength, fun c r h hc hbuild => ?_, by decide, ⟨_, _, buildHeader_fullPacket, rfl⟩,
    ⟨_, _, buildHeader_fullShortRegs, rfl⟩, fun c => rfl⟩
  · obtain ⟨hkinds, rfl⟩ := (buildHeader_eq_some_iff x h).1 hbuild
    obtain ⟨hext, hack, hcost, hseq, hports, hcode⟩ := fcfByte_fields x
    obtain ⟨hres, hmore, hisAck, hhop, hdst, hsrc, hauth⟩ := extByte_fields x
    refine ⟨one_le_headerBytes_length x, headerBytes_length_le_eighteen x hkinds, fun hs hd => ?_, fcfByte x, extByte x,
      headerBytes_eq_fieldBytes x, ?_, ?_, hports, hseq, hcost, hack, hext, hauth, hsrc, hdst, hhop, hisAck, hmore,
      hres⟩
    · exact headerBytes_length_le_twelve x (mt (kindOf_eq_long_iff_builtKind _).1 hs)
        (mt (kindOf_eq_long_iff_builtKind _).1 hd)
    · rw [headerBytes_length_eq_hdrLenOf x hkinds, hdrLenOf_eq_impliedLength]
    · rw [hcode]
      exact addrCode_toNat x hkinds
  · obtain ⟨-, rfl⟩ := (buildHeader_eq_some_iff _ h).1 hbuild
    exact headerBytes_length_le_twelve _ (kindOf_hdrSrc_descOf_ne_long c r hc) (kindOf_hdrDst_descOf_ne_long c r hc)

end Sys2Proof.Machine


/-! SUPPORT. Receiving a frame (spec/44_mac_rx.md section 1): which destinations pass the address filter (R144, R223),
what the step is on a frame that passes every check (R221 to R224), and the upward delivery of the variants that do not
interpret the flags (R226, R228). -/

namespace Sys2Proof.Machine

/-! ### The address filter (R144, R223) -/

/-- The node's own addresses are the local short one and, in a build with long addresses, the local long one. -/
theorem isLocal_iff (s : State) (d : Address) :
    isLocal s d = true ↔ d = .short s.localShort ∨ (s.cfg.longAddr = true ∧ d = .long s.localLong) := by
  cases d with
  | short v => simp [isLocal]
  | long v => simp [isLocal]

/-- The filter lets exactly the frames for the node through. -/
theorem isLocal_or_isBroadcast_iff_forNode (s : State) (d : Address) :
    (isLocal s d || isBroadcast d) = true ↔ ForNode s d := by
  rw [Bool.or_eq_true, isLocal_iff, ForNode, or_assoc, or_comm (a := isBroadcast d = true)]

/-! ### A frame that passes every check (R221 to R224) -/

/-- After the filter an acknowledgement is matched, in the variant that has them, and any other frame is delivered. -/
theorem receiveParsed_of_forNode (x : Descriptor) (p : List Byte) (s : State) (hfor : ForNode s x.immedDst) :
    receiveParsed x p s
      = if s.cfg.variant = .csmaAck ∧ x.flags.isAck then matchAck x s else deliver x p s := by
  have hpass := (isLocal_or_isBroadcast_iff_forNode s x.immedDst).2 hfor
  rw [receiveParsed, hpass, Bool.not_true, if_neg Bool.false_ne_true]

/-- After MAC_INIT a frame that fits and parses reaches the filter with the bytes behind its header as payload. -/
theorem onRadioRx_of_parseHeader (f : List Byte) (x : Descriptor) (s : State) (hinit : s.macInited = true)
    (hfits : f.length ≤ s.cfg.bufSize.toNat) (hparse : parseHeader s.cfg.longAddr f = some x) :
    onRadioRx f s = receiveParsed x (f.drop x.hdrLen.toNat) s := by
  rw [onRadioRx, if_neg (ne_false_of_eq_true hinit), if_neg (Nat.not_lt.2 hfits), hparse]

/-! ### Upward delivery without acknowledgements (R226, R228) -/

/-- Outside CSMA_ACK the delivery is one output, whatever the frame asks for. -/
theorem deliver_of_variant_ne_csmaAck (x : Descriptor) (p : List Byte) (s : State) (hvar : s.cfg.variant ≠ .csmaAck) :
    deliver x p s = s.emit (.rxDeliver x p) := by
  rw [deliver, if_neg fun h => hvar h.1]

/-- Settles O48: the frame passes the checks and the filter, and outside CSMA_ACK neither the matching nor the
acknowledgement stands before its delivery. -/
theorem otherVariantsDeliverEveryFrame : Obligations.OtherVariantsDeliverEveryFrame := by
  intro s f x hinit hfits hparse hfor hvar
  have hrx : onRadioRx f s = s.emit (.rxDeliver x (f.drop x.hdrLen.toNat)) :=
    calc onRadioRx f s
      _ = receiveParsed x (f.drop x.hdrLen.toNat) s := onRadioRx_of_parseHeader f x s hinit hfits hparse
      _ = deliver x (f.drop x.hdrLen.toNat) s := by
        rw [receiveParsed_of_forNode x _ s hfor, if_neg fun h => hvar h.1]
      _ = s.emit (.rxDeliver x (f.drop x.hdrLen.toNat)) := deliver_of_variant_ne_csmaAck x _ s hvar
  rw [runInput, hrx]
  rfl

end Sys2Proof.Machine


/-! SUPPORT. The commands that only answer (spec/46_port_access.md R250, spec/43_mac_tx.md R206, R207): what NOP,
MAC_POLL and MAC_ISKNOWN append to the responses, and which words they are (R82, R83). -/

namespace Sys2Proof.Machine

/-! ### The answers (R250, R206, R207) -/

/-- NOP answers OK and changes nothing. -/
theorem exec_nop (s : State) : exec .nop s = .next (answered s 0x00 .ok 0) := rfl

/-- MAC_POLL answers how many messages are in the send order and changes nothing. -/
theorem exec_macPoll (s : State) :
    exec .macPoll s = .next (answered s 0x43 .ok (BitVec.ofNat 32 s.order.length)) := rfl

/-- MAC_ISKNOWN answers 1 for every address and changes nothing. -/
theorem exec_macIsKnown (sel : AddrSel) (s : State) :
    exec (.macIsKnown sel) s = .next (answered s 0x44 .ok 1) := rfl

/-! ### The words (R82, R83) -/

/-- What a selector leaves of the word is zero when the rest of A, and all of B and W, are. -/
theorem extract_above_selector_eq_zero_iff (c : DWord) :
    c.extractLsb' 11 53 = 0
      ↔ (c.extractLsb' 8 8).extractLsb' 3 5 = 0 ∧ c.extractLsb' 16 16 = 0 ∧ c.extractLsb' 32 32 = 0 := by
  rw [extractLsb'_extractLsb' c 8 8 3 5 (by decide), ← extract_b_w_eq_zero_iff]
  exact extractLsb'_add_eq_zero_iff c 11 5 48

/-- A command whose one operand is a selector is its opcode with the selector in bits 8 to 10; with anything above
the selector the word is rejected. -/
theorem decode_of_selector_command (op : Byte) (i : AddrSel → Instr)
    (hd : ∀ a b w, decodeFields ⟨op, a, b, w⟩
      = ifZero (a.extractLsb' 3 5 == 0 && b == 0 && w == 0) (i (addrSelOf (a.extractLsb' 0 3))))
    (c : DWord) (h : c.extractLsb' 0 8 = op) :
    decode c = if c.extractLsb' 11 53 = 0 then .ok (i (addrSelOf (c.extractLsb' 8 3))) else .reservedField := by
  have hsel : (c.extractLsb' 8 8).extractLsb' 0 3 = c.extractLsb' 8 3 := extractLsb'_extractLsb' c 8 8 0 3 (by decide)
  rw [decode_of_op c op h, hd, hsel]
  exact ifZero_eq_ite (by rw [extract_above_selector_eq_zero_iff]; simp [and_assoc]) (i _)

/-- The word of NOP. -/
theorem decode_nop (c : DWord) (h : c.extractLsb' 0 8 = 0x00) :
    decode c = if c = 0 then .ok .nop else .reservedField :=
  decode_of_bare_command 0x00 .nop (fun _ _ _ => rfl) c h

/-- The word of MAC_POLL. -/
theorem decode_macPoll (c : DWord) (h : c.extractLsb' 0 8 = 0x43) :
    decode c = if c = 0x43 then .ok .macPoll else .reservedField :=
  decode_of_bare_command 0x43 .macPoll (fun _ _ _ => rfl) c h

/-- The words of MAC_ISKNOWN. -/
theorem decode_macIsKnown (c : DWord) (h : c.extractLsb' 0 8 = 0x44) :
    decode c =
      if c.extractLsb' 11 53 = 0 then .ok (.macIsKnown (addrSelOf (c.extractLsb' 8 3))) else .reservedField :=
  decode_of_selector_command 0x44 .macIsKnown (fun _ _ _ => rfl) c h

/-- Settles O9: each command by its answer, and its words by their fields. -/
theorem nopPollAndIsKnownOnlyAnswer : Obligations.NopPollAndIsKnownOnlyAnswer :=
  ⟨fun s => ⟨exec_nop s, exec_macPoll s, fun sel => exec_macIsKnown sel s⟩,
    decode_nop, decode_macPoll, decode_macIsKnown⟩

end Sys2Proof.Machine

/-! SUPPORT. Encoding and decoding (spec/30_encoding.md R80 to R83): the operand numbers, and that a command and its word
determine each other. -/

namespace Sys2Proof.Machine

/-! ### The numbers of the operands (R83, R254) -/

@[simp] theorem addrFieldOf_addrFieldCode (f : AddrField) : addrFieldOf (addrFieldCode f) = f := by
  cases f <;> rfl

@[simp] theorem addrFieldCode_addrFieldOf (n : BitVec 2) : addrFieldCode (addrFieldOf n) = n := by
  decide +revert

@[simp] theorem addrSelOf_addrSelCode (sel : AddrSel) : addrSelOf (addrSelCode sel) = sel := by
  cases sel <;> rename_i f <;> cases f <;> rfl

@[simp] theorem addrSelCode_addrSelOf (n : BitVec 3) : addrSelCode (addrSelOf n) = n := by
  decide +revert

@[simp] theorem bufferOf_bufferCode (b : Buffer) : bufferOf (bufferCode b) = b := by
  cases b <;> rfl

@[simp] theorem bufferCode_bufferOf (n : BitVec 1) : bufferCode (bufferOf n) = n := by
  decide +revert

/-! ### Fields with must-be-zero bits above them -/

/-- A narrow operand in a wider field: zeros above it, and the operand itself in the low bits. -/
theorem packed_fields (m k : Nat) (x : BitVec k) :
    (0#m ++ x).extractLsb' k m = 0#m ∧ (0#m ++ x).extractLsb' 0 k = x :=
  ⟨BitVec.extractLsb'_append_eq_left, BitVec.extractLsb'_append_eq_right⟩

/-- An operand in the low bits of a field whose high bits are zero is the whole field. -/
theorem zero_append_extractLsb' (m k : Nat) (x : BitVec (m + k)) (h : x.extractLsb' k m = 0#m) :
    0#m ++ x.extractLsb' 0 k = x := by
  rw [← h, BitVec.extractLsb'_append_extractLsb'_eq_extractLsb' (by omega)]
  exact BitVec.extractLsb'_eq_self

/-- MAC_SEND's two flags are the low bits of A. -/
theorem sendFlags_append (a : Byte) (h : a.extractLsb' 2 6 = 0#6) :
    0#6 ++ BitVec.ofBool (a.getLsbD 1) ++ BitVec.ofBool (a.getLsbD 0) = a := by
  decide +revert

/-- MAC_SEND's A carries its two flags (R184). -/
theorem sendFlags_fields (ackReq dstStaged : Bool) :
    let a : Byte := 0#6 ++ BitVec.ofBool ackReq ++ BitVec.ofBool dstStaged
    a.extractLsb' 2 6 = 0#6 ∧ a.getLsbD 0 = dstStaged ∧ a.getLsbD 1 = ackReq := by
  decide +revert

/-- The check of the must-be-zero fields passes exactly when they are zero, and then gives its command. -/
theorem ifZero_eq_ok_iff (zero : Bool) (i j : Instr) : ifZero zero i = .ok j ↔ zero = true ∧ i = j := by
  cases zero <;> simp [ifZero]

/-! ### A command and its word -/

/-- Decoding the fields of a command gives the command: under its opcode every must-be-zero field is 0 and every
operand comes back. -/
theorem decodeFields_encodeFields (i : Instr) : decodeFields (encodeFields i) = .ok i := by
  cases i with
  | nop => rfl
  | rdreg reg => rfl
  | wrreg reg value => rfl
  | alarmInit alarm cb arg => rfl
  | alarmSched alarm delayMs => rfl
  | alarmCancel alarm => rfl
  | alarmProcess => rfl
  | alarmPeek => rfl
  | alarmHasPending => rfl
  | alarmHasReady now => rfl
  | cbReturn => rfl
  | hdrBuild => rfl
  | macInit => rfl
  | macPoll => rfl
  | macCancel slot => rfl
  | wrbuf offset byte =>
    obtain ⟨hzero, hbyte⟩ := packed_fields 24 8 byte
    exact (ifZero_eq_ok_iff _ _ _).2 ⟨by simpa [encodeFields] using hzero, congrArg (Instr.wrbuf offset) hbyte⟩
  | rdbuf buf offset =>
    obtain ⟨hzero, hbuf⟩ := packed_fields 7 1 (bufferCode buf)
    exact (ifZero_eq_ok_iff _ _ _).2 ⟨by simpa [encodeFields] using hzero,
      congrArg (fun n => Instr.rdbuf n offset) ((congrArg bufferOf hbuf).trans (bufferOf_bufferCode buf))⟩
  | addrMake sel value =>
    obtain ⟨hzero, hsel⟩ := packed_fields 6 2 (addrFieldCode sel)
    exact (ifZero_eq_ok_iff _ _ _).2 ⟨by simpa [encodeFields] using hzero,
      congrArg (fun n => Instr.addrMake n value) ((congrArg addrFieldOf hsel).trans (addrFieldOf_addrFieldCode sel))⟩
  | addrClass sel =>
    obtain ⟨hzero, hsel⟩ := packed_fields 5 3 (addrSelCode sel)
    exact (ifZero_eq_ok_iff _ _ _).2 ⟨by simpa [encodeFields] using hzero,
      congrArg Instr.addrClass ((congrArg addrSelOf hsel).trans (addrSelOf_addrSelCode sel))⟩
  | addrEq sel1 sel2 =>
    obtain ⟨hzero1, hsel1⟩ := packed_fields 5 3 (addrSelCode sel1)
    obtain ⟨hzero2, hsel2⟩ := packed_fields 13 3 (addrSelCode sel2)
    exact (ifZero_eq_ok_iff _ _ _).2 ⟨by simpa [encodeFields] using ⟨hzero1, hzero2⟩,
      congrArg₂ Instr.addrEq ((congrArg addrSelOf hsel1).trans (addrSelOf_addrSelCode sel1))
        ((congrArg addrSelOf hsel2).trans (addrSelOf_addrSelCode sel2))⟩
  | hdrParse len =>
    obtain ⟨hzero, hlen⟩ := packed_fields 16 16 len
    exact (ifZero_eq_ok_iff _ _ _).2 ⟨by simpa [encodeFields] using hzero, congrArg Instr.hdrParse hlen⟩
  | macSend dstStaged ackReq dst len =>
    obtain ⟨hzeroA, hstaged, hack⟩ := sendFlags_fields ackReq dstStaged
    obtain ⟨hzero, hlen⟩ := packed_fields 16 16 len
    refine (ifZero_eq_ok_iff _ _ _).2 ⟨by simpa [encodeFields] using ⟨hzeroA, hzero⟩, ?_⟩
    simp only [encodeFields]
    rw [hstaged, hack, hlen]
  | macSendEx len =>
    obtain ⟨hzero, hlen⟩ := packed_fields 16 16 len
    exact (ifZero_eq_ok_iff _ _ _).2 ⟨by simpa [encodeFields] using hzero, congrArg Instr.macSendEx hlen⟩
  | macIsKnown sel =>
    obtain ⟨hzero, hsel⟩ := packed_fields 5 3 (addrSelCode sel)
    exact (ifZero_eq_ok_iff _ _ _).2 ⟨by simpa [encodeFields] using hzero,
      congrArg Instr.macIsKnown ((congrArg addrSelOf hsel).trans (addrSelOf_addrSelCode sel))⟩

/-- Settles O1. -/
theorem decodingAnEncodedCommandGivesIt : Obligations.DecodingAnEncodedCommandGivesIt := fun i => by
  rw [decode, encode, splitWord_joinWord]
  exact decodeFields_encodeFields i

/-- The fields of a word with the opcode of some command `i` that decodes to `j` are those of `j`: the decoder's one row
for that opcode checks that the rest is zero and takes the operands from what is left. -/
theorem encodeFields_of_decodeFields (i j : Instr) (a : Byte) (b : Half) (w : Word)
    (h : decodeFields ⟨opcode i, a, b, w⟩ = .ok j) : encodeFields j = ⟨opcode i, a, b, w⟩ := by
  cases i with
  | alarmInit alarm cb arg =>
    obtain rfl : Instr.alarmInit a b w = j := Decoded.ok.inj h
    rfl
  | macSend dstStaged ackReq dst len =>
    obtain ⟨hz, rfl⟩ := (ifZero_eq_ok_iff _ _ _).1 h
    simp only [Bool.and_eq_true, beq_iff_eq] at hz
    exact congrArg₂ (CmdFields.mk _ · _ ·) (sendFlags_append a hz.1) (zero_append_extractLsb' 16 16 w hz.2)
  | wrbuf offset byte =>
    obtain ⟨hz, rfl⟩ := (ifZero_eq_ok_iff _ _ _).1 h
    simp only [Bool.and_eq_true, beq_iff_eq] at hz
    exact congrArg₂ (CmdFields.mk _ · _ ·) hz.1.symm (zero_append_extractLsb' 24 8 w hz.2)
  | rdbuf buf offset =>
    obtain ⟨hz, rfl⟩ := (ifZero_eq_ok_iff _ _ _).1 h
    simp only [Bool.and_eq_true, beq_iff_eq] at hz
    rw [encodeFields, bufferCode_bufferOf]
    exact congrArg₂ (CmdFields.mk _ · _ ·) (zero_append_extractLsb' 7 1 a hz.1) hz.2.symm
  | addrMake sel value =>
    obtain ⟨hz, rfl⟩ := (ifZero_eq_ok_iff _ _ _).1 h
    simp only [Bool.and_eq_true, beq_iff_eq] at hz
    rw [encodeFields, addrFieldCode_addrFieldOf]
    exact congrArg₂ (CmdFields.mk _ · _ ·) (zero_append_extractLsb' 6 2 a hz.1) hz.2.symm
  | addrClass sel =>
    obtain ⟨hz, rfl⟩ := (ifZero_eq_ok_iff _ _ _).1 h
    simp only [Bool.and_eq_true, beq_iff_eq] at hz
    obtain ⟨⟨ha, rfl⟩, rfl⟩ := hz
    rw [encodeFields, addrSelCode_addrSelOf]
    exact congrArg (CmdFields.mk _ · _ _) (zero_append_extractLsb' 5 3 a ha)
  | macIsKnown sel =>
    obtain ⟨hz, rfl⟩ := (ifZero_eq_ok_iff _ _ _).1 h
    simp only [Bool.and_eq_true, beq_iff_eq] at hz
    obtain ⟨⟨ha, rfl⟩, rfl⟩ := hz
    rw [encodeFields, addrSelCode_addrSelOf]
    exact congrArg (CmdFields.mk _ · _ _) (zero_append_extractLsb' 5 3 a ha)
  | addrEq sel1 sel2 =>
    obtain ⟨hz, rfl⟩ := (ifZero_eq_ok_iff _ _ _).1 h
    simp only [Bool.and_eq_true, beq_iff_eq] at hz
    obtain ⟨⟨ha, hb⟩, rfl⟩ := hz
    rw [encodeFields, addrSelCode_addrSelOf, addrSelCode_addrSelOf]
    exact congrArg₂ (CmdFields.mk _ · · _) (zero_append_extractLsb' 5 3 a ha) (zero_append_extractLsb' 13 3 b hb)
  | hdrParse len =>
    obtain ⟨hz, rfl⟩ := (ifZero_eq_ok_iff _ _ _).1 h
    simp only [Bool.and_eq_true, beq_iff_eq] at hz
    obtain ⟨⟨rfl, rfl⟩, hw⟩ := hz
    exact congrArg (CmdFields.mk _ _ _ ·) (zero_append_extractLsb' 16 16 w hw)
  | macSendEx len =>
    obtain ⟨hz, rfl⟩ := (ifZero_eq_ok_iff _ _ _).1 h
    simp only [Bool.and_eq_true, beq_iff_eq] at hz
    obtain ⟨⟨rfl, rfl⟩, hw⟩ := hz
    exact congrArg (CmdFields.mk _ _ _ ·) (zero_append_extractLsb' 16 16 w hw)
  | _ =>
    -- The operands of the other commands fill their fields; the fields they do not use are zero.
    obtain ⟨hz, rfl⟩ := (ifZero_eq_ok_iff _ _ _).1 h
    simp only [Bool.and_eq_true, beq_iff_eq] at hz
    simp [encodeFields, opcode, hz]

/-- Settles O2. -/
theorem encodingADecodedWordGivesIt : Obligations.EncodingADecodedWordGivesIt := by
  intro c i h
  have hop := opcode_of_decode c i h
  have hfields : encodeFields i = splitWord c := by
    rw [encodeFields_of_decodeFields i i _ _ _ (by rw [hop]; exact h), hop]
    rfl
  rw [encode, hfields, joinWord_splitWord]

/-- Settles O3. -/
theorem wordsOfTheSpecDecode : Obligations.WordsOfTheSpecDecode := by
  unfold Obligations.WordsOfTheSpecDecode
  decide

end Sys2Proof.Machine

/-! SUPPORT. Parsing a header (spec/42_codec.md sections 3 and 4): the fields behind the flag bytes as one list of
bytes, which parsing reads and building writes (R155, R161), when `Parse` fails (R164), and the round trip (R165). -/

namespace Sys2Proof.Machine

/-! ### One field (R154, R157, R161) -/

/-- The byte a one-byte field takes off the front, and that an absent field reads as 0. -/
theorem takeByte_split (present : Bool) (b : List Byte) (h : present.toNat ≤ b.length) :
    ∃ v r, takeByte present b = (v, r) ∧ b = fieldBytes present [v] ++ r ∧ (present = false → v = 0) := by
  cases present with
  | false => exact ⟨0, b, rfl, rfl, fun _ => rfl⟩
  | true =>
    cases b with
    | nil => simp at h
    | cons x r => exact ⟨x, r, rfl, rfl, fun hf => nomatch hf⟩

/-- Reading back a one-byte field. -/
theorem takeByte_fieldBytes (present : Bool) (v : Byte) (r : List Byte) (h : present = false → v = 0) :
    takeByte present (fieldBytes present [v] ++ r) = (v, r) := by
  cases present with
  | false => rw [h rfl]; rfl
  | true => rfl

/-- The bytes of a short address put together of two bytes. -/
theorem rawBytes_short (x0 x1 : Byte) : rawBytes (.short (x1 ++ x0)) = [x0, x1] := by
  have h0 : (x1 ++ x0).extractLsb' 0 8 = x0 := BitVec.extractLsb'_append_eq_right
  have h1 : (x1 ++ x0).extractLsb' 8 8 = x1 := BitVec.extractLsb'_append_eq_left
  show [(x1 ++ x0).extractLsb' 0 8, (x1 ++ x0).extractLsb' 8 8] = _
  rw [h0, h1]

/-- The bytes of a long address put together of eight bytes. -/
theorem rawBytes_long (x0 x1 x2 x3 x4 x5 x6 x7 : Byte) :
    rawBytes (.long (x7 ++ x6 ++ x5 ++ x4 ++ x3 ++ x2 ++ x1 ++ x0)) = [x0, x1, x2, x3, x4, x5, x6, x7] := by
  simp only [rawBytes, List.range, List.range.loop, List.map_cons, List.map_nil, List.cons.injEq, and_true]
  refine ⟨?_, ?_, ?_, ?_, ?_, ?_, ?_, ?_⟩ <;> ext i hi <;> simp <;> grind

/-- A short address is put together of its two bytes. -/
theorem half_eq_append (v : Half) : ∃ x0 x1 : Byte, v = x1 ++ x0 :=
  ⟨v.extractLsb' 0 8, v.extractLsb' 8 8, by ext i hi; simp; grind⟩

/-- A long address is put together of its eight bytes. -/
theorem dword_eq_append (v : DWord) :
    ∃ x0 x1 x2 x3 x4 x5 x6 x7 : Byte, v = x7 ++ x6 ++ x5 ++ x4 ++ x3 ++ x2 ++ x1 ++ x0 :=
  ⟨v.extractLsb' 0 8, v.extractLsb' 8 8, v.extractLsb' 16 8, v.extractLsb' 24 8, v.extractLsb' 32 8,
    v.extractLsb' 40 8, v.extractLsb' 48 8, v.extractLsb' 56 8, by ext i hi; simp; grind⟩

/-- The address a field of kind `n` takes off the front. -/
theorem takeAddr_split (n : Nat) (hn : n ≤ 2) (b : List Byte) (h : widthOfKind n ≤ b.length) :
    ∃ a r, takeAddr (kindOfCode n) b = (a, r) ∧ b = fieldBytes (n != 0) (rawBytes a) ++ r ∧ OfKind n a := by
  obtain rfl | rfl | rfl : n = 0 ∨ n = 1 ∨ n = 2 := by omega
  · exact ⟨.short 0, b, rfl, rfl, .inl ⟨rfl, rfl⟩⟩
  · match b, h with
    | x0 :: x1 :: r, _ =>
      refine ⟨.short (x1 ++ x0), r, rfl, ?_, .inr (.inl ⟨rfl, _, rfl⟩)⟩
      rw [rawBytes_short]
      rfl
  · match b, h with
    | x0 :: x1 :: x2 :: x3 :: x4 :: x5 :: x6 :: x7 :: r, _ =>
      refine ⟨.long (x7 ++ x6 ++ x5 ++ x4 ++ x3 ++ x2 ++ x1 ++ x0), r, rfl, ?_, .inr (.inr ⟨rfl, _, rfl⟩)⟩
      rw [rawBytes_long]
      rfl

/-- Reading back an address of the announced kind. -/
theorem takeAddr_fieldBytes (n : Nat) (a : Address) (r : List Byte) (h : OfKind n a) :
    takeAddr (kindOfCode n) (fieldBytes (n != 0) (rawBytes a) ++ r) = (a, r) := by
  obtain ⟨rfl, rfl⟩ | ⟨rfl, v, rfl⟩ | ⟨rfl, v, rfl⟩ := h
  · rfl
  · obtain ⟨x0, x1, rfl⟩ := half_eq_append v
    rw [rawBytes_short]
    rfl
  · obtain ⟨x0, x1, x2, x3, x4, x5, x6, x7, rfl⟩ := dword_eq_append v
    rw [rawBytes_long]
    rfl

/-- An address field is as wide as its kind says. -/
theorem fieldBytes_rawBytes_length (n : Nat) (a : Address) (h : OfKind n a) :
    (fieldBytes (n != 0) (rawBytes a)).length = widthOfKind n := by
  obtain ⟨rfl, rfl⟩ | ⟨rfl, v, rfl⟩ | ⟨rfl, v, rfl⟩ := h <;> rfl

/-- A one-byte field that is there is one byte long. -/
theorem fieldBytes_singleton_length (present : Bool) (v : Byte) :
    (fieldBytes present [v]).length = present.toNat := by
  cases present <;> rfl

/-! ### All fields behind the flag bytes (R155, R161) -/

/-- The bytes of the fields that the flag bytes announce, in R155's order. -/
def wireFields (fcf ext : Byte) (y : Descriptor) : List Byte :=
  fieldBytes (srcKindNumber fcf != 0) (rawBytes y.immedSrc) ++ (fieldBytes (dstKindNumber fcf != 0) (rawBytes y.immedDst)
    ++ (fieldBytes (hasSrcPort fcf ext) [y.srcPort] ++ (fieldBytes (hasDstPort fcf ext) [y.dstPort]
    ++ (fieldBytes (fcf.getLsbD 4) [y.seqnum] ++ (fieldBytes (fcf.getLsbD 5) [y.cost]
    ++ (fieldBytes (ext.getLsbD 0) [y.authType] ++ fieldBytes (ext.getLsbD 3) [y.hopLimit]))))))

/-- What the flag bytes say of a parsed descriptor: the kinds of its addresses, which fields are absent and so 0, the
flags and the header length. -/
structure Announced (fcf ext : Byte) (y : Descriptor) : Prop where
  src : OfKind (srcKindNumber fcf) y.immedSrc
  dst : OfKind (dstKindNumber fcf) y.immedDst
  originalSrc : y.originalSrc = y.immedSrc
  originalDst : y.originalDst = y.immedDst
  srcPort : hasSrcPort fcf ext = false → y.srcPort = 0
  dstPort : hasDstPort fcf ext = false → y.dstPort = 0
  seqnum : fcf.getLsbD 4 = false → y.seqnum = 0
  cost : fcf.getLsbD 5 = false → y.cost = 0
  authType : ext.getLsbD 0 = false → y.authType = 0
  hopLimit : ext.getLsbD 3 = false → y.hopLimit = 0
  flags : y.flags = ⟨false, ext.getLsbD 5, fcf.getLsbD 6, ext.getLsbD 4⟩
  hdrLen : y.hdrLen = BitVec.ofNat 8 (hdrLenOf fcf ext)
  sendTime : y.sendTime = 0

/-- A source kind number is 0, 1 or 2. -/
theorem srcKindNumber_le (fcf : Byte) : srcKindNumber fcf ≤ 2 := by
  unfold srcKindNumber
  omega

/-- A destination kind number is 0, 1 or 2. -/
theorem dstKindNumber_le (fcf : Byte) : dstKindNumber fcf ≤ 2 := by
  have h := (fcf.extractLsb' 0 3).isLt
  unfold dstKindNumber
  omega

/-- The combination code has no two long addresses (R152). -/
theorem not_both_long (fcf : Byte) : ¬ (srcKindNumber fcf = 2 ∧ dstKindNumber fcf = 2) := by
  have h := (fcf.extractLsb' 0 3).isLt
  unfold srcKindNumber dstKindNumber
  omega

/-- The fields are as long as the flag bytes say, the flag bytes themselves not counted (R162). -/
theorem wireFields_length (fcf ext : Byte) (y : Descriptor) (h : Announced fcf ext y) :
    1 + (fcf.getLsbD 7).toNat + (wireFields fcf ext y).length = impliedLength fcf ext := by
  simp only [wireFields, List.length_append, fieldBytes_rawBytes_length _ _ h.src,
    fieldBytes_rawBytes_length _ _ h.dst, fieldBytes_singleton_length, impliedLength, hasSrcPort, hasDstPort]
  omega

/-- Parsing reads back the fields (R161). -/
theorem parseFields_wireFields (fcf ext : Byte) (y : Descriptor) (r : List Byte) (h : Announced fcf ext y) :
    parseFields fcf ext (wireFields fcf ext y ++ r) = y := by
  have hsrc : srcKindOf fcf = kindOfCode (srcKindNumber fcf) := rfl
  have hdst : dstKindOf fcf = kindOfCode (dstKindNumber fcf) := rfl
  simp only [parseFields, wireFields, List.append_assoc, hsrc, hdst, takeAddr_fieldBytes _ _ _ h.src,
    takeAddr_fieldBytes _ _ _ h.dst, takeByte_fieldBytes _ _ _ h.srcPort, takeByte_fieldBytes _ _ _ h.dstPort,
    takeByte_fieldBytes _ _ _ h.seqnum, takeByte_fieldBytes _ _ _ h.cost, takeByte_fieldBytes _ _ _ h.authType,
    takeByte_fieldBytes _ _ _ h.hopLimit]
  obtain ⟨-, -, hos, hod, -, -, -, -, -, -, hflags, hlen, htime⟩ := h
  cases y
  simp_all

/-- What parsing reads, when the fields are all there, is what the flag bytes announce, and stands in the bytes. -/
theorem parseFields_split (fcf ext : Byte) (b : List Byte)
    (h : impliedLength fcf ext ≤ 1 + (fcf.getLsbD 7).toNat + b.length) :
    Announced fcf ext (parseFields fcf ext b)
      ∧ ∃ r, b = wireFields fcf ext (parseFields fcf ext b) ++ r := by
  have hlen : widthOfKind (srcKindNumber fcf) + widthOfKind (dstKindNumber fcf) + (hasSrcPort fcf ext).toNat
      + (hasDstPort fcf ext).toNat + (fcf.getLsbD 4).toNat + (fcf.getLsbD 5).toNat + (ext.getLsbD 0).toNat
      + (ext.getLsbD 3).toNat ≤ b.length := by
    simp only [impliedLength] at h
    simp only [hasSrcPort, hasDstPort]
    omega
  obtain ⟨src, b1, h1, rfl, hsrc⟩ := takeAddr_split (srcKindNumber fcf) (srcKindNumber_le fcf) b (by omega)
  rw [List.length_append, fieldBytes_rawBytes_length _ _ hsrc] at hlen
  obtain ⟨dst, b2, h2, rfl, hdst⟩ := takeAddr_split (dstKindNumber fcf) (dstKindNumber_le fcf) b1 (by omega)
  rw [List.length_append, fieldBytes_rawBytes_length _ _ hdst] at hlen
  obtain ⟨sp, b3, h3, rfl, hsp⟩ := takeByte_split (hasSrcPort fcf ext) b2 (by omega)
  rw [List.length_append, fieldBytes_singleton_length] at hlen
  obtain ⟨dp, b4, h4, rfl, hdp⟩ := takeByte_split (hasDstPort fcf ext) b3 (by omega)
  rw [List.length_append, fieldBytes_singleton_length] at hlen
  obtain ⟨sq, b5, h5, rfl, hsq⟩ := takeByte_split (fcf.getLsbD 4) b4 (by omega)
  rw [List.length_append, fieldBytes_singleton_length] at hlen
  obtain ⟨co, b6, h6, rfl, hco⟩ := takeByte_split (fcf.getLsbD 5) b5 (by omega)
  rw [List.length_append, fieldBytes_singleton_length] at hlen
  obtain ⟨au, b7, h7, rfl, hau⟩ := takeByte_split (ext.getLsbD 0) b6 (by omega)
  rw [List.length_append, fieldBytes_singleton_length] at hlen
  obtain ⟨ho, b8, h8, rfl, hho⟩ := takeByte_split (ext.getLsbD 3) b7 (by omega)
  have hk : srcKindOf fcf = kindOfCode (srcKindNumber fcf) ∧ dstKindOf fcf = kindOfCode (dstKindNumber fcf) :=
    ⟨rfl, rfl⟩
  simp only [parseFields, hk, h1, h2, h3, h4, h5, h6, h7, h8]
  exact ⟨⟨hsrc, hdst, rfl, rfl, hsp, hdp, hsq, hco, hau, hho, rfl, rfl, rfl⟩, b8,
    by simp only [wireFields, List.append_assoc]⟩

/-! ### When `Parse` fails (R161, R164) -/

/-- A long kind is kind number 2. -/
theorem kindOfCode_beq_long (n : Nat) (h : n ≤ 2) : (kindOfCode n == .long) = decide (n = 2) := by
  obtain rfl | rfl | rfl : n = 0 ∨ n = 1 ∨ n = 2 := by omega
  all_goals decide

/-- The causes of failure that the flag bytes show, as R164 lists them. -/
theorem badFlags_iff (longAddr : Bool) (fcf ext : Byte) :
    badFlags longAddr fcf ext = true ↔
      ext.extractLsb' 6 2 ≠ 0 ∨ (fcf.getLsbD 3 = true ∧ (ext.getLsbD 1 = true ∨ ext.getLsbD 2 = true))
      ∨ (longAddr = false ∧ (srcKindNumber fcf = 2 ∨ dstKindNumber fcf = 2)) := by
  have hsrc : (srcKindOf fcf == .long) = decide (srcKindNumber fcf = 2) :=
    kindOfCode_beq_long _ (srcKindNumber_le fcf)
  have hdst : (dstKindOf fcf == .long) = decide (dstKindNumber fcf = 2) :=
    kindOfCode_beq_long _ (dstKindNumber_le fcf)
  simp only [badFlags, hsrc, hdst, Bool.or_eq_true, Bool.and_eq_true, bne_iff_ne, Bool.not_eq_true',
    decide_eq_true_eq, or_assoc]

/-- A parser that does not fail on a byte and what follows it. -/
structure Parses (longAddr : Bool) (fcf : Byte) (rest : List Byte) : Prop where
  ext : fcf.getLsbD 7 = true → rest ≠ []
  flags : badFlags longAddr fcf (extBehind fcf rest) = false
  length : impliedLength fcf (extBehind fcf rest) ≤ rest.length + 1

/-- What `Parse` answers on a byte and what follows it. -/
theorem parseHeader_cons_eq_some_iff (longAddr : Bool) (fcf : Byte) (rest : List Byte) (y : Descriptor) :
    parseHeader longAddr (fcf :: rest) = some y ↔ Parses longAddr fcf rest
      ∧ parseFields fcf (extBehind fcf rest) (rest.drop (fcf.getLsbD 7).toNat) = y := by
  have hext : parsedExt fcf rest = extBehind fcf rest := rfl
  simp only [parseHeader, hext, hdrLenOf_eq_impliedLength, List.length_cons]
  constructor
  · intro h
    split_ifs at h with h1 h2 h3
    exact ⟨⟨fun h7 hr => h1 ⟨h7, hr⟩, by simpa using h2, by omega⟩, Option.some.inj h⟩
  · rintro ⟨⟨h1, h2, h3⟩, rfl⟩
    rw [if_neg fun hc => h1 hc.1 hc.2, if_neg (by simp [h2]), if_neg (by omega)]

/-- `Parse` fails when it does not parse. -/
theorem parseHeader_cons_eq_none_iff (longAddr : Bool) (fcf : Byte) (rest : List Byte) :
    parseHeader longAddr (fcf :: rest) = none ↔ ¬ Parses longAddr fcf rest := by
  rw [← not_iff_not, not_not, ← ne_eq, Option.ne_none_iff_exists']
  simp only [parseHeader_cons_eq_some_iff, exists_and_left, exists_eq', and_true]

/-- `Parse` fails for the causes of R164 and on a buffer too short for its flags. -/
theorem not_parses_iff (longAddr : Bool) (fcf : Byte) (rest : List Byte) :
    ¬ Parses longAddr fcf rest ↔
      (fcf.getLsbD 7 = true ∧ rest = [])
      ∨ badFlags longAddr fcf (extBehind fcf rest) = true
      ∨ rest.length + 1 < impliedLength fcf (extBehind fcf rest) := by
  constructor
  · intro h
    by_contra hn
    simp only [not_or, not_and, not_lt, Bool.not_eq_true] at hn
    obtain ⟨h1, h2, h3⟩ := hn
    exact h ⟨h1, h2, h3⟩
  · rintro (⟨h7, hr⟩ | hb | hl) ⟨h1, h2, h3⟩
    · exact h1 h7 hr
    · rw [h2] at hb
      cases hb
    · omega

/-! ### The header a parser reads -/

/-- FCF, EXT where FCF announces it, and the announced fields. -/
def wireHeader (fcf ext : Byte) (y : Descriptor) : List Byte :=
  fcf :: (fieldBytes (fcf.getLsbD 7) [ext] ++ wireFields fcf ext y)

/-- The EXT byte stands in front of the rest. -/
theorem extBehind_split (fcf : Byte) (rest : List Byte) (h : fcf.getLsbD 7 = true → rest ≠ []) :
    rest = fieldBytes (fcf.getLsbD 7) [extBehind fcf rest] ++ rest.drop (fcf.getLsbD 7).toNat := by
  unfold extBehind
  cases h7 : fcf.getLsbD 7 with
  | false => rfl
  | true =>
    cases rest with
    | nil => exact absurd rfl (h h7)
    | cons x r => rfl

/-- Reading the EXT byte back. -/
theorem extBehind_fieldBytes (fcf ext : Byte) (r : List Byte) (h : fcf.getLsbD 7 = false → ext = 0) :
    extBehind fcf (fieldBytes (fcf.getLsbD 7) [ext] ++ r) = ext := by
  unfold extBehind
  cases h7 : fcf.getLsbD 7 with
  | false => rw [h h7]; rfl
  | true => rfl

/-- Without an EXT byte every bit of EXT is 0. -/
theorem extBehind_of_clear (fcf : Byte) (rest : List Byte) (h : fcf.getLsbD 7 = false) : extBehind fcf rest = 0 := by
  rw [extBehind, h]
  rfl

/-- The header is as long as its flags imply. -/
theorem wireHeader_length (fcf ext : Byte) (y : Descriptor) (h : Announced fcf ext y) :
    (wireHeader fcf ext y).length = impliedLength fcf ext := by
  rw [← wireFields_length fcf ext y h]
  simp only [wireHeader, List.length_cons, List.length_append, fieldBytes_singleton_length]
  omega

/-- No implied length is over 18, or over 12 without a long address (R163). -/
theorem impliedLength_le (fcf ext : Byte) :
    impliedLength fcf ext ≤ 18
      ∧ (srcKindNumber fcf ≠ 2 → dstKindNumber fcf ≠ 2 → impliedLength fcf ext ≤ 12) := by
  have hs := srcKindNumber_le fcf
  have hd := dstKindNumber_le fcf
  have hn := not_both_long fcf
  have hw : ∀ n, n ≤ 2 → widthOfKind n ≤ 8 ∧ (n ≠ 2 → widthOfKind n ≤ 2) := by decide
  obtain ⟨hs1, hs2⟩ := hw _ hs
  obtain ⟨hd1, hd2⟩ := hw _ hd
  have h1 := Bool.toNat_le (fcf.getLsbD 7)
  have h2 := Bool.toNat_le (fcf.getLsbD 3 || ext.getLsbD 1)
  have h3 := Bool.toNat_le (fcf.getLsbD 3 || ext.getLsbD 2)
  have h4 := Bool.toNat_le (fcf.getLsbD 4)
  have h5 := Bool.toNat_le (fcf.getLsbD 5)
  have h6 := Bool.toNat_le (ext.getLsbD 0)
  have h7 := Bool.toNat_le (ext.getLsbD 3)
  unfold impliedLength
  constructor
  · rcases not_and_or.1 hn with h | h
    · have := hs2 h
      omega
    · have := hd2 h
      omega
  · intro ha hb
    have := hs2 ha
    have := hd2 hb
    omega

/-- A header of the announced fields, with anything behind it, parses to the descriptor it was made of. -/
theorem parseHeader_wireHeader (longAddr : Bool) (fcf ext : Byte) (y : Descriptor) (r : List Byte)
    (hext : fcf.getLsbD 7 = false → ext = 0) (hflags : badFlags longAddr fcf ext = false)
    (h : Announced fcf ext y) : parseHeader longAddr (wireHeader fcf ext y ++ r) = some y := by
  have hlen := wireHeader_length fcf ext y h
  have hcons : wireHeader fcf ext y ++ r
      = fcf :: (fieldBytes (fcf.getLsbD 7) [ext] ++ (wireFields fcf ext y ++ r)) := by
    simp only [wireHeader, List.cons_append, List.append_assoc]
  have hdrop : (fieldBytes (fcf.getLsbD 7) [ext] ++ (wireFields fcf ext y ++ r)).drop (fcf.getLsbD 7).toNat
      = wireFields fcf ext y ++ r :=
    List.drop_left' (fieldBytes_singleton_length _ _)
  rw [hcons, parseHeader_cons_eq_some_iff, extBehind_fieldBytes fcf ext _ hext, hdrop]
  refine ⟨⟨fun h7 => ?_, ?_, ?_⟩, parseFields_wireFields fcf ext y r h⟩
  · rw [h7]
    simp [fieldBytes]
  · rw [extBehind_fieldBytes fcf ext _ hext]
    exact hflags
  · rw [extBehind_fieldBytes fcf ext _ hext, ← hlen]
    simp only [wireHeader, List.length_cons, List.length_append]
    omega

/-- Everything a successful `Parse` says: the bytes are a header of the announced fields, and a payload. -/
theorem parseHeader_eq_some (longAddr : Bool) (fcf : Byte) (rest : List Byte) (y : Descriptor)
    (h : parseHeader longAddr (fcf :: rest) = some y) :
    Announced fcf (extBehind fcf rest) y ∧ badFlags longAddr fcf (extBehind fcf rest) = false
      ∧ y.hdrLen.toNat = impliedLength fcf (extBehind fcf rest)
      ∧ ∃ p, fcf :: rest = wireHeader fcf (extBehind fcf rest) y ++ p := by
  obtain ⟨⟨h1, h2, h3⟩, rfl⟩ := (parseHeader_cons_eq_some_iff _ _ _ _).1 h
  have hsplit := extBehind_split fcf rest h1
  have hlen : impliedLength fcf (extBehind fcf rest)
      ≤ 1 + (fcf.getLsbD 7).toNat + (rest.drop (fcf.getLsbD 7).toNat).length := by
    rw [List.length_drop]
    omega
  obtain ⟨ha, p, hp⟩ := parseFields_split fcf _ _ hlen
  refine ⟨ha, h2, ?_, p, ?_⟩
  · have hle := (impliedLength_le fcf (extBehind fcf rest)).1
    rw [ha.hdrLen, hdrLenOf_eq_impliedLength, BitVec.toNat_ofNat]
    omega
  · rw [wireHeader, List.cons_append, List.append_assoc, ← hp, ← hsplit]

/-! ### Parsing a built header (R165) -/

/-- What parsing gives back of a descriptor: the serialized addresses, an unspecified one as UNSPEC, and every field of
the format. -/
def carriedBack (x : Descriptor) : Descriptor where
  originalSrc := wireAddr (hdrSrc x)
  originalDst := wireAddr (hdrDst x)
  immedSrc := wireAddr (hdrSrc x)
  immedDst := wireAddr (hdrDst x)
  srcPort := x.srcPort
  dstPort := x.dstPort
  seqnum := x.seqnum
  cost := x.cost
  hopLimit := x.hopLimit
  authType := x.authType
  flags := { x.flags with locallyOriginated := false }
  hdrLen := BitVec.ofNat 8 (hdrLenOf (fcfByte x) (extByte x))
  sendTime := 0

/-- An address as it comes back is of the kind it was built as. -/
theorem ofKind_wireAddr (a : Address) : OfKind (builtKind a) (wireAddr a) := by
  unfold wireAddr builtKind
  cases isUnspecified a with
  | true => exact .inl ⟨rfl, rfl⟩
  | false =>
    cases a with
    | short v => exact .inr (.inl ⟨rfl, v, rfl⟩)
    | long v => exact .inr (.inr ⟨rfl, v, rfl⟩)

/-- An address as it comes back has the bytes it was built with. -/
theorem fieldBytes_wireAddr (a : Address) :
    fieldBytes (builtKind a != 0) (rawBytes (wireAddr a)) = fieldBytes (builtKind a != 0) (rawBytes a) := by
  unfold wireAddr builtKind
  cases isUnspecified a <;> rfl

/-- A field that is 0 exactly when it is absent. -/
theorem eq_zero_of_bne {n : Nat} (v : BitVec n) (h : (v != 0) = false) : v = 0 := by
  simpa using h

section Built

variable (x : Descriptor) (h : ¬ (kindOf (hdrSrc x) = .long ∧ kindOf (hdrDst x) = .long))

include h

/-- The kind numbers of a built FCF are those of the serialized addresses. -/
theorem kindNumbers_fcfByte :
    srcKindNumber (fcfByte x) = builtKind (hdrSrc x) ∧ dstKindNumber (fcfByte x) = builtKind (hdrDst x) := by
  obtain ⟨-, -, -, -, -, hcode⟩ := fcfByte_fields x
  have hsrc := builtKind_le (hdrSrc x)
  rw [srcKindNumber, dstKindNumber, hcode, addrCode_toNat x h]
  omega

/-- The flag bytes of a built header announce what it carries. -/
theorem announced_carriedBack : Announced (fcfByte x) (extByte x) (carriedBack x) := by
  obtain ⟨-, hack, hcost, hseq, -, -⟩ := fcfByte_fields x
  obtain ⟨-, hmore, hisAck, hhop, -, -, hauth⟩ := extByte_fields x
  obtain ⟨hsrc, hdst⟩ := kindNumbers_fcfByte x h
  exact {
    src := hsrc ▸ ofKind_wireAddr (hdrSrc x)
    dst := hdst ▸ ofKind_wireAddr (hdrDst x)
    originalSrc := rfl
    originalDst := rfl
    srcPort := fun hz => eq_zero_of_bne _ (hasSrcPort_built x ▸ hz)
    dstPort := fun hz => eq_zero_of_bne _ (hasDstPort_built x ▸ hz)
    seqnum := fun hz => eq_zero_of_bne _ (hseq ▸ hz)
    cost := fun hz => eq_zero_of_bne _ (hcost ▸ hz)
    authType := fun hz => eq_zero_of_bne _ (hauth ▸ hz)
    hopLimit := fun hz => eq_zero_of_bne _ (hhop ▸ hz)
    flags := by rw [hack, hmore, hisAck]; rfl
    hdrLen := rfl
    sendTime := rfl }

/-- The header of what comes back is the built header. -/
theorem wireHeader_carriedBack : wireHeader (fcfByte x) (extByte x) (carriedBack x) = headerBytes x := by
  obtain ⟨hext, -, hcost, hseq, -, -⟩ := fcfByte_fields x
  obtain ⟨-, -, -, hhop, -, -, hauth⟩ := extByte_fields x
  obtain ⟨hsrc, hdst⟩ := kindNumbers_fcfByte x h
  simp only [wireHeader, wireFields, carriedBack, headerBytes_eq_fieldBytes, hext, hcost, hseq, hhop, hauth, hsrc, hdst,
    hasSrcPort_built, hasDstPort_built, fieldBytes_wireAddr, List.append_assoc, List.nil_append,
    List.cons_append]

/-- No cause of failure stands in the flag bytes of a built header, if the build has the addresses it carries. -/
theorem badFlags_built (longAddr : Bool)
    (hlong : longAddr = true ∨ (kindOf (hdrSrc x) ≠ .long ∧ kindOf (hdrDst x) ≠ .long)) :
    badFlags longAddr (fcfByte x) (extByte x) = false := by
  obtain ⟨-, -, -, -, hports, -⟩ := fcfByte_fields x
  obtain ⟨hres, -, -, -, hdstPort, hsrcPort, -⟩ := extByte_fields x
  obtain ⟨hsrc, hdst⟩ := kindNumbers_fcfByte x h
  rw [← Bool.not_eq_true, badFlags_iff, hports, hsrcPort, hdstPort, hsrc, hdst, ← kindOf_eq_long_iff_builtKind,
    ← kindOf_eq_long_iff_builtKind]
  rintro (hbad | ⟨hboth, hp⟩ | ⟨hshort, hl⟩)
  · exact hbad hres
  · simp [hboth] at hp
  · rcases hlong with hl' | ⟨hs, hd⟩
    · rw [hl'] at hshort
      cases hshort
    · exact hl.elim hs hd

end Built

/-- Settles O32: a built header is the header of what it carries, and that parses back. -/
theorem parsingABuiltHeaderGivesTheFields : Obligations.ParsingABuiltHeaderGivesTheFields := by
  intro longAddr x h rest hbuild hlong
  obtain ⟨hkinds, rfl⟩ := (buildHeader_eq_some_iff x h).1 hbuild
  have hann := announced_carriedBack x hkinds
  have hparse := parseHeader_wireHeader longAddr _ _ _ rest (fun h7 => ?_) (badFlags_built x hkinds longAddr hlong) hann
  · rw [wireHeader_carriedBack x hkinds] at hparse
    refine ⟨carriedBack x, hparse, ?_, rfl, rfl, rfl, rfl, rfl, rfl, rfl, rfl, rfl, rfl, rfl, rfl⟩
    have hle := headerBytes_length_le_eighteen x hkinds
    rw [hann.hdrLen, ← headerBytes_length_eq_hdrLenOf x hkinds, BitVec.toNat_ofNat]
    omega
  · rw [(fcfByte_fields x).1] at h7
    exact eq_zero_of_bne _ h7

/-- Settles O35. -/
theorem theParserReadsExactlyItsHeader : Obligations.TheParserReadsExactlyItsHeader := by
  refine ⟨fun longAddr b => ?_, fun longAddr fcf rest y h => ?_, fun longAddr b rest y h => ?_⟩
  · cases b with
    | nil => exact ⟨fun _ => .inl rfl, fun _ => rfl⟩
    | cons fcf rest =>
      rw [parseHeader_cons_eq_none_iff, not_parses_iff, badFlags_iff]
      constructor
      · intro h
        refine .inr ⟨fcf, rest, rfl, ?_⟩
        simpa only [or_assoc, List.length_cons] using h
      · rintro (h | ⟨fcf', rest', heq, h⟩)
        · cases h
        · obtain ⟨rfl, rfl⟩ := List.cons.inj heq
          simpa only [or_assoc, List.length_cons] using h
  · obtain ⟨ha, hb, hlen, p, hp⟩ := parseHeader_eq_some longAddr fcf rest y h
    have hbound := impliedLength_le fcf (extBehind fcf rest)
    refine ⟨hlen, ?_, hlen ▸ hbound.1, fun hl => hlen ▸ hbound.2 ?_ ?_, ?_, ha.src, ha.dst, ha.originalSrc,
      ha.originalDst, fun h3 h1 => ha.srcPort (by rw [hasSrcPort, h3, h1]; rfl),
      fun h3 h2 => ha.dstPort (by rw [hasDstPort, h3, h2]; rfl), ha.seqnum, ha.cost, ha.authType, ha.hopLimit,
      by rw [ha.flags], by rw [ha.flags], by rw [ha.flags], by rw [ha.flags], ha.sendTime⟩
    · rw [hlen, impliedLength]
      omega
    · exact fun hs => absurd ((badFlags_iff _ _ _).2 (.inr (.inr ⟨hl, .inl hs⟩))) (by rw [hb]; decide)
    · exact fun hd => absurd ((badFlags_iff _ _ _).2 (.inr (.inr ⟨hl, .inr hd⟩))) (by rw [hb]; decide)
    · rw [hp, List.take_left' (by rw [hlen, wireHeader_length _ _ _ ha])]
      simp only [wireHeader, wireFields, hasSrcPort, hasDstPort, List.append_assoc, List.nil_append, List.cons_append]
  · cases b with
    | nil => cases h
    | cons fcf r =>
      obtain ⟨ha, hb, hlen, p, hp⟩ := parseHeader_eq_some longAddr fcf r y h
      have hw := wireHeader_length _ _ _ ha
      rw [hp, List.take_left' (by rw [hlen, hw])]
      refine ⟨?_, parseHeader_wireHeader longAddr fcf _ y rest (extBehind_of_clear fcf r) hb ha⟩
      rw [List.length_append]
      omega

end Sys2Proof.Machine

/-! SUPPORT. The engine's procedures as the statements name them (spec/43_mac_tx.md, spec/44_mac_rx.md): the arbiter and
`servedNext`, arming the engine alarm, carrier sense, the sends, the end of a transmission, the engine alarm's handler,
MAC_CANCEL and the receive step. -/

namespace Sys2Proof.Machine

/-! ### Slots in flight -/

/-- A queue's head in flight alone is the slot found. -/
theorem inFlight?_of_head {s : State} {k : Nat} (h : HeadInFlight s k) : s.inFlight? = some k := by
  obtain ⟨-, -, -, -, hk, halone⟩ := h
  exact inFlight?_of_unique s k hk halone

/-- With a slot in flight the search finds one. -/
theorem inFlight?_isSome (s : State) (h : ∃ j, (s.slot j).state = .inFlight) : ∃ k, s.inFlight? = some k := by
  obtain ⟨j, hj⟩ := h
  cases hf : s.inFlight? with
  | none => exact absurd hj ((inFlight?_eq_none_iff s).1 hf j)
  | some k => exact ⟨k, rfl⟩

/-- Releasing a slot takes no other slot out of flight. -/
theorem release_inFlight_of_ne (k j : Nat) (c : SendCode) (s : State) (hne : j ≠ k)
    (hj : (s.slot j).state = .inFlight) : ((release k c s).slot j).state = .inFlight := by
  rw [release_slot_ne k c s j hne]
  exact hj

/-- After the release of a slot nothing is in flight, if no other slot was. -/
theorem release_none_inFlight (k : Nat) (c : SendCode) (s : State)
    (h : ∀ j, j ≠ k → (s.slot j).state ≠ .inFlight) : ∀ j, ((release k c s).slot j).state ≠ .inFlight := by
  intro j
  by_cases hj : j = k
  · subst hj
    rw [release_slot_self]
    decide
  · rw [release_slot_ne k c s j hj]
    exact h j hj

/-! ### The arbiter (R187) -/

/-- Nothing starts while some slot is in flight. -/
theorem arbitrate_of_some_inFlight (s : State) (h : ∃ j, (s.slot j).state = .inFlight) : arbitrate s = s := by
  obtain ⟨k, hk⟩ := inFlight?_isSome s h
  exact arbitrate_of_inFlight s k hk

/-- The oldest packet of the queue goes in flight and makes its attempt when the radio is idle. -/
theorem servedNext_of_idle (s : State) (j : Nat) (l : List Nat) (hb : s.radioBusy = false) (ho : s.order = j :: l) :
    servedNext s = beginAttempt j (s.setSlot j { s.slot j with state := .inFlight }) := by
  unfold servedNext
  split
  next h =>
    rw [ho] at h
    cases h
  next k m h =>
    obtain ⟨rfl, -⟩ := List.cons.inj (ho.symm.trans h)
    rw [if_neg (by simp [hb])]
    rfl

/-- With nothing in flight the arbiter serves the oldest packet. -/
theorem arbitrate_eq_servedNext (s : State) (h : ∀ j, (s.slot j).state ≠ .inFlight) :
    arbitrate s = servedNext s := by
  have hnone := (inFlight?_eq_none_iff s).2 h
  cases ho : s.order with
  | nil => rw [arbitrate_of_empty s ho, servedNext, ho]
  | cons j l =>
    cases hb : s.radioBusy with
    | true => simp only [arbitrate_of_busy s hb, servedNext, ho, hb, if_true]
    | false =>
      rw [arbitrate_of_idle s j l hb hnone ho, servedNext_of_idle s j l hb ho]

/-- A slot whose state alone is kept is in flight as before. -/
theorem setPhase_slot_state (s : State) (k j : Nat) (p : Phase) :
    ((s.setPhase k p).slot j).state = (s.slot j).state := by
  rw [State.setPhase, setSlot_slot]
  split
  next h => rw [h.1]
  · rfl

/-- Transmitting keeps every slot's state. -/
theorem transmit_slot_state (k j : Nat) (s : State) : ((transmit k s).slot j).state = (s.slot j).state := by
  show ((s.setSlot k { s.slot k with attempts := (s.slot k).attempts + 1, phase := .transmitting }).slot j).state = _
  rw [setSlot_slot]
  split
  next h => rw [h.1]
  · rfl

/-- The channel query keeps every slot. -/
@[simp] theorem askChannel_slot (s : State) (j : Nat) : (askChannel s).2.slot j = s.slot j := by
  obtain ⟨-, -, h, -⟩ := askChannel_keeps s
  rw [State.slot, State.slot, h]

/-- The draw keeps every slot. -/
@[simp] theorem drawBackoff_slot (s : State) (j : Nat) : (drawBackoff s).2.slot j = s.slot j := by
  obtain ⟨-, -, h, -⟩ := drawBackoff_keeps s
  rw [State.slot, State.slot, h]

/-- Carrier sense keeps every slot's state. -/
theorem sense_slot_state (k j : Nat) (s : State) : ((sense k s).slot j).state = (s.slot j).state := by
  unfold sense
  split
  · rw [transmit_slot_state, askChannel_slot]
  · rw [senseBusy, setPhase_slot_state, schedMA_slot, drawBackoff_slot, askChannel_slot]

/-- An attempt keeps every slot's state. -/
theorem beginAttempt_slot_state (k j : Nat) (s : State) : ((beginAttempt k s).slot j).state = (s.slot j).state := by
  unfold beginAttempt
  split
  · exact transmit_slot_state k j s
  · exact sense_slot_state k j s

/-- Asking the arbiter twice is asking it once, in a queue of slots of the table. -/
theorem arbitrate_arbitrate (s : State) (h : ∀ j ∈ s.order, j < s.slots.length) :
    arbitrate (arbitrate s) = arbitrate s := by
  by_cases hf : ∃ j, (s.slot j).state = .inFlight
  · rw [arbitrate_of_some_inFlight s hf, arbitrate_of_some_inFlight s hf]
  · have hnone := (inFlight?_eq_none_iff s).2 fun j hj => hf ⟨j, hj⟩
    cases ho : s.order with
    | nil => rw [arbitrate_of_empty s ho, arbitrate_of_empty s ho]
    | cons k l =>
      cases hb : s.radioBusy with
      | true => rw [arbitrate_of_busy s hb, arbitrate_of_busy s hb]
      | false =>
        have hk : k < s.slots.length := h k (ho ▸ List.mem_cons_self)
        rw [arbitrate_of_idle s k l hb hnone ho]
        refine arbitrate_of_some_inFlight _ ⟨k, ?_⟩
        rw [beginAttempt_slot_state, setSlot_slot_self s k _ hk]

/-! ### The engine alarm (R130) -/

/-- The engine alarm is in a table of the right size. -/
theorem TablesSized.engineAlarm_lt {s : State} (h : TablesSized s) : s.engineAlarm < s.alarms.length := by
  rw [h.1]
  exact Nat.lt_succ_self _

/-- `SchedMA(d)` arms the engine alarm. -/
theorem engineArmed_schedMA (s : State) (d : Word) (h : s.engineAlarm < s.alarms.length) :
    EngineArmed s (schedMA d s) d := by
  obtain ⟨l1, l2, hl, hins, hbefore, hbehind⟩ := insertByTime_split (fun e => (s.alarm e).when) (s.jiffies + d)
    s.engineAlarm (s.alist.filter (fun j => j != s.engineAlarm))
  refine ⟨armAlarm_alarm_self _ d s h, armAlarm_alarm_ne _ d s, l1, l2, hl, ?_, ?_, ?_⟩
  · exact (armAlarm_alist _ d s h).trans hins
  · exact fun e he => (timeAfter_eq_false_iff _ _).1 (hbefore e he)
  · exact fun e he => (timeAfter_iff _ _).1 (hbehind e he)

/-! ### Carrier sense (R190, R191) -/

/-- A supplied draw in the range is the draw, and it is used up. -/
theorem drawBackoff_supplied (s : State) (r : Word) (rest : List Word) (h : s.draws = r :: rest)
    (h1 : 1 ≤ r.toNat) (h2 : r.toNat ≤ s.cfg.maxInitBackoff.toNat) :
    drawBackoff s = (r, { s with draws := rest }) := by
  have hr : boundedDraw s.cfg.maxInitBackoff r = r := by
    rw [boundedDraw, if_neg (by omega), if_pos h2]
  unfold drawBackoff
  rw [h]
  simp only [hr]

/-- Every draw is in the range, supplied or free. -/
theorem drawBackoff_range (s : State) (h : 1 ≤ s.cfg.maxInitBackoff.toNat) :
    1 ≤ (drawBackoff s).1.toNat ∧ (drawBackoff s).1.toNat ≤ s.cfg.maxInitBackoff.toNat := by
  unfold drawBackoff
  split <;> exact boundedDraw_range _ _ h

/-- A clear channel and an idle radio: the frame goes out. -/
theorem sense_clear (k : Nat) (s : State) (answers : List Bool) (ha : s.channelAnswers = true :: answers)
    (hb : s.radioBusy = false) : sense k s = { transmitted k s with channelAnswers := answers } := by
  rw [sense, askChannel_supplied s true answers ha]
  simp only [hb, Bool.not_false, Bool.and_true, if_true]
  rfl

/-- A busy channel or a busy radio: the engine alarm is armed with the draw. -/
theorem sense_busy (k : Nat) (s : State) (clear : Bool) (answers : List Bool) (r : Word) (draws : List Word)
    (ha : s.channelAnswers = clear :: answers) (hd : s.draws = r :: draws) (h1 : 1 ≤ r.toNat)
    (h2 : r.toNat ≤ s.cfg.maxInitBackoff.toNat) (hbusy : clear = false ∨ s.radioBusy = true) :
    sense k s = (schedMA r { s with channelAnswers := answers, draws := draws }).setPhase k .senseBackoff := by
  have hcond : (clear && !s.radioBusy) = false := by
    rcases hbusy with rfl | hb
    · rfl
    · rw [hb, Bool.not_true, Bool.and_false]
  rw [sense, askChannel_supplied s clear answers ha]
  simp only [hcond, Bool.false_eq_true, if_false]
  rw [senseBusy, drawBackoff_supplied { s with channelAnswers := answers } r draws hd h1 h2]

/-- Settles O41. -/
theorem carrierSenseTransmitsOrBacksOff : Obligations.CarrierSenseTransmitsOrBacksOff := by
  refine ⟨drawBackoff_range, fun s k clear answers r draws hsize _ ha hd h1 h2 => ⟨fun hc hb => ?_, fun hbusy => ?_⟩⟩
  · subst hc
    exact sense_clear k s answers ha hb
  · rw [sense_busy k s clear answers r draws ha hd h1 h2 hbusy]
    exact ⟨engineArmed_schedMA s r hsize.engineAlarm_lt, rfl⟩

/-! ### Accepting a send (R183 to R185) -/

/-- MAC_SEND's descriptor is the one R184 lists. -/
theorem sendDescriptor_eq (s : State) (staged ack : Bool) (dst : Half) :
    sendDescriptor s ack (sendDst s staged dst) = macSendPacket s staged ack dst := rfl

/-- A command that sends packet `x`, whose opcode is `op` and after which the sequence number is `seq`. -/
inductive SendCommand (s : State) (n : Half) : Instr → Byte → Descriptor → Byte → Prop where
  | ex : SendCommand s n (.macSendEx n) 0x42 (descOf s.cfg s.txinfo) s.macSeq
  | send (staged ack : Bool) (dst : Half) : (staged = true → dst = 0) →
      SendCommand s n (.macSend staged ack dst n) 0x41 (macSendPacket s staged ack dst) (s.macSeq + 1)

/-- MAC_SEND with a destination that is staged or given, not both, goes to `Accept`. -/
theorem execMacSend_of_wellFormed (s : State) (staged ack : Bool) (dst n : Half) (hd : staged = true → dst = 0) :
    execMacSend staged ack dst n s =
      match accept (macSendPacket s staged ack dst) n.toNat s with
      | .rejected st => answer Op.macSend st 0 s
      | .accepted k t => answer Op.macSend .ok (BitVec.ofNat 32 k) { t with macSeq := t.macSeq + 1 } := by
  have hcond : ¬ (staged = true ∧ dst ≠ 0) := fun h => h.2 (hd h.1)
  rw [execMacSend, if_neg hcond, sendDescriptor_eq] <;> rfl

section Sends

variable {s : State} {n : Half} {i : Instr} {op : Byte} {x : Descriptor} {seq : Byte} (hi : SendCommand s n i op x seq)

include hi

/-- A send whose packet is rejected. -/
theorem exec_send_rejected (st : Status) (h : accept x n.toNat s = .rejected st) :
    exec i s = .next (answered s op st 0) := by
  cases hi with
  | ex =>
    show execMacSendEx n s = _
    rw [execMacSendEx, h]
    rfl
  | send staged ack dst hd =>
    show execMacSend staged ack dst n s = _
    rw [execMacSend_of_wellFormed s staged ack dst n hd, h]
    rfl

/-- A send whose packet is accepted into slot `k`. -/
theorem exec_send_accepted (k : Nat) (t : State) (h : accept x n.toNat s = .accepted k t) :
    exec i s = .next (answered { t with macSeq := seq } op .ok (BitVec.ofNat 32 k)) := by
  have hseq : t.macSeq = s.macSeq := by
    obtain ⟨hdr, -, -, -, -, -, rfl⟩ := accept_accepted x n.toNat k s t h
    exact (enqueue_frame k x hdr n.toNat s).macSeq
  cases hi with
  | ex =>
    show execMacSendEx n s = _
    rw [execMacSendEx, h, ← hseq]
    rfl
  | send staged ack dst hd =>
    show execMacSend staged ack dst n s = _
    rw [execMacSend_of_wellFormed s staged ack dst n hd, h, ← hseq]
    rfl

end Sends

/-- Before MAC_INIT no packet is accepted. -/
theorem accept_of_uninit (x : Descriptor) (n : Nat) (s : State) (h : s.macInited = false) :
    accept x n s = .rejected .badState := by
  simp [accept, h]

/-- A payload over BUF_SIZE is not accepted. -/
theorem accept_of_long_payload (x : Descriptor) (n : Nat) (s : State) (hinit : s.macInited = true)
    (h : s.cfg.bufSize.toNat < n) : accept x n s = .rejected .tooLong := by
  simp [accept, hinit, h]

/-- A frame over BUF_SIZE is not accepted. -/
theorem accept_of_long_frame (x : Descriptor) (n : Nat) (s : State) (hdr : List Byte) (hinit : s.macInited = true)
    (hn : n ≤ s.cfg.bufSize.toNat) (hbuild : buildHeader x = some hdr) (h : s.cfg.bufSize.toNat < hdr.length + n) :
    accept x n s = .rejected .tooLong := by
  simp [accept, hinit, Nat.not_lt.2 hn, hbuild, h]

/-- With no free slot nothing is accepted. -/
theorem accept_of_full (x : Descriptor) (n : Nat) (s : State) (hdr : List Byte) (hinit : s.macInited = true)
    (hn : n ≤ s.cfg.bufSize.toNat) (hbuild : buildHeader x = some hdr)
    (hlen : hdr.length + n ≤ s.cfg.bufSize.toNat) (h : s.freeSlot? = none) :
    accept x n s = .rejected .queueFull := by
  simp [accept, hinit, Nat.not_lt.2 hn, hbuild, Nat.not_lt.2 hlen, h]

/-- Settles O38: `Accept`'s checks in their order, behind the one check of MAC_SEND itself. -/
theorem sendsAreRefusedInTheStatedOrder : Obligations.SendsAreRefusedInTheStatedOrder := by
  refine ⟨fun s ack dst n hdst => if_pos ⟨rfl, hdst⟩, fun s n x i op hcmd => ?_⟩
  have hsend : ∃ seq, SendCommand s n i op x seq := by
    obtain ⟨rfl, rfl, rfl⟩ | ⟨staged, ack, dst, rfl, rfl, hd, rfl⟩ := hcmd
    · exact ⟨_, .ex⟩
    · exact ⟨_, .send staged ack dst hd⟩
  obtain ⟨seq, hi⟩ := hsend
  refine ⟨fun hinit => ?_, fun hinit => ⟨fun hn => ?_, fun hn => ⟨fun hbuild => ?_, fun h hbuild =>
    ⟨fun hlen => ?_, fun hlen hfull => ?_⟩⟩⟩⟩
  · exact exec_send_rejected hi _ (accept_of_uninit x n.toNat s hinit)
  · exact exec_send_rejected hi _ (accept_of_long_payload x n.toNat s hinit hn)
  · exact exec_send_rejected hi _ (accept_of_reject x n.toNat s hinit hn hbuild)
  · exact exec_send_rejected hi _ (accept_of_long_frame x n.toNat s h hinit hn hbuild hlen)
  · exact exec_send_rejected hi _
      (accept_of_full x n.toNat s h hinit hn hbuild hlen ((freeSlot?_eq_none_iff s).2 hfull))

/-- The state in which packet `x` waits QUEUED in slot `k`, before the arbiter is asked (R183). -/
def withQueued (k : Nat) (x : Descriptor) (h : List Byte) (n : Half) (s : State) : State :=
  { s with slots := s.slots.set k (packetSlot .queued .none 0 x h (payload s n)), order := s.order ++ [k] }

/-- A packet that passes the checks goes into its slot, and the arbiter is asked. -/
theorem accept_of_acceptable (s : State) (x : Descriptor) (h : List Byte) (n : Half) (k : Nat)
    (hacc : Acceptable s x h n k) : accept x n.toNat s = .accepted k (arbitrate (withQueued k x h n s)) := by
  obtain ⟨hinit, hn, hbuild, hlen, hfree⟩ := hacc
  exact accept_of x n.toNat k s h hinit hn hbuild hlen ((freeSlot?_eq_some_iff s k).2 hfree)

/-- The slot of a queued packet. -/
theorem withQueued_slot_self (k : Nat) (x : Descriptor) (h : List Byte) (n : Half) (s : State)
    (hk : k < s.slots.length) :
    (withQueued k x h n s).slot k = packetSlot .queued .none 0 x h (payload s n) :=
  setSlot_slot_self s k _ hk

/-- Every other slot. -/
theorem withQueued_slot_ne (k : Nat) (x : Descriptor) (h : List Byte) (n : Half) (s : State) (j : Nat) (hj : j ≠ k) :
    (withQueued k x h n s).slot j = s.slot j :=
  setSlot_slot_ne s k j _ hj

/-- An accepted send that cannot start yet: the arbiter leaves the queued packet where it is. -/
theorem exec_send_waits {s : State} {n : Half} {i : Instr} {op : Byte} {x : Descriptor} {seq : Byte}
    (hi : SendCommand s n i op x seq) (k : Nat) (h : List Byte)
    (hbusy : s.radioBusy = true ∨ ∃ j, (s.slot j).state = .inFlight) (hacc : Acceptable s x h n k) :
    exec i s = .next (answered { withQueued k x h n s with macSeq := seq } op .ok (BitVec.ofNat 32 k)) := by
  have harb : arbitrate (withQueued k x h n s) = withQueued k x h n s := by
    rcases hbusy with hb | ⟨j, hj⟩
    · exact arbitrate_of_busy _ hb
    · refine arbitrate_of_some_inFlight _ ⟨j, ?_⟩
      obtain ⟨-, -, -, -, -, hidle, -⟩ := hacc
      have hne : j ≠ k := by
        rintro rfl
        rw [hidle] at hj
        cases hj
      rw [withQueued_slot_ne k x h n s j hne]
      exact hj
  rw [exec_send_accepted hi k _ (accept_of_acceptable s x h n k hacc), harb]

/-- Settles O39. -/
theorem anAcceptedSendWaitsBehindTheRadio : Obligations.AnAcceptedSendWaitsBehindTheRadio := fun _ _ k h hbusy =>
  ⟨fun hacc => exec_send_waits .ex k h hbusy hacc,
    fun staged ack dst hd hacc => exec_send_waits (.send staged ack dst hd) k h hbusy hacc⟩

/-- The packet of slot `k` in flight, its first attempt to be made, in a queue that was empty. -/
def withStarted (k : Nat) (x : Descriptor) (h : List Byte) (n : Half) (s : State) : State :=
  { s with slots := s.slots.set k (packetSlot .inFlight .none 0 x h (payload s n)), order := [k] }

/-- On an idle engine with an empty queue the packet accepted makes its first attempt. -/
theorem arbitrate_withQueued_of_idle (k : Nat) (x : Descriptor) (h : List Byte) (n : Half) (s : State)
    (hb : s.radioBusy = false) (ho : s.order = []) (hnone : ∀ j, (s.slot j).state ≠ .inFlight)
    (hk : k < s.slots.length) : arbitrate (withQueued k x h n s) = beginAttempt k (withStarted k x h n s) := by
  have hflight : ∀ j, ((withQueued k x h n s).slot j).state ≠ .inFlight := by
    intro j
    by_cases hj : j = k
    · rw [hj, withQueued_slot_self k x h n s hk]
      exact SlotState.noConfusion
    · rw [withQueued_slot_ne k x h n s j hj]
      exact hnone j
  rw [arbitrate_of_idle (withQueued k x h n s) k [] hb ((inFlight?_eq_none_iff (withQueued k x h n s)).2 hflight)
    (by simp [withQueued, ho]),
    withQueued_slot_self k x h n s hk]
  congr 1
  simp only [withQueued, withStarted, State.setSlot, List.set_set, ho, List.nil_append]
  rfl

/-- The slot of the packet started. -/
theorem withStarted_slot_self (k : Nat) (x : Descriptor) (h : List Byte) (n : Half) (s : State)
    (hk : k < s.slots.length) :
    (withStarted k x h n s).slot k = packetSlot .inFlight .none 0 x h (payload s n) :=
  setSlot_slot_self s k _ hk

/-- The first attempt of a packet on an idle engine that goes on the air: without a question in the pass-through
variant, after a clear answer in the others. -/
theorem beginAttempt_withStarted_clear (k : Nat) (x : Descriptor) (h : List Byte) (n : Half) (s : State)
    (answers : List Bool) (hb : s.radioBusy = false) (hk : k < s.slots.length)
    (hclear : (s.cfg.variant = .passthrough ∧ answers = s.channelAnswers)
      ∨ (s.cfg.variant ≠ .passthrough ∧ s.channelAnswers = true :: answers)) :
    beginAttempt k (withStarted k x h n s) =
      { s with slots := s.slots.set k (packetSlot .inFlight .transmitting 1 x h (payload s n)),
               order := [k], radioBusy := true, txOwner := .slot, txSlot := BitVec.ofNat 8 k,
               channelAnswers := answers, outputs := s.outputs ++ [.radioTx h (payload s n)] } := by
  have hair : transmitted k (withStarted k x h n s) =
      { s with slots := s.slots.set k (packetSlot .inFlight .transmitting 1 x h (payload s n)),
               order := [k], radioBusy := true, txOwner := .slot, txSlot := BitVec.ofNat 8 k,
               outputs := s.outputs ++ [.radioTx h (payload s n)] } := by
    rw [transmitted, withStarted_slot_self k x h n s hk]
    simp only [withStarted, List.set_set]
    rfl
  rcases hclear with ⟨hv, rfl⟩ | ⟨hv, ha⟩
  · exact (if_pos hv).trans hair
  · refine (if_neg hv).trans ?_
    rw [sense_clear k (withStarted k x h n s) answers ha hb, hair]

/-- The first attempt of a packet on an idle engine whose channel is busy: its backoff. -/
theorem beginAttempt_withStarted_busy (k : Nat) (x : Descriptor) (h : List Byte) (n : Half) (s : State)
    (answers : List Bool) (r : Word) (draws : List Word) (hk : k < s.slots.length)
    (hv : s.cfg.variant ≠ .passthrough) (ha : s.channelAnswers = false :: answers) (hd : s.draws = r :: draws)
    (h1 : 1 ≤ r.toNat) (h2 : r.toNat ≤ s.cfg.maxInitBackoff.toNat) :
    beginAttempt k (withStarted k x h n s) =
      { s with slots := s.slots.set k (packetSlot .inFlight .senseBackoff 0 x h (payload s n)),
               order := [k], channelAnswers := answers, draws := draws, alarms := (schedMA r s).alarms,
               alist := (schedMA r s).alist } := by
  refine (if_neg hv).trans ?_
  rw [sense_busy k (withStarted k x h n s) false answers r draws ha hd h1 h2 (.inl rfl), State.setPhase, schedMA_slot]
  have hslot : State.slot { withStarted k x h n s with channelAnswers := answers, draws := draws } k
      = packetSlot .inFlight .none 0 x h (payload s n) := withStarted_slot_self k x h n s hk
  rw [hslot]
  simp only [State.setSlot, schedMA_slots, withStarted, List.set_set]
  rfl

/-- A send accepted on an idle engine answers the state its first attempt leaves. -/
theorem exec_send_starts {s : State} {n : Half} {i : Instr} {op : Byte} {x : Descriptor} {seq : Byte}
    (hi : SendCommand s n i op x seq) (k : Nat) (h : List Byte) (hb : s.radioBusy = false) (ho : s.order = [])
    (hnone : ∀ j, (s.slot j).state ≠ .inFlight) (hacc : Acceptable s x h n k) :
    k < s.slots.length
    ∧ exec i s = .next (answered { beginAttempt k (withStarted k x h n s) with macSeq := seq } op .ok
        (BitVec.ofNat 32 k)) := by
  have ⟨_, _, _, _, hk, _⟩ := hacc
  rw [exec_send_accepted hi k _ (accept_of_acceptable s x h n k hacc),
    arbitrate_withQueued_of_idle k x h n s hb ho hnone hk]
  exact ⟨hk, rfl⟩

/-- Settles O40. -/
theorem anAcceptedSendOnAnIdleEngineIsTransmitted : Obligations.AnAcceptedSendOnAnIdleEngineIsTransmitted := by
  intro s n k h answers hb ho hnone
  refine ⟨fun hclear => ?_, fun r draws hsize hv ha hd h1 h2 => ?_⟩
  · have hsent : ∀ {i op x seq}, SendCommand s n i op x seq → Acceptable s x h n k → _ :=
      fun {i op x seq} hi hacc => by
        obtain ⟨hk, he⟩ := exec_send_starts hi k h hb ho hnone hacc
        rw [beginAttempt_withStarted_clear k x h n s answers hb hk hclear] at he
        exact he
    exact ⟨hsent .ex, fun staged ack dst hst => hsent (.send staged ack dst hst)⟩
  · have hwaits : ∀ {i op x seq}, SendCommand s n i op x seq → Acceptable s x h n k → ∃ t : State,
        (EngineArmed s t r
          ∧ t = { s with slots := s.slots.set k (packetSlot .inFlight .senseBackoff 0 x h (payload s n)),
                         order := [k], channelAnswers := answers, draws := draws, macSeq := seq,
                         alarms := t.alarms, alist := t.alist })
        ∧ exec i s = .next (answered t op .ok (BitVec.ofNat 32 k)) :=
      fun {i op x seq} hi hacc => by
        obtain ⟨hk, he⟩ := exec_send_starts hi k h hb ho hnone hacc
        rw [beginAttempt_withStarted_busy k x h n s answers r draws hk hv ha hd h1 h2] at he
        refine ⟨_, ⟨?_, ?_⟩, he⟩
        · exact engineArmed_schedMA s r hsize.engineAlarm_lt
        · rfl
    exact ⟨hwaits .ex, fun staged ack dst hst => hwaits (.send staged ack dst hst)⟩

end Sys2Proof.Machine

/-! SUPPORT. How a send goes on and ends (spec/43_mac_tx.md sections 5 to 7) and what a frame does (spec/44_mac_rx.md
section 1): RADIO_TXDONE, the engine alarm's handler, MAC_CANCEL, the acknowledgements and the dropped frames. -/

namespace Sys2Proof.Machine

/-! ### The end of a send (R198) -/

/-- Completing a send releases its slot and serves the next packet, if nothing else is in flight. -/
theorem complete_eq_servedNext (k : Nat) (c : SendCode) (s : State) (h : ∀ j, j ≠ k → (s.slot j).state ≠ .inFlight) :
    complete k c s = servedNext (released k c s) :=
  arbitrate_eq_servedNext (release k c s) (release_none_inFlight k c s h)

/-- Completing a send behind one that is in flight only releases its slot. -/
theorem complete_eq_released (k : Nat) (c : SendCode) (s : State) (h : ∃ j, j ≠ k ∧ (s.slot j).state = .inFlight) :
    complete k c s = released k c s := by
  obtain ⟨j, hne, hj⟩ := h
  exact arbitrate_of_some_inFlight (release k c s) ⟨j, release_inFlight_of_ne k j c s hne hj⟩

/-- After a completion the arbiter has nothing more to do. -/
theorem arbitrate_complete (k : Nat) (c : SendCode) (s : State) (h : ∀ j ∈ s.order, j < s.slots.length) :
    arbitrate (complete k c s) = complete k c s := by
  refine arbitrate_arbitrate (release k c s) fun j hj => ?_
  rw [release_order] at hj
  rw [release_slots, List.length_set]
  exact h j (List.mem_filter.1 hj).1

/-! ### RADIO_TXDONE (R193, R194) -/

/-- Who is to acknowledge slot `k` (R189). -/
theorem ackWanted_iff (s : State) (k : Nat) :
    ackWanted s k = true
      ↔ s.cfg.variant = .csmaAck ∧ (s.slot k).ackreq = true ∧ isBroadcast (s.slot k).dst = false := by
  simp only [ackWanted, Bool.and_eq_true, beq_iff_eq, Bool.not_eq_true', and_assoc]

/-- With nothing on the air the end of a transmission is only reported. -/
theorem onTxDone_of_idle (status : Byte) (s : State) (h : s.radioBusy = false) :
    onTxDone status s = s.emit (.diag .spuriousTxDone) := if_pos h

/-- The end of a slot's transmission. -/
theorem onTxDone_of_slot (status : Byte) (s : State) (hb : s.radioBusy = true) (ho : s.txOwner = .slot) :
    onTxDone status s = arbitrate (slotSent s.txSlot.toNat status (radioFree s)) := by
  rw [onTxDone, if_neg (by simp [hb]), if_pos ho]

/-- The end of an acknowledgement's or an orphan's transmission. -/
theorem onTxDone_of_other (status : Byte) (s : State) (hb : s.radioBusy = true) (ho : s.txOwner ≠ .slot) :
    onTxDone status s = arbitrate (radioFree s) := by
  rw [onTxDone, if_neg (by simp [hb]), if_neg ho]

/-- Settles O42. -/
theorem transmissionEndWaitsOrCompletes : Obligations.TransmissionEndWaitsOrCompletes := by
  intro s status
  refine ⟨fun hb => ?_, fun hb ho => ⟨fun hnone => ?_, fun hsome => ?_⟩, fun k hsize hb ho hk hhead =>
    ⟨fun hwant => ?_, fun hwant => ?_⟩⟩
  · rw [runInput, onTxDone_of_idle status s hb]
    rfl
  · rw [runInput, onTxDone_of_other status s hb ho, arbitrate_eq_servedNext (radioFree s) hnone]
    rfl
  · rw [runInput, onTxDone_of_other status s hb ho, arbitrate_of_some_inFlight (radioFree s) hsome]
    rfl
  · obtain ⟨-, -, -, -, hflight, -⟩ := hhead
    have hwait : slotSent k status (radioFree s) = (schedMA s.cfg.ackTimeout (radioFree s)).setPhase k .awaitAck :=
      if_pos ((ackWanted_iff s k).2 hwant)
    rw [runInput, onTxDone_of_slot status s hb ho, hk, hwait, arbitrate_of_some_inFlight]
    · exact ⟨_, rfl, engineArmed_schedMA s _ hsize.engineAlarm_lt, rfl⟩
    · exact ⟨k, (setPhase_slot_state _ k k .awaitAck).trans hflight⟩
  · obtain ⟨-, -, -, htable, -, halone⟩ := hhead
    have hnot : ¬ ackWanted (radioFree s) k = true := by
      rintro h
      obtain ⟨hv, ha, hd⟩ := (ackWanted_iff s k).1 h
      rcases hwant with h | h | h
      · exact h hv
      · rw [ha] at h
        cases h
      · rw [hd] at h
        cases h
    have hdone : slotSent k status (radioFree s) = complete k (txDoneCode status) (radioFree s) := if_neg hnot
    rw [runInput, onTxDone_of_slot status s hb ho, hk, hdone, arbitrate_complete k _ (radioFree s) htable,
      complete_eq_servedNext k _ (radioFree s) halone]
    rfl

/-! ### The engine alarm's handler (R196, R197) -/

/-- With nothing in flight the handler does nothing. -/
theorem macAlarm_of_none (s : State) (h : ∀ j, (s.slot j).state ≠ .inFlight) : macAlarm s = s := by
  rw [macAlarm, (inFlight?_eq_none_iff s).2 h]

section Handler

variable {s : State} {k : Nat} (hf : s.inFlight? = some k)

include hf

/-- A backoff has run out: the channel is sensed again. -/
theorem macAlarm_of_senseBackoff (hp : (s.slot k).phase = .senseBackoff) : macAlarm s = sense k s := by
  rw [macAlarm, hf]
  simp only [hp]

/-- An acknowledgement has not come. -/
theorem macAlarm_of_awaitAck (hp : (s.slot k).phase = .awaitAck) : macAlarm s = ackTimedOut k s := by
  rw [macAlarm, hf]
  simp only [hp]

/-- A retry wait has run out: the next attempt begins. -/
theorem macAlarm_of_retryBackoff (hp : (s.slot k).phase = .retryBackoff) : macAlarm s = beginAttempt k s := by
  rw [macAlarm, hf]
  simp only [hp]

/-- Nothing is waited for. -/
theorem macAlarm_of_not_waiting (hp : (s.slot k).phase = .transmitting ∨ (s.slot k).phase = .none) :
    macAlarm s = s := by
  rw [macAlarm, hf]
  rcases hp with hp | hp <;> simp only [hp]

end Handler

/-- The retry wait is the product modulo 2^32 (R197). -/
theorem retryDelay_eq (s : State) (k : Nat) :
    retryDelay s k = BitVec.ofNat 32 (s.cfg.retryBase.toNat * (s.slot k).attempts.toNat) := by
  apply BitVec.eq_of_toNat_eq
  have hlt := (s.slot k).attempts.isLt
  rw [retryDelay, BitVec.toNat_mul, BitVec.toNat_ofNat, BitVec.zeroExtend, BitVec.toNat_setWidth,
    Nat.mod_eq_of_lt (show (s.slot k).attempts.toNat < 2 ^ 32 by omega)]

/-- Settles O43. -/
theorem anExpiredAckWaitRetriesOrFails : Obligations.AnExpiredAckWaitRetriesOrFails := by
  refine ⟨fun s k hsize hhead => ?_, macAlarm_of_none⟩
  have hf := inFlight?_of_head hhead
  refine ⟨fun hp => ⟨fun hleft => ?_, fun hout => ?_⟩, macAlarm_of_senseBackoff hf,
    fun hp => ⟨fun hv => ?_, fun hv => ?_⟩, macAlarm_of_not_waiting hf⟩
  · have hretry : ackTimedOut k s = (schedMA (retryDelay s k) s).setPhase k .retryBackoff := if_pos hleft
    rw [macAlarm_of_awaitAck hf hp, hretry, ← retryDelay_eq]
    exact ⟨engineArmed_schedMA s _ hsize.engineAlarm_lt, rfl⟩
  · obtain ⟨-, -, -, -, -, halone⟩ := hhead
    have hfail : ackTimedOut k s = complete k .ackTimeout s := if_neg (Nat.not_lt.2 hout)
    rw [macAlarm_of_awaitAck hf hp, hfail, complete_eq_servedNext k _ s halone]
  · rw [macAlarm_of_retryBackoff hf hp]
    exact if_pos hv
  · rw [macAlarm_of_retryBackoff hf hp]
    exact if_neg hv

/-! ### MAC_CANCEL (R204) -/

/-- A cancelled send is completed as CANCELLED once its hold on the radio or the engine alarm is gone. -/
theorem exec_macCancel_of_occupied (s : State) (k : Byte) (hinit : s.macInited = true)
    (hk : k.toNat < s.cfg.queueCap.toNat) (hs : (s.slot k.toNat).state ≠ .idle) :
    exec (.macCancel k) s
      = .next (answered (complete k.toNat .cancelled (abandon k.toNat s)) 0x45 .ok 0) := by
  show execMacCancel k s = _
  rw [execMacCancel, if_neg (by simp [hinit]), if_neg (Nat.not_le.2 hk), if_neg hs]
  rfl

/-- A slot that is not in flight holds neither the radio nor the engine alarm. -/
theorem abandon_of_not_inFlight (k : Nat) (s : State) (h : (s.slot k).state ≠ .inFlight) : abandon k s = s :=
  if_neg h

/-- A frame on the air becomes an orphan. -/
theorem abandon_of_transmitting (k : Nat) (s : State) (h : (s.slot k).state = .inFlight)
    (hp : (s.slot k).phase = .transmitting) : abandon k s = { s with txOwner := .orphan } := by
  rw [abandon, if_pos h, if_pos hp]

/-- A packet that waits gives the engine alarm back. -/
theorem abandon_of_waiting (k : Nat) (s : State) (h : (s.slot k).state = .inFlight)
    (hp : (s.slot k).phase ≠ .transmitting) : abandon k s = cancelMA s := by
  rw [abandon, if_pos h, if_neg hp]

/-- Abandoning touches no slot, no place in the queue and no output. -/
theorem abandon_keeps (k : Nat) (s : State) :
    (abandon k s).slots = s.slots ∧ (abandon k s).order = s.order ∧ (abandon k s).outputs = s.outputs
      ∧ (abandon k s).responses = s.responses := by
  unfold abandon
  split_ifs <;> exact ⟨rfl, rfl, rfl, rfl⟩

/-- An attempt leaves the queue. -/
theorem beginAttempt_order (k : Nat) (s : State) : (beginAttempt k s).order = s.order := by
  have hask := (askChannel_keeps s).2.2.2.1
  have hdraw := (drawBackoff_keeps (askChannel s).2).2.2.2.1
  unfold beginAttempt sense
  split_ifs
  · rfl
  · exact hask
  · exact hdraw.trans hask

/-- The arbiter leaves the queue. -/
@[simp] theorem arbitrate_order (s : State) : (arbitrate s).order = s.order := by
  unfold arbitrate
  split_ifs
  · rfl
  · rfl
  · split
    · rfl
    · rw [beginAttempt_order, setSlot_order]

/-- The engine alarm and the list after it is cancelled, the packet of slot `k` released or not. -/
theorem cancelMA_unlinked (s : State) :
    s.engineAlarm ∉ (cancelMA s).alist
    ∧ (cancelMA s).alarm s.engineAlarm = { s.alarm s.engineAlarm with state := .idle }
    ∧ (∀ i, i ≠ s.engineAlarm → (cancelMA s).alarm i = s.alarm i)
    ∧ (cancelMA s).alist = s.alist.filter (fun j => j != s.engineAlarm) :=
  ⟨fun h => ((mem_removeAlarm _ s _).1 h).2 rfl, removeAlarm_alarm_self _ s, removeAlarm_alarm_ne _ s, rfl⟩

/-- Settles O44. -/
theorem cancelFreesTheSlotAndItsTimeout : Obligations.CancelFreesTheSlotAndItsTimeout := by
  intro s k
  refine ⟨fun hinit => if_pos hinit, fun hinit => ⟨fun hk => ?_, fun hk => ⟨fun hidle => ?_, fun hs => ?_,
    fun hq => ⟨fun hsome => ?_, fun hnone => ?_⟩, fun hhead => ⟨fun hp hb => ?_, fun hp => ?_⟩⟩⟩⟩
  · show execMacCancel k s = _
    rw [execMacCancel, if_neg (by simp [hinit]), if_pos hk]
    rfl
  · show execMacCancel k s = _
    rw [execMacCancel, if_neg (by simp [hinit]), if_neg (Nat.not_le.2 hk), if_pos hidle]
    rfl
  · obtain ⟨hslots, horder, hout, hresp⟩ := abandon_keeps k.toNat s
    have hframe := arbitrate_frame (release k.toNat .cancelled (abandon k.toNat s))
    obtain ⟨more, hmore⟩ := hframe.outputs
    refine ⟨_, more, exec_macCancel_of_occupied s k hinit hk hs, ?_, ?_, ?_⟩
    · show (arbitrate _).outputs = _
      rw [hmore, release_outputs, hout, List.append_assoc, BitVec.ofNat_toNat, BitVec.setWidth_eq]
      simp only [State.slot, hslots, List.singleton_append]
    · show (arbitrate _).order = _
      rw [arbitrate_order, release_order, horder]
    · show (arbitrate _).responses ++ _ = _
      rw [hframe.responses, release_responses, hresp]
  · have hs : (s.slot k.toNat).state ≠ .inFlight := by rw [hq]; decide
    obtain ⟨j, hj⟩ := hsome
    rw [exec_macCancel_of_occupied s k hinit hk (by rw [hq]; decide), abandon_of_not_inFlight _ s hs,
      complete_eq_released _ _ s ⟨j, by rintro rfl; exact hs hj, hj⟩]
  · rw [exec_macCancel_of_occupied s k hinit hk (by rw [hq]; decide), abandon_of_not_inFlight _ s (hnone _),
      complete_eq_servedNext _ _ s fun j _ => hnone j]
  · obtain ⟨-, -, -, -, hflight, -⟩ := hhead
    rw [exec_macCancel_of_occupied s k hinit hk (by rw [hflight]; decide),
      abandon_of_transmitting _ s hflight hp]
    have harb : complete k.toNat .cancelled { s with txOwner := .orphan }
        = release k.toNat .cancelled { s with txOwner := .orphan } := arbitrate_of_busy _ hb
    rw [harb]
    rfl
  · obtain ⟨-, -, -, -, hflight, halone⟩ := hhead
    obtain ⟨h1, h2, h3, h4⟩ := cancelMA_unlinked s
    refine ⟨released k.toNat .cancelled (cancelMA s), h1, h2, h3, h4, rfl, ?_⟩
    rw [exec_macCancel_of_occupied s k hinit hk (by rw [hflight]; decide), abandon_of_waiting _ s hflight hp,
      complete_eq_servedNext k.toNat .cancelled (cancelMA s) halone]

/-! ### Frames that are dropped (R220 to R224) -/

/-- Settles O45. -/
theorem droppedFramesLeaveOneDiag : Obligations.DroppedFramesLeaveOneDiag := by
  intro s f
  refine ⟨fun hinit => ?_, fun hinit => ⟨fun hlen => ?_, fun hlen => ⟨fun hparse => ?_, fun x hparse hs hl hb => ?_⟩⟩⟩
  · rw [runInput, onRadioRx, if_pos hinit]
    rfl
  · rw [runInput, onRadioRx, if_neg (by simp [hinit]), if_pos hlen]
    rfl
  · rw [runInput, onRadioRx, if_neg (by simp [hinit]), if_neg (Nat.not_lt.2 hlen), hparse]
    rfl
  · have hnot : (isLocal s x.immedDst || isBroadcast x.immedDst) = false := by
      rw [← Bool.not_eq_true, isLocal_or_isBroadcast_iff_forNode]
      rintro (h | h | ⟨hla, h⟩)
      · exact hs h
      · rw [hb] at h
        cases h
      · exact hl hla h
    rw [runInput, onRadioRx_of_parseHeader f x s hinit hlen hparse, receiveParsed, hnot]
    rfl

/-! ### Acknowledgements that come in (R225) -/

/-- Settles O46. -/
theorem onlyTheAwaitedAckCompletesTheSend : Obligations.OnlyTheAwaitedAckCompletesTheSend := by
  intro s f x hinit hlen hparse hfor hv hack
  have hrx : onRadioRx f s = matchAck x s := by
    rw [onRadioRx_of_parseHeader f x s hinit hlen hparse, receiveParsed_of_forNode x _ s hfor, if_pos ⟨hv, hack⟩]
  refine ⟨fun k hhead hp hseq hsrc => ?_, fun hother => ?_⟩
  · have hmatch : ackMatches s x k = true := by simp [ackMatches, hp, hseq, hsrc, addrEq]
    have hf := inFlight?_of_head hhead
    obtain ⟨-, -, -, -, -, halone⟩ := hhead
    obtain ⟨h1, h2, h3, h4⟩ := cancelMA_unlinked s
    refine ⟨released k .sendOk (cancelMA s), h1, h2, h3, h4, rfl, ?_⟩
    rw [runInput, hrx, matchAck, hf]
    simp only [hmatch, if_true]
    rw [complete_eq_servedNext k .sendOk (cancelMA s) halone]
  · rw [runInput, hrx, matchAck]
    split
    · rfl
    next k hf =>
      obtain ⟨-, hflight, -⟩ := (inFlight?_eq_some_iff s k).1 hf
      have hmatch : ¬ ackMatches s x k = true := by
        simp only [ackMatches, addrEq, Bool.and_eq_true, beq_iff_eq, not_and]
        exact fun h => hother k hflight h.1 h.2
      rw [if_neg hmatch]
      rfl

/-! ### Acknowledgements that go out (R226, R227) -/

/-- For a frame to the node the acknowledgement is the one R227 lists. -/
theorem ackDescriptor_eq (s : State) (x : Descriptor) (hfor : ForNode s x.immedDst) :
    ackDescriptor s x = ackPacket s x := by
  have hsrc : ackSource s x.immedDst = (ackPacket s x).immedSrc := by
    unfold ackSource ackPacket
    cases hd : x.immedDst with
    | short v =>
      split
      next h =>
        have hv : v = s.localShort := by simpa [isLocal] using h
        rw [hv]
      · rfl
    | long v =>
      rw [hd] at hfor
      have hlocal : isLocal s (.long v) = true := by
        rcases hfor with h | h | h
        · cases h
        · cases h
        · exact (isLocal_iff s _).2 (.inr h)
      rw [if_pos hlocal]
  rw [ackDescriptor, hsrc]
  rfl

/-- A parsed header never carries two long addresses. -/
theorem parsed_not_both_long (longAddr : Bool) (f : List Byte) (x : Descriptor) (h : parseHeader longAddr f = some x) :
    ¬ ((∃ v, x.immedSrc = .long v) ∧ ∃ v, x.immedDst = .long v) := by
  have hkind : ∀ n a, OfKind n a → (∃ v, a = .long v) → n = 2 := by
    rintro n a (⟨-, rfl⟩ | ⟨-, w, rfl⟩ | ⟨hn, -⟩) ⟨v, hv⟩
    · cases hv
    · cases hv
    · exact hn
  cases f with
  | nil => cases h
  | cons fcf rest =>
    obtain ⟨hann, -, -, -⟩ := parseHeader_eq_some longAddr fcf rest x h
    exact fun hl => not_both_long fcf ⟨hkind _ _ hann.src hl.1, hkind _ _ hann.dst hl.2⟩

/-- The source of an acknowledgement is long only when the frame came to a long address. -/
theorem kindOf_hdrSrc_ackPacket (s : State) (x : Descriptor) (h : kindOf (hdrSrc (ackPacket s x)) = .long) :
    ∃ v, x.immedDst = .long v := by
  cases hd : x.immedDst with
  | long v => exact ⟨v, rfl⟩
  | short v => exact absurd h (kindOf_hdrSrc_ne_long _ s.localShort 0 (by simp [ackPacket, hd]) rfl)

/-- The destination of an acknowledgement is long only when the frame came from a long address. -/
theorem kindOf_hdrDst_ackPacket (s : State) (x : Descriptor) (h : kindOf (hdrDst (ackPacket s x)) = .long) :
    ∃ v, x.immedSrc = .long v := by
  cases hd : x.immedSrc with
  | long v => exact ⟨v, rfl⟩
  | short v => exact absurd h (kindOf_hdrDst_ne_long _ v 0 (by simp [ackPacket, hd]) rfl)

/-- The acknowledgement of a frame that parsed builds. -/
theorem exists_ackHeader (s : State) (longAddr : Bool) (f : List Byte) (x : Descriptor)
    (h : parseHeader longAddr f = some x) : ∃ hdr, buildHeader (ackPacket s x) = some hdr := by
  rw [← Option.ne_none_iff_exists', ne_eq, buildHeader_eq_none_iff]
  rintro ⟨hs, hd⟩
  exact parsed_not_both_long longAddr f x h ⟨kindOf_hdrDst_ackPacket s x hd, kindOf_hdrSrc_ackPacket s x hs⟩

/-- No acknowledgement goes to nobody or while the radio is busy. -/
theorem autoAck_not_sent (x : Descriptor) (s : State)
    (h : isUnspecified x.immedSrc = true ∨ buildHeader (ackDescriptor s x) = none ∨ s.radioBusy = true) :
    autoAck x s = s.emit (.diag .ackNotSent) := by
  by_cases hu : isUnspecified x.immedSrc = true
  · exact if_pos hu
  · rw [autoAck, if_neg hu]
    cases hbuild : buildHeader (ackDescriptor s x) with
    | none => rfl
    | some hdr =>
      have hb : s.radioBusy = true := by simpa [hu, hbuild] using h
      simp only [hb, if_true]

/-- An acknowledgement that builds goes out on an idle radio. -/
theorem autoAck_sent (x : Descriptor) (s : State) (hdr : List Byte) (hu : isUnspecified x.immedSrc = false)
    (hbuild : buildHeader (ackDescriptor s x) = some hdr) (hb : s.radioBusy = false) :
    autoAck x s = transmitAck hdr s := by
  rw [autoAck, if_neg (by simp [hu]), hbuild]
  simp only [hb, Bool.false_eq_true, if_false]

/-- Settles O47. -/
theorem askedFramesAreAcknowledgedThenDelivered : Obligations.AskedFramesAreAcknowledgedThenDelivered := by
  refine ⟨fun s f x hinit hlen hparse hfor hv hack => ?_, fun s x v w hfor hsrc hv0 hdst hw0 => ?_⟩
  · have hrx : onRadioRx f s = deliver x (f.drop x.hdrLen.toNat) s := by
      rw [onRadioRx_of_parseHeader f x s hinit hlen hparse, receiveParsed_of_forNode x _ s hfor,
        if_neg fun h => by rw [hack] at h; cases h.2]
    refine ⟨fun hask => ?_, fun hask hno => ?_, fun hask hu hb => ?_⟩
    · rw [runInput, hrx, deliver, if_neg fun h => by rw [hask] at h; cases h.2]
      rfl
    · rw [runInput, hrx, deliver, if_pos ⟨hv, hask⟩, autoAck_not_sent x s (hno.imp id .inr)]
      simp only [State.emit, List.append_assoc]
      rfl
    · obtain ⟨hdr, hbuild⟩ := exists_ackHeader s s.cfg.longAddr f x hparse
      refine ⟨hdr, hbuild, ?_⟩
      rw [← ackDescriptor_eq s x hfor] at hbuild
      rw [runInput, hrx, deliver, if_pos ⟨hv, hask⟩, autoAck_sent x s hdr hu hbuild hb]
      simp only [State.emit, transmitAck, List.append_assoc]
      rfl
  · have hnone : buildHeader (ackPacket s x) = none := by
      have hsrcDst : isUnspecified (Address.long v) = false ∧ isUnspecified (Address.long w) = false := by
        simpa [isUnspecified] using And.intro hv0 hw0
      rw [buildHeader_eq_none_iff, kindOf_eq_long_iff, kindOf_eq_long_iff]
      exact ⟨⟨w, by simp [hdrSrc, ackPacket, hdst, hsrcDst], hw0⟩, ⟨v, by simp [hdrDst, ackPacket, hsrc, hsrcDst], hv0⟩⟩
    refine ⟨hnone, ?_⟩
    rw [autoAck_not_sent x s (.inr (.inl (by rw [ackDescriptor_eq s x hfor]; exact hnone)))]
    rfl

end Sys2Proof.Machine

/-! SUPPORT. What the engine and a pass can do, said once: the elementary changes that the engine's procedures are made
of (spec/43_mac_tx.md, spec/44_mac_rx.md), one lemma per procedure that it is a chain of them, and the rule by which a
pass keeps what each of its rounds keeps. -/

namespace Sys2Proof.Machine

/-! ### The engine's elementary changes -/

/-- One elementary change the engine makes. In a sound state (`strict`) only a slot in flight changes its phase, and only
an occupied slot is released. -/
inductive EngineMove (strict : Prop) (s : State) : State → Prop where
  | query (answers : List Bool) (draws : List Word) (n : Nat) :
      EngineMove strict s { s with channelAnswers := answers, draws := draws, queries := n }
  | phase (k : Nat) (p : Phase) : (strict → k < s.slots.length → (s.slot k).state = .inFlight) →
      EngineMove strict s (s.setPhase k p)
  | transmit (k : Nat) : (strict → k < s.slots.length → (s.slot k).state = .inFlight) →
      EngineMove strict s (transmit k s)
  | start (k : Nat) : k ∈ s.order → EngineMove strict s (s.setSlot k { s.slot k with state := .inFlight })
  | release (k : Nat) (c : SendCode) : (strict → (s.slot k).state ≠ .idle) → EngineMove strict s (release k c s)
  | arm (d : Word) : EngineMove strict s (schedMA d s)
  | disarm : EngineMove strict s (cancelMA s)
  | radio (busy : Bool) (owner : TxOwner) : EngineMove strict s { s with radioBusy := busy, txOwner := owner }
  | ack (h : List Byte) : EngineMove strict s (transmitAck h s)
  | emit (e : Output) : (∀ i c a, e ≠ .sendDone i c a) → EngineMove strict s (s.emit e)

/-- A chain of elementary changes. -/
abbrev EngineMoves (strict : Prop) : State → State → Prop := Relation.ReflTransGen (EngineMove strict)

/-- What every elementary change keeps, a chain keeps. -/
theorem EngineMoves.keeps {strict : Prop} {P : State → Prop} (move : ∀ s t, EngineMove strict s t → P s → P t)
    {s t : State} (h : EngineMoves strict s t) (hs : P s) : P t := by
  induction h with
  | refl => exact hs
  | tail _ hm ih => exact move _ _ hm ih

section Procedures

variable {strict : Prop}

theorem askChannel_moves (s : State) : EngineMoves strict s (askChannel s).2 := by
  refine .single ?_
  unfold askChannel
  split
  next rest _ => exact .query rest s.draws s.queries
  next => exact .query s.channelAnswers s.draws (s.queries + 1)

theorem drawBackoff_moves (s : State) : EngineMoves strict s (drawBackoff s).2 := by
  refine .single ?_
  unfold drawBackoff
  split
  next rest _ => exact .query s.channelAnswers rest s.queries
  next => exact .query s.channelAnswers s.draws (s.queries + 1)

/-- Arming the engine alarm and naming what the slot in flight waits for. -/
theorem armed_moves (k : Nat) (d : Word) (p : Phase) (s : State)
    (hk : strict → k < s.slots.length → (s.slot k).state = .inFlight) :
    EngineMoves strict s ((schedMA d s).setPhase k p) :=
  .tail (.single (.arm d)) (.phase k p hk)

theorem sense_moves (k : Nat) (s : State) (hk : strict → k < s.slots.length → (s.slot k).state = .inFlight) :
    EngineMoves strict s (sense k s) := by
  have hslots := (askChannel_keeps s).2.2.1
  have hasked : strict → k < (askChannel s).2.slots.length → ((askChannel s).2.slot k).state = .inFlight := by
    rwa [askChannel_slot, hslots]
  unfold sense
  split
  · exact .tail (askChannel_moves s) (.transmit k hasked)
  · refine (askChannel_moves s).trans ((drawBackoff_moves _).trans (armed_moves k _ .senseBackoff _ ?_))
    rwa [drawBackoff_slot, (drawBackoff_keeps _).2.2.1]

theorem beginAttempt_moves (k : Nat) (s : State) (hk : strict → k < s.slots.length → (s.slot k).state = .inFlight) :
    EngineMoves strict s (beginAttempt k s) := by
  unfold beginAttempt
  split
  · exact .single (.transmit k hk)
  · exact sense_moves k s hk

theorem arbitrate_moves (s : State) : EngineMoves strict s (arbitrate s) := by
  unfold arbitrate
  split
  · exact .refl
  split
  · exact .refl
  split
  · exact .refl
  next k l ho =>
    refine .head (.start k (by simp [ho])) (beginAttempt_moves k _ fun _ hk => ?_)
    rw [setSlot_slot_self _ _ _ (by simpa using hk)]

theorem complete_moves (k : Nat) (c : SendCode) (s : State) (hk : strict → (s.slot k).state ≠ .idle) :
    EngineMoves strict s (complete k c s) :=
  .head (.release k c hk) (arbitrate_moves _)

/-- The slot found in flight is in flight. -/
theorem inFlight_of_found {s : State} {k : Nat} (h : s.inFlight? = some k) : (s.slot k).state = .inFlight :=
  ((inFlight?_eq_some_iff s k).1 h).2.1

theorem ackTimedOut_moves (k : Nat) (s : State) (hk : strict → (s.slot k).state = .inFlight) :
    EngineMoves strict s (ackTimedOut k s) := by
  unfold ackTimedOut
  split
  · exact armed_moves k _ .retryBackoff s fun h _ => hk h
  · exact complete_moves k _ s fun h => by rw [hk h]; decide

theorem macAlarm_moves (s : State) : EngineMoves strict s (macAlarm s) := by
  unfold macAlarm
  split
  · exact .refl
  next k hf =>
    have hk := inFlight_of_found hf
    split
    · exact sense_moves k s fun _ _ => hk
    · exact ackTimedOut_moves k s fun _ => hk
    · exact beginAttempt_moves k s fun _ _ => hk
    · exact .refl
    · exact .refl

theorem slotSent_moves (k : Nat) (status : Byte) (s : State) (hk : strict → (s.slot k).state = .inFlight) :
    EngineMoves strict s (slotSent k status s) := by
  unfold slotSent
  split
  · exact armed_moves k _ .awaitAck s fun h _ => hk h
  · exact complete_moves k _ s fun h => by rw [hk h]; decide

theorem onTxDone_moves (status : Byte) (s : State)
    (hk : strict → s.radioBusy = true → s.txOwner = .slot → (s.slot s.txSlot.toNat).state = .inFlight) :
    EngineMoves strict s (onTxDone status s) := by
  cases hb : s.radioBusy
  · rw [onTxDone_of_idle status s hb]
    exact .single (.emit _ (by simp))
  · by_cases ho : s.txOwner = .slot
    · rw [onTxDone_of_slot status s hb ho]
      exact .head (.radio false .none) ((slotSent_moves _ status (radioFree s) fun h => hk h hb ho).trans (arbitrate_moves _))
    · rw [onTxDone_of_other status s hb ho]
      exact .head (.radio false .none) (arbitrate_moves _)

theorem autoAck_moves (x : Descriptor) (s : State) : EngineMoves strict s (autoAck x s) := by
  have hdiag : EngineMoves strict s (s.emit (.diag .ackNotSent)) := .single (.emit _ (by simp))
  unfold autoAck
  split
  · exact hdiag
  split
  · exact hdiag
  split
  · exact hdiag
  · exact .single (.ack _)

theorem matchAck_moves (x : Descriptor) (s : State) : EngineMoves strict s (matchAck x s) := by
  unfold matchAck
  split
  · exact .single (.emit _ (by simp))
  next k hf =>
    split
    · refine .head .disarm (complete_moves k _ _ fun _ => ?_)
      show (s.slot k).state ≠ .idle
      rw [inFlight_of_found hf]
      decide
    · exact .single (.emit _ (by simp))

theorem deliver_moves (x : Descriptor) (p : List Byte) (s : State) : EngineMoves strict s (deliver x p s) := by
  refine .tail ?_ (.emit _ (by simp))
  split
  · exact autoAck_moves x s
  · exact .refl

theorem onRadioRx_moves (f : List Byte) (s : State) : EngineMoves strict s (onRadioRx f s) := by
  have hdiag (r : DiagReason) : EngineMoves strict s (s.emit (.diag r)) := .single (.emit _ (by simp))
  unfold onRadioRx
  split
  · exact hdiag _
  split
  · exact hdiag _
  split
  · exact hdiag _
  · unfold receiveParsed
    split
    · exact hdiag _
    split
    · exact matchAck_moves _ s
    · exact deliver_moves _ _ s

theorem abandon_moves (k : Nat) (s : State) : EngineMoves strict s (abandon k s) := by
  unfold abandon
  split
  · split
    · exact .single (.radio s.radioBusy .orphan)
    · exact .single .disarm
  · exact .refl

/-- The slots are those before MAC_CANCEL's first half. -/
theorem abandon_slot (k j : Nat) (s : State) : (abandon k s).slot j = s.slot j := by
  unfold abandon
  split
  · split <;> rfl
  · rfl

/-- What MAC_CANCEL does to an occupied slot. -/
theorem cancel_moves (k : Nat) (s : State) (hk : strict → (s.slot k).state ≠ .idle) :
    EngineMoves strict s (complete k .cancelled (abandon k s)) :=
  (abandon_moves k s).trans (complete_moves k .cancelled _ fun h => by rw [abandon_slot]; exact hk h)

end Procedures

/-! ### What a pass keeps -/

/-- One round with the answers of the outside is the round in the state that holds them. -/
theorem answeredRound_eq (a : Nat) (s : State) (x : Bool × Word) :
    answeredRound a s x = macAlarm (removeAlarm a (withAnswers [x.1] [x.2] s)) := rfl

/-- A pass: what every round with the engine alarm keeps, whatever the outside answers, still holds when the loop is left,
and what the two ways out of the loop make of it holds after the pass. -/
theorem runPass_leads {P Q : State → Prop}
    (query : ∀ s answers draws n, P s → P { s with channelAnswers := answers, draws := draws, queries := n })
    (engine : ∀ s a l, P s → s.alist = a :: l → s.ready a s.procNow = true → (s.alarm a).cb = cbMac →
      P (macAlarm (removeAlarm a s)))
    (stop : ∀ s, P s → Q (endPass s))
    (host : ∀ s a l, P s → s.alist = a :: l → s.ready a s.procNow = true → (s.alarm a).cb ≠ cbMac →
      Q (openWindow a (removeAlarm a s)))
    (rounds : Nat) (s : State) (hp : P s) : Q (runPass rounds s) := by
  have leave : ∀ s, P s → Q (leavePass s) := by
    intro s hp
    rcases leavePass_cases s with ⟨e, -⟩ | ⟨a, l, hl, hr, hc, e⟩
    · exact e ▸ stop s hp
    · exact e ▸ host s a l hp hl hr hc
  have rest : ∀ s a l, P s → s.alist = a :: l → s.ready a s.procNow = true → (s.alarm a).cb = cbMac →
      P (restOfLoop a s) := by
    intro s a l hp hl hr hc
    rcases restOfLoop_cases a s with ⟨-, e⟩ | ⟨x, -, e⟩ <;> rw [e]
    · exact hp
    · have hround : P (answeredRound a s x) :=
        engine (withAnswers [x.1] [x.2] s) a l (query s [x.1] [x.2] s.queries hp) hl hr hc
      exact query (answeredRound a s x) s.channelAnswers s.draws (s.queries + 1) hround
  induction rounds generalizing s with
  | zero =>
    cases hd : engineDue s with
    | none => exact runPass_leave 0 s hd ▸ leave s hp
    | some a =>
      obtain ⟨⟨l, hl⟩, hr, hc⟩ := (engineDue_eq_some s a).1 hd
      exact runPass_last s a hd ▸ leave _ (rest s a l hp hl hr hc)
  | succ n ih =>
    cases hd : engineDue s with
    | none => exact runPass_leave (n + 1) s hd ▸ leave s hp
    | some a =>
      obtain ⟨⟨l, hl⟩, hr, hc⟩ := (engineDue_eq_some s a).1 hd
      exact runPass_engine n s a l hl hr hc ▸ ih _ (engine s a l hp hl hr hc)

/-- A property that the engine's elementary changes, the unlinking of an alarm and the two ways out of the loop keep holds
after every pass. -/
theorem runPass_keeps {strict : Prop} {P : State → Prop} (move : ∀ s t, EngineMove strict s t → P s → P t)
    (unlink : ∀ s a, P s → P (removeAlarm a s)) (stop : ∀ s, P s → P (endPass s))
    (window : ∀ s a, P s → P (openWindow a s)) (rounds : Nat) (s : State) (hp : P s) : P (runPass rounds s) :=
  runPass_leads (fun s answers draws n h => move s _ (.query answers draws n) h)
    (fun s a _ h _ _ _ => (macAlarm_moves _).keeps move (unlink s a h)) stop
    (fun s a _ h _ _ _ => window _ a (unlink s a h)) rounds s hp

/-! ### What a command can do -/

/-- A command's writes to the staging registers, the buffers and the local addresses, and to nothing else. -/
structure Staged (s u : State) : Prop where
  eq : u =
    { s with
      txinfo := u.txinfo, pinfo := u.pinfo, txdata := u.txdata, hdrbuf := u.hdrbuf, hdrLen := u.hdrLen
      pinfoHdrLen := u.pinfoHdrLen, localShort := u.localShort, localLong := u.localLong }
  buffers : BuffersCanonical s → BuffersCanonical u
  long : LongLocalSound s → LongLocalSound u

/-- A packet put into free slot `k` and at the end of the queue (R183). -/
def withPacket (k : Nat) (x : Descriptor) (h : List Byte) (n : Nat) (s : State) : State :=
  { (s.setSlot k (queuedSlot x h (readTxdata s n))) with order := s.order ++ [k] }

/-- One of the two send commands. -/
def isSend : Instr → Bool
  | .macSend _ _ _ _ => true
  | .macSendEx _ => true
  | _ => false

/-- What command `i` makes of `s` before it answers `st` and `v`. -/
inductive Effect (s : State) : Instr → Status → Word → State → Prop where
  | none (i : Instr) (st : Status) (v : Word) : (isSend i = true → st ≠ .ok) → Effect s i st v s
  | stage (i : Instr) (v : Word) (u : State) : isSend i = false → Staged s u → Effect s i .ok v u
  | bind (a : Byte) (cb : Half) (arg : Word) : a.toNat < s.cfg.nAlarms.toNat → cb ≠ cbMac →
      Effect s (.alarmInit a cb arg) .ok 0 (bindAlarm a.toNat cb arg s)
  | arm (a : Byte) (d v : Word) : a.toNat < s.cfg.nAlarms.toNat → (s.alarm a.toNat).bound = true →
      Effect s (.alarmSched a d) .ok v (armAlarm a.toNat d s)
  | unlink (a : Byte) (v : Word) : a.toNat < s.cfg.nAlarms.toNat →
      Effect s (.alarmCancel a) .ok v (removeAlarm a.toNat s)
  | start (v : Word) : s.procState = .idle → Effect s .alarmProcess .ok v (startPass { s with pendingWork := false })
  | resume (v : Word) : s.procState = .inCallback → Effect s .cbReturn .ok v (resumePass s)
  | init : s.macInited = false → Effect s .macInit .ok 0 (initEngine s)
  | send (i : Instr) (x : Descriptor) (h : List Byte) (n k : Nat) (seq : Byte) : isSend i = true →
      s.macInited = true → buildHeader x = some h → h.length + n ≤ s.cfg.bufSize.toNat → s.freeSlot? = some k →
      Effect s i .ok (BitVec.ofNat 32 k) { arbitrate (withPacket k x h n s) with macSeq := seq }
  | cancel (k : Byte) : s.macInited = true → k.toNat < s.cfg.queueCap.toNat → (s.slot k.toNat).state ≠ .idle →
      Effect s (.macCancel k) .ok 0 (complete k.toNat .cancelled (abandon k.toNat s))

/-- A command's result: its effect on `s`, answered with its own opcode. -/
def HasEffect (s : State) (i : Instr) (r : Result) : Prop :=
  ∃ st v u, Effect s i st v u ∧ r = answer (opcode i) st v u

/-- An answer from the state as it is. -/
theorem hasEffect_none {s : State} {i : Instr} (st : Status) (v : Word) (h : isSend i = true → st ≠ .ok) :
    HasEffect s i (answer (opcode i) st v s) :=
  ⟨st, v, s, .none i st v h, rfl⟩

/-- A check that refuses before the rest of a command. -/
theorem hasEffect_guard {s : State} {i : Instr} {st : Status} {p : Prop} [Decidable p] {r : Result} (hst : st ≠ .ok)
    (h : ¬ p → HasEffect s i r) : HasEffect s i (if p then answer (opcode i) st 0 s else r) := by
  split
  · exact hasEffect_none st 0 fun _ => hst
  next hp => exact h hp

/-- A register write is a staging write (R252). -/
theorem writeReg_staged (s t : State) (w : Word) (r : Reg) (h : writeReg s w r = some t) : Staged s t := by
  cases r with
  | localShort => cases h; exact ⟨rfl, id, id⟩
  | txinfo d => cases h; exact ⟨rfl, id, id⟩
  | localLongLo =>
    cases h
    split
    next hl => exact ⟨rfl, id, fun _ hn => absurd (hl.symm.trans hn) (by decide)⟩
    · exact ⟨rfl, id, id⟩
  | localLongHi =>
    cases h
    split
    next hl => exact ⟨rfl, id, fun _ hn => absurd (hl.symm.trans hn) (by decide)⟩
    · exact ⟨rfl, id, id⟩
  | _ => cases h

/-- The checks of an accepted packet (R183) and what becomes of it. -/
theorem effect_of_accept {s t : State} {i : Instr} {x : Descriptor} {n k : Nat} (hi : isSend i = true)
    (seq : Byte) (h : accept x n s = .accepted k t) :
    Effect s i .ok (BitVec.ofNat 32 k) { t with macSeq := seq } := by
  obtain ⟨hdr, hinit, -, hbuild, hfits, hfree, rfl⟩ := accept_accepted x n k s t h
  exact .send i x hdr n k seq hi hinit hbuild hfits hfree

/-- A rejected packet is refused with a status that is not OK (R183). -/
theorem accept_rejected_ne_ok {x : Descriptor} {n : Nat} {s : State} {st : Status} (h : accept x n s = .rejected st) :
    st ≠ .ok := by
  unfold accept at h
  split at h
  · cases h; decide
  split at h
  · cases h; decide
  split at h
  · cases h; decide
  split at h
  · cases h; decide
  split at h
  · cases h; decide
  · cases h

/-- What every command can do (R81 (3)). -/
theorem exec_hasEffect (i : Instr) (s : State) : HasEffect s i (exec i s) := by
  have notSend {j : Instr} {st : Status} (h : isSend j = false) : isSend j = true → st ≠ .ok := by simp [h]
  have staged {j : Instr} (v : Word) (u : State) (hj : isSend j = false) (hu : Staged s u) :
      HasEffect s j (answer (opcode j) .ok v u) := ⟨.ok, v, u, .stage j v u hj hu, rfl⟩
  cases i with
  | nop => exact hasEffect_none _ _ (notSend rfl)
  | rdreg reg =>
    show HasEffect s _ (execRdreg reg s)
    unfold execRdreg
    split
    · exact hasEffect_none (i := .rdreg reg) _ _ (notSend rfl)
    · exact hasEffect_none (i := .rdreg reg) _ _ (notSend rfl)
  | wrreg reg value =>
    show HasEffect s _ (execWrreg reg value s)
    unfold execWrreg
    split
    · exact hasEffect_none (i := .wrreg reg value) _ _ (notSend rfl)
    next t ht =>
      obtain ⟨r, -, hr⟩ := Option.bind_eq_some_iff.1 ht
      exact staged (j := .wrreg reg value) _ t rfl (writeReg_staged s t value r hr)
  | wrbuf offset byte =>
    refine hasEffect_guard (i := .wrbuf offset byte) (by decide) fun hoff => ?_
    refine staged (j := .wrbuf offset byte) _ _ rfl ⟨rfl, fun ⟨⟨hwf, hbelow⟩, hhdr⟩ => ⟨⟨?_, ?_⟩, hhdr⟩, id⟩
    · exact write_wf _ _ _ hwf
    · exact write_below _ _ _ _ hbelow (Nat.lt_of_not_le hoff)
  | rdbuf buf offset =>
    exact hasEffect_guard (i := .rdbuf buf offset) (by decide) fun _ =>
      hasEffect_none (i := .rdbuf buf offset) _ _ (notSend rfl)
  | alarmInit alarm cb arg =>
    refine hasEffect_guard (i := .alarmInit alarm cb arg) (by decide) fun ha =>
      hasEffect_guard (i := .alarmInit alarm cb arg) (by decide) fun hcb =>
        ⟨.ok, 0, _, .bind alarm cb arg ?_ hcb, rfl⟩
    simpa [hostAlarm_eq_false_iff] using ha
  | alarmSched alarm delayMs =>
    refine hasEffect_guard (i := .alarmSched alarm delayMs) (by decide) fun ha =>
      hasEffect_guard (i := .alarmSched alarm delayMs) (by decide) fun hb =>
        ⟨.ok, _, _, .arm alarm delayMs _ ?_ (by simpa using hb), rfl⟩
    simpa [hostAlarm_eq_false_iff] using ha
  | alarmCancel alarm =>
    refine hasEffect_guard (i := .alarmCancel alarm) (by decide) fun ha => ⟨.ok, _, _, .unlink alarm _ ?_, rfl⟩
    simpa [hostAlarm_eq_false_iff] using ha
  | alarmProcess =>
    refine hasEffect_guard (i := .alarmProcess) (by decide) fun hp => ⟨.ok, _, _, .start _ ?_, rfl⟩
    cases h : s.procState with
    | idle => rfl
    | inCallback => exact absurd h hp
  | alarmPeek =>
    show HasEffect s _ (execAlarmPeek s)
    unfold execAlarmPeek
    split
    · exact hasEffect_none (i := .alarmPeek) _ _ (notSend rfl)
    · exact hasEffect_none (i := .alarmPeek) _ _ (notSend rfl)
  | alarmHasPending => exact hasEffect_none _ _ (notSend rfl)
  | alarmHasReady now => exact hasEffect_none _ _ (notSend rfl)
  | cbReturn =>
    refine hasEffect_guard (i := .cbReturn) (by decide) fun hp => ⟨.ok, _, _, .resume _ ?_, rfl⟩
    cases h : s.procState with
    | idle => exact absurd h hp
    | inCallback => rfl
  | addrMake sel value => exact staged _ (stageShort s sel value) rfl ⟨rfl, id, id⟩
  | addrClass sel => exact hasEffect_none _ _ (notSend rfl)
  | addrEq sel1 sel2 => exact hasEffect_none _ _ (notSend rfl)
  | hdrBuild =>
    show HasEffect s _ (execHdrBuild s)
    unfold execHdrBuild
    split
    · exact hasEffect_none (i := .hdrBuild) _ _ (notSend rfl)
    next h hbuild =>
      refine staged (j := .hdrBuild) _ _ rfl ⟨rfl, fun ⟨htx, hwf, hbelow⟩ => ⟨htx, ?_, ?_⟩, id⟩
      · exact writeBytes_wf _ _ _ hwf
      · obtain ⟨hlong, rfl⟩ := (buildHeader_eq_some_iff _ h).1 hbuild
        have hle := headerBytes_length_le_eighteen _ hlong
        exact writeBytes_below _ _ _ _ hbelow (by rw [hdrbufSize]; omega)
  | hdrParse len =>
    refine hasEffect_guard (i := .hdrParse len) (by decide) fun _ => ?_
    cases parseHeader s.cfg.longAddr (readTxdata s len.toNat) with
    | none => exact hasEffect_none (i := .hdrParse len) _ _ (notSend rfl)
    | some x => exact staged (j := .hdrParse len) _ _ rfl ⟨rfl, id, id⟩
  | macInit =>
    exact hasEffect_guard (i := .macInit) (by decide) fun hinit => ⟨.ok, _, _, .init (by simpa using hinit), rfl⟩
  | macSend dstStaged ackReq dst len =>
    refine hasEffect_guard (i := .macSend dstStaged ackReq dst len) (by decide) fun _ => ?_
    split
    next st hst =>
      exact hasEffect_none (i := .macSend dstStaged ackReq dst len) _ _ fun _ => accept_rejected_ne_ok hst
    next k t ht => exact ⟨.ok, _, _, effect_of_accept rfl (t.macSeq + 1) ht, rfl⟩
  | macSendEx len =>
    show HasEffect s _ (execMacSendEx len s)
    unfold execMacSendEx
    split
    next st hst => exact hasEffect_none (i := .macSendEx len) _ _ fun _ => accept_rejected_ne_ok hst
    next k t ht => exact ⟨.ok, _, _, effect_of_accept rfl t.macSeq ht, rfl⟩
  | macPoll => exact hasEffect_none _ _ (notSend rfl)
  | macIsKnown sel => exact hasEffect_none _ _ (notSend rfl)
  | macCancel slot =>
    exact hasEffect_guard (i := .macCancel slot) (by decide) fun hinit =>
      hasEffect_guard (i := .macCancel slot) (by decide) fun hcap =>
        hasEffect_guard (i := .macCancel slot) (by decide) fun hidle =>
          ⟨.ok, _, _, .cancel slot (by simpa using hinit) (by omega) hidle, rfl⟩

/-- What a command did, from the state it answers. -/
theorem exec_effect {i : Instr} {s t : State} (h : exec i s = .next t) :
    ∃ st v u, Effect s i st v u ∧ t = u.respond (opcode i) st v := by
  obtain ⟨st, v, u, he, ht⟩ := exec_hasEffect i s
  exact ⟨st, v, u, he, Host.Outcome.next.inj (h.symm.trans ht)⟩

/-- A word at the command port has a command's effect or none, and answers with its OP. -/
theorem runWord_effect {c : DWord} {s t : State} (h : runWord c s = .next t) :
    (∃ i st v u, Effect s i st v u ∧ t = u.respond (opcode i) st v)
    ∨ ∃ op st, st ≠ .ok ∧ t = s.respond op st 0 := by
  unfold runWord at h
  split at h
  next i _ => exact .inl ⟨i, exec_effect h⟩
  · exact .inr ⟨_, _, by decide, (Host.Outcome.next.inj h).symm⟩
  · exact .inr ⟨_, _, by decide, (Host.Outcome.next.inj h).symm⟩

/-- Everything a step that answers a next state can have done: nothing, for want of an input to take, or what the input
taken causes. -/
theorem step_next_cases {s t : State} (h : step s = .next t) :
    t = s ∨ ∃ x rest, s.cfg.legal = true ∧ takeable s.holdsEvents x = true
      ∧ runInput x { s with inputs := rest } = .next t := by
  rcases step_cases s _ h with ⟨-, hr⟩ | ⟨-, -, hr⟩ | ⟨x, rest, hl, htake, hr⟩
  · cases hr
  · exact .inl (Host.Outcome.next.inj hr)
  · exact .inr ⟨x, rest, hl, takeFirst_takeable _ _ _ _ htake, hr.symm⟩

end Sys2Proof.Machine

/-! SUPPORT. What no step does: commands that refuse change nothing, time moves in TICK alone, events and foreign
commands leave the staging registers and the engine alone (spec/60_exceptions.md sections 1 and 5); and the reset
values (spec/10_state.md section 8). -/

namespace Sys2Proof.Machine

/-! ### The frames of moves, commands and TICK -/

/-- Everything but the queries' own fields is kept. -/
theorem queried_frame (s : State) (answers : List Bool) (draws : List Word) (n : Nat) :
    EngineFrame s { s with channelAnswers := answers, draws := draws, queries := n } where
  __ := EngineFrame.refl s

/-- The radio's owner is no business of the rest. -/
theorem radio_frame (s : State) (busy : Bool) (owner : TxOwner) :
    EngineFrame s { s with radioBusy := busy, txOwner := owner } where
  __ := EngineFrame.refl s

theorem EngineMove.frame {strict : Prop} {s t : State} (h : EngineMove strict s t) : EngineFrame s t := by
  cases h with
  | query answers draws n => exact queried_frame s answers draws n
  | phase k p => exact setPhase_frame s k p
  | transmit k => exact transmit_frame k s
  | start k => exact setSlot_frame s k _
  | release k c => exact release_frame k c s
  | arm d => exact schedMA_frame d s
  | disarm => exact cancelMA_frame s
  | radio busy owner => exact radio_frame s busy owner
  | ack h => exact transmitAck_frame h s
  | emit e => exact emit_frame s e

/-- A new pass leaves alone what a pass leaves alone, but samples the time. -/
theorem startPass_frame (s : State) : PassFrame { s with procNow := s.jiffies } (startPass s) := runPass_frame _ _

theorem resumePass_frame (s : State) : PassFrame s (resumePass s) := (closeWindow_pass s).trans (runPass_frame _ _)

/-- What TICK can do (R124). -/
theorem onTick_cases (s : State) :
    onTick s = { s with jiffies := s.jiffies + 1 }
    ∨ (s.cfg.threaded = true ∧ onTick s = { s with jiffies := s.jiffies + 1, pendingWork := true })
    ∨ (s.cfg.threaded = false ∧ s.procState = .idle ∧ onTick s = startPass { s with jiffies := s.jiffies + 1 }) := by
  unfold onTick tickWork
  split
  · cases ht : s.cfg.threaded
    · by_cases hp : s.procState = .idle
      · exact .inr (.inr ⟨rfl, hp, by simp [hp]⟩)
      · exact .inl (by simp [hp])
    · exact .inr (.inl ⟨rfl, by simp⟩)
  · exact .inl rfl

/-- Accepting a packet touches no alarm, no register and no time. -/
theorem withPacket_frame (k : Nat) (x : Descriptor) (h : List Byte) (n : Nat) (s : State) :
    EngineFrame s (withPacket k x h n s) where
  __ := setSlot_frame s k (queuedSlot x h (readTxdata s n))

/-- The parameters, the time and the responses are not a command's to change before it answers. -/
theorem Effect.keeps {s u : State} {i : Instr} {st : Status} {v : Word} (h : Effect s i st v u) :
    u.cfg = s.cfg ∧ u.jiffies = s.jiffies ∧ u.responses = s.responses := by
  cases h with
  | none => exact ⟨rfl, rfl, rfl⟩
  | stage _ _ _ hu hs => exact hs.eq ▸ ⟨rfl, rfl, rfl⟩
  | bind a cb arg => exact ⟨rfl, rfl, rfl⟩
  | arm a d => exact ⟨rfl, rfl, rfl⟩
  | unlink a => exact ⟨rfl, rfl, rfl⟩
  | start =>
    have f := startPass_frame { s with pendingWork := false }
    exact ⟨f.cfg, f.jiffies, f.responses⟩
  | resume =>
    have f := resumePass_frame s
    exact ⟨f.cfg, f.jiffies, f.responses⟩
  | init => exact ⟨rfl, rfl, rfl⟩
  | send i x hdr n k seq =>
    have f := (withPacket_frame k x hdr n s).trans (arbitrate_frame _)
    exact ⟨f.cfg, f.jiffies, f.responses⟩
  | cancel k =>
    have f := (abandon_frame k.toNat s).trans (complete_frame k.toNat .cancelled _)
    exact ⟨f.cfg, f.jiffies, f.responses⟩

/-- A command that does not answer OK has left the state as it was. -/
theorem Effect.eq_of_refused {s u : State} {i : Instr} {st : Status} {v : Word} (h : Effect s i st v u)
    (hst : st ≠ .ok) : u = s := by
  cases h with
  | none => rfl
  | _ => exact absurd rfl hst

/-! ### The obligations -/

/-- Settles O49: the status of the one response is that of the command's effect, and a refusal's effect is none. -/
theorem aStatusOtherThanOkMeansNothingChanged : Obligations.AStatusOtherThanOkMeansNothingChanged := by
  intro c s t r hrun hresp hst
  have refused {op : Byte} {st : Status} {v : Word} (hne : st ≠ .ok) (ht : t = s.respond op st v) :
      t = { s with responses := t.responses } := by subst ht; rfl
  rcases runWord_effect hrun with ⟨i, st, v, u, he, rfl⟩ | ⟨op, st, hne, ht⟩
  · have hr : responseWord (opcode i) st v = r := by
      rw [respond_responses, he.keeps.2.2] at hresp
      exact (List.append_inj' hresp rfl).2 |> List.singleton_inj.1
    have hne : st ≠ .ok := by
      rw [← hr, responseWord_status] at hst
      exact fun he => hst (he ▸ rfl)
    obtain rfl := he.eq_of_refused hne
    rfl
  · exact refused hne ht

/-- Settles O50: a command keeps the time and so do the radio's events; TICK counts and its pass keeps the count. -/
theorem onlyTickMovesJiffies : Obligations.OnlyTickMovesJiffies := by
  refine ⟨fun i s t h => ?_, fun f s t h => ?_, fun st s t h => ?_, fun s t h => ?_⟩
  · obtain ⟨st, v, u, he, rfl⟩ := exec_effect h
    exact he.keeps.2.1
  · exact Host.Outcome.next.inj h ▸ (onRadioRx_frame f s).jiffies
  · exact Host.Outcome.next.inj h ▸ (onTxDone_frame st s).jiffies
  · obtain rfl : onTick s = t := Host.Outcome.next.inj h
    rcases onTick_cases s with e | ⟨-, e⟩ | ⟨-, -, e⟩ <;> rw [e]
    exact (startPass_frame _).jiffies

/-- TICK leaves the parameters, the staging registers, the buffers and the responses alone. -/
theorem onTick_frame (s : State) :
    PassFrame { s with jiffies := s.jiffies + 1, procNow := (onTick s).procNow, pendingWork := (onTick s).pendingWork }
      (onTick s) := by
  rcases onTick_cases s with e | ⟨-, e⟩ | ⟨-, -, e⟩ <;> rw [e]
  · exact (EngineFrame.refl _).pass
  · exact (EngineFrame.refl _).pass
  · have f := startPass_frame { s with jiffies := s.jiffies + 1 }
    rw [f.procNow, f.pendingWork]
    exact f

/-- What an event leaves alone. -/
theorem event_frame {x : Input} {s t : State} (hx : IsEvent x) (h : runInput x s = .next t) :
    ∃ j p w, PassFrame { s with jiffies := j, procNow := p, pendingWork := w } t := by
  rcases hx with rfl | ⟨f, rfl⟩ | ⟨st, rfl⟩ <;> obtain rfl := Host.Outcome.next.inj h
  · exact ⟨_, _, _, onTick_frame s⟩
  · exact ⟨s.jiffies, s.procNow, s.pendingWork, (onRadioRx_frame f s).pass⟩
  · exact ⟨s.jiffies, s.procNow, s.pendingWork, (onTxDone_frame st s).pass⟩

/-- No input that is run changes the parameters (R8). -/
theorem runInput_cfg {x : Input} {s t : State} (h : runInput x s = .next t) : t.cfg = s.cfg := by
  have event (hx : IsEvent x) : t.cfg = s.cfg := by
    obtain ⟨j, p, w, f⟩ := event_frame hx h
    exact f.cfg
  cases x with
  | command c =>
    rcases runWord_effect h with ⟨i, st, v, u, he, rfl⟩ | ⟨op, st, -, rfl⟩
    · exact he.keeps.1
    · rfl
  | tick => exact event (.inl rfl)
  | radioRx f => exact event (.inr (.inl ⟨f, rfl⟩))
  | radioTxDone st => exact event (.inr (.inr ⟨st, rfl⟩))
  | reset => exact Host.Outcome.next.inj h ▸ rfl

/-- No step changes the parameters. -/
theorem step_cfg {s t : State} (h : step s = .next t) : t.cfg = s.cfg := by
  rcases step_next_cases h with rfl | ⟨x, rest, -, -, hrun⟩
  · rfl
  · exact (runInput_cfg hrun).trans rfl

/-- Settles O51, by the frame of an event. -/
theorem eventsNeverWriteStaging : Obligations.EventsNeverWriteStaging := by
  refine ⟨fun s t h => step_cfg h, fun x s t hx h => ?_⟩
  obtain ⟨j, p, w, f⟩ := event_frame hx h
  have hbytes : SameBytes s t := by
    intro b a
    cases b
    · simp [bufferByte, txByte, f.txdata, f.resets]
    · simp [bufferByte, hdrByte, f.hdrbuf, f.resets]
  exact ⟨f.txinfo, f.pinfo, f.hdrLen, f.pinfoHdrLen, f.localShort, f.localLong, hbytes, f.responses⟩

/-- No host alarm is the engine alarm. -/
theorem engineAlarm_ne_of_lt {s : State} {a : Nat} (h : a < s.cfg.nAlarms.toNat) : s.engineAlarm ≠ a := by
  show s.cfg.nAlarms.toNat ≠ a
  omega

/-- Binding an alarm touches no other. -/
theorem bindAlarm_alarm_ne (i : Nat) (cb : Half) (arg : Word) (s : State) (j : Nat) (h : j ≠ i) :
    (bindAlarm i cb arg s).alarm j = s.alarm j := by
  rw [bindAlarm, setAlarm_alarm_ne _ _ _ _ h, removeAlarm_alarm_ne _ _ _ h]

/-- Settles O52, by the effects a command can have. -/
theorem otherCommandsLeaveTheEngineAlone : Obligations.OtherCommandsLeaveTheEngineAlone := by
  intro i s t hprocess hreturn hinit hex hsend hcancel h
  obtain ⟨st, v, u, he, rfl⟩ := exec_effect h
  cases he with
  | none => exact ⟨rfl, rfl, rfl, rfl, rfl, rfl, rfl, rfl, rfl⟩
  | stage _ _ _ hu hs => rw [hs.eq]; exact ⟨rfl, rfl, rfl, rfl, rfl, rfl, rfl, rfl, rfl⟩
  | bind a cb arg ha =>
    exact ⟨rfl, rfl, rfl, rfl, rfl, rfl, rfl, bindAlarm_alarm_ne _ _ _ _ _ (engineAlarm_ne_of_lt ha), rfl⟩
  | arm a d v ha =>
    exact ⟨rfl, rfl, rfl, rfl, rfl, rfl, rfl, armAlarm_alarm_ne _ _ _ _ (engineAlarm_ne_of_lt ha), rfl⟩
  | unlink a v ha =>
    exact ⟨rfl, rfl, rfl, rfl, rfl, rfl, rfl, removeAlarm_alarm_ne _ _ _ (engineAlarm_ne_of_lt ha), rfl⟩
  | start => exact absurd rfl hprocess
  | resume => exact absurd rfl hreturn
  | init => exact absurd rfl hinit
  | send i x hdr n k seq hi =>
    cases i with
    | macSend a b d n => exact absurd rfl (hsend a b d n)
    | macSendEx n => exact absurd rfl (hex n)
    | _ => cases hi
  | cancel k => exact absurd rfl (hcancel k)

/-- Buffers of the same content in the same configuration are as canonical. -/
theorem buffersCanonical_congr {s t : State} (hc : t.cfg = s.cfg) (ht : t.txdata = s.txdata) (hh : t.hdrbuf = s.hdrbuf)
    (h : BuffersCanonical s) : BuffersCanonical t := by rwa [BuffersCanonical, hc, ht, hh]

/-- A command keeps both buffers canonical. -/
theorem Effect.buffersCanonical {s u : State} {i : Instr} {st : Status} {v : Word} (h : Effect s i st v u)
    (hs : BuffersCanonical s) : BuffersCanonical u := by
  cases h with
  | none => exact hs
  | stage _ _ _ hu hst => exact hst.buffers hs
  | bind a cb arg => exact hs
  | arm a d => exact hs
  | unlink a => exact hs
  | start =>
    have f := startPass_frame { s with pendingWork := false }
    exact buffersCanonical_congr f.cfg f.txdata f.hdrbuf hs
  | resume =>
    have f := resumePass_frame s
    exact buffersCanonical_congr f.cfg f.txdata f.hdrbuf hs
  | init => exact hs
  | send i x hdr n k seq =>
    have f := (withPacket_frame k x hdr n s).trans (arbitrate_frame _)
    exact buffersCanonical_congr f.cfg f.txdata f.hdrbuf hs
  | cancel k =>
    have f := (abandon_frame k.toNat s).trans (complete_frame k.toNat .cancelled _)
    exact buffersCanonical_congr f.cfg f.txdata f.hdrbuf hs

/-- Whatever input is run, both buffers stay canonical. -/
theorem runInput_buffersCanonical {x : Input} {s t : State} (h : runInput x s = .next t) (hs : BuffersCanonical s) :
    BuffersCanonical t := by
  have event (hx : IsEvent x) : BuffersCanonical t := by
    obtain ⟨j, p, w, f⟩ := event_frame hx h
    exact buffersCanonical_congr (s := s) f.cfg f.txdata f.hdrbuf hs
  cases x with
  | tick => exact event (.inl rfl)
  | radioRx f => exact event (.inr (.inl ⟨f, rfl⟩))
  | radioTxDone st => exact event (.inr (.inr ⟨st, rfl⟩))
  | reset => exact Host.Outcome.next.inj h ▸ ⟨⟨rfl, rfl⟩, rfl, rfl⟩
  | command c =>
    rcases runWord_effect h with ⟨i, st, v, u, he, rfl⟩ | ⟨op, st, -, rfl⟩
    · exact he.buffersCanonical hs
    · exact hs

/-- Settles O58: only a staging write touches a buffer, and it keeps both canonical; reset empties them. -/
theorem everyStepKeepsTheBuffersCanonical : Obligations.EveryStepKeepsTheBuffersCanonical := by
  intro s t hs h
  rcases step_next_cases h with rfl | ⟨x, rest, -, -, hrun⟩
  · exact hs
  · exact runInput_buffersCanonical hrun hs

/-- Every alarm of the reset table is the reset alarm (R23, R45). -/
@[simp] theorem resetOf_alarm (c : Config) (i : Nat) : (State.resetOf c).alarm i = Alarm.reset := by
  simp only [State.alarm, State.resetOf, List.getD_eq_getElem?_getD, List.getElem?_replicate]
  split <;> rfl

/-- Every slot of the reset table is the reset slot (R36, R45). -/
@[simp] theorem resetOf_slot (c : Config) (k : Nat) : (State.resetOf c).slot k = Slot.reset := by
  simp only [State.slot, State.resetOf, List.getD_eq_getElem?_getD, List.getElem?_replicate]
  split <;> rfl

/-- Every register of a group at 0 reads 0 (R31). -/
theorem read_zero (r : DescReg) : DescRegs.zero.read r = 0 := by
  cases r with
  | addr f p => cases f <;> cases p <;> rfl
  | _ => rfl

/-- Settles O55: reset's fields are the stated ones by definition; the tables hold reset entries and beyond them reads
the same. -/
theorem resetLeavesTheStatedValues : Obligations.ResetLeavesTheStatedValues := by
  refine ⟨fun c => ⟨rfl, rfl, List.length_replicate, resetOf_alarm c, rfl, rfl, rfl, rfl, rfl, rfl, rfl, rfl, rfl,
    read_zero, read_zero, rfl, rfl, fun _ => rfl, fun _ => rfl, rfl, rfl, rfl, rfl, rfl, List.length_replicate,
    resetOf_slot c, rfl⟩, fun s => rfl⟩

/-- Settles O56: with nothing listed, nothing queued and every entry at its reset value each part of the invariant is
plain. -/
theorem theResetStateIsSound : Obligations.TheResetStateIsSound := by
  intro c
  constructor
  case tables => exact ⟨List.length_replicate, List.length_replicate⟩
  case buffers => exact ⟨⟨rfl, rfl⟩, rfl, rfl⟩
  case alist => exact ⟨List.nodup_nil, fun i => by rw [resetOf_alarm]; simp [State.resetOf, Alarm.reset]⟩
  case binding => exact ⟨fun i _ => by rw [resetOf_alarm]; decide, nofun⟩
  case window => exact ⟨fun _ => ⟨rfl, rfl, rfl⟩, nofun, nofun, fun _ => rfl⟩
  case queue =>
    constructor
    case nodup => exact List.nodup_nil
    case mem_iff => intro k; rw [resetOf_slot]; simp [State.resetOf, Slot.reset]
    case uninit => exact fun _ => rfl
    all_goals intro k; rw [resetOf_slot]; simp [Slot.reset]
  case radio =>
    constructor
    case busy_iff => exact ⟨fun _ => rfl, fun _ => rfl⟩
    case owner_iff =>
      refine ⟨nofun, fun ⟨k, hk⟩ => ?_⟩
      rw [resetOf_slot] at hk
      cases hk
    case txSlot => intro k; rw [resetOf_slot]; simp [Slot.reset]
    case alarm_iff => simp [Slot.reset, Alarm.reset]
  case slots => constructor <;> (intro k; rw [resetOf_slot]; simp [Slot.reset])
  case longLocal => exact fun _ => rfl

end Sys2Proof.Machine

/-! SUPPORT. What every step keeps of the alarm table and of the queue: the alarm list is the list of exactly the
SCHEDULED alarms (spec/10_state.md section 2), a queued packet is never rewritten (spec/20_memory.md section 6), and
packets and their reports are conserved (spec/43_mac_tx.md section 6). -/

namespace Sys2Proof.Machine

/-! ### The alarm table (R24) -/

/-- The tables have their sizes and the list is the list of exactly the SCHEDULED alarms. -/
def AlarmsSound (s : State) : Prop := TablesSized s ∧ AlarmListSound s

theorem alarmsSound_congr {s t : State} (hc : t.cfg = s.cfg) (hk : t.slots.length = s.slots.length)
    (ha : t.alarms = s.alarms) (hl : t.alist = s.alist) (h : AlarmsSound s) : AlarmsSound t := by
  obtain ⟨⟨halarms, hslots⟩, hlist⟩ := h
  exact ⟨⟨by rw [ha, hc, halarms], by rw [hk, hc, hslots]⟩, hlist.congr ha hl⟩

/-- The engine keeps the sizes of the tables. -/
theorem EngineFrame.tablesSized {s t : State} (f : EngineFrame s t) (h : TablesSized s) : TablesSized t :=
  ⟨by rw [f.alarmsLength, f.cfg, h.1], by rw [f.slotsLength, f.cfg, h.2]⟩

theorem EngineMove.alarmsSound {strict : Prop} (s t : State) (h : EngineMove strict s t) (hs : AlarmsSound s) :
    AlarmsSound t := by
  refine ⟨h.frame.tablesSized hs.1, ?_⟩
  obtain ⟨hsized, hlist⟩ := hs
  cases h with
  | arm d => exact armAlarm_sound _ d s hsized.engineAlarm_lt hlist
  | disarm => exact removeAlarm_sound _ s hlist
  | _ => exact AlarmListSound.congr (s := s) rfl rfl hlist

theorem removeAlarm_alarmsSound (i : Nat) (s : State) (h : AlarmsSound s) : AlarmsSound (removeAlarm i s) :=
  ⟨⟨List.length_set.trans h.1.1, h.1.2⟩, removeAlarm_sound i s h.2⟩

theorem bindAlarm_alarmsSound (i : Nat) (cb : Half) (arg : Word) (s : State) (h : AlarmsSound s) :
    AlarmsSound (bindAlarm i cb arg s) := by
  obtain ⟨⟨halarms, hslots⟩, hlist⟩ := removeAlarm_alarmsSound i s h
  exact ⟨⟨List.length_set.trans halarms, hslots⟩, setAlarm_sound _ i _ rfl hlist⟩

theorem runPass_alarmsSound (rounds : Nat) (s : State) (h : AlarmsSound s) : AlarmsSound (runPass rounds s) :=
  runPass_keeps (strict := False) EngineMove.alarmsSound (fun s a => removeAlarm_alarmsSound a s)
    (fun _ => alarmsSound_congr rfl rfl rfl rfl) (fun _ _ => alarmsSound_congr rfl rfl rfl rfl) rounds s h

theorem startPass_alarmsSound (s : State) (h : AlarmsSound s) : AlarmsSound (startPass s) :=
  runPass_alarmsSound _ _ (alarmsSound_congr (s := s) rfl rfl rfl rfl h)

theorem resumePass_alarmsSound (s : State) (h : AlarmsSound s) : AlarmsSound (resumePass s) :=
  runPass_alarmsSound _ _ (alarmsSound_congr (s := s) rfl rfl rfl rfl h)

theorem onTick_alarmsSound (s : State) (h : AlarmsSound s) : AlarmsSound (onTick s) := by
  have hs (j : Word) (w : Bool) : AlarmsSound { s with jiffies := j, pendingWork := w } :=
    alarmsSound_congr (s := s) rfl rfl rfl rfl h
  rcases onTick_cases s with e | ⟨-, e⟩ | ⟨-, -, e⟩ <;> rw [e]
  · exact hs (s.jiffies + 1) s.pendingWork
  · exact hs (s.jiffies + 1) true
  · exact startPass_alarmsSound _ (hs (s.jiffies + 1) s.pendingWork)

theorem withPacket_alarmsSound (k : Nat) (x : Descriptor) (hdr : List Byte) (n : Nat) (s : State) (h : AlarmsSound s) :
    AlarmsSound (withPacket k x hdr n s) :=
  alarmsSound_congr (s := s) rfl List.length_set rfl rfl h

theorem Effect.alarmsSound {s u : State} {i : Instr} {st : Status} {v : Word} (h : Effect s i st v u)
    (hs : AlarmsSound s) : AlarmsSound u := by
  cases h with
  | none => exact hs
  | stage _ _ _ _ hst => rw [hst.eq]; exact alarmsSound_congr (s := s) rfl rfl rfl rfl hs
  | bind a cb arg => exact bindAlarm_alarmsSound _ cb arg s hs
  | arm a d v ha =>
    have hlt : a.toNat < s.alarms.length := by rw [hs.1.1]; omega
    exact ⟨⟨by rw [armAlarm_length]; exact hs.1.1, hs.1.2⟩, armAlarm_sound _ d s hlt hs.2⟩
  | unlink a => exact removeAlarm_alarmsSound _ s hs
  | start => exact startPass_alarmsSound _ (alarmsSound_congr (s := s) rfl rfl rfl rfl hs)
  | resume => exact resumePass_alarmsSound s hs
  | init =>
    have hset := setAlarm_sound s s.engineAlarm
      { s.alarm s.engineAlarm with cb := cbMac, arg := 0, bound := true } rfl hs.2
    exact ⟨⟨List.length_set.trans hs.1.1, hs.1.2⟩, AlarmListSound.congr (s := s.setAlarm _ _) rfl rfl hset⟩
  | send i x hdr n k seq =>
    exact alarmsSound_congr (s := arbitrate (withPacket k x hdr n s)) rfl rfl rfl rfl
      ((arbitrate_moves (strict := False) _).keeps EngineMove.alarmsSound (withPacket_alarmsSound k x hdr n s hs))
  | cancel k => exact (cancel_moves (strict := False) k.toNat s nofun).keeps EngineMove.alarmsSound hs

theorem runInput_alarmsSound {x : Input} {s t : State} (h : runInput x s = .next t) (hs : AlarmsSound s) :
    AlarmsSound t := by
  cases x with
  | tick => exact Host.Outcome.next.inj h ▸ onTick_alarmsSound s hs
  | radioRx f =>
    exact Host.Outcome.next.inj h ▸ (onRadioRx_moves (strict := False) f s).keeps EngineMove.alarmsSound hs
  | radioTxDone st =>
    exact Host.Outcome.next.inj h ▸ (onTxDone_moves (strict := False) st s nofun).keeps EngineMove.alarmsSound hs
  | reset =>
    obtain ⟨htables, -, hlist, -⟩ := theResetStateIsSound s.cfg
    exact Host.Outcome.next.inj h ▸ alarmsSound_congr (s := State.resetOf s.cfg) rfl rfl rfl rfl ⟨htables, hlist⟩
  | command c =>
    rcases runWord_effect h with ⟨i, st, v, u, he, rfl⟩ | ⟨op, st, -, rfl⟩
    · exact alarmsSound_congr (s := u) rfl rfl rfl rfl (he.alarmsSound hs)
    · exact alarmsSound_congr (s := s) rfl rfl rfl rfl hs

/-- Settles O57, move by move. -/
theorem everyStepKeepsTheAlarmListSound : Obligations.EveryStepKeepsTheAlarmListSound := by
  intro s t hsized hlist h
  rcases step_next_cases h with rfl | ⟨x, rest, -, -, hrun⟩
  · exact ⟨hsized, hlist⟩
  · exact runInput_alarmsSound hrun (alarmsSound_congr (s := s) rfl rfl rfl rfl ⟨hsized, hlist⟩)

/-! ### Queued packets keep their bytes -/

/-- Two slots hold the same packet: its bytes and what an acknowledgement is matched with. -/
def SamePacket (x y : Slot) : Prop :=
  y.hdr = x.hdr ∧ y.data = x.data ∧ y.seq = x.seq ∧ y.dst = x.dst ∧ y.ackreq = x.ackreq

theorem SamePacket.rfl (x : Slot) : SamePacket x x := ⟨.refl _, .refl _, .refl _, .refl _, .refl _⟩

theorem SamePacket.trans {x y z : Slot} (h : SamePacket x y) (k : SamePacket y z) : SamePacket x z := by
  obtain ⟨h1, h2, h3, h4, h5⟩ := h
  obtain ⟨k1, k2, k3, k4, k5⟩ := k
  exact ⟨k1.trans h1, k2.trans h2, k3.trans h3, k4.trans h4, k5.trans h5⟩

/-- What is queued in `t` was queued in `s`, with the same bytes. -/
def KeepsPackets (s t : State) : Prop := ∀ k ∈ t.order, k ∈ s.order ∧ SamePacket (s.slot k) (t.slot k)

theorem KeepsPackets.trans {s t u : State} (h : KeepsPackets s t) (h' : KeepsPackets t u) : KeepsPackets s u := by
  intro k hk
  obtain ⟨hkt, hpt⟩ := h' k hk
  obtain ⟨hks, hps⟩ := h k hkt
  exact ⟨hks, hps.trans hpt⟩

/-- A state with the same queue and slots. -/
theorem keepsPackets_of_eq {s t : State} (ho : t.order = s.order) (hk : t.slots = s.slots) : KeepsPackets s t := by
  intro k hmem
  have hslot : t.slot k = s.slot k := by rw [State.slot, hk]; rfl
  exact ⟨ho ▸ hmem, hslot ▸ .rfl _⟩

/-- A slot rewritten with the same packet. -/
theorem setSlot_keepsPackets (s : State) (k : Nat) (x : Slot) (h : SamePacket (s.slot k) x) :
    KeepsPackets s (s.setSlot k x) := by
  intro j hj
  refine ⟨hj, ?_⟩
  rw [setSlot_slot]
  split
  next hjk => exact hjk.1 ▸ h
  · exact .rfl _

theorem EngineMove.keepsPackets {strict : Prop} {s t : State} (h : EngineMove strict s t) : KeepsPackets s t := by
  cases h with
  | phase k p => exact setSlot_keepsPackets s k _ (.rfl _)
  | transmit k => exact setSlot_keepsPackets s k _ (.rfl (s.slot k))
  | start k => exact setSlot_keepsPackets s k _ (.rfl (s.slot k))
  | release k c =>
    intro j hj
    rw [release_order, List.mem_filter] at hj
    obtain ⟨hmem, hne⟩ := hj
    rw [release_slot_ne k c s j (by simpa using hne)]
    exact ⟨hmem, .rfl _⟩
  | _ => exact keepsPackets_of_eq rfl rfl

theorem EngineMoves.keepsPackets {strict : Prop} {s t : State} (h : EngineMoves strict s t) : KeepsPackets s t :=
  h.keeps (fun _ _ hm hs => hs.trans hm.keepsPackets) (keepsPackets_of_eq rfl rfl)

theorem runPass_keepsPackets (rounds : Nat) (s : State) : KeepsPackets s (runPass rounds s) :=
  runPass_keeps (strict := False) (P := KeepsPackets s) (fun _ _ hm hs => hs.trans hm.keepsPackets)
    (fun _ _ hs => hs.trans (keepsPackets_of_eq rfl rfl)) (fun _ hs => hs.trans (keepsPackets_of_eq rfl rfl))
    (fun _ _ hs => hs.trans (keepsPackets_of_eq rfl rfl)) rounds s (keepsPackets_of_eq rfl rfl)

theorem startPass_keepsPackets (s : State) : KeepsPackets s (startPass s) :=
  (keepsPackets_of_eq (s := s) rfl rfl).trans (runPass_keepsPackets _ _)

theorem resumePass_keepsPackets (s : State) : KeepsPackets s (resumePass s) :=
  (keepsPackets_of_eq (s := s) rfl rfl).trans (runPass_keepsPackets _ _)

/-- A packet in the queue both before and after still has its bytes. -/
def NotRewritten (s t : State) : Prop := ∀ k ∈ s.order, k ∈ t.order → SamePacket (s.slot k) (t.slot k)

theorem KeepsPackets.notRewritten {s t : State} (h : KeepsPackets s t) : NotRewritten s t := fun k _ hk => (h k hk).2

/-- The free slot an accepted packet takes is not in the queue, so no queued packet is overwritten. -/
theorem withPacket_notRewritten (k : Nat) (x : Descriptor) (hdr : List Byte) (n : Nat) (s : State)
    (hq : QueueSound s) (hfree : s.freeSlot? = some k) : NotRewritten s (arbitrate (withPacket k x hdr n s)) := by
  intro j hj hjt
  obtain ⟨-, hidle, -⟩ := (freeSlot?_eq_some_iff s k).1 hfree
  have hne : j ≠ k := by
    rintro rfl
    exact (hq.mem_iff j).1 hj hidle
  have hsame := ((arbitrate_moves (strict := False) (withPacket k x hdr n s)).keepsPackets j hjt).2
  rwa [show (withPacket k x hdr n s).slot j = s.slot j from setSlot_slot_ne s k j _ hne] at hsame

theorem Effect.notRewritten {s u : State} {i : Instr} {st : Status} {v : Word} (h : Effect s i st v u)
    (hq : QueueSound s) : NotRewritten s u := by
  cases h with
  | stage _ _ _ _ hst => rw [hst.eq]; exact (keepsPackets_of_eq rfl rfl).notRewritten
  | start => exact (startPass_keepsPackets { s with pendingWork := false }).notRewritten
  | resume => exact (resumePass_keepsPackets s).notRewritten
  | send i x hdr n k seq _ _ _ _ hfree => exact withPacket_notRewritten k x hdr n s hq hfree
  | cancel k => exact (cancel_moves (strict := False) k.toNat s nofun).keepsPackets.notRewritten
  | _ => exact (keepsPackets_of_eq rfl rfl).notRewritten

theorem runInput_notRewritten {x : Input} {s t : State} (h : runInput x s = .next t) (hq : QueueSound s) :
    NotRewritten s t := by
  cases x with
  | tick =>
    obtain rfl := Host.Outcome.next.inj h
    rcases onTick_cases s with e | ⟨-, e⟩ | ⟨-, -, e⟩ <;> rw [e]
    · exact (keepsPackets_of_eq rfl rfl).notRewritten
    · exact (keepsPackets_of_eq rfl rfl).notRewritten
    · exact (startPass_keepsPackets { s with jiffies := s.jiffies + 1 }).notRewritten
  | radioRx f =>
    exact Host.Outcome.next.inj h ▸ (onRadioRx_moves (strict := False) f s).keepsPackets.notRewritten
  | radioTxDone st =>
    exact Host.Outcome.next.inj h ▸ (onTxDone_moves (strict := False) st s nofun).keepsPackets.notRewritten
  | reset =>
    obtain rfl := Host.Outcome.next.inj h
    exact fun k _ hk => absurd hk (by simp [onReset, State.resetOf])
  | command c =>
    rcases runWord_effect h with ⟨i, st, v, u, he, rfl⟩ | ⟨op, st, -, rfl⟩
    · exact he.notRewritten hq
    · exact (keepsPackets_of_eq rfl rfl).notRewritten

/-- Taking an input does not touch the queue. -/
theorem queueSound_withInputs {s : State} (rest : List Input) (h : QueueSound s) :
    QueueSound { s with inputs := rest } := ⟨h.nodup, h.mem_iff, h.head, h.phase, h.idle, h.uninit⟩

/-- Settles O53: the engine's moves rewrite no packet, and an accepted one takes a slot outside the queue. -/
theorem queuedPacketsAreNeverRewritten : Obligations.QueuedPacketsAreNeverRewritten := by
  intro s t k hq h hs ht
  rcases step_next_cases h with rfl | ⟨x, rest, -, -, hrun⟩
  · exact SamePacket.rfl _
  · exact runInput_notRewritten hrun (queueSound_withInputs rest hq) k hs ht

end Sys2Proof.Machine

/-! SUPPORT. The packets of the queue: what is sound of the slots and the order whatever is in flight (spec/10_state.md
section 5), kept by every move of the engine, and the count of packets and SEND_DONEs (spec/43_mac_tx.md section 6). -/

namespace Sys2Proof.Machine

/-! ### Packets -/

/-- The queue order holds exactly the occupied slots, each once; an IDLE slot is at its reset value, a QUEUED one has not
been tried; an occupied slot's frame fits (R36, R37). -/
structure PacketsSound (s : State) : Prop where
  nodup : s.order.Nodup
  mem_iff : ∀ k, k ∈ s.order ↔ (s.slot k).state ≠ .idle
  idle : ∀ k, (s.slot k).state = .idle → s.slot k = Slot.reset
  queued : ∀ k, (s.slot k).state = .queued → (s.slot k).phase = .none ∧ (s.slot k).attempts = 0
  frame : ∀ k, (s.slot k).state ≠ .idle →
    1 ≤ (s.slot k).hdr.length ∧ (s.slot k).hdr.length ≤ hdrbufSize
      ∧ (s.slot k).hdr.length + (s.slot k).data.length ≤ s.cfg.bufSize.toNat
  uninit : s.macInited = false → s.order = []

theorem packetsSound_congr {s t : State} (hc : t.cfg = s.cfg) (hk : t.slots = s.slots) (ho : t.order = s.order)
    (hm : t.macInited = s.macInited) (h : PacketsSound s) : PacketsSound t := by
  obtain ⟨h1, h2, h3, h4, h5, h6⟩ := h
  have hslot : t.slot = s.slot := by funext k; rw [State.slot, hk]; rfl
  exact ⟨ho ▸ h1, by rwa [hslot, ho], by rwa [hslot], by rwa [hslot], by rwa [hslot, hc], by rwa [hm, ho]⟩

/-- An occupied slot rewritten as in flight, with the frame it had. -/
theorem setSlot_packetsSound {s : State} {k : Nat} {x : Slot} (h : PacketsSound s)
    (hx : k < s.slots.length → (s.slot k).state ≠ .idle ∧ x.state = .inFlight ∧ x.hdr = (s.slot k).hdr
      ∧ x.data = (s.slot k).data) : PacketsSound (s.setSlot k x) := by
  by_cases hk : k < s.slots.length
  · obtain ⟨hocc, hst, hhdr, hdata⟩ := hx hk
    have hself : (s.setSlot k x).slot k = x := setSlot_slot_self s k x hk
    have hfly : ((s.setSlot k x).slot k).state = .inFlight := by rw [hself, hst]
    have hne (j : Nat) (hj : j ≠ k) : (s.setSlot k x).slot j = s.slot j := setSlot_slot_ne s k j x hj
    constructor
    case nodup => exact h.nodup
    case uninit => exact h.uninit
    case mem_iff =>
      intro j
      by_cases hj : j = k
      · subst hj
        exact ⟨fun _ => by rw [hfly]; decide, fun _ => (h.mem_iff j).2 hocc⟩
      · rw [hne j hj]; exact h.mem_iff j
    case idle =>
      intro j hj
      by_cases hjk : j = k
      · subst hjk; rw [hfly] at hj; cases hj
      · rw [hne j hjk] at hj ⊢; exact h.idle j hj
    case queued =>
      intro j hj
      by_cases hjk : j = k
      · subst hjk; rw [hfly] at hj; cases hj
      · rw [hne j hjk] at hj ⊢; exact h.queued j hj
    case frame =>
      intro j hj
      by_cases hjk : j = k
      · subst hjk; rw [hself, hhdr, hdata]; exact h.frame j hocc
      · rw [hne j hjk] at hj ⊢; exact h.frame j hj
  · have heq : s.setSlot k x = s := by rw [State.setSlot, List.set_eq_of_length_le (Nat.le_of_not_lt hk)]
    rwa [heq]

/-- A slot released leaves the queue sound, whichever it was (R198). -/
theorem release_packetsSound (k : Nat) (c : SendCode) (s : State) (h : PacketsSound s) :
    PacketsSound (release k c s) := by
  have hself := release_slot_self k c s
  have hne (j : Nat) (hj : j ≠ k) := release_slot_ne k c s j hj
  constructor
  case nodup => exact h.nodup.filter _
  case uninit =>
    intro hm
    rw [release_order, h.uninit hm, List.filter_nil]
  case mem_iff =>
    intro j
    rw [release_order, List.mem_filter]
    by_cases hj : j = k
    · subst hj; simp [Slot.reset]
    · rw [hne j hj, h.mem_iff j]; simp [hj]
  case idle =>
    intro j hj
    by_cases hjk : j = k
    · subst hjk; exact hself
    · rw [hne j hjk] at hj ⊢; exact h.idle j hj
  case queued =>
    intro j hj
    by_cases hjk : j = k
    · subst hjk; rw [hself] at hj; cases hj
    · rw [hne j hjk] at hj ⊢; exact h.queued j hj
  case frame =>
    intro j hj
    by_cases hjk : j = k
    · subst hjk; rw [hself] at hj; exact absurd rfl hj
    · rw [hne j hjk] at hj ⊢; exact h.frame j hj

/-- The engine's moves keep the packets sound. -/
theorem EngineMove.packetsSound {s t : State} (h : EngineMove True s t) (hs : PacketsSound s) : PacketsSound t := by
  cases h with
  | phase k p hk =>
    refine setSlot_packetsSound hs fun hlt => ?_
    have hfly := hk trivial hlt
    exact ⟨by rw [hfly]; decide, hfly, rfl, rfl⟩
  | transmit k hk =>
    refine packetsSound_congr (s := s.setSlot k _) rfl rfl rfl rfl (setSlot_packetsSound hs fun hlt => ?_)
    have hfly := hk trivial hlt
    exact ⟨by rw [hfly]; decide, hfly, rfl, rfl⟩
  | start k hk => exact setSlot_packetsSound hs fun _ => ⟨(hs.mem_iff k).1 hk, rfl, rfl, rfl⟩
  | release k c => exact release_packetsSound k c s hs
  | _ => exact packetsSound_congr (s := s) rfl rfl rfl rfl hs

/-- A new packet in a free slot keeps the packets sound, if it fits. -/
theorem withPacket_packetsSound {k : Nat} {x : Descriptor} {hdr : List Byte} {n : Nat} {s : State} (h : PacketsSound s)
    (hinit : s.macInited = true) (hbuild : buildHeader x = some hdr) (hfits : hdr.length + n ≤ s.cfg.bufSize.toNat)
    (hfree : s.freeSlot? = some k) : PacketsSound (withPacket k x hdr n s) := by
  obtain ⟨hlt, hidle, -⟩ := (freeSlot?_eq_some_iff s k).1 hfree
  obtain ⟨hlong, hbytes⟩ := (buildHeader_eq_some_iff x hdr).1 hbuild
  have hnew : k ∉ s.order := fun hk => (h.mem_iff k).1 hk hidle
  have hself : (withPacket k x hdr n s).slot k = queuedSlot x hdr (readTxdata s n) := setSlot_slot_self s k _ hlt
  have hne (j : Nat) (hj : j ≠ k) : (withPacket k x hdr n s).slot j = s.slot j := setSlot_slot_ne s k j _ hj
  have horder : (withPacket k x hdr n s).order = s.order ++ [k] := rfl
  constructor
  case nodup =>
    rw [horder, List.nodup_append]
    exact ⟨h.nodup, List.nodup_singleton k, fun a ha b hb => by rintro rfl; exact hnew (List.mem_singleton.1 hb ▸ ha)⟩
  case uninit => exact fun hm => absurd (hm.symm.trans hinit) (by decide)
  case mem_iff =>
    intro j
    rw [horder, List.mem_append, List.mem_singleton]
    by_cases hj : j = k
    · subst hj; rw [hself]; simp [queuedSlot]
    · rw [hne j hj, h.mem_iff j]; simp [hj]
  case idle =>
    intro j hj
    by_cases hjk : j = k
    · subst hjk; rw [hself] at hj; cases hj
    · rw [hne j hjk] at hj ⊢; exact h.idle j hj
  case queued =>
    intro j hj
    by_cases hjk : j = k
    · subst hjk; rw [hself]; exact ⟨rfl, rfl⟩
    · rw [hne j hjk] at hj ⊢; exact h.queued j hj
  case frame =>
    intro j hj
    by_cases hjk : j = k
    · subst hjk
      have hone := one_le_headerBytes_length x
      have hle := headerBytes_length_le_eighteen x hlong
      rw [hself]
      refine ⟨hbytes ▸ hone, hbytes ▸ hle, ?_⟩
      show hdr.length + (readTxdata s n).length ≤ s.cfg.bufSize.toNat
      rwa [readTxdata_length]
    · rw [hne j hjk] at hj ⊢; exact h.frame j hj

/-- A sound state's packets are sound. -/
theorem Inv.packetsSound {s : State} (h : Inv s) : PacketsSound s where
  nodup := h.queue.nodup
  mem_iff := h.queue.mem_iff
  idle := h.queue.idle
  queued k hk := ⟨(h.queue.phase k).2 (by rw [hk]; decide), h.slots.queued k hk⟩
  frame := h.slots.frame
  uninit := h.queue.uninit

/-- The slot the radio transmits for is in flight (R35). -/
theorem Inv.sent_inFlight {s : State} (h : Inv s) (ho : s.txOwner = .slot) :
    (s.slot s.txSlot.toNat).state = .inFlight := by
  obtain ⟨k, hk⟩ := h.radio.owner_iff.1 ho
  rw [h.radio.txSlot k hk]
  by_contra hne
  rw [(h.queue.phase k).2 hne] at hk
  cases hk

/-! ### Packets and reports are conserved -/

/-- From `s` to `t` every slot's packets and reports together, and those of the whole queue, have grown by `added`. -/
structure Tally (added : Nat → Nat) (total : Nat) (s t : State) : Prop where
  total : t.order.length + sendDoneCount t.outputs = s.order.length + sendDoneCount s.outputs + total
  slot : ∀ k, k < s.slots.length → held t k + reportsOf k t.outputs = held s k + reportsOf k s.outputs + added k
  slots : t.slots.length = s.slots.length

/-- Nothing gained and nothing lost. -/
abbrev Conserved : State → State → Prop := Tally (fun _ => 0) 0

theorem Tally.trans_conserved {added : Nat → Nat} {total : Nat} {s t u : State} (h : Tally added total s t)
    (h' : Conserved t u) : Tally added total s u where
  total := h'.total.trans h.total
  slot k hk := (h'.slot k (h.slots ▸ hk)).trans (h.slot k hk)
  slots := h'.slots.trans h.slots

/-- The same queue, the same occupied slots and no report. -/
theorem conserved_of_eq {s t : State} (ho : t.order.length = s.order.length) (hk : ∀ k, held t k = held s k)
    (hl : t.slots.length = s.slots.length) (hc : sendDoneCount t.outputs = sendDoneCount s.outputs)
    (hr : ∀ k, reportsOf k t.outputs = reportsOf k s.outputs) : Conserved s t where
  total := by rw [ho, hc, Nat.add_zero]
  slot k _ := by rw [hk, hr, Nat.add_zero]
  slots := hl

theorem Conserved.rfl (s : State) : Conserved s s := conserved_of_eq (.refl _) (fun _ => .refl _) (.refl _) (.refl _) fun _ => .refl _

/-- The same packets and the same trace. -/
theorem conserved_congr {s t : State} (ho : t.order = s.order) (hk : t.slots = s.slots) (hc : t.outputs = s.outputs) :
    Conserved s t :=
  conserved_of_eq (by rw [ho]) (fun k => by simp [held, State.slot, hk]) (by rw [hk]) (by rw [hc]) fun k => by rw [hc]

/-- An output that is no SEND_DONE is not counted. -/
theorem counts_append {os : List Output} {e : Output} (he : ∀ i c a, e ≠ .sendDone i c a) :
    sendDoneCount (os ++ [e]) = sendDoneCount os ∧ ∀ k, reportsOf k (os ++ [e]) = reportsOf k os := by
  cases e with
  | sendDone i c a => exact absurd (.refl _) (he i c a)
  | _ => exact ⟨by simp [sendDoneCount, List.countP_append], fun k => by simp [reportsOf, List.countP_append]⟩

/-- The same packets and one more output that is no SEND_DONE. -/
theorem conserved_emit {s t : State} {e : Output} (he : ∀ i c a, e ≠ .sendDone i c a) (ho : t.order = s.order)
    (hk : ∀ k, (t.slot k).state = (s.slot k).state) (hl : t.slots.length = s.slots.length)
    (hc : t.outputs = s.outputs ++ [e]) : Conserved s t := by
  obtain ⟨hcount, hreports⟩ := counts_append (os := s.outputs) he
  exact conserved_of_eq (by rw [ho]) (fun k => by rw [held, held, hk]) hl (by rw [hc, hcount])
    fun k => by rw [hc, hreports]

/-- The packet of an occupied slot becomes its report (R198). -/
theorem release_conserved {k : Nat} {c : SendCode} {s : State} (h : PacketsSound s) (hl : s.slots.length ≤ 255)
    (hk : (s.slot k).state ≠ .idle) : Conserved s (release k c s) := by
  have hmem : k ∈ s.order := (h.mem_iff k).2 hk
  have hlt : k < s.slots.length := lt_of_not_idle s k hk
  constructor
  case slots => exact List.length_set
  case total =>
    have hpos := List.length_pos_of_mem hmem
    have herase : (s.order.filter (fun j => j != k)).length = s.order.length - 1 := by
      rw [← h.nodup.erase_eq_filter, List.length_erase_of_mem hmem]
    rw [release_order, release_outputs, herase]
    simp only [sendDoneCount, List.countP_append, List.countP_singleton, if_true]
    omega
  case slot =>
    intro j hj
    rw [release_outputs]
    by_cases hjk : j = k
    · subst hjk
      simp [held, hk, reportsOf, List.countP_append, Slot.reset]
      omega
    · have hbyte : ¬ BitVec.ofNat 8 k = BitVec.ofNat 8 j := by
        intro he
        have := congrArg BitVec.toNat he
        simp only [BitVec.toNat_ofNat] at this
        omega
      simp [held, release_slot_ne k c s j hjk, reportsOf, List.countP_append, hbyte]

/-- A slot whose occupation stays. -/
theorem held_setSlot {s : State} {k : Nat} {x : Slot}
    (hx : k < s.slots.length → (s.slot k).state ≠ .idle ∧ x.state ≠ .idle) (j : Nat) :
    held (s.setSlot k x) j = held s j := by
  rw [held, held, setSlot_slot]
  split
  next h =>
    obtain ⟨rfl, hlt⟩ := h
    obtain ⟨hs, hx⟩ := hx hlt
    rw [if_neg hs, if_neg hx]
  · rfl

theorem EngineMove.conserved {s t : State} (h : EngineMove True s t) (hs : PacketsSound s) (hl : s.slots.length ≤ 255) :
    Conserved s t := by
  cases h with
  | phase k p hk =>
    refine conserved_of_eq rfl (held_setSlot fun hlt => ?_) List.length_set rfl fun _ => rfl
    have hne : (s.slot k).state ≠ .idle := by rw [hk trivial hlt]; decide
    exact ⟨hne, hne⟩
  | transmit k hk =>
    exact conserved_emit (e := .radioTx (s.slot k).hdr (s.slot k).data) (by simp) rfl
      (fun j => transmit_slot_state k j s) List.length_set rfl
  | start k hk =>
    exact conserved_of_eq rfl (held_setSlot fun _ => ⟨(hs.mem_iff k).1 hk, by simp⟩) List.length_set rfl fun _ => rfl
  | release k c hk => exact release_conserved hs hl (hk trivial)
  | ack hdr => exact conserved_emit (e := .radioTx hdr []) (by simp) rfl (fun _ => rfl) rfl rfl
  | emit e he => exact conserved_emit he rfl (fun _ => rfl) rfl rfl
  | _ => exact conserved_congr rfl rfl rfl

/-- `t` has sound packets, and a tally from `s`. -/
def SoundTally (added : Nat → Nat) (total : Nat) (s t : State) : Prop := PacketsSound t ∧ Tally added total s t

section SoundTally

variable {added : Nat → Nat} {total : Nat} {s t u : State}

/-- A step that touches neither the packets nor the trace. -/
theorem SoundTally.congr (h : SoundTally added total s t) (hc : u.cfg = t.cfg) (hk : u.slots = t.slots)
    (ho : u.order = t.order) (hm : u.macInited = t.macInited) (hout : u.outputs = t.outputs) :
    SoundTally added total s u :=
  ⟨packetsSound_congr hc hk ho hm h.1, h.2.trans_conserved (conserved_congr ho hk hout)⟩

variable (hl : s.slots.length ≤ 255)

include hl

theorem SoundTally.move (hm : EngineMove True t u) (h : SoundTally added total s t) : SoundTally added total s u :=
  ⟨hm.packetsSound h.1, h.2.trans_conserved (hm.conserved h.1 (h.2.slots ▸ hl))⟩

theorem SoundTally.moves (hm : EngineMoves True t u) (h : SoundTally added total s t) : SoundTally added total s u :=
  hm.keeps (fun _ _ hm h => h.move hl hm) h

theorem SoundTally.runPass (rounds : Nat) (h : SoundTally added total s t) :
    SoundTally added total s (runPass rounds t) := by
  refine runPass_keeps (fun _ _ hm h => SoundTally.move hl hm h) (fun _ _ h => h.congr rfl rfl rfl rfl rfl)
    (fun _ h => h.congr rfl rfl rfl rfl rfl) (fun u a h => ⟨packetsSound_congr (s := u) rfl rfl rfl rfl h.1, ?_⟩) rounds t h
  exact h.2.trans_conserved (conserved_emit (e := .alarmFire (BitVec.ofNat 8 a) (u.alarm a).cb (u.alarm a).arg)
    (by simp) rfl (fun _ => rfl) rfl rfl)

theorem SoundTally.startPass (h : SoundTally added total s t) : SoundTally added total s (startPass t) :=
  SoundTally.runPass hl _ (h.congr (u := { t with procNow := t.jiffies }) rfl rfl rfl rfl rfl)

theorem SoundTally.resumePass (h : SoundTally added total s t) : SoundTally added total s (resumePass t) :=
  SoundTally.runPass hl _ (h.congr (u := closeWindow t) rfl rfl rfl rfl rfl)

end SoundTally

/-- A new packet is one more held by its slot. -/
theorem withPacket_tally {k : Nat} {x : Descriptor} {hdr : List Byte} {n : Nat} {s : State}
    (hfree : s.freeSlot? = some k) :
    Tally (fun j => if j = k then 1 else 0) 1 s (withPacket k x hdr n s) := by
  obtain ⟨hlt, hidle, -⟩ := (freeSlot?_eq_some_iff s k).1 hfree
  constructor
  case slots => exact List.length_set
  case total =>
    show (s.order ++ [k]).length + sendDoneCount s.outputs = _
    rw [List.length_append, List.length_singleton]
    omega
  case slot =>
    intro j _
    show held (withPacket k x hdr n s) j + reportsOf j s.outputs = _
    by_cases hj : j = k
    · subst hj
      have hself : (withPacket j x hdr n s).slot j = queuedSlot x hdr (readTxdata s n) := setSlot_slot_self s j _ hlt
      simp [held, hself, hidle, queuedSlot]
      omega
    · have hne : (withPacket k x hdr n s).slot j = s.slot j := setSlot_slot_ne s k j _ hj
      simp [held, hne, hj]

/-- What a command adds: one packet, if it is a send answered OK, in the slot it answers. -/
theorem Effect.tally {s u : State} {i : Instr} {st : Status} {v : Word} (h : Effect s i st v u) (hs : PacketsSound s)
    (hl : s.slots.length ≤ 255) :
    (isSend i = true ∧ st = .ok ∧ ∃ k, k < s.slots.length ∧ v = BitVec.ofNat 32 k
      ∧ Tally (fun j => if j = k then 1 else 0) 1 s u)
    ∨ (¬ (isSend i = true ∧ st = .ok) ∧ Conserved s u) := by
  have start : SoundTally (fun _ => 0) 0 s s := ⟨hs, Conserved.rfl s⟩
  cases h with
  | none _ _ _ hst => exact .inr ⟨fun ⟨hi, he⟩ => hst hi he, Conserved.rfl s⟩
  | stage _ _ _ hi hst =>
    refine .inr ⟨fun ⟨hi', _⟩ => absurd (hi.symm.trans hi') (by decide), ?_⟩
    rw [hst.eq]
    exact conserved_congr rfl rfl rfl
  | bind | arm | unlink => exact .inr ⟨by simp [isSend], conserved_congr rfl rfl rfl⟩
  | start =>
    have h := SoundTally.startPass hl (start.congr (u := { s with pendingWork := false }) rfl rfl rfl rfl rfl)
    exact .inr ⟨by simp [isSend], h.2⟩
  | resume => exact .inr ⟨by simp [isSend], (SoundTally.resumePass hl start).2⟩
  | init => exact .inr ⟨by simp [isSend], conserved_emit (e := .radioOn) (by simp) rfl (fun _ => rfl) rfl rfl⟩
  | send i x hdr n k seq hi hinit hbuild hfits hfree =>
    have hlt := ((freeSlot?_eq_some_iff s k).1 hfree).1
    have hnew : SoundTally (fun j => if j = k then 1 else 0) 1 s (withPacket k x hdr n s) :=
      ⟨withPacket_packetsSound hs hinit hbuild hfits hfree, withPacket_tally hfree⟩
    have hserved := (SoundTally.moves hl (arbitrate_moves _) hnew).2
    exact .inl ⟨hi, rfl, k, hlt, rfl, hserved.trans_conserved (conserved_congr rfl rfl rfl)⟩
  | cancel k _ _ hk =>
    exact .inr ⟨by simp [isSend], (SoundTally.moves hl (cancel_moves k.toNat s fun _ => hk) start).2⟩

/-- The two opcodes of a send. -/
theorem isSend_iff_opcode (i : Instr) : isSend i = true ↔ opcode i = 0x41 ∨ opcode i = 0x42 := by
  cases i with
  | macSend a b d n => exact ⟨fun _ => .inl rfl, fun _ => rfl⟩
  | macSendEx n => exact ⟨fun _ => .inr rfl, fun _ => rfl⟩
  | _ => exact ⟨nofun, fun h => by rcases h with h | h <;> cases h⟩

/-- A response word is one of its opcode, status and value alone (R84). -/
theorem responseWord_inj {op op' : Byte} {st st' : Status} {v v' : Word}
    (h : responseWord op st v = responseWord op' st' v') : op = op' ∧ st = st' ∧ v = v' := by
  have hop : op = op' := by rw [← responseWord_op op st v, h, responseWord_op]
  have hv : v = v' := by rw [← responseWord_value op st v, h, responseWord_value]
  have hst : statusCode st = statusCode st' := by rw [← responseWord_status op st v, h, responseWord_status]
  refine ⟨hop, ?_, hv⟩
  cases st <;> cases st' <;> first | rfl | exact absurd hst (by decide)

/-- A command's response is that of an accepted send exactly when the command is a send that answers OK. -/
theorem accepted_iff {i : Instr} {st : Status} {v w : Word} {rs : List DWord} :
    (rs ++ [responseWord (opcode i) st v] = rs ++ [responseWord 0x41 .ok w]
      ∨ rs ++ [responseWord (opcode i) st v] = rs ++ [responseWord 0x42 .ok w])
    ↔ (isSend i = true ∧ st = .ok) ∧ v = w := by
  rw [isSend_iff_opcode, List.append_cancel_left_eq, List.append_cancel_left_eq, List.singleton_inj, List.singleton_inj]
  constructor
  · rintro (h | h)
    · obtain ⟨ho, hst, hv⟩ := responseWord_inj h
      exact ⟨⟨.inl ho, hst⟩, hv⟩
    · obtain ⟨ho, hst, hv⟩ := responseWord_inj h
      exact ⟨⟨.inr ho, hst⟩, hv⟩
  · rintro ⟨⟨ho | ho, rfl⟩, rfl⟩
    · exact .inl (by rw [ho])
    · exact .inr (by rw [ho])

/-- A sound state has no more slots than a byte can name. -/
theorem Inv.slots_le {s : State} (h : Inv s) : s.slots.length ≤ 255 := by
  rw [h.tables.2]
  exact Nat.le_of_lt_succ s.cfg.queueCap.isLt

/-- Events accept no packet. -/
theorem event_conserved {x : Input} {s t : State} (hs : Inv s) (hx : IsEvent x) (h : runInput x s = .next t) :
    Conserved s t := by
  have start : SoundTally (fun _ => 0) 0 s s := ⟨hs.packetsSound, Conserved.rfl s⟩
  rcases hx with rfl | ⟨f, rfl⟩ | ⟨st, rfl⟩ <;> obtain rfl := Host.Outcome.next.inj h
  · rcases onTick_cases s with e | ⟨-, e⟩ | ⟨-, -, e⟩ <;> rw [e]
    · exact conserved_congr rfl rfl rfl
    · exact conserved_congr rfl rfl rfl
    · have hticked := start.congr (u := { s with jiffies := s.jiffies + 1 }) rfl rfl rfl rfl rfl
      exact (SoundTally.startPass hs.slots_le hticked).2
  · exact (SoundTally.moves hs.slots_le (onRadioRx_moves f s) start).2
  · exact (SoundTally.moves hs.slots_le (onTxDone_moves st s fun _ _ ho => hs.sent_inFlight ho) start).2

/-- Settles O54: a send answered OK adds the one packet of the slot it answers, and every other move conserves. -/
theorem packetsAndReportsAreConserved : Obligations.PacketsAndReportsAreConserved := by
  refine ⟨fun i s t hs h => ?_, fun x s t hs hx h => ?_⟩
  · obtain ⟨st, v, u, he, rfl⟩ := exec_effect h
    have hl := hs.slots_le
    have haccepted (w : Word) := accepted_iff (i := i) (st := st) (v := v) (w := w) (rs := s.responses)
    simp only [respond_responses, he.keeps.2.2, haccepted]
    rcases he.tally hs.packetsSound hl with ⟨hi, hst, k, hk, hv, ht⟩ | ⟨hnot, ht⟩
    · refine ⟨fun _ => ht.total, fun hn => absurd ⟨v, ⟨hi, hst⟩, rfl⟩ hn, fun j hj => ?_⟩
      have hjk : v = BitVec.ofNat 32 j ↔ j = k := by
        rw [hv, ← BitVec.toNat_inj, BitVec.toNat_ofNat, BitVec.toNat_ofNat]
        omega
      have hslot := ht.slot j hj
      refine ⟨fun ⟨_, hvj⟩ => ?_, fun hn => ?_⟩
      · rwa [if_pos (hjk.1 hvj)] at hslot
      · rwa [if_neg fun he => hn ⟨⟨hi, hst⟩, hjk.2 he⟩] at hslot
    · exact ⟨fun ⟨_, ha, _⟩ => absurd ha hnot, fun _ => ht.total,
        fun j hj => ⟨fun ⟨ha, _⟩ => absurd ha hnot, fun _ => ht.slot j hj⟩⟩
  · have ht := event_conserved hs hx h
    exact ⟨ht.total, fun k hk => ht.slot k hk⟩

end Sys2Proof.Machine

/-! SUPPORT. The engine's invariant (spec/10_state.md section 5, spec/43_mac_tx.md sections 5 and 6) in three shapes: at
rest, with one packet in flight, and in between, while a procedure has ended one wait and not begun the next. Each
procedure leads from one shape to another. -/

namespace Sys2Proof.Machine

/-! ### The three shapes -/

/-- Slot `k` is in flight at the head of the queue, and no other is (R37). -/
structure AloneInFlight (s : State) (k : Nat) : Prop where
  state : (s.slot k).state = .inFlight
  others : ∀ j, j ≠ k → (s.slot j).state ≠ .inFlight
  head : s.order.head? = some k

/-- Nothing is in flight and the engine alarm is not armed. -/
structure Resting (s : State) : Prop where
  grounded : ∀ k, (s.slot k).state ≠ .inFlight
  busy_iff : s.radioBusy = false ↔ s.txOwner = .none
  owner : s.txOwner ≠ .slot
  alarm : (s.alarm s.engineAlarm).state = .idle

/-- Slot `k` is in flight and between two phases: the radio is not transmitting for it and the engine alarm is not
armed. -/
structure Landing (s : State) (k : Nat) : Prop where
  alone : AloneInFlight s k
  busy_iff : s.radioBusy = false ↔ s.txOwner = .none
  owner : s.txOwner ≠ .slot
  alarm : (s.alarm s.engineAlarm).state = .idle
  attempts : (s.slot k).attempts.toNat ≤ s.cfg.maxAttempts.toNat

/-- Slot `k` is in flight: the radio transmits for it, or the engine alarm is armed for it (R35, R200). -/
structure Flying (s : State) (k : Nat) : Prop where
  alone : AloneInFlight s k
  busy_iff : s.radioBusy = false ↔ s.txOwner = .none
  phase : (s.slot k).phase ≠ .none
  owner_iff : s.txOwner = .slot ↔ (s.slot k).phase = .transmitting
  txSlot : (s.slot k).phase = .transmitting → s.txSlot.toNat = k
  alarm_iff : (s.alarm s.engineAlarm).state = .scheduled ↔ (s.slot k).phase ≠ .transmitting
  waiting : (s.slot k).phase = .senseBackoff ∨ (s.slot k).phase = .retryBackoff →
    (s.slot k).attempts.toNat < s.cfg.maxAttempts.toNat
  sent : (s.slot k).phase = .transmitting ∨ (s.slot k).phase = .awaitAck →
    1 ≤ (s.slot k).attempts.toNat ∧ (s.slot k).attempts.toNat ≤ s.cfg.maxAttempts.toNat

/-- The engine is at rest or has one packet in flight. -/
def EngineSound (s : State) : Prop := Resting s ∨ ∃ k, Flying s k

theorem AloneInFlight.found {s : State} {k : Nat} (h : AloneInFlight s k) : s.inFlight? = some k :=
  inFlight?_of_unique s k h.state h.others

theorem AloneInFlight.lt {s : State} {k : Nat} (h : AloneInFlight s k) : k < s.slots.length :=
  lt_of_not_idle s k (by rw [h.state]; decide)

/-- The same slots' states in the same order. -/
theorem AloneInFlight.of_eq {s t : State} {k : Nat} (h : AloneInFlight s k)
    (hs : ∀ j, (t.slot j).state = (s.slot j).state) (ho : t.order = s.order) : AloneInFlight t k :=
  ⟨by rw [hs, h.state], fun j hj => by rw [hs]; exact h.others j hj, by rw [ho, h.head]⟩

/-- An alarm that is not SCHEDULED is IDLE (R23). -/
theorem alarmState_idle_of {st : AlarmState} (h : st ≠ .scheduled) : st = .idle := by
  cases st with
  | idle => rfl
  | scheduled => exact absurd rfl h

theorem Resting.congr {s t : State} (h : Resting s) (hc : t.cfg = s.cfg) (hk : t.slots = s.slots)
    (hb : t.radioBusy = s.radioBusy) (ho : t.txOwner = s.txOwner)
    (ha : (t.alarm s.engineAlarm).state = (s.alarm s.engineAlarm).state) : Resting t where
  grounded k := by rw [State.slot, hk]; exact h.grounded k
  busy_iff := by rw [hb, ho]; exact h.busy_iff
  owner := by rw [ho]; exact h.owner
  alarm := by rw [State.engineAlarm, hc]; exact ha.trans h.alarm

theorem Landing.congr {s t : State} {k : Nat} (h : Landing s k) (hc : t.cfg = s.cfg) (hk : t.slots = s.slots)
    (hq : t.order = s.order) (hb : t.radioBusy = s.radioBusy) (ho : t.txOwner = s.txOwner)
    (ha : t.alarms = s.alarms) : Landing t k where
  alone := h.alone.of_eq (fun j => by rw [State.slot, hk]; rfl) hq
  busy_iff := by rw [hb, ho]; exact h.busy_iff
  owner := by rw [ho]; exact h.owner
  alarm := by rw [State.alarm, State.engineAlarm, ha, hc]; exact h.alarm
  attempts := by rw [State.slot, hk, hc]; exact h.attempts

theorem Flying.congr {s t : State} {k : Nat} (h : Flying s k) (hc : t.cfg = s.cfg) (hk : t.slots = s.slots)
    (hq : t.order = s.order) (hb : t.radioBusy = s.radioBusy) (ho : t.txOwner = s.txOwner) (ht : t.txSlot = s.txSlot)
    (ha : (t.alarm s.engineAlarm).state = (s.alarm s.engineAlarm).state) : Flying t k := by
  have hslot : t.slot k = s.slot k := by rw [State.slot, hk]; rfl
  have hma : t.engineAlarm = s.engineAlarm := by rw [State.engineAlarm, hc]; rfl
  constructor
  case alone => exact h.alone.of_eq (fun j => by rw [State.slot, hk]; rfl) hq
  case busy_iff => rw [hb, ho]; exact h.busy_iff
  case phase => rw [hslot]; exact h.phase
  case owner_iff => rw [hslot, ho]; exact h.owner_iff
  case txSlot => rw [hslot, ht]; exact h.txSlot
  case alarm_iff => rw [hslot, hma, ha]; exact h.alarm_iff
  case waiting => rw [hslot, hc]; exact h.waiting
  case sent => rw [hslot, hc]; exact h.sent

theorem EngineSound.congr {s t : State} (h : EngineSound s) (hc : t.cfg = s.cfg) (hk : t.slots = s.slots)
    (hq : t.order = s.order) (hb : t.radioBusy = s.radioBusy) (ho : t.txOwner = s.txOwner) (ht : t.txSlot = s.txSlot)
    (ha : (t.alarm s.engineAlarm).state = (s.alarm s.engineAlarm).state) : EngineSound t := by
  rcases h with h | ⟨k, h⟩
  · exact .inl (h.congr hc hk hb ho ha)
  · exact .inr ⟨k, h.congr hc hk hq hb ho ht ha⟩

/-- A packet waiting for the engine alarm, once that is unlinked, is between two phases. -/
theorem Flying.unlinked {s : State} {k : Nat} (h : Flying s k) (hp : (s.slot k).phase ≠ .transmitting) :
    Landing (removeAlarm s.engineAlarm s) k where
  alone := h.alone.of_eq (fun _ => rfl) rfl
  busy_iff := h.busy_iff
  owner ho := hp (h.owner_iff.1 ho)
  alarm := by
    show ((removeAlarm s.engineAlarm s).alarm s.engineAlarm).state = .idle
    rw [removeAlarm_alarm_self]
  attempts := by
    show (s.slot k).attempts.toNat ≤ s.cfg.maxAttempts.toNat
    by_cases hack : (s.slot k).phase = .awaitAck
    · exact (h.sent (.inr hack)).2
    · refine Nat.le_of_lt (h.waiting ?_)
      have hnone := h.phase
      cases hph : (s.slot k).phase <;> simp_all

/-! ### What the procedures make of them -/

/-- A packet goes on the air (R192). -/
theorem Landing.transmit {s : State} {k : Nat} (h : Landing s k) (hl : s.slots.length ≤ 255)
    (ha : (s.slot k).attempts.toNat < s.cfg.maxAttempts.toNat) : Flying (transmit k s) k := by
  have hk := h.alone.lt
  have hself := transmit_slot_self k s hk
  have hbyte := s.cfg.maxAttempts.isLt
  constructor
  case alone => exact h.alone.of_eq (fun j => transmit_slot_state k j s) rfl
  case busy_iff => simp
  case txSlot =>
    intro _
    show (BitVec.ofNat 8 k).toNat = k
    rw [BitVec.toNat_ofNat]
    omega
  case alarm_iff =>
    have hidle : ((Machine.transmit k s).alarm (Machine.transmit k s).engineAlarm).state = .idle := h.alarm
    rw [hself, hidle]
    simp
  all_goals rw [hself]
  case phase => simp
  case owner_iff => exact ⟨fun _ => rfl, fun _ => rfl⟩
  case waiting => simp
  case sent =>
    intro _
    show 1 ≤ ((s.slot k).attempts + 1).toNat ∧ ((s.slot k).attempts + 1).toNat ≤ s.cfg.maxAttempts.toNat
    rw [BitVec.toNat_add]
    have hone : (1 : Byte).toNat = 1 := rfl
    omega

/-- The engine alarm is armed for the next phase of the packet in flight (R190, R193, R196). -/
theorem Landing.armed {s : State} {k : Nat} (h : Landing s k) (hlt : s.engineAlarm < s.alarms.length) (d : Word)
    {p : Phase} (hn : p ≠ .none) (ht : p ≠ .transmitting)
    (hw : p ≠ .awaitAck → (s.slot k).attempts.toNat < s.cfg.maxAttempts.toNat)
    (ha : p = .awaitAck → 1 ≤ (s.slot k).attempts.toNat) : Flying ((schedMA d s).setPhase k p) k := by
  have hself : ((schedMA d s).setPhase k p).slot k = { s.slot k with phase := p } :=
    setPhase_slot_self (schedMA d s) k p h.alone.lt
  constructor
  case alone => exact h.alone.of_eq (setPhase_slot_state (schedMA d s) k · p) rfl
  case busy_iff => exact h.busy_iff
  case alarm_iff =>
    have hsched : (((schedMA d s).setPhase k p).alarm ((schedMA d s).setPhase k p).engineAlarm).state = .scheduled :=
      congrArg Alarm.state (armAlarm_alarm_self s.engineAlarm d s hlt)
    rw [hself, hsched]
    simpa using ht
  all_goals rw [hself]
  case phase => exact hn
  case owner_iff => exact ⟨fun ho => absurd ho h.owner, fun hp => absurd hp ht⟩
  case txSlot => exact fun hp => absurd hp ht
  case waiting =>
    intro hp
    refine hw ?_
    rintro rfl
    simp at hp
  case sent =>
    rintro (hp | hp)
    · exact absurd hp ht
    · exact ⟨ha hp, h.attempts⟩

section Attempts

variable {s : State} {k : Nat} (h : Landing s k) (hsized : TablesSized s)
  (ha : (s.slot k).attempts.toNat < s.cfg.maxAttempts.toNat)

include h hsized ha

/-- Carrier sense puts the packet on the air or into its backoff (R190). -/
theorem Landing.sense : Flying (sense k s) k := by
  have hkeeps := askChannel_keeps s
  have hframe := askChannel_frame s
  have hasked : Landing (askChannel s).2 k :=
    h.congr hframe.cfg hkeeps.2.2.1 hkeeps.2.2.2.1 hkeeps.2.2.2.2.1 hkeeps.2.2.2.2.2.1 hkeeps.1
  have hsizedAsked := hframe.tablesSized hsized
  have haAsked : ((askChannel s).2.slot k).attempts.toNat < (askChannel s).2.cfg.maxAttempts.toNat := by
    rwa [askChannel_slot, hframe.cfg]
  unfold Machine.sense
  split
  · refine hasked.transmit ?_ haAsked
    rw [hsizedAsked.2]
    exact Nat.le_of_lt_succ (askChannel s).2.cfg.queueCap.isLt
  · have dkeeps := drawBackoff_keeps (askChannel s).2
    have dframe := drawBackoff_frame (askChannel s).2
    have hdrawn : Landing (drawBackoff (askChannel s).2).2 k :=
      hasked.congr dframe.cfg dkeeps.2.2.1 dkeeps.2.2.2.1 dkeeps.2.2.2.2.1 dkeeps.2.2.2.2.2.1 dkeeps.1
    refine hdrawn.armed (dframe.tablesSized hsizedAsked).engineAlarm_lt _ (by decide) (by decide) (fun _ => ?_) (by simp)
    rwa [drawBackoff_slot, dframe.cfg]

/-- An attempt puts the packet on the air or into its backoff (R188). -/
theorem Landing.beginAttempt : Flying (beginAttempt k s) k := by
  unfold Machine.beginAttempt
  split
  · refine h.transmit ?_ ha
    rw [hsized.2]
    exact Nat.le_of_lt_succ s.cfg.queueCap.isLt
  · exact h.sense hsized ha

end Attempts

/-- What the engine needs of a state whatever its shape. -/
structure EngineBasis (s : State) : Prop where
  attempts : 1 ≤ s.cfg.maxAttempts.toNat
  sized : TablesSized s
  packets : PacketsSound s

theorem EngineBasis.move (s t : State) (hm : EngineMove True s t) (h : EngineBasis s) : EngineBasis t :=
  ⟨by rw [hm.frame.cfg]; exact h.attempts, hm.frame.tablesSized h.sized, hm.packetsSound h.packets⟩

theorem EngineBasis.moves {s t : State} (h : EngineBasis s) (hm : EngineMoves True s t) : EngineBasis t :=
  hm.keeps EngineBasis.move h

/-- The arbiter starts the oldest packet of an engine at rest, and leaves one in flight alone (R187). -/
theorem EngineSound.arbitrate {s : State} (h : EngineSound s) (hr : EngineBasis s) : EngineSound (arbitrate s) := by
  rcases h with h | ⟨k, h⟩
  · unfold Machine.arbitrate
    split
    · exact .inl h
    split
    · exact .inl h
    split
    · exact .inl h
    next hb _ k l ho =>
      have hmem : k ∈ s.order := by simp [ho]
      have hocc := (hr.packets.mem_iff k).1 hmem
      have hlt := lt_of_not_idle s k hocc
      have hqueued : (s.slot k).state = .queued := by
        have hground := h.grounded k
        cases hst : (s.slot k).state <;> simp_all
      have hfresh := (hr.packets.queued k hqueued).2
      have hself : (s.setSlot k { s.slot k with state := .inFlight }).slot k = { s.slot k with state := .inFlight } :=
        setSlot_slot_self s k _ hlt
      have hstart : Landing (s.setSlot k { s.slot k with state := .inFlight }) k := by
        constructor
        case alone =>
          refine ⟨by rw [hself], fun j hj => ?_, by rw [setSlot_order, ho]; rfl⟩
          rw [setSlot_slot_ne _ _ _ _ hj]
          exact h.grounded j
        case attempts => rw [hself, hfresh]; exact Nat.zero_le _
        case busy_iff => exact h.busy_iff
        case owner => exact h.owner
        case alarm => exact h.alarm
      refine .inr ⟨k, hstart.beginAttempt ((setSlot_frame s k _).tablesSized hr.sized) ?_⟩
      rw [hself, hfresh]
      exact hr.attempts
  · rw [arbitrate_of_inFlight s k h.alone.found]
    exact .inr ⟨k, h⟩

/-- The packet in flight is released between two phases (R198). -/
theorem Landing.release {s : State} {k : Nat} (h : Landing s k) (c : SendCode) : Resting (release k c s) where
  grounded j := by
    by_cases hj : j = k
    · subst hj; rw [release_slot_self]; decide
    · rw [release_slot_ne k c s j hj]; exact h.alone.others j hj
  busy_iff := h.busy_iff
  owner := h.owner
  alarm := h.alarm

/-- A queued packet is released while nothing is in flight (R204). -/
theorem Resting.release {s : State} (h : Resting s) (k : Nat) (c : SendCode) : Resting (release k c s) where
  grounded j := by
    by_cases hj : j = k
    · subst hj; rw [release_slot_self]; decide
    · rw [release_slot_ne k c s j hj]; exact h.grounded j
  busy_iff := h.busy_iff
  owner := h.owner
  alarm := h.alarm

/-- A packet behind the one in flight is released (R204). -/
theorem Flying.release {s : State} {j k : Nat} (h : Flying s j) (hjk : j ≠ k) (c : SendCode) :
    Flying (release k c s) j := by
  have hself := release_slot_ne k c s j hjk
  constructor
  case alone =>
    refine ⟨by rw [hself]; exact h.alone.state, fun i hi => ?_, ?_⟩
    · by_cases hik : i = k
      · subst hik; rw [release_slot_self]; decide
      · rw [release_slot_ne k c s i hik]; exact h.alone.others i hi
    · obtain ⟨l, hl⟩ := List.head?_eq_some_iff.1 h.alone.head
      rw [release_order, hl, List.filter_cons_of_pos (by simpa using hjk)]
      rfl
  case busy_iff => exact h.busy_iff
  case alarm_iff => rw [hself]; exact h.alarm_iff
  all_goals rw [hself]
  case phase => exact h.phase
  case owner_iff => exact h.owner_iff
  case txSlot => exact h.txSlot
  case waiting => exact h.waiting
  case sent => exact h.sent

/-- The packet in flight is completed between two phases, and the next is served (R198). -/
theorem Landing.complete {s : State} {k : Nat} (h : Landing s k) (c : SendCode) (hr : EngineBasis s) :
    EngineSound (complete k c s) := by
  have hocc : (s.slot k).state ≠ .idle := by rw [h.alone.state]; decide
  exact EngineSound.arbitrate (.inl (h.release c)) (hr.moves (.single (.release k c fun _ => hocc)))

/-- The engine alarm's handler, once the alarm that was armed for the packet in flight is unlinked (R196). -/
theorem Flying.macAlarm {s : State} {k : Nat} (h : Flying s k) (hp : (s.slot k).phase ≠ .transmitting)
    (hr : EngineBasis (removeAlarm s.engineAlarm s)) : EngineSound (macAlarm (removeAlarm s.engineAlarm s)) := by
  have hland := h.unlinked hp
  have hfound := hland.alone.found
  have hnone := h.phase
  cases hphase : (s.slot k).phase with
  | none => exact absurd hphase hnone
  | transmitting => exact absurd hphase hp
  | senseBackoff =>
    rw [macAlarm_of_senseBackoff hfound hphase]
    exact .inr ⟨k, hland.sense hr.sized (h.waiting (.inl hphase))⟩
  | retryBackoff =>
    rw [macAlarm_of_retryBackoff hfound hphase]
    exact .inr ⟨k, hland.beginAttempt hr.sized (h.waiting (.inr hphase))⟩
  | awaitAck =>
    rw [macAlarm_of_awaitAck hfound hphase, ackTimedOut]
    split
    next ha =>
      exact .inr ⟨k, hland.armed hr.sized.engineAlarm_lt _ (by decide) (by decide) (fun _ => ha) (by simp)⟩
    · exact hland.complete _ hr

/-- The end of a transmission for the packet in flight: the radio is free and nothing armed yet (R193). -/
theorem Flying.radioFree {s : State} {k : Nat} (h : Flying s k) (hp : (s.slot k).phase = .transmitting) :
    Landing (radioFree s) k where
  alone := h.alone.of_eq (fun _ => rfl) rfl
  busy_iff := ⟨fun _ => rfl, fun _ => rfl⟩
  owner := by simp
  alarm := alarmState_idle_of fun hs => h.alarm_iff.1 hs hp
  attempts := (h.sent (.inl hp)).2

/-- The end of any other transmission (R193). -/
theorem EngineSound.radioFree {s : State} (h : EngineSound s) (ho : s.txOwner ≠ .slot) : EngineSound (radioFree s) := by
  rcases h with h | ⟨k, h⟩
  · exact .inl ⟨h.grounded, ⟨fun _ => rfl, fun _ => rfl⟩, by simp, h.alarm⟩
  · have hp : (s.slot k).phase ≠ .transmitting := fun hp => ho (h.owner_iff.2 hp)
    exact .inr ⟨k, h.alone.of_eq (fun _ => rfl) rfl, ⟨fun _ => rfl, fun _ => rfl⟩, h.phase,
      ⟨nofun, fun hs => absurd hs hp⟩, fun hs => absurd hs hp, h.alarm_iff, h.waiting, h.sent⟩

/-- A state whose engine is sound, with what the engine needs. -/
structure EngineInv (s : State) : Prop extends EngineBasis s where
  engine : EngineSound s

theorem EngineInv.arbitrate {s : State} (h : EngineInv s) : EngineInv (arbitrate s) where
  __ := h.toEngineBasis.moves (arbitrate_moves s)
  engine := h.engine.arbitrate h.toEngineBasis

/-- RADIO_TXDONE (R193). -/
theorem EngineInv.onTxDone {s : State} (h : EngineInv s) (st : Byte) : EngineInv (onTxDone st s) := by
  have hr := h.toEngineBasis
  have free : EngineBasis (radioFree s) := hr.moves (.single (.radio false .none))
  cases hb : s.radioBusy
  · rw [onTxDone_of_idle st s hb]
    exact ⟨hr.moves (.single (.emit _ (by simp))), h.engine.congr rfl rfl rfl rfl rfl rfl rfl⟩
  by_cases ho : s.txOwner = .slot
  · rw [onTxDone_of_slot st s hb ho]
    obtain ⟨k, hf⟩ : ∃ k, Flying s k := h.engine.resolve_left fun hrest => hrest.owner ho
    have hp := hf.owner_iff.1 ho
    have hland := hf.radioFree hp
    rw [hf.txSlot hp]
    refine EngineInv.arbitrate ⟨free.moves (slotSent_moves k st _ fun _ => hland.alone.state), ?_⟩
    unfold slotSent
    split
    · exact .inr ⟨k, hland.armed free.sized.engineAlarm_lt _ (by decide) (by decide) (by simp)
        fun _ => (hf.sent (.inl hp)).1⟩
    · exact hland.complete _ free
  · rw [onTxDone_of_other st s hb ho]
    exact EngineInv.arbitrate ⟨free, h.engine.radioFree ho⟩

/-- An acknowledgement is sent only while the radio is free (R227). -/
theorem EngineSound.transmitAck {s : State} (h : EngineSound s) (hb : s.radioBusy = false) (hdr : List Byte) :
    EngineSound (transmitAck hdr s) := by
  rcases h with h | ⟨k, h⟩
  · exact .inl ⟨h.grounded, by simp, by simp, h.alarm⟩
  · have hp : (s.slot k).phase ≠ .transmitting := fun hp => by
      cases (h.busy_iff.1 hb).symm.trans (h.owner_iff.2 hp)
    exact .inr ⟨k, h.alone.of_eq (fun _ => rfl) rfl, by simp, h.phase, ⟨nofun, fun hs => absurd hs hp⟩,
      fun hs => absurd hs hp, h.alarm_iff, h.waiting, h.sent⟩

theorem EngineSound.emit {s : State} (h : EngineSound s) (e : Output) : EngineSound (s.emit e) :=
  h.congr rfl rfl rfl rfl rfl rfl rfl

theorem EngineSound.autoAck {s : State} (h : EngineSound s) (x : Descriptor) : EngineSound (autoAck x s) := by
  unfold Machine.autoAck
  split
  · exact h.emit _
  split
  · exact h.emit _
  split
  · exact h.emit _
  next hb => exact h.transmitAck (by simpa using hb) _

/-- A matching acknowledgement ends the wait and the send (R225). -/
theorem EngineInv.matchAck {s : State} (h : EngineInv s) (x : Descriptor) : EngineSound (matchAck x s) := by
  unfold Machine.matchAck
  split
  · exact h.engine.emit _
  next k hfound =>
    split
    next hmatch =>
      have hfly := inFlight_of_found hfound
      obtain ⟨j, hf⟩ : ∃ k, Flying s k := h.engine.resolve_left fun hrest => hrest.grounded k hfly
      obtain rfl : j = k := Option.some.inj (hf.alone.found.symm.trans hfound)
      have hack : (s.slot j).phase = .awaitAck := by
        simp only [ackMatches, Bool.and_eq_true, beq_iff_eq] at hmatch
        exact hmatch.1.1
      exact (hf.unlinked (by rw [hack]; decide)).complete _ (h.toEngineBasis.moves (.single .disarm))
    · exact h.engine.emit _

/-- RADIO_RX (R220 to R231). -/
theorem EngineInv.onRadioRx {s : State} (h : EngineInv s) (f : List Byte) : EngineInv (onRadioRx f s) where
  __ := h.toEngineBasis.moves (onRadioRx_moves f s)
  engine := by
    unfold Machine.onRadioRx
    split
    · exact h.engine.emit _
    split
    · exact h.engine.emit _
    split
    · exact h.engine.emit _
    · unfold receiveParsed
      split
      · exact h.engine.emit _
      split
      · exact h.matchAck _
      · unfold deliver
        split
        · exact (h.engine.autoAck _).emit _
        · exact h.engine.emit _

/-- What MAC_CANCEL does first to the packet in flight (R204). -/
theorem Flying.abandon {s : State} {k : Nat} (h : Flying s k) : Landing (abandon k s) k := by
  by_cases hp : (s.slot k).phase = .transmitting
  · rw [abandon_of_transmitting k s h.alone.state hp]
    have hbusy : s.radioBusy ≠ false := fun hb => by
      have := (h.owner_iff.2 hp).symm.trans (h.busy_iff.1 hb)
      cases this
    exact ⟨h.alone.of_eq (fun _ => rfl) rfl, ⟨fun hb => absurd hb hbusy, fun ho => by cases ho⟩, by simp,
      alarmState_idle_of fun hs => h.alarm_iff.1 hs hp, (h.sent (.inl hp)).2⟩
  · rw [abandon_of_waiting k s h.alone.state hp]
    exact h.unlinked hp

/-- MAC_CANCEL of an occupied slot (R204). -/
theorem EngineInv.cancel {s : State} (h : EngineInv s) (k : Nat) (hk : (s.slot k).state ≠ .idle) :
    EngineInv (complete k .cancelled (abandon k s)) where
  __ := h.toEngineBasis.moves (cancel_moves k s fun _ => hk)
  engine := by
    have released {t : State} (ht : EngineBasis t) (hkt : (t.slot k).state ≠ .idle) :
        EngineBasis (release k .cancelled t) := ht.moves (.single (.release k _ fun _ => hkt))
    by_cases hfly : (s.slot k).state = .inFlight
    · obtain ⟨j, hf⟩ : ∃ k, Flying s k := h.engine.resolve_left fun hrest => hrest.grounded k hfly
      obtain rfl : j = k := by
        by_contra hne
        exact hf.alone.others k (Ne.symm hne) hfly
      exact hf.abandon.complete _ (h.toEngineBasis.moves (abandon_moves j s))
    · rw [abandon_of_not_inFlight k s hfly]
      refine EngineSound.arbitrate ?_ (released h.toEngineBasis hk)
      rcases h.engine with hrest | ⟨j, hf⟩
      · exact .inl (hrest.release k _)
      · have hne : j ≠ k := by
          rintro rfl
          exact hfly hf.alone.state
        exact .inr ⟨j, hf.release hne _⟩

/-- An accepted packet joins the queue behind the others (R183). -/
theorem EngineInv.withPacket {s : State} (h : EngineInv s) {k : Nat} {x : Descriptor} {hdr : List Byte} {n : Nat}
    (hinit : s.macInited = true) (hbuild : buildHeader x = some hdr) (hfits : hdr.length + n ≤ s.cfg.bufSize.toNat)
    (hfree : s.freeSlot? = some k) : EngineInv (withPacket k x hdr n s) := by
  obtain ⟨hlt, hidle, -⟩ := (freeSlot?_eq_some_iff s k).1 hfree
  have hself : (Machine.withPacket k x hdr n s).slot k = queuedSlot x hdr (readTxdata s n) :=
    setSlot_slot_self s k _ hlt
  have hne (j : Nat) (hj : j ≠ k) : (Machine.withPacket k x hdr n s).slot j = s.slot j := setSlot_slot_ne s k j _ hj
  have hground (j : Nat) (hj : (s.slot j).state ≠ .inFlight) :
      ((Machine.withPacket k x hdr n s).slot j).state ≠ .inFlight := by
    by_cases hjk : j = k
    · subst hjk; rw [hself]; simp [queuedSlot]
    · rwa [hne j hjk]
  refine ⟨⟨h.attempts, (withPacket_frame k x hdr n s).tablesSized h.sized,
    withPacket_packetsSound h.packets hinit hbuild hfits hfree⟩, ?_⟩
  rcases h.engine with hrest | ⟨j, hf⟩
  · exact .inl ⟨fun j => hground j (hrest.grounded j), hrest.busy_iff, hrest.owner, hrest.alarm⟩
  · have hjk : j ≠ k := by
      rintro rfl
      exact absurd (hidle.symm.trans hf.alone.state) (by decide)
    have hslot := hne j hjk
    refine .inr ⟨j, ⟨?_, hf.busy_iff, by rw [hslot]; exact hf.phase, by rw [hslot]; exact hf.owner_iff,
      by rw [hslot]; exact hf.txSlot, by rw [hslot]; exact hf.alarm_iff, by rw [hslot]; exact hf.waiting,
      by rw [hslot]; exact hf.sent⟩⟩
    refine ⟨by rw [hslot]; exact hf.alone.state, fun i hi => hground i (hf.alone.others i hi), ?_⟩
    obtain ⟨l, hl⟩ := List.head?_eq_some_iff.1 hf.alone.head
    show (s.order ++ [k]).head? = some j
    rw [hl]
    rfl

end Sys2Proof.Machine

/-! SUPPORT. Every step keeps the whole invariant: the engine's part in the shapes of the section before, the alarm
table, the bindings and the callback window (spec/10_state.md sections 2 and 5, spec/60_exceptions.md section 1). -/

namespace Sys2Proof.Machine

/-! ### The invariant and the engine's shapes -/

/-- In a sound state the engine is at rest or has one packet in flight. -/
theorem Inv.engineSound {s : State} (h : Inv s) : EngineSound s := by
  obtain ⟨hq, hr, hb⟩ := (⟨h.queue, h.radio, h.slots⟩ : QueueSound s ∧ RadioSound s ∧ SlotsBounded s)
  have flies {k : Nat} (hp : (s.slot k).phase ≠ .none) : (s.slot k).state = .inFlight := by
    by_contra hne
    exact hp ((hq.phase k).2 hne)
  cases hf : s.inFlight? with
  | none =>
    have hground := (inFlight?_eq_none_iff s).1 hf
    refine .inl ⟨hground, hr.busy_iff, fun ho => ?_, alarmState_idle_of fun ha => ?_⟩
    · obtain ⟨k, hk⟩ := hr.owner_iff.1 ho
      exact hground k (flies (by rw [hk]; decide))
    · obtain ⟨k, hk, -⟩ := hr.alarm_iff.1 ha
      exact hground k hk
  | some k =>
    have hk := inFlight_of_found hf
    have unique {j : Nat} (hj : (s.slot j).state = .inFlight) : j = k :=
      Option.some.inj ((hq.head j hj).symm.trans (hq.head k hk))
    refine .inr ⟨k, ⟨hk, fun j hj hst => hj (unique hst), hq.head k hk⟩, hr.busy_iff, fun hp => (hq.phase k).1 hp hk,
      ?_, hr.txSlot k, ?_, hb.waiting k, hb.sent k⟩
    · refine hr.owner_iff.trans ⟨fun ⟨j, hj⟩ => ?_, fun hp => ⟨k, hp⟩⟩
      exact unique (flies (k := j) (by rw [hj]; decide)) ▸ hj
    · refine hr.alarm_iff.trans ⟨fun ⟨j, hj, hp⟩ => unique hj ▸ hp, fun hp => ⟨k, hk, hp⟩⟩

/-- The slot in flight is the flying one. -/
theorem EngineSound.flying {s : State} (h : EngineSound s) {k : Nat} (hk : (s.slot k).state = .inFlight) :
    Flying s k := by
  obtain ⟨j, hf⟩ := h.resolve_left fun hrest => hrest.grounded k hk
  obtain rfl : j = k := by
    by_contra hne
    exact hf.alone.others k (Ne.symm hne) hk
  exact hf

/-- A slot that is not in flight has no phase. -/
theorem PacketsSound.phase_none {s : State} (h : PacketsSound s) {k : Nat} (hk : (s.slot k).state ≠ .inFlight) :
    (s.slot k).phase = .none := by
  cases hst : (s.slot k).state with
  | idle => rw [h.idle k hst]; rfl
  | queued => exact (h.queued k hst).1
  | inFlight => exact absurd hst hk

/-- A slot with a phase is in flight. -/
theorem PacketsSound.inFlight_of_phase {s : State} (h : PacketsSound s) {k : Nat} (hk : (s.slot k).phase ≠ .none) :
    (s.slot k).state = .inFlight := by
  by_contra hne
  exact hk (h.phase_none hne)

theorem PacketsSound.queueSound {s : State} (h : PacketsSound s) (he : EngineSound s) : QueueSound s where
  nodup := h.nodup
  mem_iff := h.mem_iff
  head _ hk := (he.flying hk).alone.head
  phase _ := ⟨fun hp hk => (he.flying hk).phase hp, h.phase_none⟩
  idle := h.idle
  uninit := h.uninit

theorem PacketsSound.radioSound {s : State} (h : PacketsSound s) (he : EngineSound s) : RadioSound s where
  busy_iff := he.elim Resting.busy_iff fun ⟨_, hf⟩ => hf.busy_iff
  owner_iff := by
    constructor
    · intro ho
      obtain ⟨k, hf⟩ := he.resolve_left fun hr => hr.owner ho
      exact ⟨k, hf.owner_iff.1 ho⟩
    · rintro ⟨k, hp⟩
      exact (he.flying (h.inFlight_of_phase (by rw [hp]; decide))).owner_iff.2 hp
  txSlot k hp := (he.flying (h.inFlight_of_phase (by rw [hp]; decide))).txSlot hp
  alarm_iff := by
    constructor
    · intro ha
      obtain ⟨k, hf⟩ := he.resolve_left fun hr => by rw [hr.alarm] at ha; cases ha
      exact ⟨k, hf.alone.state, hf.alarm_iff.1 ha⟩
    · rintro ⟨k, hk, hp⟩
      exact (he.flying hk).alarm_iff.2 hp

theorem PacketsSound.slotsBounded {s : State} (h : PacketsSound s) (he : EngineSound s) : SlotsBounded s where
  frame := h.frame
  queued k hk := (h.queued k hk).2
  waiting k hp := (he.flying (h.inFlight_of_phase (by rcases hp with hp | hp <;> rw [hp] <;> decide))).waiting hp
  sent k hp := (he.flying (h.inFlight_of_phase (by rcases hp with hp | hp <;> rw [hp] <;> decide))).sent hp

/-- What stands outside the block has no part in the invariant. -/
theorem Inv.external {s : State} (h : Inv s) (is : List Input) (answers : List Bool) (draws : List Word) (q r : Nat)
    (rs : List DWord) (os : List Output) :
    Inv { s with inputs := is, channelAnswers := answers, draws := draws, queries := q, resets := r, responses := rs,
                 outputs := os } where
  tables := h.tables
  buffers := h.buffers
  alist := ⟨h.alist.nodup, h.alist.mem_iff⟩
  binding := ⟨h.binding.host, h.binding.engine⟩
  window := ⟨h.window.idle, h.window.host, h.window.still, h.window.pending⟩
  queue := ⟨h.queue.nodup, h.queue.mem_iff, h.queue.head, h.queue.phase, h.queue.idle, h.queue.uninit⟩
  radio := ⟨h.radio.busy_iff, h.radio.owner_iff, h.radio.txSlot, h.radio.alarm_iff⟩
  slots := ⟨h.slots.frame, h.slots.queued, h.slots.waiting, h.slots.sent⟩
  longLocal := h.longLocal

/-! ### Bindings, the window and the long address -/

/-- The engine as it was: its own fields, its alarm's state and the sizes of the tables. -/
theorem EngineInv.congr {s t : State} (h : EngineInv s) (hc : t.cfg = s.cfg) (hk : t.slots = s.slots)
    (hq : t.order = s.order) (hb : t.radioBusy = s.radioBusy) (ho : t.txOwner = s.txOwner) (ht : t.txSlot = s.txSlot)
    (hm : t.macInited = s.macInited) (hl : t.alarms.length = s.alarms.length)
    (ha : (t.alarm s.engineAlarm).state = (s.alarm s.engineAlarm).state) : EngineInv t where
  attempts := by rw [hc]; exact h.attempts
  sized := ⟨by rw [hl, hc]; exact h.sized.1, by rw [hk, hc]; exact h.sized.2⟩
  packets := packetsSound_congr hc hk hq hm h.packets
  engine := h.engine.congr hc hk hq hb ho ht ha

theorem PassFrame.bindingSound {s t : State} (f : PassFrame s t) (h : BindingSound s) : BindingSound t where
  host i hi := by rw [(f.binding i).1]; exact h.host i (by rwa [f.cfg] at hi)
  engine hm := by
    have hma : t.engineAlarm = s.engineAlarm := by rw [State.engineAlarm, f.cfg]; rfl
    rw [hma, (f.binding _).1, (f.binding _).2.2]
    exact h.engine (by rwa [f.macInited] at hm)

theorem PassFrame.longLocalSound {s t : State} (f : PassFrame s t) (h : LongLocalSound s) : LongLocalSound t := by
  rwa [LongLocalSound, f.cfg, f.localLong]

theorem EngineFrame.windowSound {s t : State} (f : EngineFrame s t) (h : WindowSound s) : WindowSound t where
  idle := by rw [f.procState, f.fireId, f.fireCb, f.fireArg]; exact h.idle
  host := by rw [f.procState, f.fireId, f.cfg]; exact h.host
  still := by rw [f.procState, f.procNow, f.jiffies, f.cfg]; exact h.still
  pending := by rw [f.pendingWork, f.cfg]; exact h.pending

/-- A listed alarm with the engine's callback is the engine alarm (R23). -/
theorem engineAlarm_of_cbMac {s : State} (hsized : TablesSized s) (hlist : AlarmListSound s) (hbind : BindingSound s)
    {a : Nat} (ha : a ∈ s.alist) (hcb : (s.alarm a).cb = cbMac) : a = s.engineAlarm := by
  have hlt := lt_of_scheduled s a ((hlist.mem_iff a).1 ha)
  have hhost : ¬ a < s.cfg.nAlarms.toNat := fun hlt => hbind.host a hlt hcb
  rw [hsized.1] at hlt
  show a = s.cfg.nAlarms.toNat
  omega

/-- What R121's loop needs and keeps. -/
structure LoopInv (s : State) : Prop extends EngineInv s where
  alist : AlarmListSound s
  binding : BindingSound s

/-- While the engine alarm is listed a packet is in flight that waits for it (R200). -/
theorem LoopInv.waits {s : State} (h : LoopInv s) (ha : s.engineAlarm ∈ s.alist) :
    ∃ k, Flying s k ∧ (s.slot k).phase ≠ .transmitting := by
  have hsched := (h.alist.mem_iff _).1 ha
  obtain ⟨k, hf⟩ := h.engine.resolve_left fun hr => by rw [hr.alarm] at hsched; cases hsched
  exact ⟨k, hf, hf.alarm_iff.1 hsched⟩

/-- A listed alarm with another callback is a host alarm (R23). -/
theorem LoopInv.host_lt {s : State} (h : LoopInv s) {a : Nat} (ha : a ∈ s.alist) (hcb : (s.alarm a).cb ≠ cbMac) :
    a < s.cfg.nAlarms.toNat := by
  have hlt := lt_of_scheduled s a ((h.alist.mem_iff a).1 ha)
  rw [h.sized.1] at hlt
  have hne : a ≠ s.engineAlarm := by
    rintro rfl
    obtain ⟨k, hf, -⟩ := h.waits ha
    have hmem : k ∈ s.order := List.mem_of_mem_head? hf.alone.head
    cases hm : s.macInited with
    | false => rw [h.packets.uninit hm] at hmem; cases hmem
    | true => exact hcb (h.binding.engine hm).1
  have : a ≠ s.cfg.nAlarms.toNat := hne
  omega

/-- One round with the engine alarm is the engine's own work (R121, R196). -/
theorem LoopInv.round_frame {s : State} (h : LoopInv s) {a : Nat} (ha : a ∈ s.alist) (hcb : (s.alarm a).cb = cbMac) :
    EngineFrame s (macAlarm (removeAlarm a s)) := by
  obtain rfl := engineAlarm_of_cbMac h.sized h.alist h.binding ha hcb
  exact (cancelMA_frame s).trans (macAlarm_frame _)

/-- One round with the engine alarm keeps what the loop needs (R121, R196). -/
theorem LoopInv.round {s : State} (h : LoopInv s) {a : Nat} (ha : a ∈ s.alist) (hcb : (s.alarm a).cb = cbMac) :
    LoopInv (macAlarm (removeAlarm a s)) := by
  have frame := h.round_frame ha hcb
  obtain rfl := engineAlarm_of_cbMac h.sized h.alist h.binding ha hcb
  obtain ⟨k, hf, hp⟩ := h.waits ha
  have hbasis : EngineBasis (removeAlarm s.engineAlarm s) := h.toEngineBasis.moves (.single .disarm)
  constructor
  case toEngineInv => exact ⟨hbasis.moves (macAlarm_moves _), hf.macAlarm hp hbasis⟩
  case alist =>
    exact ((macAlarm_moves (strict := False) _).keeps EngineMove.alarmsSound
      ⟨hbasis.sized, removeAlarm_sound _ _ h.alist⟩).2
  case binding => exact frame.pass.bindingSound h.binding

/-- What holds in every round of a pass. -/
structure PassInv (s : State) : Prop extends LoopInv s where
  latches : s.fireId = 0 ∧ s.fireCb = 0 ∧ s.fireArg = 0
  still : s.cfg.threaded = false → s.procNow = s.jiffies
  pending : s.cfg.threaded = false → s.pendingWork = false

theorem PassInv.round {s : State} (h : PassInv s) {a : Nat} (ha : a ∈ s.alist) (hcb : (s.alarm a).cb = cbMac) :
    PassInv (macAlarm (removeAlarm a s)) := by
  have frame := h.round_frame ha hcb
  constructor
  case toLoopInv => exact h.toLoopInv.round ha hcb
  case latches => rw [frame.fireId, frame.fireCb, frame.fireArg]; exact h.latches
  case still => rw [frame.cfg, frame.procNow, frame.jiffies]; exact h.still
  case pending => rw [frame.cfg, frame.pendingWork]; exact h.pending

/-- The engine, the alarm list, the bindings and the window are sound. -/
structure CoreInv (s : State) : Prop extends EngineInv s where
  alist : AlarmListSound s
  binding : BindingSound s
  window : WindowSound s

theorem Inv.core {s : State} (h : Inv s) (ha : 1 ≤ s.cfg.maxAttempts.toNat) : CoreInv s where
  attempts := ha
  sized := h.tables
  packets := h.packetsSound
  engine := h.engineSound
  alist := h.alist
  binding := h.binding
  window := h.window

theorem CoreInv.inv {s : State} (h : CoreInv s) (hb : BuffersCanonical s) (hl : LongLocalSound s) : Inv s where
  tables := h.sized
  buffers := hb
  alist := h.alist
  binding := h.binding
  window := h.window
  queue := h.packets.queueSound h.engine
  radio := h.packets.radioSound h.engine
  slots := h.packets.slotsBounded h.engine
  longLocal := hl

/-- The end of a pass leaves no window open (R121). -/
theorem PassInv.endPass {s : State} (h : PassInv s) : CoreInv (endPass s) where
  toEngineInv := h.toEngineInv.congr rfl rfl rfl rfl rfl rfl rfl rfl rfl
  alist := ⟨h.alist.nodup, h.alist.mem_iff⟩
  binding := ⟨h.binding.host, h.binding.engine⟩
  window := ⟨fun _ => h.latches, nofun, nofun, h.pending⟩

/-- A pass pauses in the window of a host alarm (R121, R273). -/
theorem PassInv.openWindow {s : State} (h : PassInv s) {a : Nat} (ha : a ∈ s.alist) (hcb : (s.alarm a).cb ≠ cbMac) :
    CoreInv (openWindow a (removeAlarm a s)) := by
  have hlt := h.host_lt ha hcb
  have hbind := (removeAlarm_pass a s).bindingSound h.binding
  constructor
  case toEngineInv =>
    refine h.toEngineInv.congr rfl rfl rfl rfl rfl rfl rfl List.length_set ?_
    exact congrArg Alarm.state (removeAlarm_alarm_ne a s s.engineAlarm (engineAlarm_ne_of_lt hlt))
  case alist => exact ⟨(removeAlarm_sound a s h.alist).nodup, (removeAlarm_sound a s h.alist).mem_iff⟩
  case binding => exact ⟨hbind.host, hbind.engine⟩
  case window =>
    refine ⟨nofun, fun _ => ?_, fun ht _ => h.still ht, h.pending⟩
    show (BitVec.ofNat 8 a).toNat < s.cfg.nAlarms.toNat
    rw [BitVec.toNat_ofNat]
    exact Nat.lt_of_le_of_lt (Nat.mod_le _ _) hlt

theorem PassInv.runPass {s : State} (h : PassInv s) (rounds : Nat) : CoreInv (runPass rounds s) := by
  refine runPass_leads (P := PassInv) (fun s answers draws n h => ?_)
    (fun s a l h hl _ hcb => h.round (by simp [hl]) hcb) (fun s h => h.endPass)
    (fun s a l h hl _ hcb => h.openWindow (by simp [hl]) hcb) rounds s h
  exact ⟨⟨h.toEngineInv.congr rfl rfl rfl rfl rfl rfl rfl rfl rfl, ⟨h.alist.nodup, h.alist.mem_iff⟩,
    ⟨h.binding.host, h.binding.engine⟩⟩, h.latches, h.still, h.pending⟩

/-- A new pass outside a window (R119). -/
theorem CoreInv.startPass {s : State} (h : CoreInv s) (hidle : s.procState = .idle) : CoreInv (startPass s) := by
  refine PassInv.runPass ?_ _
  exact ⟨⟨h.toEngineInv.congr rfl rfl rfl rfl rfl rfl rfl rfl rfl, ⟨h.alist.nodup, h.alist.mem_iff⟩,
    ⟨h.binding.host, h.binding.engine⟩⟩, h.window.idle hidle, fun _ => rfl, h.window.pending⟩

/-- A pass resumed from a window (R122). -/
theorem CoreInv.resumePass {s : State} (h : CoreInv s) (hopen : s.procState = .inCallback) :
    CoreInv (resumePass s) := by
  refine PassInv.runPass ?_ _
  exact ⟨⟨h.toEngineInv.congr rfl rfl rfl rfl rfl rfl rfl rfl rfl, ⟨h.alist.nodup, h.alist.mem_iff⟩,
    ⟨h.binding.host, h.binding.engine⟩⟩, ⟨rfl, rfl, rfl⟩, fun ht => h.window.still ht hopen, h.window.pending⟩

/-- The engine's moves, once the engine is known to stay sound. -/
theorem CoreInv.of_frame {s t : State} (h : CoreInv s) (f : EngineFrame s t) (hl : AlarmsSound t) (he : EngineInv t) :
    CoreInv t where
  toEngineInv := he
  alist := hl.2
  binding := f.pass.bindingSound h.binding
  window := f.windowSound h.window

theorem CoreInv.alarmsSound {s : State} (h : CoreInv s) : AlarmsSound s := ⟨h.sized, h.alist⟩

/-! ### Commands and events -/

/-- A command keeps the engine, the alarm list, the bindings and the window sound. -/
theorem Effect.coreInv {s u : State} {i : Instr} {st : Status} {v : Word} (h : Effect s i st v u) (hs : CoreInv s) :
    CoreInv u := by
  have hlist := (h.alarmsSound hs.alarmsSound).2
  cases h with
  | none => exact hs
  | stage _ _ _ _ hst =>
    rw [hst.eq]
    exact ⟨hs.toEngineInv.congr rfl rfl rfl rfl rfl rfl rfl rfl rfl, ⟨hs.alist.nodup, hs.alist.mem_iff⟩,
      ⟨hs.binding.host, hs.binding.engine⟩,
      ⟨hs.window.idle, hs.window.host, hs.window.still, hs.window.pending⟩⟩
  | bind a cb arg ha hcb =>
    have hother (j : Nat) (hj : j ≠ a.toNat) := bindAlarm_alarm_ne a.toNat cb arg s j hj
    have hengine := hother _ (engineAlarm_ne_of_lt ha)
    have hself : (bindAlarm a.toNat cb arg s).alarm a.toNat
        = { (removeAlarm a.toNat s).alarm a.toNat with cb := cb, arg := arg, bound := true } := by
      refine setAlarm_alarm_self _ _ _ ?_
      show a.toNat < (s.alarms.set _ _).length
      rw [List.length_set, hs.sized.1]
      omega
    refine ⟨hs.toEngineInv.congr rfl rfl rfl rfl rfl rfl rfl ?_ (congrArg Alarm.state hengine), hlist, ⟨?_, ?_⟩,
      ⟨hs.window.idle, hs.window.host, hs.window.still, hs.window.pending⟩⟩
    · exact List.length_set.trans List.length_set
    · intro j hj
      by_cases hja : j = a.toNat
      · subst hja; rw [hself]; exact hcb
      · rw [hother j hja]; exact hs.binding.host j hj
    · intro hm
      have := hs.binding.engine hm
      rwa [← hengine] at this
  | arm a d v ha =>
    have hengine := armAlarm_alarm_ne a.toNat d s _ (engineAlarm_ne_of_lt ha)
    have hlt : a.toNat < s.alarms.length := by rw [hs.sized.1]; omega
    refine ⟨hs.toEngineInv.congr rfl rfl rfl rfl rfl rfl rfl (armAlarm_length _ _ _) (congrArg Alarm.state hengine),
      hlist, ⟨?_, ?_⟩, ⟨hs.window.idle, hs.window.host, hs.window.still, hs.window.pending⟩⟩
    · intro j hj
      by_cases hja : j = a.toNat
      · subst hja; rw [armAlarm_alarm_self _ _ _ hlt]; exact hs.binding.host _ hj
      · rw [armAlarm_alarm_ne _ _ _ _ hja]; exact hs.binding.host j hj
    · intro hm
      have := hs.binding.engine hm
      rwa [← hengine] at this
  | unlink a v ha =>
    have hbind := (removeAlarm_pass a.toNat s).bindingSound hs.binding
    refine ⟨hs.toEngineInv.congr rfl rfl rfl rfl rfl rfl rfl List.length_set ?_, hlist, hbind,
      ⟨hs.window.idle, hs.window.host, hs.window.still, hs.window.pending⟩⟩
    exact congrArg Alarm.state (removeAlarm_alarm_ne a.toNat s _ (engineAlarm_ne_of_lt ha))
  | start v hidle =>
    refine CoreInv.startPass ?_ hidle
    exact ⟨hs.toEngineInv.congr rfl rfl rfl rfl rfl rfl rfl rfl rfl, ⟨hs.alist.nodup, hs.alist.mem_iff⟩,
      ⟨hs.binding.host, hs.binding.engine⟩, ⟨hs.window.idle, hs.window.host, hs.window.still, fun _ => rfl⟩⟩
  | resume v hopen => exact hs.resumePass hopen
  | init hinit =>
    have hself : (initEngine s).alarm s.engineAlarm
        = { s.alarm s.engineAlarm with cb := cbMac, arg := 0, bound := true } :=
      setAlarm_alarm_self s _ _ hs.sized.engineAlarm_lt
    have hother (j : Nat) (hj : j ≠ s.engineAlarm) : (initEngine s).alarm j = s.alarm j := setAlarm_alarm_ne s _ _ _ hj
    refine ⟨⟨⟨hs.attempts, ⟨List.length_set.trans hs.sized.1, hs.sized.2⟩, ?_⟩, ?_⟩, hlist, ⟨?_, ?_⟩,
      ⟨hs.window.idle, hs.window.host, hs.window.still, hs.window.pending⟩⟩
    · exact ⟨hs.packets.nodup, hs.packets.mem_iff, hs.packets.idle, hs.packets.queued, hs.packets.frame, nofun⟩
    · exact hs.engine.congr rfl rfl rfl rfl rfl rfl (congrArg Alarm.state hself :)
    · intro j hj
      rw [hother j (engineAlarm_ne_of_lt hj).symm]
      exact hs.binding.host j hj
    · intro _
      show ((initEngine s).alarm s.engineAlarm).cb = cbMac ∧ ((initEngine s).alarm s.engineAlarm).bound = true
      rw [hself]
      exact ⟨rfl, rfl⟩
  | send i x hdr n k seq hi hinit hbuild hfits hfree =>
    have hserved := (hs.toEngineInv.withPacket hinit hbuild hfits hfree).arbitrate
    have hframe := (withPacket_frame k x hdr n s).trans (arbitrate_frame _)
    have hcore := hs.of_frame hframe ⟨hserved.sized, ⟨hlist.nodup, hlist.mem_iff⟩⟩ hserved
    exact ⟨hserved.congr rfl rfl rfl rfl rfl rfl rfl rfl rfl, hlist, ⟨hcore.binding.host, hcore.binding.engine⟩,
      ⟨hcore.window.idle, hcore.window.host, hcore.window.still, hcore.window.pending⟩⟩
  | cancel k _ _ hk =>
    have hdone := hs.toEngineInv.cancel k.toNat hk
    exact hs.of_frame ((abandon_frame k.toNat s).trans (complete_frame k.toNat .cancelled _)) ⟨hdone.sized, hlist⟩ hdone

/-- TICK, when it is not held (R124, R286). -/
theorem onTick_coreInv {s : State} (hs : CoreInv s) (hheld : s.holdsEvents = false) : CoreInv (onTick s) := by
  have hthread : s.cfg.threaded = false → s.procState = .idle := by
    intro ht
    cases hp : s.procState with
    | idle => rfl
    | inCallback => simp [State.holdsEvents, State.inCallback, ht, hp] at hheld
  have ticked (w : Bool) (hw : s.cfg.threaded = false → w = false) :
      CoreInv { s with jiffies := s.jiffies + 1, pendingWork := w } :=
    ⟨hs.toEngineInv.congr rfl rfl rfl rfl rfl rfl rfl rfl rfl, ⟨hs.alist.nodup, hs.alist.mem_iff⟩,
      ⟨hs.binding.host, hs.binding.engine⟩,
      ⟨hs.window.idle, hs.window.host, fun ht hopen => absurd ((hthread ht).symm.trans hopen) nofun, hw⟩⟩
  have hplain : CoreInv { s with jiffies := s.jiffies + 1 } := ticked s.pendingWork hs.window.pending
  rcases onTick_cases s with e | ⟨ht, e⟩ | ⟨-, hidle, e⟩ <;> rw [e]
  · exact hplain
  · exact ticked true fun ht' => by cases ht.symm.trans ht'
  · exact hplain.startPass hidle

/-- The long address is written only where it exists (R27). -/
theorem Effect.longLocalSound {s u : State} {i : Instr} {st : Status} {v : Word} (h : Effect s i st v u)
    (hs : LongLocalSound s) : LongLocalSound u := by
  cases h with
  | stage _ _ _ _ hst => exact hst.long hs
  | start => exact (startPass_frame { s with pendingWork := false }).longLocalSound hs
  | resume => exact (resumePass_frame s).longLocalSound hs
  | send i x hdr n k seq =>
    exact ((withPacket_frame k x hdr n s).trans (arbitrate_frame _)).pass.longLocalSound hs
  | cancel k =>
    exact ((abandon_frame k.toNat s).trans (complete_frame k.toNat .cancelled _)).pass.longLocalSound hs
  | _ => exact hs

/-- Whatever input is taken, a sound state leads to a sound state. -/
theorem runInput_inv {x : Input} {s t : State} (hl : s.cfg.legal = true) (htake : takeable s.holdsEvents x = true)
    (h : runInput x s = .next t) (hs : Inv s) : Inv t := by
  have hattempts : 1 ≤ s.cfg.maxAttempts.toNat := by
    obtain ⟨-, -, -, hattempts, -⟩ := (legal_iff s.cfg).1 hl
    exact hattempts
  have hcore := hs.core hattempts
  have hbuffers := runInput_buffersCanonical h hs.buffers
  have event (hx : IsEvent x) (ht : CoreInv t) : Inv t := by
    obtain ⟨j, p, w, f⟩ := event_frame hx h
    exact ht.inv hbuffers (f.longLocalSound hs.longLocal)
  cases x with
  | tick =>
    refine event (.inl rfl) (Host.Outcome.next.inj h ▸ onTick_coreInv hcore ?_)
    simpa [takeable] using htake
  | radioRx f =>
    refine event (.inr (.inl ⟨f, rfl⟩)) ?_
    have hdone := hcore.toEngineInv.onRadioRx f
    exact Host.Outcome.next.inj h ▸ hcore.of_frame (onRadioRx_frame f s)
      ((onRadioRx_moves (strict := False) f s).keeps EngineMove.alarmsSound hcore.alarmsSound) hdone
  | radioTxDone st =>
    refine event (.inr (.inr ⟨st, rfl⟩)) ?_
    have hdone := hcore.toEngineInv.onTxDone st
    exact Host.Outcome.next.inj h ▸ hcore.of_frame (onTxDone_frame st s)
      ((onTxDone_moves (strict := False) st s nofun).keeps EngineMove.alarmsSound hcore.alarmsSound) hdone
  | reset =>
    exact Host.Outcome.next.inj h ▸ (theResetStateIsSound s.cfg).external s.inputs s.channelAnswers s.draws s.queries
      (s.resets + 1) s.responses s.outputs
  | command c =>
    rcases runWord_effect h with ⟨i, st, v, u, he, rfl⟩ | ⟨op, st, -, rfl⟩
    · have hu : Inv u := (he.coreInv hcore).inv (he.buffersCanonical hs.buffers) (he.longLocalSound hs.longLocal)
      exact hu.external u.inputs u.channelAnswers u.draws u.queries u.resets _ u.outputs
    · exact hs.external s.inputs s.channelAnswers s.draws s.queries s.resets _ s.outputs

/-- Settles O59: the engine's part by its three shapes, the rest by frames. -/
theorem everyStepKeepsTheInvariant : Obligations.EveryStepKeepsTheInvariant := by
  intro s t hs h
  rcases step_next_cases h with rfl | ⟨x, rest, hl, htake, hrun⟩
  · exact hs
  · exact runInput_inv (s := { s with inputs := rest }) hl htake hrun
      (hs.external rest s.channelAnswers s.draws s.queries s.resets s.responses s.outputs)

/-- Settles O60: every arm of a command and every event answers a next state, and the invariant is kept. -/
theorem nothingIsFatal : Obligations.NothingIsFatal := by
  refine ⟨exec_next, runInput_next, fun s hl => ?_⟩
  obtain ⟨t, ht⟩ := step_next_of_legal s hl
  exact ⟨t, ht, step_cfg ht, fun hs => everyStepKeepsTheInvariant s t hs ht⟩

end Sys2Proof.Machine

/-! SUPPORT. The alarm scheduler's commands (spec/40_alarm.md section 5) and the order of the alarm list: what a step can
make of the list, and why it stays sorted while the deadlines lie within a span (section 7). -/

namespace Sys2Proof.Machine

/-! ### The commands (R116, R117, R181) -/

/-- The alarm ALARM_INIT binds: IDLE, with the new binding and the old deadline (R116). -/
theorem bindAlarm_alarm_self (i : Nat) (cb : Half) (arg : Word) (s : State) (h : i < s.alarms.length) :
    (bindAlarm i cb arg s).alarm i = ⟨(s.alarm i).when, cb, arg, .idle, true⟩ := by
  rw [bindAlarm, setAlarm_alarm_self _ _ _ (by simpa using h), removeAlarm_alarm_self]

/-- ALARM_INIT of a host alarm refuses the engine's callback (R116). -/
theorem exec_alarmInit_of_cbMac (s : State) (a : Byte) (arg : Word) (h : a.toNat < s.cfg.nAlarms.toNat) :
    exec (.alarmInit a cbMac arg) s = .next (answered s 0x10 .badArg 0) := by
  have hhost : hostAlarm s a ≠ false := by simpa [hostAlarm_eq_false_iff] using h
  exact (if_neg hhost).trans (if_pos rfl)

/-- ALARM_INIT of a host alarm binds it (R116). -/
theorem exec_alarmInit_of_host (s : State) (a : Byte) (cb : Half) (arg : Word) (h : a.toNat < s.cfg.nAlarms.toNat)
    (hcb : cb ≠ cbMac) :
    exec (.alarmInit a cb arg) s = .next (answered (bindAlarm a.toNat cb arg s) 0x10 .ok 0) := by
  have hhost : hostAlarm s a ≠ false := by simpa [hostAlarm_eq_false_iff] using h
  exact (if_neg hhost).trans (if_neg hcb)

/-- Settles O19, by the equations of ALARM_INIT. -/
theorem alarmInitBindsAndCancels : Obligations.AlarmInitBindsAndCancels := by
  intro s a cb arg hsized ha
  refine ⟨fun hcb => ?_, fun hcb => ?_⟩
  · subst hcb
    exact exec_alarmInit_of_cbMac s a arg ha
  · have hlt : a.toNat < s.alarms.length := by rw [hsized.1]; omega
    refine ⟨_, exec_alarmInit_of_host s a cb arg ha hcb, bindAlarm_alarm_self _ _ _ _ hlt,
      fun j hj => bindAlarm_alarm_ne _ _ _ _ j hj, rfl, fun b _ => ?_, rfl⟩
    cases b <;> rfl

/-- ALARM_SCHED of an unbound host alarm is refused (R117). -/
theorem exec_alarmSched_of_unbound (s : State) (a : Byte) (d : Word) (h : a.toNat < s.cfg.nAlarms.toNat)
    (hb : (s.alarm a.toNat).bound = false) : exec (.alarmSched a d) s = .next (answered s 0x11 .badState 0) := by
  have hhost : hostAlarm s a ≠ false := by simpa [hostAlarm_eq_false_iff] using h
  exact (if_neg hhost).trans (if_pos hb)

/-- ALARM_SCHED of a bound host alarm arms it and answers its deadline (R117). -/
theorem exec_alarmSched_of_bound (s : State) (a : Byte) (d : Word) (h : a.toNat < s.cfg.nAlarms.toNat)
    (hb : (s.alarm a.toNat).bound = true) :
    exec (.alarmSched a d) s = .next (answered (armAlarm a.toNat d s) 0x11 .ok (s.jiffies + d)) := by
  have hhost : hostAlarm s a ≠ false := by simpa [hostAlarm_eq_false_iff] using h
  have hbound : (s.alarm a.toNat).bound ≠ false := by simp [hb]
  refine (if_neg hhost).trans ((if_neg hbound).trans ?_)
  rw [deadline_eq]
  rfl

/-- Settles O20, by the equations of ALARM_SCHED and the place of an insertion. -/
theorem alarmSchedSetsTheDeadlineAndLinks : Obligations.AlarmSchedSetsTheDeadlineAndLinks := by
  intro s a d hsized ha
  refine ⟨exec_alarmSched_of_unbound s a d ha, fun hb => ?_⟩
  have hlt : a.toNat < s.alarms.length := by rw [hsized.1]; omega
  obtain ⟨l1, l2, hsplit, hplace, hbefore, hbehind⟩ := insertByTime_split (fun e => (s.alarm e).when) (s.jiffies + d)
    a.toNat (s.alist.filter (fun j => j != a.toNat))
  refine ⟨_, l1, l2, exec_alarmSched_of_bound s a d ha hb, armAlarm_alarm_self _ _ _ hlt,
    fun j hj => armAlarm_alarm_ne _ _ _ j hj, hsplit, (armAlarm_alist _ _ _ hlt).trans hplace,
    fun e he => (timeAfter_eq_false_iff _ _).1 (hbefore e he), fun e he => (timeAfter_iff _ _).1 (hbehind e he),
    fun b _ => ?_, rfl⟩
  cases b <;> rfl

/-- Settles O37, by the two arms of MAC_INIT. -/
theorem macInitBindsTheEngineAlarmOnce : Obligations.MacInitBindsTheEngineAlarmOnce := by
  intro s hsized
  refine ⟨fun hinit => if_pos hinit, fun hinit => ?_⟩
  have hnot : ¬ s.macInited = true := by simp [hinit]
  refine ⟨(initEngine s).respond 0x40 .ok 0, if_neg hnot, setAlarm_alarm_self s _ _ hsized.engineAlarm_lt,
    fun j hj => setAlarm_alarm_ne s _ _ _ hj, fun b _ => ?_, rfl⟩
  cases b <;> rfl

/-- A deadline `d` ticks ahead is reached after `n` ticks, up to half the range later, exactly when `d ≤ n` (R115). -/
theorem timeAfter_add_ofNat (j d : Word) (n : Nat) (hd : d.toNat < 2 ^ 31) (hn : n ≤ d.toNat + 2 ^ 31) :
    timeAfter (j + d) (j + BitVec.ofNat 32 n) = false ↔ d.toNat ≤ n := by
  have hdiff : j + d - (j + BitVec.ofNat 32 n) = d - BitVec.ofNat 32 n := by
    rw [add_sub_add_left_eq_sub]
  rw [timeAfter, hdiff, decide_eq_false_iff_not, BitVec.toNat_sub, BitVec.toNat_ofNat]
  omega

/-- Settles O27: the answered state's alarm has the deadline of ALARM_SCHED. -/
theorem anAlarmIsReadyExactlyAfterItsDelay : Obligations.AnAlarmIsReadyExactlyAfterItsDelay := by
  intro s t a d n hsized ha hb hd hn h
  have hlt : a.toNat < s.alarms.length := by rw [hsized.1]; omega
  obtain rfl := Host.Outcome.next.inj (h.symm.trans (exec_alarmSched_of_bound s a d ha hb))
  have hwhen : ((armAlarm a.toNat d s).alarm a.toNat).when = s.jiffies + d := by rw [armAlarm_alarm_self _ _ _ hlt]
  show (!timeAfter ((armAlarm a.toNat d s).alarm a.toNat).when _) = true ↔ _
  rw [hwhen, Bool.not_eq_true', timeAfter_add_ofNat _ _ _ hd hn]

/-! ### What a step makes of the list -/

/-- The list of `t` is what is left of that of `s`, its deadlines unchanged, with alarm `i` perhaps inserted anew by its
deadline (R113, R114). -/
structure Relisted (i : Nat) (s t : State) : Prop where
  cfg : t.cfg = s.cfg
  length : t.alarms.length = s.alarms.length
  list : ∃ rest, rest.Sublist s.alist ∧ (∀ e ∈ rest, (t.alarm e).when = (s.alarm e).when)
    ∧ (t.alist = rest
      ∨ i ∉ rest ∧ t.alist = insertByTime (fun e => (t.alarm e).when) (t.alarm i).when i rest)

theorem Relisted.rfl (i : Nat) (s : State) : Relisted i s s :=
  ⟨.refl _, .refl _, s.alist, .refl _, fun _ _ => .refl _, .inl (.refl _)⟩

/-- The same alarms in the same list. -/
theorem Relisted.congr {i : Nat} {s t u : State} (h : Relisted i s t) (hc : u.cfg = t.cfg) (ha : u.alarms = t.alarms)
    (hl : u.alist = t.alist) : Relisted i s u := by
  obtain ⟨rest, hsub, hwhen, hlist⟩ := h.list
  have halarm : u.alarm = t.alarm := by funext j; rw [State.alarm, ha]; rfl
  exact ⟨hc.trans h.cfg, (congrArg List.length ha).trans h.length, rest, hsub, by rwa [halarm], by rwa [halarm, hl]⟩

/-- What the list holds beside `i` is left of the old one. -/
theorem Relisted.others {i : Nat} {s t : State} (h : Relisted i s t) :
    (t.alist.filter (fun j => j != i)).Sublist s.alist
    ∧ ∀ e ∈ t.alist, e ≠ i → (t.alarm e).when = (s.alarm e).when := by
  obtain ⟨rest, hsub, hwhen, hlist⟩ := h.list
  rcases hlist with hlist | ⟨hi, hlist⟩
  · rw [hlist]
    exact ⟨List.filter_sublist.trans hsub, fun e he _ => hwhen e he⟩
  · refine ⟨?_, fun e he hne => hwhen e ?_⟩
    · rw [hlist, filter_insertByTime, filter_ne_of_notMem rest i hi]
      exact hsub
    · rw [hlist, mem_insertByTime] at he
      exact he.resolve_left hne

/-- Unlinking `i` leaves what the list held beside it. -/
theorem Relisted.unlinked {i : Nat} {s t : State} (h : Relisted i s t) : Relisted i s (removeAlarm i t) := by
  obtain ⟨hsub, hwhen⟩ := h.others
  refine ⟨h.cfg, List.length_set.trans h.length, _, hsub, fun e he => ?_, .inl (.refl _)⟩
  obtain ⟨hmem, hne⟩ := List.mem_filter.1 he
  rw [removeAlarm_when]
  exact hwhen e hmem (by simpa using hne)

/-- Arming `i` inserts it anew into what the list held beside it. -/
theorem Relisted.armed {i : Nat} {s t : State} (h : Relisted i s t) (hi : i < s.alarms.length) (d : Word) :
    Relisted i s (armAlarm i d t) := by
  obtain ⟨hsub, hwhen⟩ := h.others
  have hit : i < t.alarms.length := h.length ▸ hi
  have hother : ∀ e ∈ t.alist.filter (fun j => j != i), ((armAlarm i d t).alarm e).when = (t.alarm e).when := by
    intro e he
    have hne : e ≠ i := by simpa using (List.mem_filter.1 he).2
    rw [armAlarm_alarm_ne _ _ _ _ hne]
  refine ⟨h.cfg, (armAlarm_length i d t).trans h.length, _, hsub, fun e he => ?_, .inr ⟨by simp, ?_⟩⟩
  · obtain ⟨hmem, hne⟩ := List.mem_filter.1 he
    rw [hother e he]
    exact hwhen e hmem (by simpa using hne)
  · rw [armAlarm_alist i d t hit, armAlarm_alarm_self i d t hit]
    exact (insertByTime_congr _ _ _ _ _ hother).symm

/-- Unlinking the head leaves `i` in its place (R121). -/
theorem Relisted.popped {i a : Nat} {l : List Nat} {s t : State} (h : Relisted i s t) (hn : s.alist.Nodup)
    (ha : t.alist = a :: l) : Relisted i s (removeAlarm a t) := by
  by_cases hai : a = i
  · subst hai
    exact h.unlinked
  obtain ⟨rest, hsub, hwhen, hlist⟩ := h.list
  have hrest : ∃ tail, rest = a :: tail := by
    rcases hlist with hlist | ⟨-, hlist⟩
    · exact ⟨l, hlist.symm.trans ha⟩
    · cases rest with
      | nil =>
        rw [ha] at hlist
        exact absurd (List.cons.inj hlist).1 hai
      | cons b tail =>
        refine ⟨tail, ?_⟩
        rw [ha, insertByTime] at hlist
        split at hlist
        · exact absurd (List.cons.inj hlist).1 hai
        · rw [(List.cons.inj hlist).1]
  obtain ⟨tail, rfl⟩ := hrest
  have hfresh : a ∉ tail := (List.nodup_cons.1 (hn.sublist hsub)).1
  refine ⟨h.cfg, List.length_set.trans h.length, tail, (List.sublist_cons_self a tail).trans hsub, fun e he => ?_, ?_⟩
  · rw [removeAlarm_when]
    exact hwhen e (List.mem_cons_of_mem a he)
  · rw [removeAlarm_alist]
    simp only [removeAlarm_when]
    rcases hlist with hlist | ⟨hi, hlist⟩
    · refine .inl ?_
      rw [hlist, List.filter_cons_of_neg (by simp), filter_ne_of_notMem _ _ hfresh]
    · refine .inr ⟨fun hm => hi (List.mem_cons_of_mem a hm), ?_⟩
      rw [insertByTime] at hlist
      split at hlist
      · rw [ha] at hlist
        exact absurd (List.cons.inj hlist).1 hai
      · have hnot : a ∉ insertByTime (fun e => (t.alarm e).when) (t.alarm i).when i tail := by
          rw [mem_insertByTime]
          rintro (he | he)
          · exact hai he
          · exact hfresh he
        rw [hlist, List.filter_cons_of_neg (by simp), filter_ne_of_notMem _ _ hnot]

/-- The engine's moves insert no alarm but its own. -/
theorem EngineMove.relisted {strict : Prop} {s t u : State} (hm : EngineMove strict t u)
    (hlt : s.engineAlarm < s.alarms.length) (h : Relisted s.engineAlarm s t) : Relisted s.engineAlarm s u := by
  have hma : t.engineAlarm = s.engineAlarm := by rw [State.engineAlarm, h.cfg]; rfl
  cases hm with
  | arm d => rw [schedMA, hma]; exact h.armed hlt d
  | disarm => rw [cancelMA, hma]; exact h.unlinked
  | _ => exact h.congr rfl rfl rfl

theorem EngineMoves.relisted {strict : Prop} {s t u : State} (hm : EngineMoves strict t u)
    (hlt : s.engineAlarm < s.alarms.length) (h : Relisted s.engineAlarm s t) : Relisted s.engineAlarm s u :=
  hm.keeps (fun _ _ hm h => hm.relisted hlt h) h

/-- A pass pops heads and inserts no alarm but the engine's. -/
theorem runPass_relisted {s t : State} (hlt : s.engineAlarm < s.alarms.length) (hn : s.alist.Nodup)
    (h : Relisted s.engineAlarm s t) (rounds : Nat) : Relisted s.engineAlarm s (runPass rounds t) :=
  runPass_leads (P := Relisted s.engineAlarm s) (fun _ _ _ _ h => h.congr rfl rfl rfl)
    (fun _ _ _ h ha _ _ => (macAlarm_moves (strict := False) _).relisted hlt (h.popped hn ha))
    (fun _ h => h.congr rfl rfl rfl) (fun _ _ _ h ha _ _ => (h.popped hn ha).congr rfl rfl rfl) rounds t h

section Steps

variable {s t : State} (hlt : s.engineAlarm < s.alarms.length) (hn : s.alist.Nodup)

include hlt hn

theorem startPass_relisted (h : Relisted s.engineAlarm s t) : Relisted s.engineAlarm s (startPass t) :=
  runPass_relisted hlt hn (h.congr (u := { t with procNow := t.jiffies }) rfl rfl rfl) _

/-- A command inserts at most one alarm. -/
theorem Effect.relisted {i : Instr} {st : Status} {v : Word} (h : Effect s i st v t) (hsized : TablesSized s) :
    ∃ a, Relisted a s t := by
  have start : Relisted s.engineAlarm s s := .rfl _ s
  cases h with
  | none => exact ⟨_, start⟩
  | stage _ _ _ _ hst => rw [hst.eq]; exact ⟨_, start.congr rfl rfl rfl⟩
  | bind a cb arg ha =>
    refine ⟨a.toNat, .refl _, List.length_set.trans List.length_set, _, List.filter_sublist, fun e he => ?_,
      .inl (.refl _)⟩
    have hne : e ≠ a.toNat := by simpa using (List.mem_filter.1 he).2
    rw [bindAlarm_alarm_ne _ _ _ _ _ hne]
  | arm a d _ ha =>
    exact ⟨a.toNat, (Relisted.rfl a.toNat s).armed (by rw [hsized.1]; omega) d⟩
  | unlink a => exact ⟨a.toNat, (Relisted.rfl a.toNat s).unlinked⟩
  | start =>
    exact ⟨_, startPass_relisted hlt hn (start.congr (u := { s with pendingWork := false }) rfl rfl rfl)⟩
  | resume => exact ⟨_, runPass_relisted hlt hn (start.congr (u := closeWindow s) rfl rfl rfl) _⟩
  | init =>
    refine ⟨s.engineAlarm, .refl _, List.length_set, s.alist, .refl _, fun e _ => ?_, .inl (.refl _)⟩
    show ((s.setAlarm _ _).alarm e).when = _
    rw [setAlarm_alarm]
    split
    next he => rw [he.1]
    · rfl
  | send i x hdr n k seq =>
    have hnew : Relisted s.engineAlarm s (withPacket k x hdr n s) := start.congr rfl rfl rfl
    exact ⟨_, ((arbitrate_moves (strict := False) _).relisted hlt hnew).congr rfl rfl rfl⟩
  | cancel k => exact ⟨_, (cancel_moves (strict := False) k.toNat s nofun).relisted hlt start⟩

/-- A step inserts at most one alarm, or resets. -/
theorem runInput_relisted {x : Input} (h : runInput x s = .next t) (hsized : TablesSized s) :
    t.alist = [] ∨ ∃ a, Relisted a s t := by
  have start : Relisted s.engineAlarm s s := .rfl _ s
  cases x with
  | tick =>
    obtain rfl := Host.Outcome.next.inj h
    have hticked : Relisted s.engineAlarm s { s with jiffies := s.jiffies + 1 } := start.congr rfl rfl rfl
    refine .inr ⟨s.engineAlarm, ?_⟩
    rcases onTick_cases s with e | ⟨-, e⟩ | ⟨-, -, e⟩ <;> rw [e]
    · exact hticked
    · exact start.congr rfl rfl rfl
    · exact startPass_relisted hlt hn hticked
  | radioRx f =>
    exact Host.Outcome.next.inj h ▸ .inr ⟨_, (onRadioRx_moves (strict := False) f s).relisted hlt start⟩
  | radioTxDone st =>
    exact Host.Outcome.next.inj h ▸ .inr ⟨_, (onTxDone_moves (strict := False) st s nofun).relisted hlt start⟩
  | reset => exact .inl (Host.Outcome.next.inj h ▸ rfl)
  | command c =>
    rcases runWord_effect h with ⟨i, st, v, u, he, rfl⟩ | ⟨op, st, -, rfl⟩
    · obtain ⟨a, ha⟩ := he.relisted hlt hn hsized
      exact .inr ⟨a, ha.congr rfl rfl rfl⟩
    · exact .inr ⟨_, start.congr rfl rfl rfl⟩

end Steps

/-! ### The order of the list -/

/-- An insertion by deadline keeps a list sorted, while the deadlines lie within a span (R24, R115). -/
theorem insertByTime_sorted {f : Nat → Word} {base : Word} {i : Nat} {l : List Nat}
    (hl : l.Pairwise (fun x y => timeAfter (f x) (f y) = false)) (hspan : ∀ e ∈ l, (f e - base).toNat < 2 ^ 31)
    (hi : (f i - base).toNat < 2 ^ 31) :
    (insertByTime f (f i) i l).Pairwise (fun x y => timeAfter (f x) (f y) = false) := by
  obtain ⟨l1, l2, rfl, hplace, hbefore, hbehind⟩ := insertByTime_split f (f i) i l
  obtain ⟨h1, h2, h12⟩ := List.pairwise_append.1 hl
  have hspan2 (e : Nat) (he : e ∈ l2) : (f e - base).toNat < 2 ^ 31 := hspan e (List.mem_append_right l1 he)
  have hlater : ∀ e ∈ l2, timeAfter (f i) (f e) = false := by
    cases l2 with
    | nil => exact nofun
    | cons h tail =>
      have hh := hspan2 h List.mem_cons_self
      have hfirst := (timeAfter_iff_of_span base _ _ hh hi).1 (hbehind h rfl)
      intro e he
      have heq := hspan2 e he
      rw [Bool.eq_false_iff, ne_eq, timeAfter_iff_of_span base _ _ hi heq]
      rcases List.mem_cons.1 he with rfl | he
      · omega
      · have hle := (List.pairwise_cons.1 h2).1 e he
        rw [Bool.eq_false_iff, ne_eq, timeAfter_iff_of_span base _ _ hh heq] at hle
        omega
  rw [hplace, List.pairwise_append]
  refine ⟨h1, List.pairwise_cons.2 ⟨hlater, h2⟩, fun x hx y hy => ?_⟩
  rcases List.mem_cons.1 hy with rfl | hy
  · exact hbefore x hx
  · exact h12 x hx y hy

/-- What is left of a sorted list, with one alarm inserted anew, is sorted within a span. -/
theorem Relisted.sorted {i : Nat} {s t : State} (h : Relisted i s t) (hs : Sorted s) (ht : Spanned t) : Sorted t := by
  obtain ⟨rest, hsub, hwhen, hlist⟩ := h.list
  obtain ⟨base, hspan⟩ := ht
  have hrest : rest.Pairwise (fun x y => timeAfter (t.alarm x).when (t.alarm y).when = false) := by
    refine (List.Pairwise.sublist hsub hs).imp_of_mem fun hx hy hxy => ?_
    rwa [hwhen _ hx, hwhen _ hy]
  rcases hlist with hlist | ⟨hi, hlist⟩
  · rwa [Sorted, hlist]
  · rw [Sorted, hlist]
    refine insertByTime_sorted (base := base) hrest (fun e he => hspan e ?_) (hspan i ?_)
    · rw [hlist, mem_insertByTime]; exact .inr he
    · rw [hlist, mem_insertByTime]; exact .inl (.refl _)

/-- Unlinking an alarm keeps the list sorted, whatever the span. -/
theorem removeAlarm_sorted (i : Nat) (s : State) (h : Sorted s) : Sorted (removeAlarm i s) := by
  rw [Sorted]
  simp only [removeAlarm_when, removeAlarm_alist]
  exact List.Pairwise.sublist List.filter_sublist h

/-- Settles O28: a step leaves part of the list and inserts at most one alarm into it by its deadline. -/
theorem theAlarmListStaysSortedWithinTheSpan : Obligations.TheAlarmListStaysSortedWithinTheSpan := by
  refine ⟨fun s base d i hi hs => ⟨removeAlarm_sorted i s hs, fun hspan hd => ?_⟩, fun s t hinv hs h ht => ?_⟩
  · refine ((Relisted.rfl i s).armed hi d).sorted hs ⟨base, fun e he => ?_⟩
    by_cases hei : e = i
    · subst hei
      rwa [armAlarm_alarm_self _ _ _ hi]
    · rw [armAlarm_alarm_ne _ _ _ _ hei]
      exact hspan e (((mem_armAlarm i d s e).1 he).resolve_left hei)
  · rcases step_next_cases h with rfl | ⟨x, rest, -, -, hrun⟩
    · exact hs
    · rcases runInput_relisted (s := { s with inputs := rest }) hinv.tables.engineAlarm_lt hinv.alist.nodup hrun
        hinv.tables with hnil | ⟨a, ha⟩
      · rw [Sorted, hnil]
        exact .nil
      · exact ha.sorted hs ht

end Sys2Proof.Machine

/-! SUPPORT. A pass and R121's loop (spec/40_alarm.md section 5): the pass is the loop wherever the loop ends within the
rounds run one by one; ALARM_PROCESS, CB_RETURN and TICK are passes. -/

namespace Sys2Proof.Machine

/-! ### The loop (R121) -/

/-- Nothing is ready exactly when the head's deadline, if there is a head, lies ahead (R115, R128). -/
theorem hasReady_eq_false_iff (s : State) (now : Word) :
    s.hasReady now = false ↔ ∀ a, s.alist.head? = some a → IsAfter (s.alarm a).when now := by
  cases hl : s.alist with
  | nil => simp [hasReady_of_nil s now hl]
  | cons a l =>
    rw [hasReady_of_cons s now a l hl, Bool.eq_false_iff, ne_eq, ready_iff, not_not, List.head?_cons]
    exact ⟨fun h b hb => Option.some.inj hb ▸ h, fun h => h a rfl⟩

/-- A ready head. -/
theorem hasReady_of_head {s : State} {a : Nat} {l : List Nat} {now : Word} (h : s.alist = a :: l)
    (hr : ¬ IsAfter (s.alarm a).when now) : s.hasReady now = true := by
  rw [hasReady_of_cons s now a l h, ready_iff]
  exact hr

/-- The window of a host alarm that heads the list, as the statements spell it. -/
theorem openWindow_removeAlarm (a : Nat) (s : State) : openWindow a (removeAlarm a s) = windowOn a s := by
  have hself := removeAlarm_alarm_self a s
  simp only [openWindow, windowOn, hself]
  rfl

/-- Where the loop ends within the rounds that are run one by one, the pass is the loop. -/
theorem runPass_of_passLoop {n : Nat} {s t : State} (h : PassLoop n s t) :
    ∀ rounds, n ≤ rounds → runPass rounds s = t := by
  induction h with
  | ends s hend =>
    intro rounds _
    exact runPass_stop rounds s ((hasReady_eq_false_iff s s.procNow).2 hend)
  | fires s a l hl hr hc =>
    intro rounds _
    rw [← openWindow_removeAlarm]
    exact runPass_host rounds s a l hl ((ready_iff _ _ _).2 hr) hc
  | engine n s t a l hl hr hc _ ih =>
    intro rounds hn
    obtain ⟨r, rfl⟩ : ∃ r, rounds = r + 1 := ⟨rounds - 1, by omega⟩
    rw [runPass_engine r s a l hl ((ready_iff _ _ _).2 hr) hc]
    exact ih r (by omega)

/-- The rounds a pass runs one by one depend on the list and on what is supplied alone. -/
theorem pass_of_passLoop {n : Nat} {s t u : State} (hu : passRounds u = passRounds s) (h : PassLoop n s t)
    (hn : n ≤ passRounds u) : pass s = t := runPass_of_passLoop h _ (hu ▸ hn)

/-- Whether a pass paused in a window, as a response value. -/
theorem boolWord_inCallback (t : State) : boolWord t.inCallback = if t.procState = .inCallback then 1 else 0 := by
  cases h : t.procState <;> simp [boolWord, State.inCallback, h]

/-! ### ALARM_PROCESS (R119) -/

theorem exec_alarmProcess_of_idle (s : State) (h : s.procState = .idle) :
    exec .alarmProcess s
      = .next (answered (startPass { s with pendingWork := false }) 0x13 .ok
          (if (startPass { s with pendingWork := false }).procState = .inCallback then 1 else 0)) := by
  have hnot : ¬ s.procState = .inCallback := by simp [h]
  rw [← boolWord_inCallback]
  exact if_neg hnot

/-- Settles O23, by the equations of a new pass. -/
theorem alarmProcessEndsOrOpensAWindow : Obligations.AlarmProcessEndsOrOpensAWindow := by
  refine fun s => ⟨fun h => if_pos h, fun h hend => ?_, fun h a l hl hr hc => ?_, fun h =>
    ⟨exec_alarmProcess_of_idle s h, fun n u hloop hn => pass_of_passLoop rfl hloop hn⟩⟩
  · rw [exec_alarmProcess_of_idle s h, startPass_stop { s with pendingWork := false } ((hasReady_eq_false_iff s _).2 hend)]
    simp [h]
  · have hpass := startPass_host { s with pendingWork := false } a l hl ((ready_iff s a _).2 hr) hc
    rw [openWindow_removeAlarm] at hpass
    refine ⟨_, exec_alarmProcess_of_idle s h, ?_⟩
    rw [hpass]
    refine ⟨removeAlarm_alarm_self a s, fun j hj => removeAlarm_alarm_ne a s j hj, rfl, fun b _ => ?_, rfl⟩
    cases b <;> rfl

/-! ### CB_RETURN (R122) -/

theorem exec_cbReturn_of_open (s : State) (h : s.procState = .inCallback) :
    exec .cbReturn s
      = .next (answered (resumePass s) 0x17 .ok (if (resumePass s).procState = .inCallback then 1 else 0)) := by
  have hnot : ¬ s.procState = .idle := by simp [h]
  rw [← boolWord_inCallback]
  exact if_neg hnot

/-- The next window of a pass resumed from a window (R122). -/
theorem windowOn_closeWindow (a : Nat) (s : State) (h : s.procState = .inCallback) :
    windowOn a (closeWindow s) =
      { removeAlarm a s with
        fireId := BitVec.ofNat 8 a, fireCb := (s.alarm a).cb, fireArg := (s.alarm a).arg,
        outputs := s.outputs ++ [.alarmFire (BitVec.ofNat 8 a) (s.alarm a).cb (s.alarm a).arg] } := by
  rw [windowOn, ← h]
  rfl

/-- Settles O24, by the equations of a resumed pass. -/
theorem cbReturnResumesThePass : Obligations.CbReturnResumesThePass := by
  refine fun s => ⟨fun h => if_pos h, fun h hend => ?_, fun h a l hl hr hc => ?_, fun h =>
    ⟨exec_cbReturn_of_open s h, fun n u hloop hn => pass_of_passLoop (s := closeWindow s) (u := s) rfl hloop hn⟩⟩
  · rw [exec_cbReturn_of_open s h, resumePass_stop s ((hasReady_eq_false_iff s _).2 hend)]
    rfl
  · have hpass := resumePass_host s a l hl ((ready_iff s a _).2 hr) hc
    rw [openWindow_removeAlarm, windowOn_closeWindow a s h] at hpass
    refine ⟨_, exec_cbReturn_of_open s h, ?_⟩
    have hopen : (resumePass s).procState = .inCallback := by rw [hpass]; exact h
    rw [if_pos hopen, hpass]
    refine ⟨removeAlarm_alarm_self a s, fun j hj => removeAlarm_alarm_ne a s j hj, rfl, fun b _ => ?_, rfl⟩
    cases b <;> rfl

/-! ### TICK (R124) -/

/-- TICK with an alarm due and THREADED = 0 outside a window is a new pass at the new time. -/
theorem onTick_of_due (s : State) (a : Nat) (l : List Nat) (hl : s.alist = a :: l)
    (hr : ¬ IsAfter (s.alarm a).when (s.jiffies + 1)) (ht : s.cfg.threaded = false) (hp : s.procState = .idle) :
    onTick s = startPass { s with jiffies := s.jiffies + 1 } := by
  have hready : ({ s with jiffies := s.jiffies + 1 } : State).hasReady (s.jiffies + 1) = true := hasReady_of_head hl hr
  have hnot : ¬ s.cfg.threaded = true := by simp [ht]
  exact (if_pos hready).trans ((if_neg hnot).trans (if_pos hp))

/-- Settles O26, by the branches of TICK. -/
theorem tickAdvancesTimeAndFires : Obligations.TickAdvancesTimeAndFires := by
  refine fun s => ⟨fun hend => ?_, fun a l hl hr => ⟨fun ht => ?_, fun ht hp hc => ?_, fun ht hp => ?_⟩⟩
  · have hquiet : ¬ ({ s with jiffies := s.jiffies + 1 } : State).hasReady (s.jiffies + 1) = true := by
      rw [Bool.not_eq_true]
      exact (hasReady_eq_false_iff _ _).2 hend
    exact congrArg Host.Outcome.next (if_neg hquiet)
  · have hready : ({ s with jiffies := s.jiffies + 1 } : State).hasReady (s.jiffies + 1) = true := hasReady_of_head hl hr
    exact congrArg Host.Outcome.next ((if_pos hready).trans (if_pos ht))
  · have hpass := startPass_host { s with jiffies := s.jiffies + 1 } a l hl ((ready_iff s a _).2 hr) hc
    rw [openWindow_removeAlarm] at hpass
    refine ⟨_, congrArg Host.Outcome.next ((onTick_of_due s a l hl hr ht hp).trans hpass),
      removeAlarm_alarm_self a s, fun j hj => removeAlarm_alarm_ne a s j hj, rfl⟩
  · exact ⟨congrArg Host.Outcome.next (onTick_of_due s a l hl hr ht hp),
      fun n u hloop hn => pass_of_passLoop (u := s) rfl hloop hn⟩

end Sys2Proof.Machine

/-! SUPPORT. The port access commands, the register map and the codec's commands (spec/46_port_access.md,
spec/10_state.md sections 3, 4 and 6, spec/42_codec.md section 5), and which input a step takes (spec/60_exceptions.md
section 4). -/

namespace Sys2Proof.Machine

/-! ### The input a step takes (R271, R286) -/

/-- The three events are what a held window holds. -/
theorem takeable_event {x : Input} (h : IsEvent x) : takeable true x = false := by
  rcases h with rfl | ⟨f, rfl⟩ | ⟨st, rfl⟩ <;> rfl

/-- A step that passes over held inputs. -/
theorem step_of_held (s : State) (before rest : List Input) (x : Input) (hl : s.cfg.legal = true)
    (hi : s.inputs = before ++ x :: rest) (hb : ∀ y ∈ before, takeable s.holdsEvents y = false)
    (hx : takeable s.holdsEvents x = true) : step s = runInput x { s with inputs := before ++ rest } := by
  have htake := takeFirst_held s.holdsEvents before rest x hb hx
  rw [← hi] at htake
  simp [step, hl, takeAndRun, takeInput, htake]

/-- With THREADED = 0 an open window holds events (R286). -/
theorem holdsEvents_of_open {s : State} (ht : s.cfg.threaded = false) (hp : s.procState = .inCallback) :
    s.holdsEvents = true := by
  simp [State.holdsEvents, State.inCallback, ht, hp]

/-- Otherwise nothing is held (R286). -/
theorem holdsEvents_of_not {s : State} (h : s.cfg.threaded = true ∨ s.procState = .idle) : s.holdsEvents = false := by
  rcases h with h | h <;> simp [State.holdsEvents, State.inCallback, h]

/-- Settles O6: the held inputs before the word, if any, are passed over. -/
theorem stepRunsTheDecodedCommand : Obligations.StepRunsTheDecodedCommand := by
  intro s c i before rest hl _ hdec hi hbefore
  have hheld : ∀ y ∈ before, takeable s.holdsEvents y = false := by
    rcases hbefore with rfl | ⟨ht, hp, hevents⟩
    · exact nofun
    · rw [holdsEvents_of_open ht hp]
      exact fun y hy => takeable_event (hevents y hy)
  rw [step_of_held s before rest (.command c) hl hi hheld rfl]
  show runWord c _ = _
  rw [runWord, hdec]

/-- Settles O7, by what is held. -/
theorem eventsAreHeldInAnUnthreadedWindow : Obligations.EventsAreHeldInAnUnthreadedWindow := by
  refine fun s hl => ⟨fun ⟨ht, hp⟩ => ?_, fun h x rest hi => ?_⟩
  · have hholds := holdsEvents_of_open ht hp
    refine ⟨fun es hes hi => ?_, fun es c rest hes hi => ?_⟩
    · have htake := takeFirst_none s.holdsEvents s.inputs fun y hy => by
        rw [hholds]
        exact takeable_event (hes y (hi ▸ hy))
      simp [step, hl, takeAndRun, takeInput, htake]
    · refine step_of_held s es rest (.command c) hl hi (fun y hy => ?_) rfl
      rw [hholds]
      exact takeable_event (hes y hy)
  · refine step_of_head s x rest hl hi ?_
    rw [holdsEvents_of_not h]
    exact takeable_false x

/-! ### Addresses and their triples (R26) -/

/-- With long addresses and a set tag a triple holds a long address. -/
theorem addrOf_of_tag_set (c : Config) (r : AddrRegs) (hc : c.longAddr = true) (h : r.tag.getLsbD 0 = true) :
    addrOf c r = .long (r.hi ++ r.lo) := by
  have hnot : ¬ (c.longAddr = false ∨ r.tag.getLsbD 0 = false) := by simp [hc, h]
  exact if_neg hnot

/-- Settles O30, by the cases of `AddrOf`. -/
theorem addressesSurviveTheirTriple : Obligations.AddressesSurviveTheirTriple := by
  refine ⟨addrOf_triple_short, fun c v hc => ?_, fun c r h => addrOf_of_not_longAddr c r h,
    fun c r hc => ⟨fun h => addrOf_of_tag_clear c r h, fun h => ⟨_, addrOf_of_tag_set c r hc h, ?_, ?_⟩⟩⟩
  · have hjoin : v.extractLsb' 32 32 ++ v.extractLsb' 0 32 = v := by
      rw [BitVec.extractLsb'_append_extractLsb'_eq_extractLsb' (by omega)]
      exact BitVec.extractLsb'_eq_self
    exact (addrOf_of_tag_set c (triple (.long v)) hc (by decide : (1 : Word).getLsbD 0 = true)).trans (congrArg Address.long hjoin)
  · exact BitVec.extractLsb'_append_eq_right
  · exact BitVec.extractLsb'_append_eq_left

/-! ### Bytes of the buffers (R253, R254) -/

theorem exec_wrbuf_of_lt (s : State) (off : Half) (v : Byte) (h : off.toNat < s.cfg.bufSize.toNat) :
    exec (.wrbuf off v) s = .next (answered { s with txdata := s.txdata.write off.toNat v } 0x03 .ok 0) :=
  if_neg (Nat.not_le.2 h)

theorem exec_rdbuf_of_lt (s : State) (b : Buffer) (off : Half) (h : off.toNat < bufferSize s.cfg b) :
    exec (.rdbuf b off) s = .next (answered s 0x04 .ok ((bufferByte s b off.toNat).zeroExtend 32)) :=
  if_neg (Nat.not_le.2 h)

/-- A byte in the low end of a word. -/
theorem zeroExtend_byte (v : Byte) : v.zeroExtend 32 = 0#24 ++ v := (BitVec.setWidth_eq_append (by omega) : _)

theorem zeroExtend_half (v : Half) : v.zeroExtend 32 = 0#16 ++ v := (BitVec.setWidth_eq_append (by omega) : _)

/-- Settles O14, by the equations of WRBUF and RDBUF. -/
theorem bufferCommandsMoveOneByte : Obligations.BufferCommandsMoveOneByte := by
  intro s off v
  refine ⟨fun h => ⟨_, exec_wrbuf_of_lt s off v h, ?_, fun b a hne => ?_, rfl⟩, fun h => if_pos h, fun b => ?_⟩
  · exact (txByte_write s off.toNat off.toNat v).trans (if_pos rfl)
  · cases b with
    | hdrbuf => rfl
    | txdata =>
      refine (txByte_write s off.toNat a v).trans (if_neg ?_)
      rintro rfl
      exact hne rfl
  · cases b <;> exact ⟨fun h => zeroExtend_byte _ ▸ exec_rdbuf_of_lt s _ off h, fun h => if_pos h⟩

/-! ### The codec's commands (R166, R170, R171) -/

theorem exec_hdrBuild_of_some (s : State) (h : List Byte) (hb : buildHeader (descOf s.cfg s.txinfo) = some h) :
    exec .hdrBuild s
      = .next (answered { s with hdrbuf := s.hdrbuf.writeBytes 0 h, hdrLen := BitVec.ofNat 8 h.length } 0x30 .ok
          (BitVec.ofNat 32 h.length)) := by
  show execHdrBuild s = _
  rw [execHdrBuild, hb] <;> rfl

theorem exec_hdrParse_of_fits (s : State) (n : Half) (h : n.toNat ≤ s.cfg.bufSize.toNat) :
    exec (.hdrParse n) s = .next (parseAnswer s (parseHeader s.cfg.longAddr (payload s n))) :=
  if_neg (Nat.not_lt.2 h)

/-- The flags a register shows are the flags written to it (R30, R171). -/
theorem flagsOf_flagBits (f : DescFlags) : flagsOf (0#28 ++ flagBits f) = f := by
  obtain ⟨a, b, c, d⟩ := f
  revert a b c d
  decide

/-- Settles O36, by the equations of HDR_BUILD and HDR_PARSE. -/
theorem codecCommandsWriteTheirResults : Obligations.CodecCommandsWriteTheirResults := by
  refine fun s => ⟨exec_hdrBuild_of_reject s, fun h hb => ?_, fun n => ⟨fun hn => if_pos hn, fun hn => ⟨fun hp => ?_,
    fun x hx => ?_⟩⟩⟩
  · exact ⟨_, exec_hdrBuild_of_some s h hb, hdrByte_writeBytes s h (BitVec.ofNat 8 h.length), fun _ => rfl, rfl⟩
  · rw [exec_hdrParse_of_fits s n hn, hp]
    rfl
  · have hexec := exec_hdrParse_of_fits s n hn
    rw [hx] at hexec
    refine ⟨_, hexec, rfl, rfl, rfl, rfl, rfl, rfl, rfl, flagsOf_flagBits x.flags, (packed_fields 28 4 _).1, rfl,
      fun b _ => ?_, ?_⟩
    · cases b <;> rfl
    · rw [← zeroExtend_byte]
      rfl

/-! ### The register map (R40) -/

theorem exec_rdreg_of_regAt {s : State} {n : Half} {r : Reg} (h : regAt s.cfg n = some r) :
    exec (.rdreg n) s = .next (answered s 0x01 .ok (readReg s r)) := by
  show execRdreg n s = _
  rw [execRdreg, h] <;> rfl

theorem exec_wrreg_of_regAt {s t : State} {n : Half} {r : Reg} {w : Word} (h : regAt s.cfg n = some r)
    (hw : writeReg s w r = some t) : exec (.wrreg n w) s = .next (answered t 0x02 .ok 0) := by
  have hbind : (regAt s.cfg n).bind (writeReg s w) = some t := by rw [h]; exact hw
  show execWrreg n w s = _
  rw [execWrreg, hbind] <;> rfl

/-- The number of a register within its group (R31). -/
def descRegNumber : DescReg → Nat
  | .addr .originalSrc .tag => 0
  | .addr .originalSrc .lo => 1
  | .addr .originalSrc .hi => 2
  | .addr .originalDst .tag => 3
  | .addr .originalDst .lo => 4
  | .addr .originalDst .hi => 5
  | .addr .immedSrc .tag => 6
  | .addr .immedSrc .lo => 7
  | .addr .immedSrc .hi => 8
  | .addr .immedDst .tag => 9
  | .addr .immedDst .lo => 10
  | .addr .immedDst .hi => 11
  | .ports => 12
  | .fields => 13
  | .flags => 14
  | .sendTime => 15

/-- A group has its 16 registers, each under its own number. -/
theorem descRegAt_eq_some_iff (n : Nat) (d : DescReg) : descRegAt n = some d ↔ n = descRegNumber d := by
  constructor
  · intro h
    unfold descRegAt at h
    split at h <;> cases h <;> rfl
  · rintro rfl
    cases d with
    | addr f p => cases f <;> cases p <;> rfl
    | _ => rfl

/-- Every offset of a group is a register's. -/
theorem exists_descRegAt {n : Nat} (h : n < 16) : ∃ d, descRegAt n = some d := by
  interval_cases n <;> exact ⟨_, rfl⟩

/-- Which numbers outside the groups and the tables are mapped. -/
theorem singleRegAt_isSome_iff (n : Nat) :
    (singleRegAt n).isSome = true ↔ n ≤ 0x0008 ∨ (0x0010 ≤ n ∧ n ≤ 0x0017) ∨ n = 0x0050 ∨ n = 0x0070 := by
  unfold singleRegAt
  split
  case h_20 => simp only [imp_false] at *; simp; omega
  all_goals simp

/-- An alarm's register by its offset (R40, R251). -/
theorem alarmRegAt_isSome_iff (n : Nat) : (alarmRegAt n).isSome = true ↔ n % 4 ≤ 2 := by
  unfold alarmRegAt
  split_ifs <;> simp <;> omega

/-- A slot's register by its offset (R40, R251). -/
theorem slotRegAt_isSome_iff (n : Nat) : (slotRegAt n).isSome = true ↔ n % 4 ≤ 1 := by
  unfold slotRegAt
  split_ifs <;> simp <;> omega

/-- The mapped numbers are those of R40's table. -/
theorem regAt_isSome_iff (c : Config) (n : Half) : (regAt c n).isSome = true ↔ MappedNumber c n := by
  have halarms := c.nAlarms.isLt
  have hcap := c.queueCap.isLt
  unfold regAt MappedNumber
  split_ifs with htx hp ha hk
  · obtain ⟨d, hd⟩ := exists_descRegAt (n := n.toNat - 0x0040) (by omega)
    simp only [hd, Option.map_some, Option.isSome_some, true_iff]
    omega
  · obtain ⟨d, hd⟩ := exists_descRegAt (n := n.toNat - 0x0060) (by omega)
    simp only [hd, Option.map_some, Option.isSome_some, true_iff]
    omega
  · rw [alarmRegAt_isSome_iff]
    constructor
    · intro h
      exact .inr (.inr (.inr (.inr (.inl ⟨(n.toNat - 0x0100) / 4, (n.toNat - 0x0100) % 4, by omega, h, by omega⟩))))
    · rintro (h | h | h | h | ⟨i, j, hi, hj, h⟩ | ⟨k, j, hk, hj, h⟩) <;> omega
  · rw [slotRegAt_isSome_iff]
    constructor
    · intro h
      exact .inr (.inr (.inr (.inr (.inr ⟨(n.toNat - 0x1000) / 4, (n.toNat - 0x1000) % 4, by omega, h, by omega⟩))))
    · rintro (h | h | h | h | ⟨i, j, hi, hj, h⟩ | ⟨k, j, hk, hj, h⟩) <;> omega
  · rw [singleRegAt_isSome_iff]
    constructor
    · omega
    · rintro (h | h | h | h | ⟨i, j, hi, hj, h⟩ | ⟨k, j, hk, hj, h⟩) <;> omega

/-- The registers WRREG stores to have the writable numbers (R252). -/
theorem writable_of_writeReg {s t : State} {n : Half} {r : Reg} {w : Word} (h : regAt s.cfg n = some r)
    (hw : writeReg s w r = some t) : WritableNumber n := by
  have number {m : Half} (hm : n.toNat = m.toNat) : n = m := BitVec.eq_of_toNat_eq hm
  unfold regAt at h
  split_ifs at h with htx hp ha hk
  · exact .inr (.inr (.inr (by omega)))
  · obtain ⟨d, -, rfl⟩ := Option.map_eq_some_iff.1 h
    cases hw
  · unfold alarmRegAt at h
    split_ifs at h <;> cases h <;> cases hw
  · unfold slotRegAt at h
    split_ifs at h <;> cases h <;> cases hw
  · unfold singleRegAt at h
    split at h <;> cases h
    case h_13 hn => exact .inl (number hn)
    case h_14 hn => exact .inr (.inl (number hn))
    case h_15 hn => exact .inr (.inr (.inl (number hn)))
    all_goals cases hw

/-- Settles O12, by the register map. -/
theorem unmappedAndReadOnlyRegistersAreRefused : Obligations.UnmappedAndReadOnlyRegistersAreRefused := by
  refine fun s n w => ⟨fun hn => ?_, fun hn => ?_, fun hn => ?_⟩
  · have hnone : regAt s.cfg n = none := by
      rw [← regAt_isSome_iff, Option.not_isSome_iff_eq_none] at hn
      exact hn
    show execRdreg n s = _
    rw [execRdreg, hnone] <;> rfl
  · rw [← regAt_isSome_iff, Option.isSome_iff_exists] at hn
    obtain ⟨r, hr⟩ := hn
    exact ⟨_, exec_rdreg_of_regAt hr⟩
  · have hnone : (regAt s.cfg n).bind (writeReg s w) = none := by
      cases hb : (regAt s.cfg n).bind (writeReg s w) with
      | none => rfl
      | some t =>
        obtain ⟨r, hr, hw⟩ := Option.bind_eq_some_iff.1 hb
        exact absurd (writable_of_writeReg hr hw) hn
    show execWrreg n w s = _
    rw [execWrreg, hnone] <;> rfl

/-! ### Writing registers (R252) -/

/-- One register of a triple is written, the others stay. -/
theorem AddrRegs.read_write (t : AddrRegs) (p q : AddrPart) (w : Word) :
    (t.write p w).read q = if q = p then w else t.read q := by
  cases p <;> cases q <;> rfl

/-- One register of a group is written, the others stay. -/
theorem DescRegs.read_write (r : DescRegs) (d e : DescReg) (w : Word) :
    (r.write d w).read e = if e = d then w else r.read e := by
  cases d with
  | addr f p =>
    cases e with
    | addr g q =>
      show ((r.setTriple f ((r.triple f).write p w)).triple g).read q = _
      rw [triple_setTriple]
      by_cases hg : g = f
      · subst hg
        rw [if_pos rfl, AddrRegs.read_write]
        by_cases hq : q = p <;> simp [hq, DescRegs.read]
      · rw [if_neg hg, if_neg (by simp [hg])]
        rfl
    | _ => cases f <;> rfl
  | _ => cases e <;> rfl

/-- A number of TXINFO's group and its register. -/
theorem regAt_txinfo (c : Config) (n : Half) (h1 : 0x0040 ≤ n.toNat) (h2 : n.toNat ≤ 0x004F) :
    ∃ d, descRegNumber d = n.toNat - 0x0040 ∧ regAt c n = some (.txinfo d) := by
  obtain ⟨d, hd⟩ := exists_descRegAt (n := n.toNat - 0x0040) (by omega)
  refine ⟨d, ((descRegAt_eq_some_iff _ _).1 hd).symm, ?_⟩
  rw [regAt, if_pos ⟨h1, by omega⟩, hd]
  rfl

/-- Settles O13, by the register map and the write of one register. -/
theorem wrregStoresWhereTheMapSaysReadWrite : Obligations.WrregStoresWhereTheMapSaysReadWrite := by
  refine fun s w => ⟨rfl, fun hl => ?_, fun hl => ?_, fun n h1 h2 => ?_⟩
  · have hnot : ¬ s.cfg.longAddr = true := by simp [hl]
    exact ⟨exec_wrreg_of_regAt (r := .localLongLo) rfl (congrArg some (if_neg hnot)),
      exec_wrreg_of_regAt (r := .localLongHi) rfl (congrArg some (if_neg hnot))⟩
  · refine ⟨⟨_, exec_wrreg_of_regAt (r := .localLongLo) rfl (congrArg some (if_pos hl)), ?_, ?_, rfl⟩,
      ⟨_, exec_wrreg_of_regAt (r := .localLongHi) rfl (congrArg some (if_pos hl)), ?_, ?_, rfl⟩⟩
    · exact BitVec.extractLsb'_append_eq_right
    · exact BitVec.extractLsb'_append_eq_left
    · exact BitVec.extractLsb'_append_eq_left
    · exact BitVec.extractLsb'_append_eq_right
  · obtain ⟨d, hd, hreg⟩ := regAt_txinfo s.cfg n h1 h2
    refine ⟨_, exec_wrreg_of_regAt hreg rfl, rfl, fun m h3 h4 => ?_⟩
    obtain ⟨e, he, hreg'⟩ := regAt_txinfo s.cfg m h3 h4
    refine ⟨_, _, exec_rdreg_of_regAt (s := answered _ _ _ _) hreg', exec_rdreg_of_regAt hreg', ?_⟩
    have hsame : e = d ↔ m = n := by
      constructor
      · rintro rfl
        exact BitVec.eq_of_toNat_eq (by omega)
      · rintro rfl
        have hde := (descRegAt_eq_some_iff _ d).2 hd.symm
        rw [(descRegAt_eq_some_iff _ e).2 he.symm] at hde
        exact Option.some.inj hde
    refine (DescRegs.read_write s.txinfo d e w).trans ?_
    simp only [hsame]
    rfl

/-! ### Reading registers (R40 to R42) -/

/-- Two neighbouring fields are the one field they make up. -/
theorem extractLsb'_halves (v : BitVec 32) (start lo hi : Nat) :
    v.extractLsb' (start + lo) hi ++ v.extractLsb' start lo = v.extractLsb' start (hi + lo) :=
  BitVec.extractLsb'_append_extractLsb'_eq_extractLsb' rfl

/-- A word is its four bytes. -/
theorem bytes_append (v : Word) :
    v.extractLsb' 24 8 ++ v.extractLsb' 16 8 ++ v.extractLsb' 8 8 ++ v.extractLsb' 0 8 = v := by
  have h1 := extractLsb'_halves v 16 8 8
  have h2 := extractLsb'_halves v 8 8 16
  have h3 := extractLsb'_halves v 0 8 24
  calc _ = v.extractLsb' 16 16 ++ v.extractLsb' 8 8 ++ v.extractLsb' 0 8 := by rw [← h1]
    _ = v.extractLsb' 8 24 ++ v.extractLsb' 0 8 := by rw [← h2]
    _ = v.extractLsb' 0 32 := h3
    _ = v := BitVec.extractLsb'_eq_self

/-- Settles O10: each number names its register, and a descriptor's fields are those of its group. -/
theorem rdregReadsParametersAndPlainRegisters : Obligations.RdregReadsParametersAndPlainRegisters := by
  refine ⟨by decide, fun s => ?_, fun c r => ⟨rfl, rfl, rfl, rfl, ?_, (bytes_append r.fields).symm, rfl, rfl, rfl, rfl,
    rfl, rfl⟩⟩
  · have reads {n : Half} {v : Word} (r : Reg) (hr : regAt s.cfg n = some r) (hv : readReg s r = v) :
        exec (.rdreg n) s = .next (answered s 0x01 .ok v) := hv ▸ exec_rdreg_of_regAt hr
    refine ⟨reads .cfgFeatures rfl rfl, reads .cfgBufSize rfl (zeroExtend_half _), reads .cfgAckTimeout rfl rfl,
      reads .cfgMaxAttempts rfl (zeroExtend_byte _), reads .cfgRetryBase rfl rfl, reads .cfgMaxInitBackoff rfl rfl,
      reads .cfgQueueCap rfl (zeroExtend_byte _), reads .cfgFwdDelay rfl rfl,
      reads .cfgNAlarms rfl (zeroExtend_byte _), reads .jiffies rfl rfl, reads .procNow rfl rfl,
      reads .localShort rfl (zeroExtend_half _), reads .fireArg rfl ?_, reads .hdrLen rfl (zeroExtend_byte _),
      reads .pinfoHdrLen rfl (zeroExtend_byte _), reads .localLongLo rfl rfl, reads .localLongHi rfl rfl, ?_⟩
    · show fireArgReg s = _
      cases hp : s.procState <;> simp [fireArgReg, State.inCallback, hp]
    · rintro base r (h | h) <;> obtain ⟨rfl, rfl⟩ := Prod.mk.inj h <;>
        exact ⟨rfl, rfl, rfl, rfl, rfl, rfl, rfl, rfl, rfl, rfl, rfl, rfl, rfl, rfl, rfl, rfl⟩
  · exact (extractLsb'_halves r.ports 0 8 8).symm

/-- A field that lies in the low part of a word. -/
theorem extractLsb'_append_low {m n : Nat} (x : BitVec m) (y : BitVec n) (start len : Nat) (h : start + len ≤ n) :
    (x ++ y).extractLsb' start len = y.extractLsb' start len := by
  ext j hj
  simp only [BitVec.getElem_extractLsb', BitVec.getLsbD_append]
  rw [if_pos (by omega)]

/-- A field that lies above the low part of a word. -/
theorem extractLsb'_append_high {m n : Nat} (x : BitVec m) (y : BitVec n) (start len : Nat) (h : n ≤ start) :
    (x ++ y).extractLsb' start len = x.extractLsb' (start - n) len := by
  ext j hj
  simp only [BitVec.getElem_extractLsb', BitVec.getLsbD_append]
  rw [if_neg (by omega)]
  congr 1
  omega

/-- The fields of ALM_STATUS (R41). -/
theorem almStatus_fields (cb : Half) (id : Byte) (listed opened pending : Bool) :
    let v := cb ++ id ++ 0#5 ++ BitVec.ofBool listed ++ BitVec.ofBool opened ++ BitVec.ofBool pending
    v.getLsbD 0 = pending ∧ v.getLsbD 1 = opened ∧ v.getLsbD 2 = listed ∧ v.extractLsb' 3 5 = 0
    ∧ v.extractLsb' 8 8 = id ∧ v.extractLsb' 16 16 = cb := by
  simp (disch := omega) only [extractLsb'_append_low, extractLsb'_append_high, BitVec.getLsbD_append, -Nat.reduceAdd]
  simp

/-- The fields of MAC_STATUS (R42). -/
theorem macStatus_fields (index seq len : Byte) (phase : BitVec 3) (owner : BitVec 2) (busy inited : Bool) :
    let v := index ++ seq ++ len ++ 0#1 ++ phase ++ owner ++ BitVec.ofBool busy ++ BitVec.ofBool inited
    v.getLsbD 0 = inited ∧ v.getLsbD 1 = busy ∧ v.extractLsb' 2 2 = owner ∧ v.getLsbD 7 = false
    ∧ v.extractLsb' 8 8 = len ∧ v.extractLsb' 16 8 = seq ∧ v.extractLsb' 4 3 = phase ∧ v.extractLsb' 24 8 = index := by
  simp (disch := omega) only [extractLsb'_append_low, extractLsb'_append_high, BitVec.getLsbD_append, -Nat.reduceAdd]
  simp

/-- The fields of ALARM_CTL (R40). -/
theorem alarmCtl_fields (cb : Half) (st : AlarmState) (bound : Bool) :
    let v := cb ++ 0#14 ++ alarmStateBit st ++ BitVec.ofBool bound
    v.getLsbD 0 = bound ∧ v.getLsbD 1 = decide (st = .scheduled) ∧ v.extractLsb' 2 14 = 0 ∧ v.extractLsb' 16 16 = cb := by
  simp (disch := omega) only [extractLsb'_append_low, extractLsb'_append_high, BitVec.getLsbD_append, -Nat.reduceAdd]
  cases st <;> simp [alarmStateBit]

/-- The fields of SLOT_CTL (R40). -/
theorem slotCtl_fields (seq attempts : Byte) (ackreq : Bool) (phase : BitVec 3) (st : BitVec 2) :
    let v := 0#8 ++ seq ++ attempts ++ 0#2 ++ BitVec.ofBool ackreq ++ phase ++ st
    v.extractLsb' 0 2 = st ∧ v.extractLsb' 2 3 = phase ∧ v.getLsbD 5 = ackreq ∧ v.extractLsb' 6 2 = 0
    ∧ v.extractLsb' 8 8 = attempts ∧ v.extractLsb' 16 8 = seq ∧ v.extractLsb' 24 8 = 0 := by
  simp (disch := omega) only [extractLsb'_append_low, extractLsb'_append_high, BitVec.getLsbD_append, -Nat.reduceAdd]
  simp

/-- The fields of SLOT_LEN of an occupied slot (R40). -/
theorem slotLen_fields (data : Half) (hdr : Byte) :
    let v := data ++ 0#8 ++ hdr
    v.extractLsb' 0 8 = hdr ∧ v.extractLsb' 8 8 = 0 ∧ v.extractLsb' 16 16 = data := by
  simp (disch := omega) only [extractLsb'_append_low, extractLsb'_append_high, -Nat.reduceAdd]
  simp

/-- The inspection registers of the alarm table. -/
theorem regAt_alarm (c : Config) {n i j : Nat} (hn : n = 0x0100 + 4 * i + j) (hi : i ≤ c.nAlarms.toNat) (hj : j ≤ 2) :
    regAt c (BitVec.ofNat 16 n) = alarmRegAt (4 * i + j) := by
  have hc := c.nAlarms.isLt
  have htoNat : (BitVec.ofNat 16 n).toNat = n := by
    rw [BitVec.toNat_ofNat]
    omega
  have hoff : n - 0x0100 = 4 * i + j := by omega
  rw [regAt, htoNat, if_neg (by omega), if_neg (by omega), if_pos (by omega), hoff]

/-- The inspection registers of the slot table. -/
theorem regAt_slot (c : Config) {n k j : Nat} (hn : n = 0x1000 + 4 * k + j) (hk : k < c.queueCap.toNat) (hj : j ≤ 1) :
    regAt c (BitVec.ofNat 16 n) = slotRegAt (4 * k + j) := by
  have hc := c.queueCap.isLt
  have ha := c.nAlarms.isLt
  have htoNat : (BitVec.ofNat 16 n).toNat = n := by
    rw [BitVec.toNat_ofNat]
    omega
  have hoff : n - 0x1000 = 4 * k + j := by omega
  rw [regAt, htoNat, if_neg (by omega), if_neg (by omega), if_neg (by omega), if_pos (by omega), hoff]

/-- Offset `j` of an entry of the alarm table names its register. -/
theorem alarmRegAt_entry (i : Nat) :
    alarmRegAt (4 * i + 0) = some (.alarmCtl i) ∧ alarmRegAt (4 * i + 1) = some (.alarmArg i)
    ∧ alarmRegAt (4 * i + 2) = some (.alarmWhen i) := by
  have h0 : 4 * i % 4 = 0 ∧ 4 * i / 4 = i := by omega
  have h1 : (4 * i + 1) % 4 = 1 ∧ (4 * i + 1) / 4 = i := by omega
  have h2 : (4 * i + 2) % 4 = 2 ∧ (4 * i + 2) / 4 = i := by omega
  simp [alarmRegAt, h0, h1, h2]

/-- Offset `j` of an entry of the slot table names its register. -/
theorem slotRegAt_entry (k : Nat) :
    slotRegAt (4 * k + 0) = some (.slotCtl k) ∧ slotRegAt (4 * k + 1) = some (.slotLen k) := by
  have h0 : 4 * k % 4 = 0 ∧ 4 * k / 4 = k := by omega
  have h1 : (4 * k + 1) % 4 = 1 ∧ (4 * k + 1) / 4 = k := by omega
  simp [slotRegAt, h0, h1]

/-- Settles O11: each status word's fields, and the register of each entry of the two tables. -/
theorem rdregShowsTheStatusFieldsAndTheTables : Obligations.RdregShowsTheStatusFieldsAndTheTables := by
  refine ⟨by decide, by decide, by decide, fun s => ⟨?_, ?_, fun i hi => ?_, fun k hk => ?_⟩⟩
  · refine ⟨_, exec_rdreg_of_regAt (r := .almStatus) rfl, ?_⟩
    have hopen : s.inCallback = decide (s.procState = .inCallback) := by
      cases hp : s.procState <;> simp [State.inCallback, hp]
    have hlisted : s.hasPending = decide (s.alist ≠ []) := by
      cases hl : s.alist <;> simp [State.hasPending, hl]
    have hfields := almStatus_fields (if s.inCallback then s.fireCb else 0) (if s.inCallback then s.fireId else 0)
      s.hasPending s.inCallback s.pendingWork
    simp only [hopen, hlisted, decide_eq_true_eq] at hfields
    have hword : readReg s .almStatus = (if s.procState = .inCallback then s.fireCb else 0)
        ++ (if s.procState = .inCallback then s.fireId else 0) ++ 0#5 ++ BitVec.ofBool (decide (s.alist ≠ []))
        ++ BitVec.ofBool (decide (s.procState = .inCallback)) ++ BitVec.ofBool s.pendingWork := by
      show almStatus s = _
      simp only [almStatus, hopen, hlisted, decide_eq_true_eq]
    rw [hword]
    exact hfields
  · refine ⟨_, exec_rdreg_of_regAt (r := .macStatus) rfl, ?_⟩
    obtain ⟨h0, h1, h2, h7, h8, h16, h4, h24⟩ := macStatus_fields s.headIndex s.macSeq (BitVec.ofNat 8 s.order.length)
      (phaseCode s.headPhase) (txOwnerCode s.txOwner) s.radioBusy s.macInited
    refine ⟨h0, h1, h2, h7, h8, h16, fun hground => ?_, fun k hk hone => ?_⟩
    · have hnone := (inFlight?_eq_none_iff s).2 hground
      refine ⟨h4.trans ?_, h24.trans ?_⟩
      · rw [State.headPhase, hnone]; rfl
      · rw [State.headIndex, hnone]
    · have hfound := inFlight?_of_unique s k hk fun j hj hst => hj (hone j hst)
      refine ⟨h4.trans ?_, h24.trans ?_⟩
      · rw [State.headPhase, hfound]
      · rw [State.headIndex, hfound]
  · obtain ⟨hctl, harg, hwhen⟩ := alarmRegAt_entry i
    have at0 := (regAt_alarm s.cfg (n := 0x0100 + 4 * i) (j := 0) (by omega) hi (by omega)).trans hctl
    have at1 := (regAt_alarm s.cfg (n := 0x0100 + 4 * i + 1) (by omega) hi (by omega)).trans harg
    have at2 := (regAt_alarm s.cfg (n := 0x0100 + 4 * i + 2) (by omega) hi (by omega)).trans hwhen
    exact ⟨⟨_, exec_rdreg_of_regAt at0, alarmCtl_fields (s.alarm i).cb (s.alarm i).state (s.alarm i).bound⟩,
      exec_rdreg_of_regAt (r := .alarmArg i) at1, exec_rdreg_of_regAt (r := .alarmWhen i) at2⟩
  · obtain ⟨hctl, hlen⟩ := slotRegAt_entry k
    have at0 := (regAt_slot s.cfg (n := 0x1000 + 4 * k) (j := 0) (by omega) hk (by omega)).trans hctl
    have at1 := (regAt_slot s.cfg (n := 0x1000 + 4 * k + 1) (by omega) hk (by omega)).trans hlen
    refine ⟨⟨_, exec_rdreg_of_regAt at0, slotCtl_fields (s.slot k).seq (s.slot k).attempts (s.slot k).ackreq
      (phaseCode (s.slot k).phase) (slotStateCode (s.slot k).state)⟩,
      ⟨_, exec_rdreg_of_regAt (r := .slotLen k) at1, fun hidle => if_pos hidle, fun hocc => ?_⟩⟩
    have hword : readReg s (.slotLen k) = BitVec.ofNat 16 (s.slot k).data.length ++ 0#8
        ++ BitVec.ofNat 8 (s.slot k).hdr.length := if_neg hocc
    rw [hword]
    exact slotLen_fields _ _

end Sys2Proof.Machine

/-! SUPPORT. The queries of the outside and the engine's procedures (spec/43_mac_tx.md section 4): a procedure asks at
most once and draws at most once, so what it does depends on the next answer and the next draw alone, wherever they
come from. -/

namespace Sys2Proof.Machine

/-! ### States that differ in the queries -/

/-- `s` with what is supplied for coming queries, and how many were answered, replaced. -/
def withQueries (answers : List Bool) (draws : List Word) (n : Nat) (s : State) : State :=
  { s with channelAnswers := answers, draws := draws, queries := n }

theorem sameButQueries_iff (t u : State) :
    SameButQueries t u ↔ ∃ answers draws n, t = withQueries answers draws n u :=
  ⟨fun h => ⟨_, _, _, h⟩, by rintro ⟨answers, draws, n, rfl⟩; rfl⟩

theorem withQueries_same (answers : List Bool) (draws : List Word) (n : Nat) (s : State) :
    SameButQueries (withQueries answers draws n s) s := rfl

theorem supplied_same (answers : List Bool) (draws : List Word) (s : State) :
    SameButQueries (supplied answers draws s) s := rfl

/-- A procedure that neither looks at the queries nor touches them. -/
def Queryless (f : State → State) : Prop :=
  ∀ answers draws n s, f (withQueries answers draws n s) = withQueries answers draws n (f s)

end Sys2Proof.Machine

namespace Sys2Proof.SameButQueries

open Machine

theorem symm {t u : State} (h : SameButQueries t u) : SameButQueries u t := by
  obtain ⟨answers, draws, n, rfl⟩ := (sameButQueries_iff t u).1 h
  rfl

theorem trans {t u v : State} (h : SameButQueries t u) (h' : SameButQueries u v) :
    SameButQueries t v := by
  obtain ⟨answers, draws, n, rfl⟩ := (sameButQueries_iff t u).1 h
  obtain ⟨answers', draws', n', rfl⟩ := (sameButQueries_iff u v).1 h'
  rfl

/-- What does not depend on the queries is the same in both. -/
theorem congr {α : Type} (f : State → α) (hf : ∀ answers draws n s, f (withQueries answers draws n s) = f s)
    {t u : State} (h : SameButQueries t u) : f t = f u := by
  obtain ⟨answers, draws, n, rfl⟩ := (sameButQueries_iff t u).1 h
  exact hf answers draws n u

theorem map {f : State → State} (hf : Queryless f) {t u : State} (h : SameButQueries t u) :
    SameButQueries (f t) (f u) := by
  obtain ⟨answers, draws, n, rfl⟩ := (sameButQueries_iff t u).1 h
  rw [hf]
  exact withQueries_same _ _ _ _

end Sys2Proof.SameButQueries

namespace Sys2Proof.Machine

theorem removeAlarm_queryless (a : Nat) : Queryless (removeAlarm a) := fun _ _ _ _ => rfl

theorem transmit_queryless (k : Nat) : Queryless (transmit k) := fun _ _ _ _ => rfl

/-- Out of the loop with an empty list. -/
theorem leavePass_of_nil {s : State} (h : s.alist = []) : leavePass s = endPass s := by
  simp only [leavePass, h]

/-- Out of the loop with an alarm at the head. -/
theorem leavePass_of_cons {s : State} {a : Nat} {l : List Nat} (h : s.alist = a :: l) :
    leavePass s
      = if s.ready a s.procNow && (s.alarm a).cb != cbMac then openWindow a (removeAlarm a s) else endPass s := by
  simp only [leavePass, h]

/-- Leaving the loop has nothing to ask (R121). -/
theorem leavePass_queryless : Queryless leavePass := by
  intro answers draws n s
  cases hl : s.alist with
  | nil => rw [leavePass_of_nil hl]; exact leavePass_of_nil hl
  | cons a l =>
    rw [leavePass_of_cons hl]
    have hwith : leavePass (withQueries answers draws n s)
        = if s.ready a s.procNow && (s.alarm a).cb != cbMac then
            withQueries answers draws n (openWindow a (removeAlarm a s))
          else withQueries answers draws n (endPass s) := leavePass_of_cons (s := withQueries answers draws n s) hl
    rw [hwith, apply_ite (withQueries answers draws n)]

end Sys2Proof.Machine

namespace Sys2Proof.SameButQueries

open Machine

/-- Whether the loop goes on has nothing to do with the queries. -/
theorem engineDue_eq {t u : State} (h : SameButQueries t u) : engineDue t = engineDue u := by
  obtain ⟨answers, draws, n, rfl⟩ := (sameButQueries_iff t u).1 h
  show engineDue { u with channelAnswers := answers, draws := draws, queries := n } = _
  unfold engineDue
  cases u.alist <;> rfl

end Sys2Proof.SameButQueries

namespace Sys2Proof.Machine

/-! ### The next answer and the next draw -/

/-- What the channel answers when it is asked in `s`. -/
def nextAnswer (s : State) : Bool := (askChannel s).1

/-- What is drawn when the channel has been asked in `s`. -/
def nextDraw (s : State) : Word := (drawBackoff (askChannel s).2).1

theorem askChannel_same (s : State) : SameButQueries (askChannel s).2 s := by
  unfold askChannel
  split <;> rfl

theorem drawBackoff_same (s : State) : SameButQueries (drawBackoff s).2 s := by
  unfold drawBackoff
  split <;> rfl

theorem nextDraw_range (s : State) (h : 1 ≤ s.cfg.maxInitBackoff.toNat) :
    1 ≤ (nextDraw s).toNat ∧ (nextDraw s).toNat ≤ s.cfg.maxInitBackoff.toNat := by
  have hc := (askChannel_frame s).cfg
  rw [← hc] at h ⊢
  exact drawBackoff_range _ h

/-- A draw in the range is taken as it is (R191). -/
theorem boundedDraw_of_range {m r : Word} (h1 : 1 ≤ r.toNat) (h2 : r.toNat ≤ m.toNat) : boundedDraw m r = r := by
  rw [boundedDraw, if_neg (by omega), if_pos h2]

/-- A bounded draw is in the range already, or the range is empty and the draw is 1. -/
theorem boundedDraw_boundedDraw (m r : Word) : boundedDraw m (boundedDraw m r) = boundedDraw m r := by
  by_cases hm : 1 ≤ m.toNat
  · obtain ⟨h1, h2⟩ := boundedDraw_range m r hm
    exact boundedDraw_of_range h1 h2
  · have hone (x : Word) : boundedDraw m x = 1 := by
      rw [boundedDraw, if_pos (show m.toNat < 1 by omega)]
      split
      · rfl
      · rw [if_neg (by omega)]
    rw [hone, hone]

/-! ### What the procedures depend on -/

/-- Two states that differ in the queries alone and get the same next answer and the same next draw. -/
structure Alike (t u : State) : Prop where
  same : SameButQueries t u
  answer : nextAnswer t = nextAnswer u
  draw : nextDraw t = nextDraw u

/-- The next answer is the first one supplied, or the free value (R7). -/
theorem nextAnswer_eq (s : State) : nextAnswer s = s.channelAnswers.headD (Config.channelClear s.queries) := by
  unfold nextAnswer askChannel
  cases h : s.channelAnswers <;> rfl

/-- The next draw is the first one supplied, or the free value, bounded (R191). -/
theorem nextDraw_eq (s : State) :
    nextDraw s = boundedDraw s.cfg.maxInitBackoff
      (s.draws.headD (Config.backoffDraw (if s.channelAnswers = [] then s.queries + 1 else s.queries))) := by
  have drawn (u : State) : (drawBackoff u).1
      = boundedDraw u.cfg.maxInitBackoff (u.draws.headD (Config.backoffDraw u.queries)) := by
    unfold drawBackoff
    cases h : u.draws <;> rfl
  unfold nextDraw askChannel
  rw [drawn]
  cases h : s.channelAnswers <;> rfl

/-- A procedure that asks nothing keeps states alike. -/
theorem Alike.map {f : State → State} (hf : Queryless f) (hc : ∀ s, (f s).cfg = s.cfg) {t u : State} (h : Alike t u) :
    Alike (f t) (f u) := by
  have keeps (s : State) : f s = withQueries s.channelAnswers s.draws s.queries (f s) := hf _ _ _ s
  have answers (s : State) : (f s).channelAnswers = s.channelAnswers := (congrArg State.channelAnswers (keeps s) :)
  have draws (s : State) : (f s).draws = s.draws := (congrArg State.draws (keeps s) :)
  have queries (s : State) : (f s).queries = s.queries := (congrArg State.queries (keeps s) :)
  have answer (s : State) : nextAnswer (f s) = nextAnswer s := by
    rw [nextAnswer_eq, nextAnswer_eq, answers, queries]
  have draw (s : State) : nextDraw (f s) = nextDraw s := by
    rw [nextDraw_eq, nextDraw_eq, answers, draws, queries, hc]
  exact ⟨h.same.map hf, by rw [answer, answer, h.answer], by rw [draw, draw, h.draw]⟩

/-- Carrier sense with the answer `clear` and the draw `r` (R190). -/
def sensed (clear : Bool) (r : Word) (k : Nat) (s : State) : State :=
  if clear && !s.radioBusy then transmit k s else (schedMA r s).setPhase k .senseBackoff

theorem sensed_queryless (clear : Bool) (r : Word) (k : Nat) : Queryless (sensed clear r k) := by
  intro answers draws n s
  show (if clear && !s.radioBusy then _ else _) = withQueries answers draws n (if clear && !s.radioBusy then _ else _)
  split <;> rfl

/-- Carrier sense does what the next answer and the next draw say. -/
theorem sense_same (k : Nat) (s : State) : SameButQueries (sense k s) (sensed (nextAnswer s) (nextDraw s) k s) := by
  have hbusy : (askChannel s).2.radioBusy = s.radioBusy := (askChannel_keeps s).2.2.2.2.1
  have hasked := askChannel_same s
  have hdrawn := (drawBackoff_same (askChannel s).2).trans hasked
  unfold sense sensed
  rw [← hbusy]
  change SameButQueries (if nextAnswer s && !(askChannel s).2.radioBusy then _ else _) _
  split
  · exact hasked.map (transmit_queryless k)
  · exact hdrawn.map (f := fun s' => (schedMA (nextDraw s) s').setPhase k .senseBackoff) fun _ _ _ _ => rfl

theorem Alike.sense {t u : State} (h : Alike t u) (k : Nat) : SameButQueries (sense k t) (sense k u) := by
  refine (sense_same k t).trans (SameButQueries.trans ?_ (sense_same k u).symm)
  rw [h.answer, h.draw]
  exact h.same.map (sensed_queryless _ _ k)

theorem Alike.beginAttempt {t u : State} (h : Alike t u) (k : Nat) :
    SameButQueries (beginAttempt k t) (beginAttempt k u) := by
  have hcfg : t.cfg = u.cfg := h.same.congr State.cfg fun _ _ _ _ => rfl
  unfold Machine.beginAttempt
  rw [hcfg]
  split
  · exact h.same.map (transmit_queryless k)
  · exact h.sense k

theorem Alike.arbitrate {t u : State} (h : Alike t u) : SameButQueries (arbitrate t) (arbitrate u) := by
  have hbusy : t.radioBusy = u.radioBusy := h.same.congr State.radioBusy fun _ _ _ _ => rfl
  have hfound : t.inFlight? = u.inFlight? := h.same.congr State.inFlight? fun _ _ _ _ => rfl
  have horder : t.order = u.order := h.same.congr State.order fun _ _ _ _ => rfl
  cases hb : u.radioBusy with
  | true => rw [arbitrate_of_busy t (hbusy.trans hb), arbitrate_of_busy u hb]; exact h.same
  | false =>
    cases hf : u.inFlight? with
    | some j => rw [arbitrate_of_inFlight t j (hfound.trans hf), arbitrate_of_inFlight u j hf]; exact h.same
    | none =>
      cases ho : u.order with
      | nil => rw [arbitrate_of_empty t (horder.trans ho), arbitrate_of_empty u ho]; exact h.same
      | cons k l =>
        rw [arbitrate_of_idle t k l (hbusy.trans hb) (hfound.trans hf) (horder.trans ho),
          arbitrate_of_idle u k l hb hf ho]
        exact (h.map (f := fun s => s.setSlot k { s.slot k with state := .inFlight }) (fun _ _ _ _ => rfl)
          fun _ => rfl).beginAttempt k

theorem Alike.ackTimedOut {t u : State} (h : Alike t u) (k : Nat) :
    SameButQueries (ackTimedOut k t) (ackTimedOut k u) := by
  have hcfg : t.cfg = u.cfg := h.same.congr State.cfg fun _ _ _ _ => rfl
  have hslot : t.slot k = u.slot k := h.same.congr (State.slot · k) fun _ _ _ _ => rfl
  have hdelay : retryDelay t k = retryDelay u k := h.same.congr (retryDelay · k) fun _ _ _ _ => rfl
  unfold Machine.ackTimedOut
  rw [hcfg, hslot, hdelay]
  split
  · exact h.same.map (f := fun s => (schedMA (retryDelay u k) s).setPhase k .retryBackoff) fun _ _ _ _ => rfl
  · exact (h.map (f := release k .ackTimeout) (fun _ _ _ _ => rfl) fun _ => rfl).arbitrate

/-- The engine alarm's handler asks at most once and draws at most once (R196). -/
theorem Alike.macAlarm {t u : State} (h : Alike t u) : SameButQueries (macAlarm t) (macAlarm u) := by
  have hfound : t.inFlight? = u.inFlight? := h.same.congr State.inFlight? fun _ _ _ _ => rfl
  cases hf : u.inFlight? with
  | none =>
    have hground := (inFlight?_eq_none_iff u).1 hf
    rw [macAlarm_of_none u hground, macAlarm_of_none t ((inFlight?_eq_none_iff t).1 (hfound.trans hf))]
    exact h.same
  | some k =>
    have hft := hfound.trans hf
    have hphase : (t.slot k).phase = (u.slot k).phase := h.same.congr (fun s => (State.slot s k).phase) fun _ _ _ _ => rfl
    cases hp : (u.slot k).phase with
    | senseBackoff =>
      rw [macAlarm_of_senseBackoff hft (hphase.trans hp), macAlarm_of_senseBackoff hf hp]
      exact h.sense k
    | awaitAck =>
      rw [macAlarm_of_awaitAck hft (hphase.trans hp), macAlarm_of_awaitAck hf hp]
      exact h.ackTimedOut k
    | retryBackoff =>
      rw [macAlarm_of_retryBackoff hft (hphase.trans hp), macAlarm_of_retryBackoff hf hp]
      exact h.beginAttempt k
    | transmitting =>
      rw [macAlarm_of_not_waiting hft (.inl (hphase.trans hp)), macAlarm_of_not_waiting hf (.inl hp)]
      exact h.same
    | none =>
      rw [macAlarm_of_not_waiting hft (.inr (hphase.trans hp)), macAlarm_of_not_waiting hf (.inr hp)]
      exact h.same

/-! ### The loop (R121) -/

theorem engineReady_iff (s : State) : EngineReady s ↔ ∃ a, engineDue s = some a := by
  simp only [EngineReady, engineDue_eq_some, ready_iff]
  constructor
  · rintro ⟨a, l, hl, hr, hc⟩; exact ⟨a, ⟨l, hl⟩, hr, hc⟩
  · rintro ⟨a, ⟨l, hl⟩, hr, hc⟩; exact ⟨a, l, hl, hr, hc⟩

end Sys2Proof.Machine

namespace Sys2Proof.PassLoop

open Machine

/-- With no engine alarm due the loop is left. -/
theorem leave {s : State} (h : engineDue s = none) : PassLoop 0 s (leavePass s) := by
  rcases leavePass_cases s with ⟨e, hquiet | ⟨a, ha⟩⟩ | ⟨a, l, hl, hr, hc, e⟩
  · rw [e]; exact .ends s ((hasReady_eq_false_iff s _).1 hquiet)
  · rw [h] at ha; cases ha
  · rw [e, openWindow_removeAlarm]; exact .fires s a l hl ((ready_iff _ _ _).1 hr) hc

/-- One round with the engine alarm. -/
theorem round {n : Nat} {s t : State} {a : Nat} (h : engineDue s = some a)
    (ht : PassLoop n (macAlarm (removeAlarm a s)) t) : PassLoop (n + 1) s t := by
  obtain ⟨⟨l, hl⟩, hr, hc⟩ := (engineDue_eq_some s a).1 h
  exact .engine n s t a l hl ((ready_iff _ _ _).1 hr) hc ht

/-- The loop by its own test: it is left, or makes one round more. -/
theorem cases_due {n : Nat} {s t : State} (h : PassLoop n s t) :
    (engineDue s = none ∧ n = 0 ∧ t = leavePass s)
    ∨ ∃ a m, engineDue s = some a ∧ n = m + 1 ∧ PassLoop m (macAlarm (removeAlarm a s)) t := by
  have left (hd : engineDue s = none) : t = leavePass s :=
    (runPass_of_passLoop h n (Nat.le_refl n)).symm.trans (runPass_leave n s hd)
  cases h with
  | ends _ hend =>
    have hd := engineDue_of_not_ready s ((hasReady_eq_false_iff s _).2 hend)
    exact .inl ⟨hd, Eq.refl _, left hd⟩
  | fires _ a l hl _ hc =>
    have hd : engineDue s = none := by
      cases hd : engineDue s with
      | none => exact Eq.refl _
      | some b =>
        obtain ⟨⟨m, hm⟩, -, hb⟩ := (engineDue_eq_some s b).1 hd
        obtain ⟨rfl, -⟩ := List.cons.inj (hl.symm.trans hm)
        exact absurd hb hc
    exact .inl ⟨hd, Eq.refl _, left hd⟩
  | engine n _ _ a l hl hr hc ht =>
    exact .inr ⟨a, n, (engineDue_eq_some s a).2 ⟨⟨l, hl⟩, (ready_iff _ _ _).2 hr, hc⟩, Eq.refl _, ht⟩

/-- Where a loop stops (R121): with nothing ready, or in the window of an alarm that was due. -/
theorem stops {n : Nat} {s t : State} (h : PassLoop n s t) :
    t.procNow = s.procNow
    ∧ ((t.procState = .idle ∧ ∀ a, t.alist.head? = some a → IsAfter (t.alarm a).when s.procNow)
      ∨ ∃ a os, t.procState = .inCallback ∧ ¬ IsAfter (t.alarm a).when s.procNow
        ∧ (t.alarm a).state = .idle ∧ a ∉ t.alist ∧ (t.alarm a).cb ≠ 0xFFFF
        ∧ t.fireId = BitVec.ofNat 8 a ∧ t.fireCb = (t.alarm a).cb ∧ t.fireArg = (t.alarm a).arg
        ∧ t.outputs = os ++ [.alarmFire t.fireId t.fireCb t.fireArg]) := by
  induction h with
  | ends s hend => exact ⟨Eq.refl _, .inl ⟨Eq.refl _, hend⟩⟩
  | fires s a l hl hr hc =>
    have hself : (windowOn a s).alarm a = { s.alarm a with state := .idle } := removeAlarm_alarm_self a s
    have hout : a ∉ (windowOn a s).alist := fun ha => ((mem_removeAlarm a s a).1 ha).2 (Eq.refl a)
    refine ⟨Eq.refl _, .inr ⟨a, s.outputs, Eq.refl _, ?_, ?_, hout, ?_, Eq.refl _, ?_, ?_, Eq.refl _⟩⟩ <;> rw [hself]
    · exact hr
    · exact hc
    · exact Eq.refl _
    · exact Eq.refl _
  | engine n s t a l _ _ _ _ ih =>
    have hnow : (macAlarm (removeAlarm a s)).procNow = s.procNow := (macAlarm_frame _).procNow
    rwa [hnow] at ih

end Sys2Proof.PassLoop

namespace Sys2Proof.Machine

/-- The rounds a pass runs one by one: the loop ends in them, or they lead to a state where it goes on. -/
theorem runPass_loop_or_rounds (rounds : Nat) (s : State) :
    (∃ n, n ≤ rounds ∧ PassLoop n s (runPass rounds s)) ∨ ∃ u, EngineRounds rounds s u ∧ EngineReady u := by
  induction rounds generalizing s with
  | zero =>
    cases hd : engineDue s with
    | none => rw [runPass_leave 0 s hd]; exact .inl ⟨0, Nat.le_refl 0, .leave hd⟩
    | some a => exact .inr ⟨s, .none s, (engineReady_iff s).2 ⟨a, hd⟩⟩
  | succ rounds ih =>
    cases hd : engineDue s with
    | none => rw [runPass_leave _ s hd]; exact .inl ⟨0, Nat.zero_le _, .leave hd⟩
    | some a =>
      obtain ⟨⟨l, hl⟩, hr, hc⟩ := (engineDue_eq_some s a).1 hd
      rw [runPass_engine rounds s a l hl hr hc]
      rcases ih (macAlarm (removeAlarm a s)) with ⟨n, hn, ht⟩ | ⟨u, hu, hready⟩
      · exact .inl ⟨n + 1, Nat.succ_le_succ hn, .round hd ht⟩
      · exact .inr ⟨u, .pop rounds s u a l hl ((ready_iff _ _ _).1 hr) hc hu, hready⟩

/-- What is left of a pass once its rounds are run. -/
theorem runPass_of_engineRounds {rounds : Nat} {s u : State} (h : EngineRounds rounds s u) :
    runPass rounds s = runPass 0 u := by
  induction h with
  | none s => exact Eq.refl _
  | pop n s t a l hl hr hc _ ih => rw [runPass_engine n s a l hl ((ready_iff _ _ _).2 hr) hc, ih]

/-- One round in which the channel answers `x.1` and `x.2` is drawn, as R191 bounds it. -/
theorem answeredRound_same (a : Nat) (u : State) (x : Bool × Word) (answers : List Bool) (draws : List Word) :
    SameButQueries
      (macAlarm (removeAlarm a (supplied (x.1 :: answers) (boundedDraw u.cfg.maxInitBackoff x.2 :: draws) u)))
      (answeredRound a u x) := by
  rw [answeredRound_eq]
  refine Alike.macAlarm (Alike.map (removeAlarm_queryless a) (removeAlarm_cfg a) ⟨rfl, rfl, ?_⟩)
  exact boundedDraw_boundedDraw _ _

/-- The rest of a loop with the engine alarm due ends it in one round, or gives it up where no answer considered ends it. -/
theorem runPass_zero_of_due {u : State} {a : Nat} (hd : engineDue u = some a) :
    (endingAnswers a u = none ∧ runPass 0 u = { u with procState := .idle }) ∨ OneRoundEnds u (runPass 0 u) := by
  rw [runPass_last u a hd]
  rcases restOfLoop_cases a u with ⟨hnone, e⟩ | ⟨x, hx, e⟩
  · obtain ⟨⟨l, hl⟩, -, hc⟩ := (engineDue_eq_some u a).1 hd
    rw [e, leavePass_of_cons hl]
    exact .inl ⟨hnone, if_neg (by simp [hc])⟩
  · refine .inr ?_
    have hsame := answeredRound_same a u x [] []
    have hleft : engineDue (macAlarm (removeAlarm a (supplied [x.1] [boundedDraw u.cfg.maxInitBackoff x.2] u))) = none :=
      hsame.engineDue_eq.trans hx
    have hend : leavePass (restOfLoop a u)
        = withQueries u.channelAnswers u.draws (u.queries + 1) (leavePass (answeredRound a u x)) := by
      rw [e]
      exact leavePass_queryless u.channelAnswers u.draws (u.queries + 1) (answeredRound a u x)
    refine ⟨x.1, boundedDraw u.cfg.maxInitBackoff x.2, _, boundedDraw_range _ _, PassLoop.round hd (.leave hleft), ?_, ?_⟩
    · rw [hend]
      exact (withQueries_same _ _ _ _).trans (hsame.map leavePass_queryless).symm
    · rw [hend]
      exact ⟨rfl, rfl⟩

end Sys2Proof.Machine

/-! SUPPORT. The loop of re-senses (spec/40_alarm.md section 5, spec/43_mac_tx.md section 4): while the engine alarm of a
packet in its backoff is due, a round either puts the packet on the air or moves the engine alarm, and nothing else. -/

namespace Sys2Proof.Machine

/-! ### Arming again -/

/-- What arming writes (R117). -/
theorem armAlarm_eq (i : Nat) (d : Word) (s : State) (h : i < s.alarms.length) :
    armAlarm i d s =
      { s with
        alarms := s.alarms.set i { s.alarm i with when := s.jiffies + d, state := .scheduled }
        alist := insertByTime (fun e => (s.alarm e).when) (s.jiffies + d) i (s.alist.filter (fun j => j != i)) } := by
  have halarms : (armAlarm i d s).alarms
      = s.alarms.set i { s.alarm i with when := s.jiffies + d, state := .scheduled } := by
    rw [armAlarm, insertAlarm_alarms, removeAlarm_alarms, setAlarm_alarms, List.set_set, List.set_set,
      removeAlarm_alarm_self, setAlarm_alarm_self _ _ _ h, deadline_eq]
  rw [← armAlarm_alist i d s h, ← halarms]
  rfl

/-- Arming forgets what was known of the alarm but its binding. -/
theorem armAlarm_congr {i : Nat} {d : Word} {s t : State} (h : i < s.alarms.length)
    (hrest : t = { s with alarms := t.alarms, alist := t.alist })
    (halarms : ∃ w st, t.alarms = s.alarms.set i { s.alarm i with when := w, state := st })
    (hlist : t.alist.filter (fun j => j != i) = s.alist.filter (fun j => j != i)) :
    armAlarm i d t = armAlarm i d s := by
  obtain ⟨w, st, halarms⟩ := halarms
  have ht : t = { s with alarms := s.alarms.set i { s.alarm i with when := w, state := st }, alist := t.alist } := by
    rw [← halarms]
    exact hrest
  have hlt : i < t.alarms.length := by rw [halarms, List.length_set]; exact h
  have hother (j : Nat) (hj : j ≠ i) : t.alarm j = s.alarm j := by
    rw [ht]
    exact setAlarm_alarm_ne s i j _ hj
  have hself : t.alarm i = { s.alarm i with when := w, state := st } := by
    rw [ht]
    exact setAlarm_alarm_self s i _ h
  have hjiffies : t.jiffies = s.jiffies := by rw [ht]
  have hinsert : insertByTime (fun e => (t.alarm e).when) (s.jiffies + d) i (s.alist.filter (fun j => j != i))
      = insertByTime (fun e => (s.alarm e).when) (s.jiffies + d) i (s.alist.filter (fun j => j != i)) := by
    refine insertByTime_congr _ _ _ _ _ fun e he => ?_
    rw [hother e (by simpa using (List.mem_filter.1 he).2)]
  rw [armAlarm_eq i d t hlt, armAlarm_eq i d s h, hjiffies, hself, hlist, hinsert, halarms, List.set_set, hrest]

/-- An alarm is unlinked before it is armed anyway. -/
theorem schedMA_removeAlarm (d : Word) (s : State) (h : s.engineAlarm < s.alarms.length) :
    schedMA d (removeAlarm s.engineAlarm s) = schedMA d s :=
  armAlarm_congr h rfl ⟨_, _, rfl⟩ (by simp)

/-- Of two delays the last one counts. -/
theorem armAlarm_armAlarm (i : Nat) (d e : Word) (s : State) (h : i < s.alarms.length) :
    armAlarm i d (armAlarm i e s) = armAlarm i d s := by
  refine armAlarm_congr h rfl ⟨s.jiffies + e, .scheduled, congrArg State.alarms (armAlarm_eq i e s h)⟩ ?_
  rw [armAlarm_alist i e s h, filter_insertByTime, List.filter_filter]
  simp

theorem schedMA_schedMA (d e : Word) (s : State) (h : s.engineAlarm < s.alarms.length) :
    schedMA d (schedMA e s) = schedMA d s := armAlarm_armAlarm s.engineAlarm d e s h

/-- A slot that has the phase already. -/
theorem setPhase_of_phase {s : State} {k : Nat} {p : Phase} (hk : k < s.slots.length) (h : (s.slot k).phase = p) :
    s.setPhase k p = s := by
  have hslot : { s.slot k with phase := p } = s.slots[k] := by
    rw [← h]
    exact List.getD_eq_getElem _ _ hk
  have hslots : s.slots.set k { s.slot k with phase := p } = s.slots := by rw [hslot, List.set_getElem_self]
  calc s.setPhase k p = { s with slots := s.slots.set k { s.slot k with phase := p } } := rfl
    _ = s := by rw [hslots]

/-! ### A packet in its backoff -/

/-- Slot `k` is in flight and in its backoff, and no listed alarm but the engine's has the engine's callback. -/
structure Resensing (s : State) (k : Nat) : Prop where
  engine : s.engineAlarm < s.alarms.length
  found : s.inFlight? = some k
  phase : (s.slot k).phase = .senseBackoff
  others : ∀ j ∈ s.alist, j ≠ s.engineAlarm → (s.alarm j).cb ≠ cbMac

/-- One round with the answer `clear` and the draw `r`: on the air, or the engine alarm moved. -/
def resensed (clear : Bool) (r : Word) (k : Nat) (s : State) : State :=
  if clear && !s.radioBusy then transmit k (removeAlarm s.engineAlarm s) else schedMA r s

theorem LoopInv.resensing {s : State} (h : LoopInv s) {k : Nat} (hk : (s.slot k).state = .inFlight)
    (hp : (s.slot k).phase = .senseBackoff) : Resensing s k where
  engine := h.sized.engineAlarm_lt
  found := (h.engine.flying hk).alone.found
  phase := hp
  others _ hj hne hcb := hne (engineAlarm_of_cbMac h.sized h.alist h.binding hj hcb)

namespace Resensing

variable {s : State} {k : Nat}

theorem slot_lt (h : Resensing s k) : k < s.slots.length :=
  lt_of_not_idle s k (by rw [inFlight_of_found h.found]; decide)

/-- The engine alarm is the one that is due. -/
theorem due_eq (h : Resensing s k) {a : Nat} (hd : engineDue s = some a) :
    a = s.engineAlarm ∧ (s.alarm s.engineAlarm).cb = cbMac := by
  obtain ⟨⟨l, hl⟩, -, hc⟩ := (engineDue_eq_some s a).1 hd
  have ha : a = s.engineAlarm := by
    by_contra hne
    exact h.others a (by simp [hl]) hne hc
  exact ⟨ha, ha ▸ hc⟩

/-- The packet is still in its backoff when the engine alarm has been moved. -/
theorem moved (h : Resensing s k) (d : Word) : Resensing (schedMA d s) k where
  engine := by rw [schedMA_engineAlarm, schedMA_alarms, armAlarm_length]; exact h.engine
  found := h.found
  phase := h.phase
  others j hj hne := by
    have hcb : ((schedMA d s).alarm j) = s.alarm j := armAlarm_alarm_ne s.engineAlarm d s j hne
    rw [hcb]
    exact h.others j (((mem_armAlarm s.engineAlarm d s j).1 hj).resolve_left hne) hne

/-- Carrier sense once the engine alarm is unlinked. -/
theorem sensed_eq (h : Resensing s k) (clear : Bool) (r : Word) :
    sensed clear r k (removeAlarm s.engineAlarm s) = resensed clear r k s := by
  have hsched := schedMA_removeAlarm r s h.engine
  unfold sensed resensed
  rw [hsched, setPhase_of_phase (s := schedMA r s) h.slot_lt h.phase]
  rfl

/-- A round, wherever its answer and its draw come from. -/
theorem round_same (h : Resensing s k) {t : State} (ht : SameButQueries t s)
    (hm : 1 ≤ s.cfg.maxInitBackoff.toNat) :
    ∃ clear r, (1 ≤ r.toNat ∧ r.toNat ≤ s.cfg.maxInitBackoff.toNat)
      ∧ SameButQueries (macAlarm (removeAlarm s.engineAlarm t)) (resensed clear r k s) := by
  have hcfg : t.cfg = s.cfg := ht.congr State.cfg fun _ _ _ _ => rfl
  have hfound : t.inFlight? = s.inFlight? := ht.congr State.inFlight? fun _ _ _ _ => rfl
  have hphase : (t.slot k).phase = (s.slot k).phase := ht.congr (fun u => (State.slot u k).phase) fun _ _ _ _ => rfl
  have hun := ht.map (removeAlarm_queryless s.engineAlarm)
  have hrange := nextDraw_range (removeAlarm s.engineAlarm t) (by rw [removeAlarm_cfg, hcfg]; exact hm)
  rw [removeAlarm_cfg, hcfg] at hrange
  refine ⟨nextAnswer (removeAlarm s.engineAlarm t), nextDraw (removeAlarm s.engineAlarm t), hrange, ?_⟩
  rw [macAlarm_of_senseBackoff (s := removeAlarm s.engineAlarm t) (hfound.trans h.found) (hphase.trans h.phase),
    ← h.sensed_eq]
  exact (sense_same k _).trans (hun.map (sensed_queryless _ _ k))

/-- A round that finds the channel busy, with all that is left to be answered. -/
theorem round_busy (h : Resensing s k) (answers : List Bool) {r : Word} (draws : List Word) (h1 : 1 ≤ r.toNat)
    (h2 : r.toNat ≤ s.cfg.maxInitBackoff.toNat) :
    macAlarm (removeAlarm s.engineAlarm (supplied (false :: answers) (r :: draws) s))
      = supplied answers draws (schedMA r s) := by
  have hmoved : (schedMA r (removeAlarm s.engineAlarm s)).setPhase k .senseBackoff = schedMA r s := h.sensed_eq false r
  calc macAlarm (removeAlarm s.engineAlarm (supplied (false :: answers) (r :: draws) s))
      = sense k (supplied (false :: answers) (r :: draws) (removeAlarm s.engineAlarm s)) :=
        macAlarm_of_senseBackoff (s := supplied (false :: answers) (r :: draws) (removeAlarm s.engineAlarm s))
          h.found h.phase
    _ = supplied answers draws ((schedMA r (removeAlarm s.engineAlarm s)).setPhase k .senseBackoff) :=
        sense_busy k (supplied (false :: answers) (r :: draws) (removeAlarm s.engineAlarm s)) false answers r draws
          rfl rfl h1 h2 (.inl rfl)
    _ = supplied answers draws (schedMA r s) := by rw [hmoved]

/-- A round that finds the channel clear and the radio idle. -/
theorem round_clear (h : Resensing s k) (hb : s.radioBusy = false) (answers : List Bool) (draws : List Word) :
    macAlarm (removeAlarm s.engineAlarm (supplied (true :: answers) draws s))
      = supplied answers draws (transmit k (removeAlarm s.engineAlarm s)) := by
  refine (macAlarm_of_senseBackoff (s := removeAlarm s.engineAlarm (supplied (true :: answers) draws s))
    h.found h.phase).trans ?_
  exact sense_clear k (removeAlarm s.engineAlarm (supplied (true :: answers) draws s)) answers rfl hb

/-- On the air the engine alarm is not armed. -/
theorem engineDue_transmit (h : Resensing s k) : engineDue (transmit k (removeAlarm s.engineAlarm s)) = none := by
  cases hd : engineDue (transmit k (removeAlarm s.engineAlarm s)) with
  | none => rfl
  | some a =>
    obtain ⟨⟨l, hl⟩, -, hc⟩ := (engineDue_eq_some _ a).1 hd
    have hmem : a ∈ (removeAlarm s.engineAlarm s).alist := by
      rw [show (removeAlarm s.engineAlarm s).alist = a :: l from hl]
      exact List.mem_cons_self
    obtain ⟨ha, hne⟩ := (mem_removeAlarm _ _ _).1 hmem
    have hcb : (s.alarm a).cb = cbMac := (removeAlarm_cb s.engineAlarm s a).symm.trans hc
    exact absurd hcb (h.others a ha hne)

/-- When a backoff ends the loop: its deadline lies ahead, or some other alarm stays before the engine's. -/
theorem engineDue_schedMA_iff (h : Resensing s k) (hcb : (s.alarm s.engineAlarm).cb = cbMac) (d : Word) :
    engineDue (schedMA d s) = none
      ↔ IsAfter (s.jiffies + d) s.procNow
        ∨ ∃ e, (removeAlarm s.engineAlarm s).alist.head? = some e ∧ ¬ IsAfter (s.alarm e).when (s.jiffies + d) := by
  have hself := armAlarm_alarm_self s.engineAlarm d s h.engine
  have hlist := armAlarm_alist s.engineAlarm d s h.engine
  have headed (l : List Nat) (hl : (schedMA d s).alist = s.engineAlarm :: l) :
      engineDue (schedMA d s) = none ↔ IsAfter (s.jiffies + d) s.procNow := by
    have hdue : engineDue (schedMA d s) = some s.engineAlarm ↔ ¬ IsAfter (s.jiffies + d) s.procNow := by
      rw [engineDue_eq_some, ready_iff]
      show _ ∧ ¬ IsAfter ((armAlarm s.engineAlarm d s).alarm s.engineAlarm).when s.procNow
        ∧ ((armAlarm s.engineAlarm d s).alarm s.engineAlarm).cb = cbMac ↔ _
      rw [hself]
      exact ⟨fun ⟨_, hr, _⟩ => hr, fun hr => ⟨⟨l, hl⟩, hr, hcb⟩⟩
    rw [← not_iff_not, ← hdue]
    constructor
    · intro hne
      obtain ⟨a, ha⟩ := Option.ne_none_iff_exists'.1 hne
      rw [ha, ((h.moved d).due_eq ha).1]
      rfl
    · intro hsome hnone
      rw [hsome] at hnone
      cases hnone
  rw [← removeAlarm_alist] at hlist
  cases hrest : (removeAlarm s.engineAlarm s).alist with
  | nil =>
    rw [hrest] at hlist
    simp [headed [] hlist]
  | cons e es =>
    rw [hrest, insertByTime] at hlist
    by_cases he : timeAfter (s.alarm e).when (s.jiffies + d) = true
    · rw [if_pos he] at hlist
      simp [headed (e :: es) hlist, (timeAfter_iff _ _).1 he]
    · rw [if_neg he] at hlist
      have hbefore : ¬ IsAfter (s.alarm e).when (s.jiffies + d) := fun hafter => he ((timeAfter_iff _ _).2 hafter)
      have hne : e ≠ s.engineAlarm := by
        have hmem : e ∈ (removeAlarm s.engineAlarm s).alist := hrest ▸ List.mem_cons_self
        exact ((mem_removeAlarm _ _ _).1 hmem).2
      refine iff_of_true ?_ (.inr ⟨e, rfl, hbefore⟩)
      cases hd : engineDue (schedMA d s) with
      | none => rfl
      | some a =>
        obtain ⟨⟨l, hl⟩, -, -⟩ := (engineDue_eq_some _ a).1 hd
        obtain ⟨rfl, -⟩ := List.cons.inj (hl.symm.trans hlist)
        exact absurd ((h.moved d).due_eq hd).1 hne

end Resensing

/-! ### The backoffs at which the loop can end -/

/-- If any backoff is after the pass's time, the shortest one is or the one for the first tick after it. -/
theorem exists_turning_after {j now m d : Word} (hm : m.toNat < 2 ^ 31) (h1 : 1 ≤ d.toNat) (h2 : d.toNat ≤ m.toNat)
    (h : IsAfter (j + d) now) : ∃ r, (r = 1 ∨ r = now + 1 - j) ∧ IsAfter (j + boundedDraw m r) now := by
  have hone : (1 : Word).toNat = 1 := rfl
  have hfirst : boundedDraw m 1 = 1 := boundedDraw_of_range (by omega) (by omega)
  by_cases hstart : IsAfter (j + 1) now
  · exact ⟨1, .inl rfl, by rwa [hfirst]⟩
  · have hj := j.isLt
    have hn := now.isLt
    have hr : (now + 1 - j).toNat = (now.toNat + 1 + 2 ^ 32 - j.toNat) % 2 ^ 32 := by
      rw [BitVec.toNat_sub, BitVec.toNat_add]; omega
    have hnext : j + (now + 1 - j) = now + 1 := by ring
    unfold IsAfter at h hstart
    rw [BitVec.toNat_add] at h hstart
    refine ⟨now + 1 - j, .inr rfl, ?_⟩
    rw [boundedDraw_of_range (by omega) (by omega), hnext]
    unfold IsAfter
    rw [BitVec.toNat_add]
    omega

/-- If any backoff leaves an alarm due at `w` before the engine's, the shortest one does or the one until `w`. -/
theorem exists_turning_behind {j w m d : Word} (hm : m.toNat < 2 ^ 31) (h1 : 1 ≤ d.toNat) (h2 : d.toNat ≤ m.toNat)
    (h : ¬ IsAfter w (j + d)) : ∃ r, (r = 1 ∨ r = w - j) ∧ ¬ IsAfter w (j + boundedDraw m r) := by
  have hone : (1 : Word).toNat = 1 := rfl
  have hfirst : boundedDraw m 1 = 1 := boundedDraw_of_range (by omega) (by omega)
  by_cases hstart : IsAfter w (j + 1)
  · have hj := j.isLt
    have hw := w.isLt
    have hr : (w - j).toNat = (w.toNat + 2 ^ 32 - j.toNat) % 2 ^ 32 := by
      rw [BitVec.toNat_sub]; omega
    have huntil : j + (w - j) = w := by ring
    unfold IsAfter at h hstart
    rw [BitVec.toNat_add] at h hstart
    refine ⟨w - j, .inr rfl, ?_⟩
    rw [boundedDraw_of_range (by omega) (by omega), huntil]
    unfold IsAfter
    omega
  · exact ⟨1, .inl rfl, by rwa [hfirst]⟩

/-- If any backoff ends the loop, one of those the model tries does. -/
theorem Resensing.exists_turningDraw {s : State} {k : Nat} (h : Resensing s k)
    (hcb : (s.alarm s.engineAlarm).cb = cbMac) (hm : s.cfg.maxInitBackoff.toNat < 2 ^ 31) {d : Word} (h1 : 1 ≤ d.toNat)
    (h2 : d.toNat ≤ s.cfg.maxInitBackoff.toNat) (hend : engineDue (schedMA d s) = none) :
    ∃ r ∈ turningDraws s.engineAlarm s,
      engineDue (schedMA (boundedDraw s.cfg.maxInitBackoff r) s) = none := by
  rcases (h.engineDue_schedMA_iff hcb d).1 hend with hafter | ⟨e, he, hbefore⟩
  · obtain ⟨r, hr, hturn⟩ := exists_turning_after hm h1 h2 hafter
    refine ⟨r, ?_, (h.engineDue_schedMA_iff hcb _).2 (.inl hturn)⟩
    rcases hr with rfl | rfl <;> simp [turningDraws]
  · obtain ⟨r, hr, hturn⟩ := exists_turning_behind hm h1 h2 hbefore
    refine ⟨r, ?_, (h.engineDue_schedMA_iff hcb _).2 (.inr ⟨e, he, hturn⟩)⟩
    rw [turningDraws, he]
    rcases hr with rfl | rfl <;> simp

/-! ### How a loop of re-senses ends -/

/-- The states in which a loop of re-senses from `s` is left: behind a backoff, on the air at once, or on the air after a
backoff whose deadline stays behind (R43). -/
inductive ResenseEnd (s : State) (k : Nat) : State → Prop where
  | backoff (d : Word) : 1 ≤ d.toNat → d.toNat ≤ s.cfg.maxInitBackoff.toNat → engineDue (schedMA d s) = none →
      ResenseEnd s k (schedMA d s)
  | clear : s.radioBusy = false → ResenseEnd s k (transmit k (removeAlarm s.engineAlarm s))
  | later (d : Word) : 1 ≤ d.toNat → d.toNat ≤ s.cfg.maxInitBackoff.toNat → s.radioBusy = false →
      engineDue (schedMA d s) = some s.engineAlarm →
      ResenseEnd s k (transmit k (removeAlarm s.engineAlarm (schedMA d s)))

/-- Where a loop of re-senses from `s` stands: at its start or behind a backoff. -/
def Resensed (s t : State) : Prop :=
  t = s ∨ ∃ d : Word, 1 ≤ d.toNat ∧ d.toNat ≤ s.cfg.maxInitBackoff.toNat ∧ t = schedMA d s

/-- A loop of re-senses is left in one of the three ways, wherever it stands. -/
theorem Resensing.loop_ends {s : State} {k : Nat} (h : Resensing s k) (hdue : engineDue s = some s.engineAlarm)
    (hm : 1 ≤ s.cfg.maxInitBackoff.toNat) (n : Nat) {t u v : State} (hu : Resensed s u) (ht : SameButQueries t u)
    (hloop : PassLoop n t v) : ∃ w, ResenseEnd s k w ∧ SameButQueries v (leavePass w) := by
  induction n generalizing t u with
  | zero =>
    rcases hloop.cases_due with ⟨hnone, -, rfl⟩ | ⟨a, m, -, hn, -⟩
    · rw [ht.engineDue_eq] at hnone
      rcases hu with rfl | ⟨d, h1, h2, rfl⟩
      · rw [hdue] at hnone; cases hnone
      · exact ⟨_, .backoff d h1 h2 hnone, ht.map leavePass_queryless⟩
    · cases hn
  | succ n ih =>
    rcases hloop.cases_due with ⟨-, hn, -⟩ | ⟨a, m, ha, hn, hrest⟩
    · cases hn
    obtain rfl : n = m := Nat.succ.inj hn
    rw [ht.engineDue_eq] at ha
    have hstands : Resensing u k ∧ u.cfg = s.cfg ∧ u.radioBusy = s.radioBusy ∧ (∀ d, schedMA d u = schedMA d s) := by
      rcases hu with rfl | ⟨d, -, -, rfl⟩
      · exact ⟨h, rfl, rfl, fun _ => rfl⟩
      · exact ⟨h.moved d, rfl, rfl, fun e => schedMA_schedMA e d s h.engine⟩
    obtain ⟨hres, hcfg, hbusy, hsched⟩ := hstands
    obtain rfl := (hres.due_eq ha).1
    obtain ⟨clear, r, hr, hround⟩ := hres.round_same ht (by rw [hcfg]; exact hm)
    rw [hcfg] at hr
    unfold resensed at hround
    split at hround
    next hclear =>
      have hidle : s.radioBusy = false := by simp_all
      have hleft : SameButQueries v (leavePass (transmit k (removeAlarm u.engineAlarm u))) := by
        rcases hrest.cases_due with ⟨-, -, rfl⟩ | ⟨b, m, hb, -, -⟩
        · exact hround.map leavePass_queryless
        · rw [hround.engineDue_eq, hres.engineDue_transmit] at hb; cases hb
      refine ⟨_, ?_, hleft⟩
      rcases hu with rfl | ⟨d, h1, h2, rfl⟩
      · exact .clear hidle
      · exact .later d h1 h2 hidle ha
    next =>
      rw [hsched] at hround
      exact ih (.inr ⟨r, hr.1, hr.2, rfl⟩) hround hrest

/-- Whatever number of rounds ends a loop of re-senses, at most two rounds end it in the same state. -/
theorem Resensing.ends_in_two {s : State} {k : Nat} (h : Resensing s k) (hdue : engineDue s = some s.engineAlarm)
    (hm : 1 ≤ s.cfg.maxInitBackoff.toNat) {w : State} (hw : ResenseEnd s k w) :
    ∃ (m : Nat) (c1 c2 : Bool) (r1 r2 : Word) (v : State), m ≤ 2
      ∧ 1 ≤ r1.toNat ∧ r1.toNat ≤ s.cfg.maxInitBackoff.toNat ∧ 1 ≤ r2.toNat ∧ r2.toNat ≤ s.cfg.maxInitBackoff.toNat
      ∧ PassLoop m (supplied [c1, c2] [r1, r2] s) v ∧ SameButQueries (leavePass w) v := by
  have hone : (1 : Word).toNat = 1 := rfl
  have due (answers : List Bool) (draws : List Word) {u : State} (hu : engineDue u = some s.engineAlarm) :
      engineDue (supplied answers draws u) = some s.engineAlarm := (supplied_same answers draws u).engineDue_eq.trans hu
  have leaves (answers : List Bool) (draws : List Word) {u : State} (hu : engineDue u = none) :
      PassLoop 0 (supplied answers draws u) (leavePass (supplied answers draws u)) :=
    .leave ((supplied_same answers draws u).engineDue_eq.trans hu)
  have same (answers : List Bool) (draws : List Word) (u : State) :
      SameButQueries (leavePass u) (leavePass (supplied answers draws u)) :=
    ((supplied_same answers draws u).map leavePass_queryless).symm
  cases hw with
  | backoff d h1 h2 hend =>
    refine ⟨1, false, false, d, d, _, by omega, h1, h2, h1, h2, ?_, same [false] [d] _⟩
    refine .round (due _ _ hdue) ?_
    rw [h.round_busy [false] [d] h1 h2]
    exact leaves _ _ hend
  | clear hidle =>
    refine ⟨1, true, true, 1, 1, _, by omega, by omega, by omega, by omega, by omega, ?_, same [true] [1, 1] _⟩
    refine .round (due _ _ hdue) ?_
    rw [h.round_clear hidle [true] [1, 1]]
    exact leaves _ _ h.engineDue_transmit
  | later d h1 h2 hidle hagain =>
    refine ⟨2, false, true, d, 1, _, by omega, h1, h2, by omega, by omega, ?_, same [] [1] _⟩
    refine .round (due _ _ hdue) ?_
    rw [h.round_busy [true] [1] h1 h2]
    refine .round (due _ _ hagain) ?_
    have hround := (h.moved d).round_clear hidle [] [1]
    rw [schedMA_engineAlarm] at hround
    rw [hround]
    exact leaves _ _ (h.moved d).engineDue_transmit

/-- A loop of re-senses that none of the answers the model tries ends is endless. -/
theorem Resensing.endless {s : State} {k : Nat} (h : Resensing s k) (hdue : engineDue s = some s.engineAlarm)
    (hm : 1 ≤ s.cfg.maxInitBackoff.toNat) (hspan : s.cfg.maxInitBackoff.toNat < 2 ^ 31)
    (hnone : endingAnswers s.engineAlarm s = none) : LoopIsEndless s := by
  have hcb := (h.due_eq hdue).2
  have goes_on {x : Bool × Word} (hx : x = (true, 1) ∨ ∃ r ∈ turningDraws s.engineAlarm s, x = (false, r)) :
      engineDue (resensed x.1 (boundedDraw s.cfg.maxInitBackoff x.2) k s) ≠ none := by
    have hmem : x ∈ (Config.channelClear s.queries, Config.backoffDraw s.queries)
        :: (true, 1) :: (turningDraws s.engineAlarm s).map (fun r => (false, r)) := by
      rcases hx with rfl | ⟨r, hr, rfl⟩
      · simp
      · simp [hr]
    have hgoes := List.find?_eq_none.1 hnone x hmem
    intro hend
    refine hgoes ?_
    have hround : SameButQueries (answeredRound s.engineAlarm s x)
        (resensed x.1 (boundedDraw s.cfg.maxInitBackoff x.2) k s) := by
      have hsense := macAlarm_of_senseBackoff (s := removeAlarm s.engineAlarm (withAnswers [x.1] [x.2] s)) h.found h.phase
      rw [← h.sensed_eq, answeredRound_eq, hsense]
      exact (sense_same k _).trans ((supplied_same [x.1] [x.2] (removeAlarm s.engineAlarm s)).map
        (sensed_queryless x.1 (boundedDraw s.cfg.maxInitBackoff x.2) k))
    rw [hround.engineDue_eq, hend]
    rfl
  have on_air (hidle : s.radioBusy = false) : False := by
    refine goes_on (x := (true, 1)) (.inl rfl) ?_
    rw [resensed, if_pos (by simp [hidle])]
    exact h.engineDue_transmit
  intro n answers draws v hloop
  obtain ⟨w, hw, -⟩ := h.loop_ends hdue hm n (.inl rfl) (supplied_same answers draws s) hloop
  cases hw with
  | backoff d h1 h2 hend =>
    obtain ⟨r, hr, hturn⟩ := h.exists_turningDraw hcb hspan h1 h2 hend
    exact goes_on (.inr ⟨r, hr, rfl⟩) hturn
  | clear hidle => exact on_air hidle
  | later d _ _ hidle _ => exact on_air hidle

end Sys2Proof.Machine

/-! SUPPORT. How often a pass pops the engine alarm (spec/40_alarm.md section 5, spec/43_mac_tx.md section 6): a round arms
it for a backoff or for a retry wait, so that it is due again only where such a wait reaches beyond half the tick range. -/

namespace Sys2Proof.Machine

/-! ### What a round arms -/

/-- The packet in flight is in phase `p`. -/
def InPhase (p : Phase) (s : State) : Prop := ∃ k, (s.slot k).state = .inFlight ∧ (s.slot k).phase = p

/-- `t` comes from `s` with the engine alarm off, or armed with a backoff for the packet in flight (R190). -/
def Settled (s t : State) : Prop :=
  (t.alarm s.engineAlarm).state = .idle
  ∨ InPhase .senseBackoff t ∧ ∃ d : Word, 1 ≤ d.toNat ∧ d.toNat ≤ s.cfg.maxInitBackoff.toNat
      ∧ (t.alarm s.engineAlarm).when = s.jiffies + d

/-- `t` comes from `s` with the engine alarm armed with a retry wait for the packet in flight (R196). -/
def RetryArmed (s t : State) : Prop :=
  InPhase .retryBackoff t ∧ ∃ a, 1 ≤ a ∧ a < s.cfg.maxAttempts.toNat
    ∧ (t.alarm s.engineAlarm).when = s.jiffies + BitVec.ofNat 32 (s.cfg.retryBase.toNat * a)

theorem inPhase_setPhase {s : State} {k : Nat} (h : (s.slot k).state = .inFlight) (p : Phase) :
    InPhase p (s.setPhase k p) := by
  have hk := lt_of_not_idle s k (by rw [h]; decide)
  exact ⟨k, (setPhase_slot_state s k k p).trans h, congrArg Slot.phase (setPhase_slot_self s k p hk)⟩

section Attempts

variable {s : State} {k : Nat} (hsized : TablesSized s) (hm : 1 ≤ s.cfg.maxInitBackoff.toNat)
  (hidle : (s.alarm s.engineAlarm).state = .idle)

include hsized hm hidle

theorem sense_settled (hk : (s.slot k).state = .inFlight) : Settled s (sense k s) := by
  obtain ⟨h1, h2⟩ := nextDraw_range s hm
  have hsensed : Settled s (sensed (nextAnswer s) (nextDraw s) k s) := by
    unfold sensed
    split
    · exact .inl hidle
    · refine .inr ⟨inPhase_setPhase (s := schedMA (nextDraw s) s) hk _, nextDraw s, h1, h2, ?_⟩
      exact congrArg Alarm.when (armAlarm_alarm_self s.engineAlarm (nextDraw s) s hsized.engineAlarm_lt)
  have heq : Settled s (sense k s) = Settled s (sensed (nextAnswer s) (nextDraw s) k s) :=
    (sense_same k s).congr (Settled s) fun _ _ _ _ => rfl
  rwa [heq]

theorem beginAttempt_settled (hk : (s.slot k).state = .inFlight) : Settled s (beginAttempt k s) := by
  unfold beginAttempt
  split
  · exact .inl hidle
  · exact sense_settled hsized hm hidle hk

theorem arbitrate_settled (hmem : ∀ j ∈ s.order, j < s.slots.length) : Settled s (arbitrate s) := by
  cases hb : s.radioBusy with
  | true => rw [arbitrate_of_busy s hb]; exact .inl hidle
  | false =>
    cases hf : s.inFlight? with
    | some j => rw [arbitrate_of_inFlight s j hf]; exact .inl hidle
    | none =>
      cases ho : s.order with
      | nil => rw [arbitrate_of_empty s ho]; exact .inl hidle
      | cons j l =>
        rw [arbitrate_of_idle s j l hb hf ho]
        have hj : j < s.slots.length := hmem j (ho ▸ List.mem_cons_self)
        have hself : ((s.setSlot j { s.slot j with state := .inFlight }).slot j).state = .inFlight :=
          congrArg Slot.state (setSlot_slot_self s j _ hj)
        exact beginAttempt_settled ((setSlot_frame s j _).tablesSized hsized) hm hidle hself

theorem complete_settled (c : SendCode) (hmem : ∀ j ∈ s.order, j < s.slots.length) : Settled s (complete k c s) := by
  refine arbitrate_settled (s := release k c s) ((release_frame k c s).tablesSized hsized) hm hidle fun j hj => ?_
  rw [release_order] at hj
  rw [release_slots, List.length_set]
  exact hmem j (List.mem_filter.1 hj).1

end Attempts

/-- The engine alarm is the one that is due, and it is armed. -/
theorem LoopInv.due {s : State} (h : LoopInv s) {a : Nat} (hd : engineDue s = some a) :
    a = s.engineAlarm ∧ a ∈ s.alist ∧ (s.alarm a).cb = cbMac ∧ (s.alarm s.engineAlarm).state = .scheduled
      ∧ ¬ IsAfter (s.alarm s.engineAlarm).when s.procNow := by
  obtain ⟨⟨l, hl⟩, hr, hc⟩ := (engineDue_eq_some s a).1 hd
  have hmem : a ∈ s.alist := by simp [hl]
  obtain rfl := engineAlarm_of_cbMac h.sized h.alist h.binding hmem hc
  exact ⟨rfl, hmem, hc, (h.alist.mem_iff _).1 hmem, (ready_iff _ _ _).1 hr⟩

/-- What a round arms: a retry wait only where an acknowledgement did not come. -/
theorem LoopInv.round_arms {s : State} (h : LoopInv s) (hm : 1 ≤ s.cfg.maxInitBackoff.toNat) {a : Nat}
    (hd : engineDue s = some a) :
    Settled s (macAlarm (removeAlarm a s)) ∨ InPhase .awaitAck s ∧ RetryArmed s (macAlarm (removeAlarm a s)) := by
  obtain ⟨rfl, ha, -, -, -⟩ := h.due hd
  obtain ⟨k, hf, hp⟩ := h.waits ha
  have hland := hf.unlinked hp
  have hfound := hland.alone.found
  have hnone := hf.phase
  have hsized : TablesSized (removeAlarm s.engineAlarm s) := (cancelMA_frame s).tablesSized h.sized
  have hmem (j : Nat) (hj : j ∈ s.order) : j < s.slots.length := lt_of_not_idle s j ((h.packets.mem_iff j).1 hj)
  cases hphase : (s.slot k).phase with
  | none => exact absurd hphase hnone
  | transmitting => exact absurd hphase hp
  | senseBackoff =>
    rw [macAlarm_of_senseBackoff hfound hphase]
    exact .inl (sense_settled hsized hm hland.alarm hland.alone.state)
  | retryBackoff =>
    rw [macAlarm_of_retryBackoff hfound hphase]
    exact .inl (beginAttempt_settled hsized hm hland.alarm hland.alone.state)
  | awaitAck =>
    rw [macAlarm_of_awaitAck hfound hphase, ackTimedOut]
    split
    next hlt =>
      have hphased : InPhase .retryBackoff
          ((schedMA (retryDelay s k) (removeAlarm s.engineAlarm s)).setPhase k .retryBackoff) :=
        inPhase_setPhase hland.alone.state .retryBackoff
      have hwhen : ((schedMA (retryDelay s k) (removeAlarm s.engineAlarm s)).alarm s.engineAlarm).when
          = s.jiffies + retryDelay s k :=
        congrArg Alarm.when (armAlarm_alarm_self s.engineAlarm (retryDelay s k) (removeAlarm s.engineAlarm s)
          hsized.engineAlarm_lt)
      rw [retryDelay_eq] at hwhen
      exact .inr ⟨⟨k, hf.alone.state, hphase⟩, hphased, (s.slot k).attempts.toNat, (hf.sent (.inr hphase)).1, hlt, hwhen⟩
    · exact .inl (complete_settled hsized hm hland.alarm _ hmem)

/-! ### Deadlines within the span -/

/-- A wait that stays below half the tick range from `now` lies ahead of it (R115). -/
theorem isAfter_of_span {j now d : Word} (h1 : 1 ≤ d.toNat) (h : (j - now).toNat + d.toNat < 2 ^ 31) :
    IsAfter (j + d) now := by
  have hj := j.isLt
  have hn := now.isLt
  rw [BitVec.toNat_sub] at h
  unfold IsAfter
  rw [BitVec.toNat_add]
  omega

section Span

variable {s t : State} (h : LoopInv t) (hf : EngineFrame s t)

include h hf

theorem LoopInv.not_due_of_after (hafter : IsAfter (t.alarm s.engineAlarm).when s.procNow) : engineDue t = none := by
  cases hd : engineDue t with
  | none => rfl
  | some a =>
    obtain ⟨-, -, -, -, hready⟩ := h.due hd
    rw [hf.engineAlarm, hf.procNow] at hready
    exact absurd hafter hready

/-- Where every backoff lies ahead, a settled engine alarm is not due. -/
theorem LoopInv.not_due_of_settled (hset : Settled s t) (hspan : PassSpan s) : engineDue t = none := by
  rcases hset with hidle | ⟨-, d, h1, h2, hwhen⟩
  · cases hd : engineDue t with
    | none => rfl
    | some a =>
      obtain ⟨-, -, -, hsched, -⟩ := h.due hd
      rw [hf.engineAlarm, hidle] at hsched
      cases hsched
  · unfold PassSpan at hspan
    refine h.not_due_of_after hf ?_
    rw [hwhen]
    exact isAfter_of_span h1 (by omega)

/-- Where every retry wait lies ahead, a retry is not due. -/
theorem LoopInv.not_due_of_retryArmed (harm : RetryArmed s t) (hspan : RetrySpan s) (hz : RetryWaitsNonzero s.cfg) :
    engineDue t = none := by
  obtain ⟨-, a, h1, h2, hwhen⟩ := harm
  have hnonzero := hz a h1 h2
  have hbelow := hspan a h1 h2
  refine h.not_due_of_after hf ?_
  rw [hwhen]
  refine isAfter_of_span ?_ ?_ <;> rw [BitVec.toNat_ofNat]
  · omega
  · exact hbelow

end Span

/-- A packet waits in one phase. -/
theorem LoopInv.phase_unique {s : State} (h : LoopInv s) {p q : Phase} (hp : InPhase p s) (hq : InPhase q s) : p = q := by
  obtain ⟨k, hk, rfl⟩ := hp
  obtain ⟨j, hj, rfl⟩ := hq
  have hfound := (h.engine.flying hk).alone.found.symm.trans (h.engine.flying hj).alone.found
  rw [Option.some.inj hfound]

/-- Within the span the loop ends after two rounds at most, and after one where the retry waits are within it too. -/
theorem LoopInv.loop_short {s : State} (h : LoopInv s) (hl : s.cfg.legal = true) (hspan : PassSpan s) :
    ∃ n t, PassLoop n s t ∧ n ≤ 2 ∧ (RetrySpan s → n ≤ 1) := by
  obtain ⟨-, -, -, -, -, ⟨hm, -⟩, -, -, hz⟩ := (legal_iff s.cfg).1 hl
  cases hd : engineDue s with
  | none => exact ⟨0, _, .leave hd, by omega, fun _ => by omega⟩
  | some a =>
    obtain ⟨-, ha, hc, -, -⟩ := h.due hd
    have hround := h.round ha hc
    have hframe := h.round_frame ha hc
    cases hd' : engineDue (macAlarm (removeAlarm a s)) with
    | none => exact ⟨1, _, .round hd (.leave hd'), by omega, fun _ => by omega⟩
    | some b =>
      obtain ⟨-, hb, hcb, -, -⟩ := hround.due hd'
      have due_again (hn : engineDue (macAlarm (removeAlarm a s)) = none) : False := by
        rw [hd'] at hn
        cases hn
      have harm : RetryArmed s (macAlarm (removeAlarm a s)) := by
        rcases h.round_arms hm hd with hset | ⟨-, harm⟩
        · exact (due_again (hround.not_due_of_settled hframe hset hspan)).elim
        · exact harm
      have hset : Settled (macAlarm (removeAlarm a s)) (macAlarm (removeAlarm b (macAlarm (removeAlarm a s)))) := by
        rcases hround.round_arms (by rw [hframe.cfg]; exact hm) hd' with hset | ⟨hwait, -⟩
        · exact hset
        · cases hround.phase_unique hwait harm.1
      have hspan' : PassSpan (macAlarm (removeAlarm a s)) := by
        rw [PassSpan, hframe.cfg, hframe.jiffies, hframe.procNow]
        exact hspan
      have hlast := (hround.round hb hcb).not_due_of_settled (hround.round_frame hb hcb) hset hspan'
      exact ⟨2, _, .round hd (.round hd' (.leave hlast)), by omega,
        fun hretry => (due_again (hround.not_due_of_retryArmed hframe harm hretry hz)).elim⟩

/-! ### A loop that goes on is one of re-senses -/

/-- After two rounds, or one that leads to an attempt, only re-senses are left. -/
theorem engineRounds_resensing {n : Nat} {s u : State} (h : EngineRounds n s u) (hready : EngineReady u)
    (hs : LoopInv s) (hm : 1 ≤ s.cfg.maxInitBackoff.toNat) :
    EngineReady s ∧ LoopInv u ∧ u.cfg = s.cfg ∧ (InPhase .senseBackoff s → InPhase .senseBackoff u)
      ∧ (1 ≤ n → InPhase .retryBackoff s → InPhase .senseBackoff u) ∧ (2 ≤ n → InPhase .senseBackoff u) := by
  induction h with
  | none s => exact ⟨hready, hs, rfl, id, by omega, by omega⟩
  | pop n s t a l hl hr hc _ ih =>
    have hmem : a ∈ s.alist := by simp [hl]
    have hround := hs.round hmem hc
    have hframe := hs.round_frame hmem hc
    have hd : engineDue s = some a := (engineDue_eq_some s a).2 ⟨⟨l, hl⟩, (ready_iff _ _ _).2 hr, hc⟩
    obtain ⟨hnext, hinv, hcfg, hsense, hretry, hlater⟩ := ih hready hround (by rw [hframe.cfg]; exact hm)
    obtain ⟨b, hb⟩ := (engineReady_iff _).1 hnext
    obtain ⟨-, -, -, hsched, -⟩ := hround.due hb
    rw [hframe.engineAlarm] at hsched
    have arms : InPhase .senseBackoff (macAlarm (removeAlarm a s))
        ∨ InPhase .awaitAck s ∧ InPhase .retryBackoff (macAlarm (removeAlarm a s)) := by
      rcases hs.round_arms hm hd with (hidle | ⟨hphase, -⟩) | ⟨hwait, harm, -⟩
      · rw [hidle] at hsched; cases hsched
      · exact .inl hphase
      · exact .inr ⟨hwait, harm⟩
    have attempted {p : Phase} (hp : p ≠ .awaitAck) (hin : InPhase p s) :
        InPhase .senseBackoff (macAlarm (removeAlarm a s)) :=
      arms.resolve_right fun ⟨hwait, _⟩ => hp (hs.phase_unique hin hwait)
    refine ⟨⟨a, l, hl, hr, hc⟩, hinv, hcfg.trans hframe.cfg, fun hin => hsense (attempted (by decide) hin),
      fun _ hin => hsense (attempted (by decide) hin), fun hn => ?_⟩
    rcases arms with hin | ⟨-, hin⟩
    · exact hsense hin
    · exact hretry (by omega) hin

/-! ### The passes of a step -/

/-- What a pass sets before it enters the loop has no part in what the loop needs. -/
theorem LoopInv.enter {s : State} (h : LoopInv s) (now : Word) (i : Byte) (cb : Half) (arg : Word) :
    LoopInv { s with procNow := now, fireId := i, fireCb := cb, fireArg := arg } where
  toEngineInv := h.toEngineInv.congr rfl rfl rfl rfl rfl rfl rfl rfl rfl
  alist := ⟨h.alist.nodup, h.alist.mem_iff⟩
  binding := ⟨h.binding.host, h.binding.engine⟩

theorem Inv.loopInv {s : State} (h : Inv s) (hl : s.cfg.legal = true) : LoopInv s := by
  obtain ⟨-, -, -, hattempts, -⟩ := (legal_iff s.cfg).1 hl
  have hcore := h.core hattempts
  exact ⟨hcore.toEngineInv, hcore.alist, hcore.binding⟩

/-- A pass within the span is the loop, which pops the engine alarm twice at most. -/
theorem LoopInv.pass_short {s : State} (h : LoopInv s) (hl : s.cfg.legal = true) (hspan : PassSpan s) :
    ∃ n, PassLoop n s (pass s) ∧ n ≤ 2 ∧ (RetrySpan s → n ≤ 1) := by
  obtain ⟨n, t, hloop, hn, hretry⟩ := h.loop_short hl hspan
  have hpass : pass s = t := runPass_of_passLoop hloop _ (by unfold passRounds; omega)
  exact ⟨n, hpass ▸ hloop, hn, hretry⟩

/-- A pass whose loop outlasts the rounds run one by one ends it in one round more, unless it is endless. -/
theorem LoopInv.pass_long {s u : State} (h : LoopInv s) (hl : s.cfg.legal = true)
    (hrounds : EngineRounds (passRounds s) s u) (hready : EngineReady u) : LoopIsEndless u ∨ OneRoundEnds u (pass s) := by
  obtain ⟨-, -, -, -, -, ⟨hm, hspan⟩, -⟩ := (legal_iff s.cfg).1 hl
  obtain ⟨-, hinv, hcfg, -, -, hlater⟩ := engineRounds_resensing hrounds hready h hm
  obtain ⟨k, hk, hphase⟩ := hlater (by unfold passRounds; omega)
  obtain ⟨a, hd⟩ := (engineReady_iff u).1 hready
  have hres := hinv.resensing hk hphase
  obtain rfl := (hres.due_eq hd).1
  rw [← hcfg] at hm hspan
  have hpass : pass s = runPass 0 u := runPass_of_engineRounds hrounds
  rw [hpass]
  rcases runPass_zero_of_due hd with ⟨hnone, -⟩ | hends
  · exact .inl (hres.endless hd hm hspan hnone)
  · exact .inr hends

/-- Settles O25: the first part by the rounds of a pass, the second by induction on the loop, the last by what a round
arms and by how a loop of re-senses ends. -/
theorem aPassFiresOnlyDueAlarms : Obligations.APassFiresOnlyDueAlarms := by
  refine ⟨fun s => ⟨by unfold passRounds; omega, ?_⟩, fun _ _ _ hloop => hloop.stops, fun s => ⟨rfl, rfl⟩,
    fun s hl hinv => ?_⟩
  · refine (runPass_loop_or_rounds (passRounds s) s).imp id fun ⟨u, hrounds, hready⟩ => ⟨u, hrounds, hready, ?_⟩
    obtain ⟨a, hd⟩ := (engineReady_iff u).1 hready
    have hpass : pass s = runPass 0 u := runPass_of_engineRounds hrounds
    rw [hpass]
    exact (runPass_zero_of_due hd).symm.imp id And.right
  · have hloop := hinv.loopInv hl
    obtain ⟨-, -, -, -, -, ⟨hm, hspan⟩, -⟩ := (legal_iff s.cfg).1 hl
    have hresumed : LoopInv { s with fireId := 0, fireCb := 0, fireArg := 0 } := hloop.enter s.procNow 0 0 0
    refine ⟨?_, fun _ => ⟨fun hpspan => hresumed.pass_short hl hpspan, fun u => hresumed.pass_long hl⟩, ?_⟩
    · have hstarted : LoopInv { s with procNow := s.jiffies } := hloop.enter s.jiffies s.fireId s.fireCb s.fireArg
      refine hstarted.pass_short hl ?_
      show (s.jiffies - s.jiffies).toNat + s.cfg.maxInitBackoff.toNat < 2 ^ 31
      rw [BitVec.sub_self]
      simpa using hspan
    · intro k hk hphase hready n answers draws v hends
      obtain ⟨a, hd⟩ := (engineReady_iff s).1 hready
      have hres := hloop.resensing hk hphase
      obtain rfl := (hres.due_eq hd).1
      obtain ⟨w, hw, hv⟩ := hres.loop_ends hd hm n (.inl rfl) (supplied_same answers draws s) hends
      obtain ⟨m, c1, c2, r1, r2, t, h2, hr1, hr1', hr2, hr2', ht, hsame⟩ := hres.ends_in_two hd hm hw
      exact ⟨m, c1, c2, r1, r2, t, h2, hr1, hr1', hr2, hr2', ht, hv.trans hsame⟩

end Sys2Proof.Machine
